-- ==== Sys2Proof/Word.lean ====
section
/-!
DEFINITION. The word types of the Ilejo 3140: what the manual adds, shifts, masks or sends as bits.
-/

namespace Sys2Proof

/-- One byte on the line, at the controller port or in a cell. -/
abbrev Byte := BitVec 8

/-- A line number (R1): 16 bits, sums and differences modulo 65536. -/
abbrev LineNo := BitVec 16

/-- A 16-bit value that is no line number: a status word, a counter, a CRC remainder. -/
abbrev Word16 := BitVec 16

/-- A station number, 0..31 (five straps; "five bits of a byte wherever it appears", R182). -/
abbrev StationNo := BitVec 5

/-- A topic, 0..31. -/
abbrev Topic := BitVec 5

/-- A post tag, 0..255, wrapping (R72). -/
abbrev Tag := BitVec 8

/-- A slot number or access position, 0..63 (R24, R26). -/
abbrev Slot := BitVec 6

/-- A set of 32 numbers, bit i naming number i (a view, R183; a subscription set, R186). -/
abbrev Set32 := BitVec 32

end Sys2Proof
end

