-- ==== Sys2Proof/Config.lean ====
section
/-!
DEFINITION. The fixed sizes of the part (00_scope.md, Principal Characteristics) and the free values the manual leaves open.
-/

namespace Sys2Proof.Config

/-- Bytes in a cell (R57). -/
def cellBytes : Nat := 16
/-- Cells in the pool (R56). -/
def cells : Nat := 256
/-- Send descriptors (R56). -/
def sendDescs : Nat := 32
/-- Receive descriptors (R56). -/
def recvDescs : Nat := 64
/-- Cells of the receive reserve (R64). -/
def reserveCells : Nat := 4
/-- Descriptors of the receive reserve (R64). -/
def reserveDescs : Nat := 1
/-- The span limit (R12). -/
def spanLimit : Nat := 256
/-- Entries of the gap table (R112). -/
def gapEntries : Nat := 8
/-- Records of the report queue (R175). -/
def reportRecords : Nat := 16
/-- The saturation value of the report overflow count and of the other 8-bit counts (R29, R51, R141, R175). -/
def countTop : Nat := 255
/-- The member horizon (R15). -/
def horizon : Nat := 16384
/-- The longest payload (R57). -/
def maxPayload : Nat := 64
/-- The collision count that posts COLLISIONS (R29). -/
def collisionsLimit : Nat := 8
/-- The consecutive-objection count that posts CONGESTED (R51). -/
def congestedLimit : Nat := 16
/-- The join timer, in beacon intervals (R140). -/
def joinIntervals : Nat := 8

/-- What a byte of a cell that nothing has written reads as.
DESIGN CHOICE (log 9): the spec gives the cells no contents at reset; no record or frame shows such a byte. -/
def blankByte : Byte := 0

/-- FREE VALUE (log 11): whether, at one rise of the count, the GAP_OVERFLOW report is posted before the MEMBER_LOST
HORIZON reports of the same rise. The manual orders neither before the other. The argument is a fresh draw each time. -/
opaque overflowReportFirst : Nat → Bool

end Sys2Proof.Config
end

