-- ==== Sys2Proof/Syntax.lean ====
section
/-!
DEFINITION. The commands and events of the block, one constructor per row of spec/opcode_table.json, and the
vocabulary their operands use: characters, frames and marks of the notice line.
-/

namespace Sys2Proof

/-- The six station states (R132). -/
inductive StationState where
  | idle | listen | joining | active | leaving | halted
  deriving DecidableEq, Repr

/-- The kinds of beacon (R19). -/
inductive BeaconKind where
  | periodic | join | leave
  deriving DecidableEq, Repr

/-- The four frame kinds (R19). -/
inductive FrameKind where
  | notice | replay | resend | beacon
  deriving DecidableEq, Repr

/-- One received character (R17): its eight data bits, and whether its stop bit was sampled dominant. -/
structure LineChar where
  data : Byte
  framingError : Bool
  deriving DecidableEq, Repr

/-- The common header of every frame, less the kind (R19). -/
structure Header where
  senderState : StationState
  sender : StationNo
  count : LineNo
  settled : LineNo
  deriving DecidableEq, Repr

/-- The fields after the header of a NOTICE or REPLAY frame; the length field is the payload's length (R19). -/
structure NoticeBody where
  number : LineNo
  topic : Topic
  payload : List Byte
  deriving DecidableEq, Repr

/-- The range of a RESEND: closed first..last, or open (first and every number after it) (R19). -/
inductive ResendRange where
  | closed (first last : LineNo)
  | openFrom (first : LineNo)
  deriving DecidableEq, Repr

/-- A frame on the notice line (R19, R183). -/
inductive Frame where
  | notice (h : Header) (b : NoticeBody)
  | replay (h : Header) (b : NoticeBody)
  | resend (h : Header) (r : ResendRange)
  | beacon (h : Header) (kind : BeaconKind) (view : Set32) (word : Word16)
  deriving DecidableEq, Repr

/-- The three character times after a NOTICE frame (R31). -/
inductive WindowPos where
  | turnGap | full | stale
  deriving DecidableEq, Repr

/-- The commands and events of the block: one constructor per row of spec/opcode_table.json. -/
inductive Instr where
  /-- POWER_ON_RESET (R147): the internal power-on reset, held and released, with the straps standing at release. -/
  | powerOnReset (id : StationNo) (rate : BitVec 2)
  /-- RESET_ASSERTED (R147): RESET# goes low. -/
  | resetAsserted
  /-- RESET_RELEASED (R147): RESET# goes high, with the straps standing then. -/
  | resetReleased (id : StationNo) (rate : BitVec 2)
  /-- CS_FALL (R166). -/
  | csFall
  /-- CS_RISE (R167): `clocked` whole bytes of the response had been clocked out. -/
  | csRise (clocked : Nat)
  /-- START (R134): the argument bytes clocked in after the command byte; the record is sixteen. -/
  | start (args : List Byte)
  /-- POST (R71, R170): the argument bytes clocked in: topic, length, payload. -/
  | post (args : List Byte)
  /-- TAKE (R172). -/
  | take
  /-- PEEK (R173). -/
  | peek
  /-- REPORT (R177). -/
  | report
  /-- STATUS (R178). -/
  | status
  /-- MEMBERS (R174). -/
  | members
  /-- WORD (R171): the argument bytes clocked in; the word is two, high byte first. -/
  | word (args : List Byte)
  /-- LEAVE (R144). -/
  | leave
  /-- UNKNOWN_CODE (R169): a command byte that names no command. -/
  | unknownCode (code : Byte)
  /-- LINE_IDLE (R23). -/
  | lineIdle
  /-- SLOT_BEGINS (R24, R35): the slot that begins, and whether the line is dominant at its beginning. -/
  | slotBegins (slot : Slot) (dominant : Bool)
  /-- FRAME_SENT (R27). -/
  | frameSent
  /-- COLLISION (R28). -/
  | collision
  /-- CHECK_FAILURE (R21): the characters of the frame that failed, up to where it was found to fail. -/
  | checkFailure (chars : List LineChar)
  /-- NOTICE_FRAME_RECEIVED (R38): the characters of the frame, kind byte to last check character. -/
  | noticeFrameReceived (chars : List LineChar)
  /-- REPLAY_RECEIVED (R96). -/
  | replayReceived (chars : List LineChar)
  /-- RESEND_RECEIVED (R126). -/
  | resendReceived (chars : List LineChar)
  /-- BEACON_RECEIVED (R154). -/
  | beaconReceived (chars : List LineChar)
  /-- WINDOW_POSITION (R31, R32): the position, and whether another station or noise holds the line dominant at its middle. -/
  | windowPosition (pos : WindowPos) (dominant : Bool)
  /-- WINDOW_END_RECEIVER (R42, R43): the end of the STALE position after a received NOTICE frame. -/
  | windowEndReceiver
  /-- WINDOW_END_SENDER (R48, R50): the end of the STALE position of the own NOTICE frame. -/
  | windowEndSender
  /-- LISTEN_TIMER_EXPIRY (R137). -/
  | listenTimerExpiry
  /-- JOIN_TIMER_EXPIRY (R141). -/
  | joinTimerExpiry
  /-- BEACON_TIMER_EXPIRY (R142). -/
  | beaconTimerExpiry
  /-- REPAIR_TIMER_EXPIRY (R121, R122): of the gap entry that begins at `first`. -/
  | repairTimerExpiry (first : LineNo)
  /-- PRESENCE_TIMER_EXPIRY (R152): of the member entry of `station`. -/
  | presenceTimerExpiry (station : StationNo)
  /-- LINE_ACTIVITY (R23, R17): whether the activity begins a character (a start bit dominant at its middle). -/
  | lineActivity (startBit : Bool)
  deriving DecidableEq, Repr

end Sys2Proof
end

