-- ==== Sys2Proof/Decode.lean ====
section
/-!
DEFINITION. From words and bits to commands. No row of spec/opcode_table.json gives bits ("fields": [] in every row), so no
table word spells a command. What the spec does lay out is the controller port: the order of a byte's bits (R165), the
command byte that selects the command and the arguments after it (R167, R169, R185). The byte layouts of frames and
records are read and built in Machine/Frames.lean and Machine/Operands.lean.
-/

namespace Sys2Proof

/-- The command that an `nbits`-bit word spells by the table's bits: none, for the table gives no row bits. -/
def decodeTableWord (_nbits _w : Nat) : Option Instr := none

/-! ### The bits of a port byte -/

/-- The bits of a byte as they travel on MOSI and MISO, most significant first (R165). -/
def portBits (b : Byte) : List Bool :=
  [b.getLsbD 7, b.getLsbD 6, b.getLsbD 5, b.getLsbD 4, b.getLsbD 3, b.getLsbD 2, b.getLsbD 1, b.getLsbD 0]

/-- The byte that bits spell, the first being the most significant (R165). -/
def byteOfPortBits (bits : List Bool) : Byte := bits.foldl (fun b x => b <<< 1 ||| (BitVec.ofBool x).setWidth 8) 0

/-- The whole bytes among the bits clocked in; the bits of an incomplete byte are discarded (R165). -/
def portBytes : List Bool → List Byte
  | a :: b :: c :: d :: e :: f :: g :: h :: rest => byteOfPortBits [a, b, c, d, e, f, g, h] :: portBytes rest
  | _ => []

/-! ### The command byte -/

/-- The command that a command byte selects, with the argument bytes clocked in after it; every other value is an unknown
code (R169, R185). -/
def commandOf (code : Byte) (args : List Byte) : Instr :=
  match code.toNat with
  | 0x10 => .start args
  | 0x20 => .post args
  | 0x30 => .take
  | 0x31 => .peek
  | 0x40 => .report
  | 0x50 => .status
  | 0x51 => .members
  | 0x60 => .word args
  | 0x70 => .leave
  | _ => .unknownCode code

/-- How many argument bytes a POST takes once its length byte is known (R71, R170): the topic and length bytes, and
the payload unless the length is above 64. -/
def postArgBytes (len : Byte) : Nat := if len.toNat ≤ Config.maxPayload then 2 + len.toNat else 2

/-- How many argument bytes the port takes for a command, up to its deciding byte (R167). -/
def Instr.argBytes : Instr → Nat
  | .start _ => 16
  | .post (_ :: len :: _) => postArgBytes len
  | .post _ => 2
  | .word _ => 2
  | _ => 0

/-- A whole transaction as the events it is (R165, R167): the fall of CS#, the command when its byte (the second) is
complete, with the argument bytes up to the deciding one, and the rise of CS# after as many whole response bytes as were
clocked after that (log 19). -/
def transactionEvents (mosi : List Bool) : List Instr :=
  match portBytes mosi with
  | _ :: code :: rest =>
    let taken := (commandOf code rest).argBytes
    [.csFall, commandOf code (rest.take taken), .csRise (rest.length - taken)]
  | _ => [.csFall, .csRise 0]

end Sys2Proof
end

