-- ==== Sys2Proof/Machine/Serial.lean ====
section
/-!
DEFINITION. The serial order of line numbers (R1): every comparison of line numbers in the model is one of these.
-/

namespace Sys2Proof.Machine

/-- `b` follows `a`: the difference (b − a) mod 65536 lies in 1..32767 (R1). -/
def follows (a b : LineNo) : Bool := decide (1 ≤ (b - a).toNat) && decide ((b - a).toNat ≤ 32767)

/-- `a` and `b` are unordered: the difference is 32768 (R1). -/
def unordered (a b : LineNo) : Bool := decide ((b - a).toNat = 32768)

/-- `a` is at or before `b`, both numbers of the station's own: equal to it or preceding it (R1, Conventions). -/
def atOrBefore (a b : LineNo) : Bool := decide ((b - a).toNat ≤ 32767)

/-- A number carried in a frame is at or before one of the station's own: an unordered pair counts as the frame's
number preceding (R1), so this is "does not follow". -/
def frameAtOrBefore (frame own : LineNo) : Bool := !follows own frame

/-- A number carried in a frame is at or after one of the station's own; unordered counts as preceding (R1). -/
def frameAtOrAfter (frame own : LineNo) : Bool := atOrBefore own frame

/-- The distance between two line numbers (R15): the smaller of the two differences, 0..32768. -/
def distance (a b : LineNo) : Nat := min (a - b).toNat (b - a).toNat

/-- The serial minimum of a set of line numbers (R1): taken in the order given, each number is compared with the
minimum kept so far, and the number that precedes is kept (of an unordered pair, the one kept so far; log 15). -/
def serialMin : LineNo → List LineNo → LineNo
  | kept, [] => kept
  | kept, x :: xs => serialMin (if follows x kept then x else kept) xs

end Sys2Proof.Machine
end

