-- ==== Sys2Proof/Machine/Frames.lean ====
section
/-!
DEFINITION. The notice line's layouts: characters (R16, R17, R184), the frame check (R20), the bytes of every frame
(R182, R183), and the reading of a frame back from the characters received, with every test of R18 and R20.
-/

namespace Sys2Proof.Machine

/-! ### Characters -/

/-- The ten bits of a character on the line, `true` = dominant: start bit, eight data bits least significant first
with 0 sent dominant, stop bit (R16). -/
def charLevels (b : Byte) : List Bool :=
  true :: ((List.range 8).map fun i => !b.getLsbD i) ++ [false]

/-- A byte from its eight data-bit levels, least significant bit first, `true` = dominant = 0 (R16). -/
def dataOfLevels : List Bool → Byte
  | levels => (List.range 8).foldl
      (fun acc i => if levels.getD i true then acc else acc ||| BitVec.ofNat 8 (2 ^ i)) 0

/-- What the receiver makes of ten mid-bit samples that follow an edge (R17): nothing when the line is recessive at
the middle of the start bit; else a character, with a framing error when the stop bit is sampled dominant. -/
def readChar : List Bool → Option LineChar
  | start :: rest =>
    if start then some { data := dataOfLevels (rest.take 8), framingError := rest.getD 8 false } else none
  | [] => none

/-- The line rate in kbit/s from RATE[1:0] (R16). -/
def lineRateKbit (rate : BitVec 2) : Nat :=
  if rate = 0 then 250 else if rate = 1 then 1000 else if rate = 2 then 2000 else 4000

/-- A character time in nanoseconds: ten bit times at the strapped rate (R16). -/
def characterTimeNs (rate : BitVec 2) : Nat := 10 * 1000000 / lineRateKbit rate

/-! ### Bytes -/

/-- A 16-bit field, high byte first (R182). -/
def be16 (w : BitVec 16) : List Byte := [w.extractLsb' 8 8, w.extractLsb' 0 8]

/-- A 32-position set as four bytes, position 31 in bit 7 of the first (R183, R186). -/
def be32 (w : BitVec 32) : List Byte :=
  [w.extractLsb' 24 8, w.extractLsb' 16 8, w.extractLsb' 8 8, w.extractLsb' 0 8]

/-- A station or topic number in a byte of its own. -/
def byteOf5 (n : BitVec 5) : Byte := n.setWidth 8

/-- The code of a station state (R182). -/
def StationState.code : StationState → BitVec 3
  | .idle => 0 | .listen => 1 | .joining => 2 | .active => 3 | .leaving => 4 | .halted => 5

/-- The sender state a header's code stands for; codes other than 2, 3 and 4 are a check failure (R183, R20). -/
def senderStateOf (code : BitVec 3) : Option StationState :=
  if code = 2 then some .joining else if code = 3 then some .active else if code = 4 then some .leaving else none

/-- The code of a beacon kind (R183). -/
def BeaconKind.code : BeaconKind → Byte
  | .periodic => 1 | .join => 2 | .leave => 3

/-- The beacon kind a byte stands for; any other value is a check failure (R183). -/
def beaconKindOf (b : Byte) : Option BeaconKind :=
  if b = 1 then some .periodic else if b = 2 then some .join else if b = 3 then some .leave else none

/-- The kind byte of a frame kind (R183). -/
def FrameKind.code : FrameKind → Byte
  | .notice => 0x11 | .replay => 0x12 | .resend => 0x21 | .beacon => 0x31

/-! ### The frame check -/

/-- One bit of the CRC-16 with polynomial x^16+x^12+x^5+1 (R20). -/
def crcBit (r : Word16) : Word16 := if r.msb then (r <<< 1) ^^^ 0x1021 else r <<< 1

/-- One byte of the CRC, most significant bit first (R20). -/
def crcByte (r : Word16) (b : Byte) : Word16 :=
  let x := r ^^^ (b.setWidth 16 <<< 8)
  crcBit (crcBit (crcBit (crcBit (crcBit (crcBit (crcBit (crcBit x)))))))

/-- The CRC remainder of a run of bytes, from FFFFh, without inversion (R20). -/
def crc16 (bs : List Byte) : Word16 := bs.foldl crcByte 0xFFFF

/-! ### Building a frame -/

/-- The kind of a frame. -/
def Frame.kind : Frame → FrameKind
  | .notice .. => .notice | .replay .. => .replay | .resend .. => .resend | .beacon .. => .beacon

/-- The common header of a frame. -/
def Frame.header : Frame → Header
  | .notice h _ => h | .replay h _ => h | .resend h _ => h | .beacon h _ _ _ => h

/-- Header bytes at offsets 0 to 5 (R183). -/
def headerBytes (k : FrameKind) (h : Header) : List Byte :=
  FrameKind.code k :: (StationState.code h.senderState ++ h.sender : BitVec 8) :: (be16 h.count ++ be16 h.settled)

/-- The bytes of a NOTICE or REPLAY after the header (R183). -/
def noticeBodyBytes (b : NoticeBody) : List Byte :=
  be16 b.number ++ byteOf5 b.topic :: BitVec.ofNat 8 b.payload.length :: b.payload

/-- The bytes of a RESEND after the header (R183): first, flags with the open flag in bit 0, last (0000h when open). -/
def rangeBytes : ResendRange → List Byte
  | .closed a z => be16 a ++ 0x00 :: be16 z
  | .openFrom a => be16 a ++ 0x01 :: be16 0

/-- A frame's bytes up to the check (R183). -/
def frameBody : Frame → List Byte
  | .notice h b => headerBytes .notice h ++ noticeBodyBytes b
  | .replay h b => headerBytes .replay h ++ noticeBodyBytes b
  | .resend h r => headerBytes .resend h ++ rangeBytes r
  | .beacon h k v w => headerBytes .beacon h ++ BeaconKind.code k :: (be32 v ++ be16 w)

/-- A frame's bytes with the two check characters, the CRC's high byte first (R20, R183). -/
def frameBytes (f : Frame) : List Byte := frameBody f ++ be16 (crc16 (frameBody f))

/-- A frame as the characters a receiver gets when nothing disturbs it. -/
def frameChars (f : Frame) : List LineChar := (frameBytes f).map fun b => { data := b, framingError := false }

/-- The levels a sender drives for a whole frame, characters back to back (R16). -/
def frameLevels (f : Frame) : List Bool := (frameBytes f).flatMap charLevels

/-! ### Reading a frame -/

/-- A 16-bit field from its two bytes, high byte first (R182). -/
def of16 (hi lo : Byte) : BitVec 16 := hi ++ lo

/-- A 32-position set from its four bytes (R183). -/
def of32 (a b c d : Byte) : BitVec 32 := (a ++ b : BitVec 16) ++ (c ++ d : BitVec 16)

/-- The tests of R20 on a frame's field values: the sender state of the kind, a NOTICE's number one above its sender
count, a REPLAY's number not after its sender count, a closed RESEND's last at or after its first, a beacon's kind in
agreement with its sender's state, a view without its sender; and the payload's bound (R18). -/
def Frame.valid : Frame → Bool
  | .notice h b => h.senderState == .active && b.number == h.count + 1 && decide (b.payload.length ≤ Config.maxPayload)
  | .replay h b =>
    (h.senderState == .joining || h.senderState == .active) && !follows h.count b.number
      && decide (b.payload.length ≤ Config.maxPayload)
  | .resend h r =>
    (h.senderState == .joining || h.senderState == .active) &&
      match r with
      | .closed a z => atOrBefore a z
      | .openFrom _ => true
  | .beacon h k v _ =>
    (match k with
      | .join => h.senderState == .joining
      | .periodic => h.senderState == .active
      | .leave => h.senderState == .leaving) && !v.getLsbD h.sender.toNat

/-- The body of a NOTICE or REPLAY from its bytes: the topic 0..31, and exactly as many payload bytes as the length
field says, 0..64 (R18, R20, R183). -/
def readNoticeBody : List Byte → Option NoticeBody
  | n1 :: n0 :: topic :: len :: payload =>
    if topic.toNat ≤ 31 ∧ len.toNat ≤ Config.maxPayload ∧ payload.length = len.toNat then
      some { number := of16 n1 n0, topic := topic.setWidth 5, payload := payload }
    else none
  | _ => none

/-- The range of a RESEND from its bytes; bits 7..1 of the flags are ignored, and last too when the open flag is set
(R182, R183). -/
def readRange : List Byte → Option ResendRange
  | [a1, a0, flags, z1, z0] =>
    some (if flags.getLsbD 0 then .openFrom (of16 a1 a0) else .closed (of16 a1 a0) (of16 z1 z0))
  | _ => none

/-- The fields of a beacon after its header (R183). -/
def readBeacon (h : Header) : List Byte → Option Frame
  | [k, v3, v2, v1, v0, w1, w0] =>
    (beaconKindOf k).map fun kind => .beacon h kind (of32 v3 v2 v1 v0) (of16 w1 w0)
  | _ => none

/-- A frame from the bytes up to the check; `none` where the kind names no frame kind, the sender state is none of
JOINING, ACTIVE and LEAVING, or the bytes are not exactly the frame's (R18, R20, R183). -/
def readBody : List Byte → Option Frame
  | kind :: b1 :: c1 :: c0 :: s1 :: s0 :: rest =>
    match senderStateOf (b1.extractLsb' 5 3) with
    | none => none
    | some st =>
      let h : Header := { senderState := st, sender := b1.extractLsb' 0 5, count := of16 c1 c0, settled := of16 s1 s0 }
      if kind = FrameKind.code .notice then (readNoticeBody rest).map (Frame.notice h)
      else if kind = FrameKind.code .replay then (readNoticeBody rest).map (Frame.replay h)
      else if kind = FrameKind.code .resend then (readRange rest).map (Frame.resend h)
      else if kind = FrameKind.code .beacon then readBeacon h rest
      else none
  | _ => none

/-- A frame from its bytes: the last two are the frame check, which must equal the remainder over the others (R20). -/
def readFrameBytes (bs : List Byte) : Option Frame :=
  let body := bs.take (bs.length - 2)
  if bs.drop (bs.length - 2) = be16 (crc16 body) then (readBody body).filter Frame.valid else none

/-- The valid frame that a run of received characters is, or `none` where its check fails: a framing error, a bad
remainder, a truncated or unknown-length frame, or a field that R20 refuses. -/
def readFrame (chars : List LineChar) : Option Frame :=
  if chars.any (·.framingError) then none else readFrameBytes (chars.map (·.data))

end Sys2Proof.Machine
end

