-- ==== Sys2Proof/Machine/State.lean ====
section
/-!
DEFINITION. The state of the station as plain data, one record per block of the part (00_scope.md, Block Diagram),
the queue of commands not yet taken, the stops a step may end in, and the machine right after reset (R147).
-/

namespace Sys2Proof.Machine

/-! ### Records and reports -/

/-- The reason of a BASE record (R13, R105). -/
inductive BaseReason where
  | joined | founded | resyncExcluded | resyncSpan
  deriving DecidableEq, Repr

/-- A BASE record's fields (R13, R68). -/
structure BaseRecord where
  reason : BaseReason
  number : LineNo
  superseded : Bool
  deriving DecidableEq, Repr

/-- A notice in receive storage: provisional, held, or a NOTICE record (R37, R63, R94). The payload lies in the cells
of the chain; `desc` is its receive descriptor. -/
structure RxNotice where
  number : LineNo
  originator : StationNo
  topic : Topic
  length : Nat
  own : Bool
  tag : Option Tag
  replay : Bool
  desc : Nat
  chain : List Nat
  deriving DecidableEq, Repr

/-- A delivery record with the receive descriptor it occupies (R105). -/
inductive DeliveryRecord where
  | notice (n : RxNotice)
  | lost (first last : LineNo) (desc : Nat)
  | base (b : BaseRecord) (desc : Nat)
  deriving DecidableEq, Repr

/-- The cause of a STATE report (R133, R187). -/
inductive StateCause where
  | start | adoption | founding | inclusion | joinFailure | resyncExcluded | resyncSpan | leaveCommand | leaveSent
  | duplicateId
  deriving DecidableEq, Repr

/-- The cause of a MEMBER_LOST report (R152). -/
inductive LostCause where
  | silent | horizon
  deriving DecidableEq, Repr

/-- A report record (R176). -/
inductive Report where
  | memberJoined (station : StationNo)
  | memberLost (station : StationNo) (cause : LostCause)
  | memberLeft (station : StationNo)
  | peerWord (station : StationNo) (word : Word16)
  | stateChange (previous new : StationState) (cause : StateCause)
  | staleSender (number count : LineNo)
  | congested (count : Nat)
  | collisions (kind : FrameKind) (count : Nat)
  | numberingConflict (number : LineNo) (held sender : StationNo)
  | gapOverflow (first last : LineNo)
  | joinUnanswered (count : Nat)
  | duplicateId (station : StationNo)
  | outboundDiscarded (count : Nat) (oldest : Tag)
  deriving DecidableEq, Repr

/-! ### Line interface -/

/-- Where a started frame comes from (R29, R34): two starts are the same candidate when these are equal. The due beacon
is one candidate, also when the one that collided was dropped at a join failure and another has been made due since
(log 33). -/
inductive Candidate where
  | dueBeacon
  | catchUp
  | gap (id : Nat)
  | replay (tag : Tag)
  | notice (tag : Tag)
  deriving DecidableEq, Repr

/-- This station's own frame, from its start to its end or, for a NOTICE frame, to the end of its window (R27, R30).
The frame's fields are fixed at the start (R19). -/
structure OwnFrame where
  candidate : Candidate
  frame : Frame
  sent : Bool
  deriving DecidableEq, Repr

/-- The part this station takes in an objection window (R31, R38): it waits to adopt in LISTEN, it is a full
receiver, or it is the sender. -/
inductive WindowRole where
  | adopting | receiver | sender
  deriving DecidableEq, Repr

/-- An objection window this station samples (R31, R32): the header and number of its NOTICE frame, the positions the
commit logic chose to mark, and the three samples (`true` = dominant). -/
structure Window where
  role : WindowRole
  header : Header
  number : LineNo
  markFull : Bool
  markStale : Bool
  turnGap : Bool
  full : Bool
  stale : Bool
  deriving DecidableEq, Repr

/-- Line timing (R23, R24): none held; the line is busy or counting the interframe gap; the station waits for the next idle
moment and starts nothing before it, the line having been dominant at its slot (R24) or the station having entered LEAVING
on an idle line (R144), and the activity still to come tells whether it begins a character (R17, R18, log 16); or the line
is idle, slots are counted, and this is the access position computed at the idle moment. -/
inductive LineTiming where
  | off
  | busy
  | awaitsIdle
  | idle (position : Slot)
  deriving DecidableEq, Repr

/-- The pins to the transceiver in one bit time (R16): DE asserted, and TXD's level, `true` = high. -/
structure LinePins where
  de : Bool
  txd : Bool
  deriving DecidableEq, Repr

/-- The line interface (R16 to R33). -/
structure LineBlock where
  id : StationNo
  rate : BitVec 2
  rotationBase : StationNo
  displaced : Bool
  yield : Bool
  timing : LineTiming
  /-- A frame that began while the line was idle may be in reception or begin: set at the idle moment, cleared when a
  frame has ended at this station or activity that is no start bit ends the idle state, but not by noise between the
  characters of a frame in reception (R17, R18, R23). -/
  ready : Bool
  collisionCount : Nat
  collisionsArmed : Bool
  lastCollided : Option Candidate
  ownFrame : Option OwnFrame
  window : Option Window
  /-- The station has the line in hand: it sends a frame it has started, or marks a position. The pins DE and TXD follow bit
  by bit (R16, `State.linePins`). -/
  driving : Bool
  deriving DecidableEq, Repr

/-! ### The other blocks -/

/-- The commit logic (R37, R51 to R53). -/
structure CommitBlock where
  provisional : Option RxNotice
  objections : Nat
  congestedArmed : Bool
  congested : Bool
  catchingUp : Bool
  deriving DecidableEq, Repr

/-- The cell pool: cell contents, the receive region's free lists, the pending-BASE register (R56 to R70). -/
structure PoolBlock where
  /-- Address 16 × cell + offset; canonical form `Memory.wf`. -/
  cells : List Host.Cell
  freeCells : List Nat
  freeDescs : List Nat
  pendingBase : Option BaseRecord
  deriving DecidableEq, Repr

/-- A send descriptor in use (R59): the number is absent while the notice is outbound. -/
structure SendNotice where
  number : Option LineNo
  topic : Topic
  length : Nat
  firstCell : Nat
  desc : Nat
  tag : Tag
  marked : Bool
  deriving DecidableEq, Repr

/-- One of the three points on the send ring (R58): a cell and a send descriptor. -/
structure RingPoint where
  cell : Nat
  desc : Nat
  deriving DecidableEq, Repr

/-- The send queue (R71 to R91). -/
structure SendBlock where
  retained : List SendNotice
  outbound : List SendNotice
  releasePoint : RingPoint
  transmitPoint : RingPoint
  postEnd : RingPoint
  tagCounter : Tag
  lastCommitted : Tag
  lastReleased : Tag
  room : Bool
  /-- The pending catch-up RESEND's first number (R88). -/
  catchUp : Option LineNo
  /-- A release is held back for the REPLAY frame on the line (R79, R81). -/
  releaseWaiting : Bool
  deriving DecidableEq, Repr

/-- The receive order unit (R2, R6, R92 to R111). Bit i of `known` is the position settled + 1 + i. -/
structure RxBlock where
  count : LineNo
  settled : LineNo
  known : BitVec 256
  holdSet : List RxNotice
  queue : List DeliveryRecord
  backlog : Bool
  deriving DecidableEq, Repr

/-- A timer on the millisecond timebase: stopped, or running since it was last started at this interval (log 3). -/
inductive Timer where
  | stopped
  | running (interval : Nat)
  deriving DecidableEq, Repr

/-- The state of a gap entry (R112). -/
inductive GapState where
  | waiting | requested | lost
  deriving DecidableEq, Repr

/-- A gap table entry (R112). `id` is the model's own serial number of the entry (log 10). -/
structure GapEntry where
  id : Nat
  first : LineNo
  last : LineNo
  attempts : Nat
  state : GapState
  timer : Timer
  deriving DecidableEq, Repr

/-- A member table entry (R148). -/
structure Member where
  station : StationNo
  state : StationState
  settled : LineNo
  presence : Timer
  includedMe : Bool
  word : Option Word16
  deriving DecidableEq, Repr

/-- The attention set (R134, R181). -/
structure AttentionSet where
  delivery : Bool
  backlog : Bool
  room : Bool
  report : Bool
  deriving DecidableEq, Repr

/-- The configuration frozen at START (R134, R136, R186). -/
structure StartConfig where
  sendSize : Nat
  topics : Set32
  beaconInterval : Nat
  presenceMultiple : Nat
  listenMultiple : Nat
  repairInterval : Nat
  repairLimit : Nat
  backlogLimit : Nat
  roomLimit : Nat
  attention : AttentionSet
  deriving DecidableEq, Repr

/-- The station state machine (R132 to R147). -/
structure StationBlock where
  state : StationState
  config : Option StartConfig
  word : Word16
  listenTimer : Timer
  joinTimer : Timer
  beaconTimer : Timer
  beaconDue : Bool
  joinBeacons : Nat
  leaveHeld : Bool
  joinExpiryHeld : Bool
  deriving DecidableEq, Repr

/-- The codes of the last-command result (R168). -/
inductive ResultCode where
  | none | accepted | wrongState | badLen | badConfig | noRoom | badCommand | truncated
  deriving DecidableEq, Repr

/-- The last-command result: a code, with a post tag after an accepted POST (R168). -/
structure CommandResult where
  code : ResultCode
  tag : Option Tag
  deriving DecidableEq, Repr

/-- What the rise of CS# does once a command is decided (R172, R177): a TAKE or REPORT that returned a record removes
it when the response was clocked out in full. -/
inductive RiseEffect where
  | nothing | takeHead | reportHead
  deriving DecidableEq, Repr

/-- How far a transaction has got (R165, R167): no command byte yet; START, POST or WORD with incomplete arguments;
or decided, with the number of argument bytes taken, its response bytes and what the rise of CS# does. -/
inductive Phase where
  | awaiting
  | incomplete
  | decided (taken : Nat) (response : List Byte) (onRise : RiseEffect)
  deriving DecidableEq, Repr

/-- The port's link (R165): CS# high; CS# low but ignored, its fall or its transaction having met a reset; or a
transaction with its summary byte. -/
inductive PortLink where
  | closed
  | ignored
  | transaction (summary : Byte) (phase : Phase)
  deriving DecidableEq, Repr

/-- The controller port (R165 to R181). -/
structure PortBlock where
  link : PortLink
  reports : List Report
  overflow : Nat
  takeIncomplete : Bool
  result : CommandResult
  deriving DecidableEq, Repr

/-- The eight counters of the status record (R180). -/
structure Counters where
  checkFailures : Word16
  duplicates : Word16
  replaysDropped : Word16
  objectionsMarked : Word16
  ownObjected : Word16
  collisions : Word16
  resendsSent : Word16
  replaysSent : Word16
  deriving DecidableEq, Repr

/-- The pins no other block holds: RESET# low (the station is held in reset), ATTN# driven low (R147, R181). -/
structure Pins where
  resetLow : Bool
  attnLow : Bool
  deriving DecidableEq, Repr

/-- The machine: every block of the station, and the commands waiting, first in, first out. -/
structure State where
  line : LineBlock
  commit : CommitBlock
  pool : PoolBlock
  send : SendBlock
  rx : RxBlock
  gaps : List GapEntry
  /-- The serial number the next gap entry gets (the model's own, log 10). -/
  nextGapId : Nat
  members : List Member
  stn : StationBlock
  port : PortBlock
  counters : Counters
  pins : Pins
  /-- How many free values have been drawn (the model's own, log 11). -/
  freeReads : Nat
  pending : List Instr
  deriving DecidableEq, Repr

/-- Why a step may stop with a fault: for no reason. Every command of the table has an effect that the spec gives, so
no meaning raises a fault (safe: nothing is cut short). -/
inductive Fault where
  deriving DecidableEq, Repr

/-- Why a command may be refused. -/
inductive Refusal where
  /-- Raised by no arm of `exec`: the interface asks for the constructor; it would name a row that has no meaning yet
  (safe: the model would stop where the hardware goes on). -/
  | notModelled (mnemonic : String)
  deriving DecidableEq, Repr

/-- Every register, flag, queue and timer at the value R147 gives for reset, for a station strapped `id` and `rate`. -/
def State.atReset (id : StationNo) (rate : BitVec 2) : State where
  line :=
    { id := id, rate := rate, rotationBase := 0, displaced := false, yield := false, timing := .off, ready := false
      collisionCount := 0, collisionsArmed := true, lastCollided := none, ownFrame := none, window := none
      driving := false }
  commit := { provisional := none, objections := 0, congestedArmed := true, congested := false, catchingUp := false }
  pool := { cells := [], freeCells := [], freeDescs := List.range Config.recvDescs, pendingBase := none }
  send :=
    { retained := [], outbound := [], releasePoint := ⟨0, 0⟩, transmitPoint := ⟨0, 0⟩, postEnd := ⟨0, 0⟩
      tagCounter := 0, lastCommitted := 255, lastReleased := 255, room := false, catchUp := none
      releaseWaiting := false }
  rx := { count := 0, settled := 0, known := 0, holdSet := [], queue := [], backlog := false }
  gaps := []
  nextGapId := 0
  members := []
  stn :=
    { state := .idle, config := none, word := 0, listenTimer := .stopped, joinTimer := .stopped
      beaconTimer := .stopped, beaconDue := false, joinBeacons := 0, leaveHeld := false, joinExpiryHeld := false }
  port := { link := .closed, reports := [], overflow := 0, takeIncomplete := false, result := ⟨.none, none⟩ }
  counters :=
    { checkFailures := 0, duplicates := 0, replaysDropped := 0, objectionsMarked := 0, ownObjected := 0
      collisions := 0, resendsSent := 0, replaysSent := 0 }
  pins := { resetLow := false, attnLow := false }
  freeReads := 0
  pending := []

/-- The machine right after reset, with an empty queue and CS# high (R147). The straps are sampled at release and the
spec gives them no value: DESIGN CHOICE 0 for both (log 1). -/
def State.reset : State := State.atReset 0 0

end Sys2Proof.Machine
end

