-- ==== Sys2Proof/Machine/Ops.lean ====
section
/-!
DEFINITION. The named operations over cell memory, the pool's regions, the report queue and the held configuration.
-/

namespace Sys2Proof.Machine

/-! ### Cell memory: a list of (address, byte) pairs, addresses rising, no entry equal to the blank byte -/

/-- The canonical form of cell memory above a bound: every address at or above `lo`, strictly rising, no blank byte. -/
def Memory.wfFrom : Nat → List Host.Cell → Bool
  | _, [] => true
  | lo, (a, b) :: m => decide (lo ≤ a) && (b != Config.blankByte) && Memory.wfFrom (a + 1) m

/-- The canonical form of cell memory. -/
def Memory.wf (m : List Host.Cell) : Bool := Memory.wfFrom 0 m

/-- The byte at an address; an unlisted address reads as the blank byte (log 9). -/
def Memory.read : List Host.Cell → Nat → Byte
  | [], _ => Config.blankByte
  | (a, b) :: m, k => if k = a then b else Memory.read m k

/-- Write one byte, keeping the canonical form: a blank byte takes the entry out. -/
def Memory.write : List Host.Cell → Nat → Byte → List Host.Cell
  | [], k, v => if v = Config.blankByte then [] else [(k, v)]
  | (a, b) :: m, k, v =>
    if k < a then (if v = Config.blankByte then (a, b) :: m else (k, v) :: (a, b) :: m)
    else if k = a then (if v = Config.blankByte then m else (k, v) :: m)
    else (a, b) :: Memory.write m k v

/-- Write bytes at rising addresses. -/
def Memory.writeBytes : List Host.Cell → Nat → List Byte → List Host.Cell
  | m, _, [] => m
  | m, a, b :: bs => Memory.writeBytes (Memory.write m a b) (a + 1) bs

/-- Copy a payload into a run of cells in payload order, sixteen bytes a cell (R57). -/
def Memory.writeChain : List Host.Cell → List Nat → List Byte → List Host.Cell
  | m, [], _ => m
  | m, c :: cs, p =>
    Memory.writeChain (Memory.writeBytes m (Config.cellBytes * c) (p.take Config.cellBytes)) cs
      (p.drop Config.cellBytes)

/-- Exactly `length` payload bytes from a run of cells in payload order (R57). -/
def Memory.readChain (m : List Host.Cell) (chain : List Nat) (length : Nat) : List Byte :=
  (chain.flatMap fun c => (List.range Config.cellBytes).map fun i => Memory.read m (Config.cellBytes * c + i)).take length

/-! ### The held configuration -/

/-- The configuration that governs a station that holds none (R147, R166): no topic, no cause, sizes and limits 0
(log 20). -/
def StartConfig.unset : StartConfig :=
  { sendSize := 0, topics := 0, beaconInterval := 0, presenceMultiple := 0, listenMultiple := 0, repairInterval := 0
    repairLimit := 0, backlogLimit := 0, roomLimit := 0
    attention := { delivery := false, backlog := false, room := false, report := false } }

/-- The configuration in force (R136). -/
def State.cfg (s : State) : StartConfig := s.stn.config.getD StartConfig.unset

/-- The topic is in the subscription set. -/
def State.subscribed (s : State) (t : Topic) : Bool := s.cfg.topics.getLsbD t.toNat

/-- The presence interval: presence multiple × beacon interval (R148). -/
def State.presenceInterval (s : State) : Nat := s.cfg.presenceMultiple * s.cfg.beaconInterval

/-- The receive region's size: 256 − S cells once START has divided the pool, 0 in the unpartitioned pool (R56). -/
def State.receiveSize (s : State) : Nat :=
  match s.stn.config with
  | some c => Config.cells - c.sendSize
  | none => 0

/-! ### Storage sizes and the send ring -/

/-- The cells a payload of `length` bytes occupies (R57). -/
def cellsFor (length : Nat) : Nat := max 1 ((length + 15) / 16)

/-- The cells of a list of send notices. -/
def sendCellsOf (l : List SendNotice) : Nat := (l.map fun n => cellsFor n.length).sum

/-- The free send cells: S less the cells of outbound and retained notices (R61). -/
def State.freeSendCells (s : State) : Nat :=
  s.cfg.sendSize - (sendCellsOf s.send.retained + sendCellsOf s.send.outbound)

/-- The free send descriptors: 32 less the two counts (R77). -/
def State.freeSendDescs (s : State) : Nat :=
  Config.sendDescs - (s.send.retained.length + s.send.outbound.length)

/-- `count` consecutive cells of the send ring of `size` cells from `first`, in ring order (R58). -/
def ringCells (size first count : Nat) : List Nat := (List.range count).map fun i => (first + i) % size

/-- A point on the ring moved past a notice of `cells` cells and one descriptor, modulo S and modulo 32 (R58). -/
def RingPoint.past (p : RingPoint) (size cells : Nat) : RingPoint :=
  { cell := (p.cell + cells) % size, desc := (p.desc + 1) % Config.sendDescs }

/-- The payload of a notice in the send region. -/
def State.sendPayload (s : State) (n : SendNotice) : List Byte :=
  Memory.readChain s.pool.cells (ringCells s.cfg.sendSize n.firstCell (cellsFor n.length)) n.length

/-- The number of a retained notice; a retained notice always carries one (R76). -/
def SendNotice.lineNo (n : SendNotice) : LineNo := n.number.getD 0

/-! ### Receive storage (R62 to R64) -/

/-- The room rule for a claim of `c` cells and one descriptor (R64). -/
def State.roomRule (s : State) (c : Nat) : Bool :=
  decide (c + Config.reserveCells ≤ s.pool.freeCells.length)
    && decide (1 + Config.reserveDescs ≤ s.pool.freeDescs.length)

/-- The reserve test for a claim of `c` cells and one descriptor (R64). -/
def State.reserveTest (s : State) (c : Nat) : Bool :=
  decide (c ≤ s.pool.freeCells.length) && decide (1 ≤ s.pool.freeDescs.length)

/-- Claim cells and one descriptor from the heads of the free lists for a notice, copy its payload into the chain in
payload order (R62, R40, R97), and give the notice with its storage. -/
def State.storeNotice (s : State) (number : LineNo) (originator : StationNo) (topic : Topic) (payload : List Byte)
    (own : Bool) (tag : Option Tag) (replay : Bool) : RxNotice × State :=
  let c := cellsFor payload.length
  let chain := s.pool.freeCells.take c
  ({ number := number, originator := originator, topic := topic, length := payload.length, own := own, tag := tag
     replay := replay, desc := s.pool.freeDescs.headD 0, chain := chain },
   { s with pool :=
     { s.pool with
       cells := Memory.writeChain s.pool.cells chain payload
       freeCells := s.pool.freeCells.drop c
       freeDescs := s.pool.freeDescs.tail } })

/-- Put a notice's chain and descriptor at the tails of the free lists (R62); nothing is handed on yet. -/
def State.freeNotice (s : State) (n : RxNotice) : State :=
  { s with pool :=
    { s.pool with freeCells := s.pool.freeCells ++ n.chain, freeDescs := s.pool.freeDescs ++ [n.desc] } }

/-- Put a descriptor at the tail of its free list (R62). -/
def State.freeDesc (s : State) (d : Nat) : State :=
  { s with pool := { s.pool with freeDescs := s.pool.freeDescs ++ [d] } }

/-- The payload of a notice in receive storage: exactly `length` bytes (R57). -/
def State.rxPayload (s : State) (n : RxNotice) : List Byte := Memory.readChain s.pool.cells n.chain n.length

/-! ### The report queue (R175) -/

/-- A count that saturates at 255 (R29, R51, R141, R175). -/
def saturate (n : Nat) : Nat := min n Config.countTop

/-- Post a report: at the tail, or dropped and counted when the queue holds 16 records (R175). -/
def State.postReport (s : State) (r : Report) : State :=
  if s.port.reports.length < Config.reportRecords then
    { s with port := { s.port with reports := s.port.reports ++ [r] } }
  else { s with port := { s.port with overflow := saturate (s.port.overflow + 1) } }

/-- Post reports in order. -/
def State.postReports (s : State) (rs : List Report) : State := rs.foldl State.postReport s

/-- Pass from one station state to another, posting the one STATE report of the transition (R133). -/
def State.enterState (s : State) (new : StationState) (cause : StateCause) : State :=
  { s with stn := { s.stn with state := new } }.postReport (.stateChange s.stn.state new cause)

/-- The station hears the line as a full receiver: JOINING, ACTIVE or LEAVING (R38, R132). -/
def StationBlock.onLine (b : StationBlock) : Bool :=
  match b.state with
  | .joining | .active | .leaving => true
  | .idle | .listen | .halted => false

/-- JOINING or ACTIVE, the states a span refusal resyncs (R12) and a RESEND or REPLAY may be started in (R34). -/
def StationBlock.joinedOrActive (b : StationBlock) : Bool :=
  match b.state with
  | .joining | .active => true
  | .idle | .listen | .leaving | .halted => false

/-- The line interface keeps line timing: every state but IDLE and HALTED (R23). -/
def StationBlock.hearsLine (b : StationBlock) : Bool :=
  match b.state with
  | .listen | .joining | .active | .leaving => true
  | .idle | .halted => false

end Sys2Proof.Machine
end

