-- ==== Sys2Proof/Machine/Flags.lean ====
section
/-!
DEFINITION. Every flag the station computes: the event flags that crossings raise (R82, R107), the attention causes and
ATTN# (R181), the summary byte (R166, R185) and the flags byte of the status record (R188).
-/

namespace Sys2Proof.Machine

/-- A value that crosses a limit upwards: from at or below it to above it (R82, R107). -/
def crosses (limit before after : Nat) : Bool := decide (before ≤ limit) && decide (limit < after)

/-- The backlog event flag after the delivery level has gone from `before` to `after` (R107): raised by a crossing,
else as it stood. -/
def State.backlogAfter (s : State) (before after : Nat) : Bool :=
  s.rx.backlog || crosses s.cfg.backlogLimit before after

/-- The room event flag after a release has taken the free send cells from `before` to `after` (R82). -/
def State.roomAfter (s : State) (before after : Nat) : Bool := s.send.room || crosses s.cfg.roomLimit before after

/-- The delivery queue holds at least one record (R108). -/
def State.deliveryCause (s : State) : Bool := s.cfg.attention.delivery && !s.rx.queue.isEmpty

/-- The BACKLOG cause in the attention set (R107, R181). -/
def State.backlogCause (s : State) : Bool := s.cfg.attention.backlog && s.rx.backlog

/-- The ROOM cause in the attention set (R83, R181). -/
def State.roomCause (s : State) : Bool := s.cfg.attention.room && s.send.room

/-- The REPORT cause in the attention set (R181). -/
def State.reportCause (s : State) : Bool := s.cfg.attention.report && !s.port.reports.isEmpty

/-- At least one cause in the attention set is present (R181). -/
def State.attentionWanted (s : State) : Bool :=
  s.deliveryCause || s.backlogCause || s.roomCause || s.reportCause

/-- ATTN# follows its causes (R181); while reset is held it is released (R147). -/
def State.settleAttn (s : State) : State :=
  { s with pins := { s.pins with attnLow := !s.pins.resetLow && s.attentionWanted } }

/-- The level of the ATTN# pin: low while `attnLow` (R181). -/
def State.attnPinHigh (s : State) : Bool := !s.pins.attnLow

/-- A flag as bit `i` of a byte. -/
def bitAt (i : Nat) (b : Bool) : Byte := if b then BitVec.ofNat 8 (2 ^ i) else 0

/-- The code of a station state in a byte (R182). -/
def stateCodeByte : StationState → Byte
  | .idle => 0 | .listen => 1 | .joining => 2 | .active => 3 | .leaving => 4 | .halted => 5

/-- The summary byte (R166, R185): state code in bits 2..0, report-queue-non-empty in bit 3, the four causes shown in
bits 4 to 7. -/
def State.summaryByte (s : State) : Byte :=
  stateCodeByte s.stn.state ||| bitAt 3 (!s.port.reports.isEmpty) ||| bitAt 4 s.deliveryCause
    ||| bitAt 5 s.backlogCause ||| bitAt 6 s.roomCause ||| bitAt 7 s.reportCause

/-- The flags byte of the status record (R188): BACKLOG, ROOM, TAKE_INCOMPLETE, CATCHING_UP, CONGESTED, BASE_PENDING. -/
def State.statusFlags (s : State) : Byte :=
  bitAt 0 s.rx.backlog ||| bitAt 1 s.send.room ||| bitAt 2 s.port.takeIncomplete ||| bitAt 3 s.commit.catchingUp
    ||| bitAt 4 s.commit.congested ||| bitAt 5 s.pool.pendingBase.isSome

/-- The access position (R26): (own number − rotation base) mod 32, or 32 + own number when displaced or yielding. -/
def LineBlock.accessPosition (l : LineBlock) : Slot :=
  if l.displaced || l.yield then 32 + l.id.setWidth 6 else (l.id - l.rotationBase).setWidth 6

/-- The yield flag is set (R26): this station stands back on its next access. On a line that is already idle that access
is still to come in the slot cycle that runs, so its position is computed afresh with the flag: 32 + own number, where R138
and R139 have the first offer (log 29). -/
def LineBlock.standBack (l : LineBlock) : LineBlock :=
  { l with
    yield := true
    timing := match l.timing with
      | .idle _ => .idle (LineBlock.accessPosition { l with yield := true })
      | .busy => .busy
      | .awaitsIdle => .awaitsIdle
      | .off => .off }

/-- The slots of an idle line are given up: this station starts nothing before the next idle moment (R24, R144). -/
def State.waitForIdle (s : State) : State :=
  { s with line := { s.line with
      timing := match s.line.timing with
        | .idle _ => .awaitsIdle
        | .busy => .busy
        | .awaitsIdle => .awaitsIdle
        | .off => .off } }

/-- A command or event at a station that is not held in reset has its effect, and ATTN# then follows its causes (R181);
while RESET# is low the station takes part in nothing (R147, log 7). -/
def event (f : State → State) (s : State) : Host.Outcome State Fault Refusal :=
  .next (if s.pins.resetLow then s else (f s).settleAttn)

end Sys2Proof.Machine
end

