-- ==== Sys2Proof/Machine/Delivery.lean ====
section
/-!
DEFINITION. The receive order unit: arrival map, hold set, gap trimming as the settled point moves, the delivery
advance, BASE records, and the handing on of freed storage (R67, R68, R92 to R105).
-/

namespace Sys2Proof.Machine

/-! ### The arrival map and the gap table's missing positions -/

/-- Position `n` is known in an arrival map that runs from settled + 1 to settled + 256 (R92). -/
def knownIn (settled : LineNo) (known : BitVec 256) (n : LineNo) : Bool :=
  decide (1 ≤ (n - settled).toNat) && known.getLsbD ((n - settled).toNat - 1)

/-- Position `n` is known at this station. -/
def State.knownAt (s : State) (n : LineNo) : Bool := knownIn s.rx.settled s.rx.known n

/-- The entry covers `n`: first..last in serial order. -/
def GapEntry.covers (e : GapEntry) (n : LineNo) : Bool := decide ((n - e.first).toNat ≤ (e.last - e.first).toNat)

/-- The positions of first..last in rising order. -/
def GapEntry.positions (e : GapEntry) : List LineNo :=
  (List.range ((e.last - e.first).toNat + 1)).map fun i => e.first + BitVec.ofNat 16 i

/-- The entry's missing positions (R112): those that lie after the settled point and are unknown. -/
def missingIn (settled : LineNo) (known : BitVec 256) (e : GapEntry) : List LineNo :=
  e.positions.filter fun n => follows settled n && !knownIn settled known n

/-- The entry's missing positions at this station. -/
def State.missing (s : State) (e : GapEntry) : List LineNo := missingIn s.rx.settled s.rx.known e

/-- Position `n` lies in a gap entry declared LOST. -/
def State.lostAt (s : State) (n : LineNo) : Bool := s.gaps.any fun e => e.state == .lost && e.covers n

/-- The arrival map with position `n` set; a number that is not one of the 256 positions sets none (R92, R93). -/
def markKnown (settled : LineNo) (known : BitVec 256) (n : LineNo) : BitVec 256 :=
  if n = settled then known else known ||| (1#256 <<< ((n - settled).toNat - 1))

/-- Position `n` becomes known (R93); the repair unit removes an entry that holds `n` and has no missing position left
(R117, R119). -/
def State.makeKnown (s : State) (n : LineNo) : State :=
  let known := markKnown s.rx.settled s.rx.known n
  { s with
    rx := { s.rx with known := known }
    gaps := s.gaps.filter fun e => !e.covers n || !(missingIn s.rx.settled known e).isEmpty }

/-- The hold set with an entry put in its place in increasing serial order of number (R94). -/
def insertHeld (settled : LineNo) (n : RxNotice) : List RxNotice → List RxNotice
  | [] => [n]
  | h :: t => if (n.number - settled).toNat < (h.number - settled).toNat then n :: h :: t else h :: insertHeld settled n t

/-- A notice enters the hold set at its number, and the position becomes known as held (R42, R48, R93, R97). -/
def State.hold (s : State) (n : RxNotice) : State :=
  { s with rx := { s.rx with holdSet := insertHeld s.rx.settled n s.rx.holdSet } }.makeKnown n.number

/-- What becomes of a gap entry when the settled point moves to `settled` (R118): removed when it ends at or before it;
trimmed to settled + 1 when it reaches past it, and removed if nothing is missing; else unchanged. -/
def trimGap (settled : LineNo) (known : BitVec 256) (e : GapEntry) : Option GapEntry :=
  if atOrBefore e.last settled then none
  else if atOrBefore e.first settled then
    let e' := { e with first := settled + 1 }
    if (missingIn settled known e').isEmpty then none else some e'
  else some e

/-- The advance moves the settled point forward to `n`: the map shifts, and the gap table is trimmed (R92, R101, R118). -/
def State.settle (s : State) (n : LineNo) : State :=
  let known := s.rx.known >>> (n - s.rx.settled).toNat
  { s with
    rx := { s.rx with settled := n, known := known }
    gaps := s.gaps.filterMap (trimGap n known) }

/-! ### The delivery queue -/

/-- Append a record at the tail, raising the backlog event flag on a crossing (R105, R107). -/
def State.appendRecord (s : State) (r : DeliveryRecord) : State :=
  { s with rx :=
    { s.rx with
      queue := s.rx.queue ++ [r]
      backlog := s.backlogAfter s.rx.queue.length (s.rx.queue.length + 1) } }

/-- The end of a LOST run that has reached `n` (R102): it goes on over every following position that is unknown and in
a LOST entry. -/
def State.lostRunEnd (s : State) : Nat → LineNo → LineNo
  | 0, n => n
  | fuel + 1, n => if !s.knownAt (n + 1) && s.lostAt (n + 1) then s.lostRunEnd fuel (n + 1) else n

/-- One step of the delivery advance (R101, R102), or `none` where the run stops. -/
def State.advanceStep (s : State) : Option State :=
  let next := s.rx.settled + 1
  if s.pool.pendingBase.isSome then none
  else match s.rx.holdSet.find? (·.number == next) with
    | some n =>
      some (({ s with rx := { s.rx with holdSet := s.rx.holdSet.eraseP (·.number == next) } }.appendRecord
        (.notice n)).settle next)
    | none =>
      if s.knownAt next then some (s.settle next)
      else if s.lostAt next then
        match s.pool.freeDescs with
        | [] => none
        | d :: ds =>
          let last := s.lostRunEnd Config.spanLimit next
          some (({ s with pool := { s.pool with freeDescs := ds } }.appendRecord (.lost next last d)).settle last)
      else none

/-- A run of the advance, of at most the given number of steps. -/
def State.advanceRun : Nat → State → State
  | 0, s => s
  | fuel + 1, s =>
    match s.advanceStep with
    | some s' => State.advanceRun fuel s'
    | none => s

/-- The delivery advance: a run ends within at most 256 steps (R101). -/
def State.advance (s : State) : State := State.advanceRun Config.spanLimit s

/-- A waiting BASE record claims the first free descriptor and is appended at the tail (R67, R68). -/
def State.servePendingBase (s : State) : State :=
  match s.pool.pendingBase, s.pool.freeDescs with
  | some b, d :: ds =>
    { s with pool := { s.pool with pendingBase := none, freeDescs := ds } }.appendRecord (.base b d)
  | _, _ => s

/-- Freed descriptors are handed on: the pending-BASE register first, then the advance (R67). -/
def State.handOn (s : State) : State := s.servePendingBase.advance

/-- Emit a BASE record (R104): it claims a descriptor under the reserve test and is appended, and the advance runs; or
it waits in the pending-BASE register, superseding a record already there (R68). -/
def State.emitBase (s : State) (reason : BaseReason) (number : LineNo) : State :=
  match s.pool.freeDescs with
  | d :: ds =>
    ({ s with pool := { s.pool with freeDescs := ds } }.appendRecord
      (.base { reason := reason, number := number, superseded := false } d)).advance
  | [] =>
    { s with pool :=
      { s.pool with
        pendingBase := some { reason := reason, number := number, superseded := s.pool.pendingBase.isSome } } }

/-- The provisional notice, if any, is given up and its storage freed; nothing is handed on yet (R37, R67). -/
def State.dropProvisional (s : State) : State :=
  match s.commit.provisional with
  | some n => { s with commit := { s.commit with provisional := none } }.freeNotice n
  | none => s

/-- The provisional notice, if any, is freed and its descriptor handed on (R43, R47, R50, R67). -/
def State.freeProvisional (s : State) : State :=
  match s.commit.provisional with
  | some _ => s.dropProvisional.handOn
  | none => s

/-- The discard of the receive side and of the gap table (R110, R130): every held notice's storage is freed, then the
provisional notice's; the map is all unknown; the table is empty. Nothing is handed on yet (R67). -/
def State.discardReceive (s : State) : State :=
  let s := (s.rx.holdSet.foldl State.freeNotice s).dropProvisional
  { s with rx := { s.rx with holdSet := [], known := 0 }, gaps := [] }

end Sys2Proof.Machine
end

