-- ==== Sys2Proof/Machine/SendQueue.lean ====
section
/-!
DEFINITION. The send queue's shared operations: release (R78 to R82), replay marks and candidates (R76, R84, R86), and the
discard of the send side (R90).
-/

namespace Sys2Proof.Machine

/-- The serial minimum of the members' reported settled points, in station-number order (R78, R162); none when the
table is empty. -/
def State.memberMinimum (s : State) : Option LineNo :=
  match s.members with
  | [] => none
  | m :: ms => some (serialMin m.settled (ms.map (·.settled)))

/-- A retained notice is due for release (R78): the member table is empty, or its number is at or before the serial
minimum, and no member's reported settled point is unordered against it: such a point is treated as preceding the number,
whether or not it is the minimum, and the notice stays. -/
def State.releaseDue (s : State) (n : SendNotice) : Bool :=
  match s.memberMinimum with
  | none => true
  | some least => atOrBefore n.lineNo least && s.members.all fun m => !unordered n.lineNo m.settled

/-- The REPLAY frame of this retained notice is on the line (R81). -/
def State.replayOnLine (s : State) (n : SendNotice) : Bool :=
  match s.line.ownFrame with
  | some f => f.candidate == .replay n.tag
  | none => false

/-- Release the oldest retained notice, `rest` being those after it (R80), and test the room event (R82). -/
def State.releaseOne (s : State) (n : SendNotice) (rest : List SendNotice) : State :=
  let s' : State :=
    { s with send :=
      { s.send with
        retained := rest
        releasePoint := s.send.releasePoint.past s.cfg.sendSize (cellsFor n.length)
        lastReleased := n.tag } }
  { s' with send := { s'.send with room := s.roomAfter s.freeSendCells s'.freeSendCells } }

/-- Release along the retained span (R78): stop at the first notice not due; at a due notice whose REPLAY is on the
line, stop and hold its release back (R81). -/
def State.releaseRun : List SendNotice → State → State
  | [], s => s
  | n :: rest, s =>
    if !s.releaseDue n then s
    else if s.replayOnLine n then { s with send := { s.send with releaseWaiting := true } }
    else State.releaseRun rest (s.releaseOne n rest)

/-- Evaluate release (R78, R79). -/
def State.evaluateRelease (s : State) : State := State.releaseRun s.send.retained s

/-- The evaluation at the end of this station's REPLAY frame, when a release was waiting for it (R79, R81); the frame
has left the line. -/
def State.releaseAfterReplay (s : State) : State :=
  if s.send.releaseWaiting then { s with send := { s.send with releaseWaiting := false } }.evaluateRelease else s

/-- A retained number lies in a RESEND's range (R84, R126): at or after first, and at or before last when closed. -/
def ResendRange.holds : ResendRange → LineNo → Bool
  | .closed a z, n => frameAtOrBefore a n && frameAtOrAfter z n
  | .openFrom a, n => frameAtOrBefore a n

/-- A RESEND's range sets the replay-pending mark of every retained notice in it at or before the count (R84). -/
def State.markReplays (s : State) (r : ResendRange) : State :=
  { s with send :=
    { s.send with retained := s.send.retained.map fun n =>
        if ResendRange.holds r n.lineNo && atOrBefore n.lineNo s.rx.count then { n with marked := true } else n } }

/-- Clear the replay-pending mark of the retained notice with this tag (R87). -/
def State.clearMark (s : State) (tag : Tag) : State :=
  { s with send :=
    { s.send with retained := s.send.retained.map fun n => if n.tag == tag then { n with marked := false } else n } }

/-- The REPLAY candidate: the marked retained notice nearest the release point whose number is at or before the count
(R76, R86). -/
def State.replayCandidate (s : State) : Option SendNotice :=
  s.send.retained.find? fun n => n.marked && atOrBefore n.lineNo s.rx.count

/-- The outbound head is presented to the selector (R76): nothing is retained, or count + 1 follows the newest retained
number. -/
def State.headPresented (s : State) : Bool :=
  match s.send.retained.getLast? with
  | none => true
  | some n => follows n.lineNo (s.rx.count + 1)

/-- The outbound head becomes the newest retained notice with number `n` (R48, R49, R75). -/
def State.retainHead (s : State) (n : LineNo) : State :=
  match s.send.outbound with
  | [] => s
  | head :: rest =>
    { s with send :=
      { s.send with
        outbound := rest
        retained := s.send.retained ++ [{ head with number := some n }]
        transmitPoint := s.send.transmitPoint.past s.cfg.sendSize (cellsFor head.length)
        lastCommitted := head.tag } }

/-- The catching-up flag clears and a pending catch-up RESEND is withdrawn (R53). -/
def State.clearCatchingUp (s : State) : State :=
  { s with commit := { s.commit with catchingUp := false }, send := { s.send with catchUp := none } }

/-- The discard of the send side on entry into IDLE or HALTED (R60, R90). -/
def State.discardSend (s : State) : State :=
  let s1 := match s.send.outbound with
    | [] => s
    | head :: _ => s.postReport (.outboundDiscarded s.send.outbound.length head.tag)
  { s1 with
    commit := { s1.commit with catchingUp := false }
    send :=
      { s1.send with
        retained := [], outbound := [], releasePoint := ⟨0, 0⟩, transmitPoint := ⟨0, 0⟩, postEnd := ⟨0, 0⟩
        catchUp := none, releaseWaiting := false } }

end Sys2Proof.Machine
end

