-- ==== Sys2Proof/Machine/Members.lean ====
section
/-!
DEFINITION. The member table: the horizon (R15), creation, refreshing and removal of entries (R149 to R153), and the views
(R156 to R160).
-/

namespace Sys2Proof.Machine

/-- The entry of a station, if it is a member. -/
def State.member (s : State) (n : StationNo) : Option Member := s.members.find? (·.station == n)

/-- An entry put at its place in increasing order of station number (R148). -/
def insertMember (m : Member) : List Member → List Member
  | [] => [m]
  | x :: xs => if m.station.toNat < x.station.toNat then m :: x :: xs else x :: insertMember m xs

/-- Change the entry of one station. -/
def State.updateMember (s : State) (n : StationNo) (f : Member → Member) : State :=
  { s with members := s.members.map fun m => if m.station == n then f m else m }

/-- Take the entry of a station out of the table. -/
def State.removeMember (s : State) (n : StationNo) : State :=
  { s with members := s.members.filter fun m => !(m.station == n) }

/-- Every included-me flag clears (R138, R143, R159). -/
def State.clearIncluded (s : State) : State :=
  { s with members := s.members.map fun m => { m with includedMe := false } }

/-- A reported settled point lies beyond the member horizon of a count (R15). -/
def beyondHorizon (settled count : LineNo) : Bool := decide (Config.horizon < distance settled count)

/-- The entries that the horizon removes at the present count, in station-number order (R15, log 12). -/
def State.horizonVictims (s : State) : List Member := s.members.filter fun m => beyondHorizon m.settled s.rx.count

/-- The horizon at a change of the count (R15): every entry beyond it goes with a MEMBER_LOST report, and release is
evaluated once after the removals. -/
def State.applyHorizon (s : State) : State :=
  if s.horizonVictims.isEmpty then s
  else
    ({ s with members := s.members.filter fun m => !beyondHorizon m.settled s.rx.count }.postReports
      (s.horizonVictims.map fun (m : Member) => .memberLost m.station .horizon)).evaluateRelease

/-- The member table's part of header processing (R15, R149 to R151): the horizon against the count as it stands, then
the removal of a leaver, or the creation or refreshing of the sender's entry. A sender beyond the horizon gets no entry
in an empty table either: R15's "when the member table is empty, the horizon does nothing" is read of the removals, as
R154 and R164 have it (log 31). -/
def State.headerMember (s : State) (h : Header) (leaving : Bool) : State :=
  if beyondHorizon h.settled s.rx.count then
    match s.member h.sender with
    | some _ => ((s.removeMember h.sender).postReport (.memberLost h.sender .horizon)).evaluateRelease
    | none => s
  else if leaving then
    match s.member h.sender with
    | some _ => ((s.removeMember h.sender).postReport (.memberLeft h.sender)).evaluateRelease
    | none => s
  else
    match s.member h.sender with
    | some m =>
      let s' := s.updateMember h.sender fun e =>
        { e with state := h.senderState, settled := h.settled, presence := .running s.presenceInterval }
      if m.settled = h.settled then s' else s'.evaluateRelease
    | none =>
      let entry : Member :=
        { station := h.sender, state := h.senderState, settled := h.settled
          presence := .running s.presenceInterval, includedMe := false, word := none }
      { s with members := insertMember entry s.members }.postReport (.memberJoined h.sender)

/-- The view a beacon carries: the station numbers of every entry (R160). -/
def State.view (s : State) : Set32 := s.members.foldl (fun v m => v ||| (1#32 <<< m.station.toNat)) 0

/-- A view names a station (R183). -/
def viewNames (v : Set32) (n : StationNo) : Bool := v.getLsbD n.toNat

/-- A beacon's status word against the word held in its sender's entry (R155). -/
def State.takeWord (s : State) (sender : StationNo) (word : Word16) : State :=
  match s.member sender with
  | some m =>
    if m.word = some word then s
    else (s.updateMember sender fun e => { e with word := some word }).postReport (.peerWord sender word)
  | none => s

end Sys2Proof.Machine
end

