-- ==== Sys2Proof/Machine/Repair.lean ====
section
/-!
DEFINITION. The repair unit's gap table (R112 to R126), the rises of the count with the span limit, the horizon and the
handing-on of missing positions (R2 to R5, R12), and the outright settings of the count (R9 to R11).
-/

namespace Sys2Proof.Machine

/-- Change the gap entry with this serial number. -/
def State.updateGap (s : State) (id : Nat) (f : GapEntry → GapEntry) : State :=
  { s with gaps := s.gaps.map fun e => if e.id == id then f e else e }

/-- Change the highest entry of the table, which is its last. -/
def changeLast (f : GapEntry → GapEntry) : List GapEntry → List GapEntry
  | [] => []
  | [e] => [f e]
  | e :: es => e :: changeLast f es

/-- A run of missing positions is handed to a full table whose highest entry is LOST (R116). -/
def State.gapOverflows (s : State) : Bool :=
  decide (Config.gapEntries ≤ s.gaps.length) && (s.gaps.getLast?.any fun e => e.state == .lost)

/-- A missing range handed to the repair unit (R114 to R116): a new WAITING entry; or merged into the highest entry
when the table is full, which restarts its repair, or, when that entry is LOST, adds the range as lost with a
GAP_OVERFLOW report and a run of the advance. -/
def State.handRange (s : State) (first last : LineNo) : State :=
  if s.gaps.length < Config.gapEntries then
    { s with
      gaps := s.gaps ++
        [{ id := s.nextGapId, first := first, last := last, attempts := 0, state := .waiting
           timer := .running s.cfg.repairInterval }]
      nextGapId := s.nextGapId + 1 }
  else if s.gapOverflows then
    ({ s with gaps := changeLast (fun e => { e with last := last }) s.gaps }.postReport
      (.gapOverflow first last)).advance
  else
    { s with gaps := changeLast (fun e =>
        { e with last := last, attempts := 0, state := .waiting, timer := .running s.cfg.repairInterval }) s.gaps }

/-- A rise of the count to `n` is refused by the span limit (R12): (n − settled point) mod 65536 > 256. -/
def State.spanRefuses (s : State) (n : LineNo) : Bool := decide (Config.spanLimit < (n - s.rx.settled).toNat)

/-- A rise of the count to `n` that the span limit allows, with the missing range that runs from the old count + 1 to
`last` (R5; empty when `last` is the old count). The catching-up flag clears (R53), the horizon is applied (R15), and
the range is handed on (R114). Where the rise both overflows the gap table and removes members, the manual does not
order the two kinds of report: a free value does (log 11). -/
def State.raiseCount (s : State) (n last : LineNo) : State :=
  let old := s.rx.count
  let s1 := { s with rx := { s.rx with count := n } }.clearCatchingUp
  if last = old then s1.applyHorizon
  else if s1.gapOverflows && !s1.horizonVictims.isEmpty then
    let s2 := { s1 with freeReads := s1.freeReads + 1 }
    if Config.overflowReportFirst s.freeReads then (s2.handRange (old + 1) last).applyHorizon
    else s2.applyHorizon.handRange (old + 1) last
  else s1.applyHorizon.handRange (old + 1) last

/-- Adoption, founding and resync set the count and the settled point outright to the same value (R6, R9 to R11); the
map is all unknown, and the horizon is applied to the new count (R15). -/
def State.setCount (s : State) (n : LineNo) : State :=
  { s with rx := { s.rx with count := n, settled := n, known := 0 } }.applyHorizon

/-- A peer's RESEND suppresses every WAITING or REQUESTED entry whose missing positions all lie in its range: a queued
request is withdrawn, attempts rise to at most the repair limit, the timer restarts (R126). -/
def State.suppress (s : State) (r : ResendRange) : State :=
  { s with gaps := s.gaps.map fun e =>
      if e.state != .lost && (s.missing e).all (ResendRange.holds r) then
        { e with
          attempts := min (e.attempts + 1) s.cfg.repairLimit
          state := .waiting
          timer := .running s.cfg.repairInterval }
      else e }

/-- The gap request the selector offers: the REQUESTED entry with the lowest first number, which is the first in the
table (R34, R112, R123). -/
def State.requestedGap (s : State) : Option GapEntry := s.gaps.find? (·.state == .requested)

/-- The range of a gap's RESEND: its lowest to its highest missing position, never open (R123). -/
def State.gapRange (s : State) (e : GapEntry) : ResendRange :=
  .closed ((s.missing e).headD e.first) ((s.missing e).getLastD e.last)

end Sys2Proof.Machine
end

