-- ==== Sys2Proof/Machine/Stations.lean ====
section
/-!
DEFINITION. The passages between station states (R132 to R147): adoption, founding, inclusion, join failure, resync,
leaving, entry into IDLE and HALTED; and header processing (R3), which the frames of every kind share.
-/

namespace Sys2Proof.Machine

/-- Resync (R11, R143), in the order of R143: the discards, the count and settled point, the BASE record (after which
the freed storage is handed on, R67), the catching-up flag, the included-me flags, the timers and flags, the report. -/
def State.resync (s : State) (reason : BaseReason) (cause : StateCause) (headerCount : LineNo) : State :=
  let s := ((s.discardReceive.setCount headerCount).emitBase reason headerCount).handOn
  let s := s.clearCatchingUp.clearIncluded
  { s with
    line := { s.line.standBack with window := none }
    stn := { s.stn with
      joinTimer := .running (Config.joinIntervals * s.cfg.beaconInterval)
      beaconTimer := .running s.cfg.beaconInterval
      beaconDue := true
      joinBeacons := 0
      joinExpiryHeld := false } }.enterState .joining cause

/-- What a span refusal leads to (R12): resync SPAN to the triggering frame's header count at a JOINING or ACTIVE
station, nothing at a LEAVING one. -/
def State.spanResync (s : State) (headerCount : LineNo) : State :=
  if s.stn.joinedOrActive then s.resync .resyncSpan .resyncSpan headerCount else s

/-- Adoption (R9, R138): both numbers set, BASE JOINED, the timers, the due beacon, the yield flag, the report. -/
def State.adopt (s : State) (n : LineNo) : State :=
  let s := ((s.setCount n).emitBase .joined n).clearIncluded
  { s with
    line := s.line.standBack
    stn := { s.stn with
      listenTimer := .stopped
      joinTimer := .running (Config.joinIntervals * s.cfg.beaconInterval)
      beaconTimer := .running s.cfg.beaconInterval
      beaconDue := true
      joinBeacons := 0 } }.enterState .joining .adoption

/-- Founding (R10, R139). -/
def State.found (s : State) : State :=
  let s := (s.setCount 0).emitBase .founded 0
  { s with
    line := s.line.standBack
    stn := { s.stn with
      listenTimer := .stopped
      beaconTimer := .running s.cfg.beaconInterval
      beaconDue := true } }.enterState .active .founding

/-- Inclusion of a JOINING station (R140). -/
def State.include (s : State) : State :=
  { s with
    line := s.line.standBack
    stn := { s.stn with joinTimer := .stopped, joinExpiryHeld := false } }.enterState .active .inclusion

/-- Join failure, when it is taken (R141). The frees of its discard are handed on when the discard is complete (R67). -/
def State.joinFailure (s : State) : State :=
  let s := ((s.postReport (.joinUnanswered s.stn.joinBeacons)).discardReceive).handOn
  { s with stn := { s.stn with
      beaconDue := false
      joinTimer := .stopped
      beaconTimer := .stopped
      joinExpiryHeld := false
      listenTimer := .running (s.cfg.listenMultiple * s.cfg.beaconInterval) } }.enterState .listen .joinFailure

/-- Entry into LEAVING (R144). -/
def State.enterLeaving (s : State) : State :=
  { s with stn := { s.stn with
      joinTimer := .stopped
      beaconTimer := .stopped
      joinExpiryHeld := false
      leaveHeld := false
      beaconDue := true } }.enterState .leaving .leaveCommand

/-- Steps 1 to 5 of entry into IDLE, which entry into HALTED shares (R145, R146): the send side, the hold set, map and
gap table, the member table, the due beacon and the timers, the commit logic, the line interface. -/
def State.quit (s : State) : State :=
  let s := s.discardSend.discardReceive.handOn
  { s with
    members := []
    commit := { s.commit with objections := 0, congestedArmed := true, congested := false, catchingUp := false }
    line := { s.line with driving := false, timing := .off, ready := false, ownFrame := none, window := none }
    stn := { s.stn with
      beaconDue := false
      listenTimer := .stopped
      joinTimer := .stopped
      beaconTimer := .stopped
      leaveHeld := false
      joinExpiryHeld := false } }

/-- Entry into IDLE (R145). -/
def State.enterIdle (s : State) (cause : StateCause) : State := s.quit.enterState .idle cause

/-- Entry into HALTED on a valid frame with the station's own number (R33, R146). -/
def State.halt (s : State) : State := ((s.postReport (.duplicateId s.line.id)).quit).enterState .halted .duplicateId

/-- At the end of the own frame (with its window) or of a received NOTICE frame's window: a held LEAVE is taken, and a
held join expiry is then dropped; else a held join expiry is taken (R141, R144). -/
def State.takeHeld (s : State) : State :=
  if s.stn.leaveHeld then s.enterLeaving
  else if s.stn.joinExpiryHeld then s.joinFailure
  else s

/-- Header processing of a valid frame from another station (R3): the member table, then the header count. The flag is
false where the count was refused and the frame is taken no further (R12). -/
def State.headerProcess (s : State) (h : Header) (leaving : Bool) : State × Bool :=
  let s := s.headerMember h leaving
  if unordered s.rx.count h.count || (follows s.rx.count h.count && s.spanRefuses h.count) then
    (s.spanResync h.count, false)
  else if follows s.rx.count h.count then (s.raiseCount h.count h.count, true)
  else (s, true)

/-- The receiver can end a frame now: the station hears the line, no frame of its own is on it, no window is open, and
an idle moment has come since the last frame (R18, R23, R30). -/
def State.receiving (s : State) : Bool :=
  s.stn.hearsLine && s.line.ready && s.line.ownFrame.isNone && s.line.window.isNone

/-- The frame has ended at this station: the line was active, and no further character belongs to a frame until the
line is next idle (R18, R23). -/
def State.endReception (s : State) : State :=
  { s with line := { s.line with ready := false, timing := .busy } }

/-- What becomes of a valid frame (R22): the rotation base and the displaced flag first (R25, R26); then the duplicate
check; then, by the state, adoption or the processing of its kind. -/
def State.receiveFrame (s : State) (h : Header) (adopting processing : State → State) : State :=
  if !s.receiving then s
  else
    let s := s.endReception
    let s := { s with line := { s.line with rotationBase := h.sender + 1, displaced := false } }
    if h.sender = s.line.id then
      match s.stn.state with
      | .leaving => s
      | _ => s.halt
    else
      match s.stn.state with
      | .listen => adopting { s with stn := { s.stn with listenTimer := .stopped } }
      | _ => processing s

end Sys2Proof.Machine
end

