-- ==== Sys2Proof/Machine/Line.lean ====
section
/-!
DEFINITION. Access to the line and the station's own frames (R18 to R30, R34 to R36): LINE_IDLE, LINE_ACTIVITY, SLOT_BEGINS,
FRAME_SENT, COLLISION and CHECK_FAILURE.
-/

namespace Sys2Proof.Machine

/-! ### The pins to the transceiver -/

/-- The level this station puts on the line in bit time `bit`, `true` = dominant (R16, R31): of the frame it sends, counted
from the frame's start; while it marks a position, dominant for the whole of it; else it leaves the line recessive. -/
def State.drivenLevel (s : State) (bit : Nat) : Bool :=
  s.line.driving &&
    match s.line.ownFrame with
    | some f => !f.sent && (frameLevels f.frame).getD bit false
    | none => true

/-- A dominant bit is DE asserted with TXD low; for a recessive bit, and at all other times, DE is released and TXD high
(R16). -/
def LinePins.ofLevel (dominant : Bool) : LinePins := { de := dominant, txd := !dominant }

/-- DE and TXD in bit time `bit` of what this station drives (R16). -/
def State.linePins (s : State) (bit : Nat) : LinePins := .ofLevel (s.drivenLevel bit)

/-! ### Idle and activity -/

/-- This station is driving a frame of its own. -/
def State.sending (s : State) : Bool := s.line.ownFrame.any fun f => !f.sent

/-- LINE_IDLE (R23, R24, R26): the idle moment; the access position is computed, slots are counted from here, and a
character that begins now starts a frame (R18). The end of a clean window falls at the same moment (R23), and the manual
orders neither first: both orders are queues (log 2), and a yield flag set after this event moves the position
(`LineBlock.standBack`, log 29). -/
def execLineIdle : State → Host.Outcome State Fault Refusal :=
  event fun s =>
    if s.stn.hearsLine && !s.sending then
      { s with line := { s.line with timing := .idle s.line.accessPosition, ready := true } }
    else s

/-- LINE_ACTIVITY (R23): the idle state ends, or the interframe gap starts afresh. Activity that ends the idle state and
begins no character is no frame, and no frame starts until the line is next idle (R17, R18); so also when this station had
given up its slots of the idle line, found dominant at its slot (R24, log 16) or left at an entry into LEAVING (R144). On a
busy line it is activity for the idle timing alone: noise between the characters of a frame in reception, or of the frame
that won a collision (R28), ends no frame (R17, R18). -/
def execLineActivity (startBit : Bool) : State → Host.Outcome State Fault Refusal :=
  event fun s =>
    if s.stn.hearsLine then
      match s.line.timing with
      | .idle _ => { s with line := { s.line with timing := .busy, ready := s.line.ready && startBit } }
      | .awaitsIdle => { s with line := { s.line with timing := .busy, ready := s.line.ready && startBit } }
      | .busy => s
      | .off => s
    else s

/-! ### The transmit selector -/

/-- The outbound head as a candidate (R34, R46, R76): catching-up clear, presented by the send queue, and with room for
the own copy when its topic is subscribed. -/
def State.noticeCandidate (s : State) : Option SendNotice :=
  match s.send.outbound with
  | [] => none
  | head :: _ =>
    if !s.commit.catchingUp && s.headPresented
        && (!s.subscribed head.topic || s.roomRule (cellsFor head.length)) then some head
    else none

/-- The orders 1 to 4 of the selector that JOINING and ACTIVE share (R34): catch-up RESEND, gap RESENDs, REPLAY. -/
def State.repairCandidate (s : State) : Option Candidate :=
  if s.send.catchUp.isSome then some .catchUp
  else match s.requestedGap with
    | some e => some (.gap e.id)
    | none => s.replayCandidate.map fun n => .replay n.tag

/-- The first eligible candidate in the order of R34. -/
def State.candidate (s : State) : Option Candidate :=
  match s.stn.state with
  | .leaving => some .dueBeacon
  | .joining =>
    match s.repairCandidate with
    | some c => some c
    | none => if s.stn.beaconDue then some .dueBeacon else none
  | .active =>
    match s.repairCandidate with
    | some c => some c
    | none =>
      match s.noticeCandidate with
      | some n => some (.notice n.tag)
      | none => if s.stn.beaconDue then some .dueBeacon else none
  | .idle | .listen | .halted => none

/-- The header this station puts on a frame that starts now (R8, R19). -/
def State.ownHeader (s : State) : Header :=
  { senderState := s.stn.state, sender := s.line.id, count := s.rx.count, settled := s.rx.settled }

/-- The kind of beacon a state sends (R36). -/
def beaconKindFor : StationState → Option BeaconKind
  | .joining => some .join
  | .active => some .periodic
  | .leaving => some .leave
  | .idle | .listen | .halted => none

/-- The frame built from a candidate as its owner holds it at the beginning of the slot (R35, R46, R86, R88, R123,
R160). -/
def State.frameFor (s : State) : Candidate → Option Frame
  | .dueBeacon => (beaconKindFor s.stn.state).map fun k => .beacon s.ownHeader k s.view s.stn.word
  | .catchUp => s.send.catchUp.map fun first => .resend s.ownHeader (.openFrom first)
  | .gap id => (s.gaps.find? (·.id == id)).map fun e => .resend s.ownHeader (s.gapRange e)
  | .replay tag => (s.send.retained.find? (·.tag == tag)).map fun n =>
      .replay s.ownHeader { number := n.lineNo, topic := n.topic, payload := s.sendPayload n }
  | .notice tag => (s.send.outbound.find? (·.tag == tag)).map fun n =>
      .notice s.ownHeader { number := s.rx.count + 1, topic := n.topic, payload := s.sendPayload n }

/-- The own-room reservation at the start of a NOTICE frame of a subscribed topic (R46, R37). -/
def State.reserveOwnRoom (s : State) : Candidate → Frame → State
  | .notice tag, .notice h b =>
    if s.subscribed b.topic then
      let (n, t) := s.storeNotice b.number h.sender b.topic b.payload true (some tag) false
      { t with commit := { t.commit with provisional := some n } }
    else s
  | _, _ => s

/-- The station starts a frame (R24, R26, R27, R29): the yield flag clears, and the collision count returns to 0 when
the candidate is not the one that collided last. -/
def State.startFrame (s : State) (c : Candidate) (f : Frame) : State :=
  let s := s.reserveOwnRoom c f
  { s with line := { s.line with
      yield := false
      collisionCount := if s.line.lastCollided = some c then s.line.collisionCount else 0
      ownFrame := some { candidate := c, frame := f, sent := false }
      timing := .busy
      driving := true } }

/-- SLOT_BEGINS (R24, R35): at its own access position on an idle line the station takes the first eligible candidate
and starts its frame if the line is recessive; on a dominant line it waits for the next idle moment, the idle state being
over and the character that may begin there not yet told (R17, log 16). A station that entered LEAVING while the line was
idle has given up its slots there and offers its LEAVE beacon from the next idle moment on (R144, `State.waitForIdle`). -/
def execSlotBegins (slot : Slot) (dominant : Bool) : State → Host.Outcome State Fault Refusal :=
  event fun s =>
    if s.line.timing = .idle slot ∧ s.line.ownFrame = none ∧ s.line.window = none then
      if dominant then s.waitForIdle
      else
        match s.candidate with
        | none => s
        | some c =>
          match s.frameFor c with
          | none => s
          | some f => s.startFrame c f
    else s

/-! ### The end of an own frame -/

/-- The beacon timer restarts when a frame is sent (R142); it runs in JOINING and ACTIVE only. -/
def StationBlock.restartBeaconTimer (b : StationBlock) (interval : Nat) : StationBlock :=
  if b.joinedOrActive then { b with beaconTimer := .running interval } else b

/-- What every sent frame does (R25 to R27, R29, R142). -/
def State.noteSent (s : State) : State :=
  { s with
    line := { s.line with
      rotationBase := s.line.id + 1
      displaced := false
      collisionCount := 0
      collisionsArmed := true
      lastCollided := none
      ownFrame := none
      timing := .busy
      ready := false
      driving := false }
    stn := s.stn.restartBeaconTimer s.cfg.beaconInterval }

/-- A RESEND of this station was sent (R88, R113, R124). -/
def State.countResend (s : State) : State :=
  { s with counters := { s.counters with resendsSent := s.counters.resendsSent + 1 } }

/-- The owner's part when a frame is sent (R35): the gap entry (R124), the catch-up request (R88), the replay mark and a
release held back (R81, R87), the window of a NOTICE frame (R27), the due beacon (R36, R141, R145). -/
def State.tellOwner (s : State) (f : OwnFrame) : State :=
  match f.candidate with
  | .gap id =>
    (s.updateGap id fun e =>
      { e with attempts := e.attempts + 1, state := .waiting, timer := .running s.cfg.repairInterval }).countResend
  | .catchUp => { s with send := { s.send with catchUp := none } }.countResend
  | .replay tag =>
    let s := s.clearMark tag
    { s with counters := { s.counters with replaysSent := s.counters.replaysSent + 1 } }.releaseAfterReplay
  | .notice _ =>
    match f.frame with
    | .notice h b =>
      { s with line := { s.line with
          ownFrame := some { f with sent := true }
          window := some { role := .sender, header := h, number := b.number, markFull := false, markStale := false
                           turnGap := false, full := false, stale := false } } }
    | _ => s
  | .dueBeacon =>
    let s := { s with stn := { s.stn with beaconDue := false } }
    match f.frame with
    | .beacon _ .join _ _ => { s with stn := { s.stn with joinBeacons := saturate (s.stn.joinBeacons + 1) } }
    | .beacon _ .leave _ _ => s.enterIdle .leaveSent
    | _ => s

/-- What was held for the end of the own frame is taken, unless its window is still to come (R30, R141, R144). -/
def State.takeHeldUnlessWindow (s : State) : State := if s.line.ownFrame.isSome then s else s.takeHeld

/-- FRAME_SENT (R27): the last check character was read back without mismatch. -/
def execFrameSent : State → Host.Outcome State Fault Refusal :=
  event fun s =>
    match s.line.ownFrame with
    | none => s
    | some f => if f.sent then s else (s.noteSent.tellOwner f).takeHeldUnlessWindow

/-- The collision count and the COLLISIONS report (R29). -/
def State.countCollision (s : State) (f : OwnFrame) : State :=
  let n := saturate (s.line.collisionCount + 1)
  let reported := n == Config.collisionsLimit && s.line.collisionsArmed
  let s1 : State :=
    { s with
      line := { s.line with
        yield := true
        collisionCount := n
        collisionsArmed := s.line.collisionsArmed && !reported
        lastCollided := some f.candidate
        ownFrame := none
        ready := true
        timing := .busy
        driving := false }
      counters := { s.counters with collisions := s.counters.collisions + 1 } }
  if reported then s1.postReport (.collisions (Frame.kind f.frame) Config.collisionsLimit) else s1

/-- The owner's part when a frame ends in collision: a NOTICE frame's reservation is freed (R47), a release held back
for a REPLAY is evaluated (R81); every other owner is told nothing (R35, R125). -/
def State.afterCollision (s : State) (c : Candidate) : State :=
  match c with
  | .notice _ => s.freeProvisional
  | .replay _ => s.releaseAfterReplay
  | .gap _ => s
  | .catchUp => s
  | .dueBeacon => s

/-- COLLISION (R28): the own frame ends at the bit of the mismatch; the receiver goes on with what is on the line. A
COLLISIONS report stands before the reports of a LEAVE or a join expiry held for this moment (R175 orders neither first,
log 35). -/
def execCollision : State → Host.Outcome State Fault Refusal :=
  event fun s =>
    match s.line.ownFrame with
    | none => s
    | some f => if f.sent then s else ((s.countCollision f).afterCollision f.candidate).takeHeld

/-! ### Check failures -/

/-- CHECK_FAILURE (R20, R21): counted, and the station is displaced; nothing else of the frame is used. -/
def execCheckFailure (chars : List LineChar) : State → Host.Outcome State Fault Refusal :=
  event fun s =>
    if s.receiving && (readFrame chars).isNone then
      let s := s.endReception
      { s with
        line := { s.line with displaced := true }
        counters := { s.counters with checkFailures := s.counters.checkFailures + 1 } }
    else s

end Sys2Proof.Machine
end

