-- ==== Sys2Proof/Machine/ObjectionWindow.lean ====
section
/-!
DEFINITION. The objection window (R31, R32) and its end: adoption (R9), commit or discard at a receiver (R42 to R45), retention
or objection at the sender (R48 to R52).
-/

namespace Sys2Proof.Machine

/-- The window is objected (R32): the turn gap, FULL or STALE was sampled dominant; a position this station marks reads
back dominant at its own sampling. -/
def Window.objected (w : Window) : Bool := w.turnGap || w.full || w.stale || w.markFull || w.markStale

/-- This station drives the position (R31): it chose to mark it. -/
def Window.drives (w : Window) : WindowPos → Bool
  | .turnGap => false
  | .full => w.markFull
  | .stale => w.markStale

/-- A position's sample is recorded (R32). -/
def Window.sampled (w : Window) (pos : WindowPos) (level : Bool) : Window :=
  match pos with
  | .turnGap => { w with turnGap := level }
  | .full => { w with full := level }
  | .stale => { w with stale := level }

/-- WINDOW_POSITION (R31, R32): the station drives the position if it chose to, DE asserted with TXD low for its whole length
(`State.linePins`), and samples the line, on which its own mark is dominant. A dominant level is line activity (R23). -/
def execWindowPosition (pos : WindowPos) (dominant : Bool) : State → Host.Outcome State Fault Refusal :=
  event fun s =>
    match s.line.window with
    | none => s
    | some w =>
      let level := dominant || w.drives pos
      { s with line := { s.line with
          window := some (w.sampled pos level)
          driving := w.drives pos
          timing := if level then .busy else s.line.timing } }

/-- The window is over: nothing is driven (R31). -/
def State.closeWindow (s : State) : State := { s with line := { s.line with window := none, driving := false } }

/-- A committed notice takes its place (R42, R48): the provisional notice enters the hold set, or the position becomes
known as unsubscribed; the count rises to `n` with nothing missing below it; the advance runs. -/
def State.takeCommitted (s : State) (n : LineNo) : State :=
  let s := match s.commit.provisional with
    | some p => { s with commit := { s.commit with provisional := none } }.hold p
    | none => s.makeKnown n
  (s.raiseCount n (n - 1)).advance

/-- A clean window whose rise is refused (R45, R49): a JOINING or ACTIVE station resyncs SPAN, which frees the
provisional notice with its other discards (log 14); a LEAVING one frees it. -/
def State.refuseCommitted (s : State) (headerCount : LineNo) : State :=
  if s.stn.joinedOrActive then s.spanResync headerCount else s.freeProvisional

/-- The end of a window this station sampled to adopt (R9): the frame's number when clean, else its header count; then
header processing alone. -/
def State.adoptAtWindow (s : State) (w : Window) : State :=
  ((s.adopt (if w.objected then w.header.count else w.number)).headerProcess w.header false).1

/-- The end of a window at a full receiver (R42, R43, R45). -/
def State.receiverWindowEnd (s : State) (w : Window) : State :=
  if w.objected then s.freeProvisional
  else if s.spanRefuses w.number then s.refuseCommitted w.header.count
  else s.takeCommitted w.number

/-- WINDOW_END_RECEIVER (R42): the end of the STALE position after a received NOTICE frame; a held join expiry is taken
after it (R141). -/
def execWindowEndReceiver : State → Host.Outcome State Fault Refusal :=
  event fun s =>
    match s.line.window with
    | none => s
    | some w =>
      match w.role with
      | .adopting => s.closeWindow.adoptAtWindow w
      | .receiver => (s.closeWindow.receiverWindowEnd w).takeHeld
      | .sender => s

/-- The commit logic at a clean window of the own NOTICE frame (R48, R51): the count of objections returns to 0 and
CONGESTED is re-armed. -/
def State.clearObjections (s : State) : State :=
  { s with commit := { s.commit with objections := 0, congestedArmed := true, congested := false } }

/-- Release at a commit that finds the member table empty (R48, R75, R79). -/
def State.releaseIfAlone (s : State) : State := if s.members.isEmpty then s.evaluateRelease else s

/-- A clean window at the sender (R48, R49): the send-queue effects in full, then the own copy and the count, or the
refusal. -/
def State.senderCommits (s : State) (w : Window) : State :=
  let s := ((s.retainHead w.number).clearObjections).releaseIfAlone
  if s.spanRefuses w.number then s.refuseCommitted w.header.count else s.takeCommitted w.number

/-- An objected window at the sender (R50, R51): the reservation is freed, the yield flag set, the counts rise, and the
sixteenth objection in a row posts CONGESTED. -/
def State.senderObjected (s : State) : State :=
  let s := s.freeProvisional
  let n := saturate (s.commit.objections + 1)
  let reported := n == Config.congestedLimit && s.commit.congestedArmed
  let s1 : State :=
    { s with
      line := s.line.standBack
      counters := { s.counters with ownObjected := s.counters.ownObjected + 1 }
      commit := { s.commit with
        objections := n
        congestedArmed := s.commit.congestedArmed && !reported
        congested := s.commit.congested || reported } }
  if reported then s1.postReport (.congested Config.congestedLimit) else s1

/-- STALE sampled at the sender (R52): catching up, with one open catch-up RESEND from count + 1, and a report. -/
def State.senderStale (s : State) (n : LineNo) : State :=
  { s with
    commit := { s.commit with catchingUp := true }
    send := { s.send with catchUp := some (s.rx.count + 1) } }.postReport (.staleSender n s.rx.count)

/-- The end of the window at the sender (R48 to R52). -/
def State.senderWindowEnd (s : State) (w : Window) : State :=
  if w.objected then (if w.stale then s.senderObjected.senderStale w.number else s.senderObjected)
  else s.senderCommits w

/-- WINDOW_END_SENDER (R48, R50): the end of the STALE position of the own NOTICE frame; a held LEAVE is taken after it
(R30, R144). -/
def execWindowEndSender : State → Host.Outcome State Fault Refusal :=
  event fun s =>
    match s.line.window with
    | none => s
    | some w =>
      match w.role with
      | .sender =>
        let s := s.closeWindow
        ({ s with line := { s.line with ownFrame := none } }.senderWindowEnd w).takeHeld
      | .adopting => s
      | .receiver => s

end Sys2Proof.Machine
end

