-- ==== Sys2Proof/Machine/Operands.lean ====
section
/-!
DEFINITION. The operands of the port's commands and the records it answers with: the START record (R134, R186), a POST's
arguments (R71, R170), result bytes (R185), delivery, report, status and member records (R187, R188).
-/

namespace Sys2Proof.Machine

/-! ### Arguments -/

/-- The START record's fields and initial status word from its sixteen bytes (R186), whatever their ranges. -/
def readStartRecord : List Byte → Option (StartConfig × Byte × Word16)
  | [b1, b2, b3, b4, b5, b6, b7, b8, b9, b10, b11, b12, b13, b14, b15, b16] =>
    some
      ({ sendSize := b1.toNat, topics := of32 b2 b3 b4 b5, beaconInterval := (of16 b6 b7).toNat
         presenceMultiple := b8.toNat, listenMultiple := b9.toNat, repairInterval := b10.toNat
         repairLimit := b11.toNat, backlogLimit := b12.toNat, roomLimit := b13.toNat
         attention :=
          { delivery := b14.getLsbD 0, backlog := b14.getLsbD 1, room := b14.getLsbD 2, report := b14.getLsbD 3 } },
       b14, of16 b15 b16)
  | _ => none

/-- Every field of the START record lies in its range (R134, R186); `attention` is the attention byte. -/
def startInRange (c : StartConfig) (attention : Byte) : Bool :=
  (c.sendSize == 32 || c.sendSize == 64 || c.sendSize == 128)
    && decide (10 ≤ c.beaconInterval) && decide (c.beaconInterval ≤ 1000)
    && decide (3 ≤ c.presenceMultiple) && decide (c.presenceMultiple ≤ 15)
    && decide (2 ≤ c.listenMultiple) && decide (c.listenMultiple ≤ 15)
    && decide (1 ≤ c.repairInterval) && decide (c.repairInterval ≤ 255)
    && decide (1 ≤ c.repairLimit) && decide (c.repairLimit ≤ 15)
    && decide (c.backlogLimit ≤ 63)
    && decide (c.roomLimit ≤ c.sendSize - 1)
    && decide (attention.toNat < 16)

/-- How far a POST's argument bytes have got (R71, R170): not yet decided, or decided with its topic byte, its length
byte and the payload bytes it took. -/
inductive PostArgs where
  | incomplete
  | decided (topic length : Byte) (payload : List Byte)
  deriving DecidableEq, Repr

/-- Read a POST's argument bytes: decided at the length byte when the length is 0 or above 64, else at the last payload
byte; bytes after the deciding byte are ignored (R71, R170). -/
def readPost : List Byte → PostArgs
  | topic :: len :: rest =>
    if Config.maxPayload < len.toNat then .decided topic len []
    else if rest.length < len.toNat then .incomplete
    else .decided topic len (rest.take len.toNat)
  | _ => .incomplete

/-! ### Responses -/

/-- The code of a result (R185). -/
def ResultCode.code : ResultCode → Byte
  | .none => 0 | .accepted => 1 | .wrongState => 2 | .badLen => 3 | .badConfig => 4 | .noRoom => 5 | .badCommand => 6
  | .truncated => 7

/-- The code of a BASE record's reason (R187). -/
def BaseReason.code : BaseReason → Byte
  | .joined => 1 | .founded => 2 | .resyncExcluded => 3 | .resyncSpan => 4

/-- The code of a STATE report's cause (R187). -/
def StateCause.code : StateCause → Byte
  | .start => 1 | .adoption => 2 | .founding => 3 | .inclusion => 4 | .joinFailure => 5 | .resyncExcluded => 6
  | .resyncSpan => 7 | .leaveCommand => 8 | .leaveSent => 9 | .duplicateId => 10

/-- The code of a MEMBER_LOST report's cause (R187). -/
def LostCause.code : LostCause → Byte
  | .silent => 1 | .horizon => 2

/-- A count in a byte. -/
def byteOf (n : Nat) : Byte := BitVec.ofNat 8 n

/-- A record's leading kind and length bytes before its field bytes (R185, R187). -/
def framed (kind : Byte) (fields : List Byte) : List Byte := kind :: byteOf fields.length :: fields

/-- The EMPTY response (R185). -/
def emptyResponse : List Byte := [0x00, 0x00]

/-- A delivery record's bytes, given the payload of its notice (R187). The flags bits that R187 does not name, 7..2 of a
NOTICE record and 7..1 of a BASE record, are sent as 0: the model's choice (log 36). -/
def deliveryBytes (payload : List Byte) : DeliveryRecord → List Byte
  | .notice n =>
    framed 0x01 (be16 n.number ++ [byteOf5 n.originator, byteOf5 n.topic, bitAt 0 n.own ||| bitAt 1 n.replay,
      if n.own then n.tag.getD 0 else 0, byteOf n.length] ++ payload)
  | .lost first last _ => framed 0x02 (be16 first ++ be16 last)
  | .base b _ => framed 0x03 ([BaseReason.code b.reason, bitAt 0 b.superseded] ++ be16 b.number)

/-- The payload a delivery record carries: a NOTICE record's, else none. -/
def State.recordPayload (s : State) : DeliveryRecord → List Byte
  | .notice n => s.rxPayload n
  | .lost .. => []
  | .base .. => []

/-- A report record's bytes (R187). -/
def reportBytes : Report → List Byte
  | .memberJoined n => framed 0x01 [byteOf5 n]
  | .memberLost n c => framed 0x02 [byteOf5 n, LostCause.code c]
  | .memberLeft n => framed 0x03 [byteOf5 n]
  | .peerWord n w => framed 0x04 (byteOf5 n :: be16 w)
  | .stateChange a z c => framed 0x05 [stateCodeByte a, stateCodeByte z, StateCause.code c]
  | .staleSender n c => framed 0x06 (be16 n ++ be16 c)
  | .congested n => framed 0x07 [byteOf n]
  | .collisions k n => framed 0x08 [FrameKind.code k, byteOf n]
  | .numberingConflict n a z => framed 0x09 (be16 n ++ [byteOf5 a, byteOf5 z])
  | .gapOverflow a z => framed 0x0A (be16 a ++ be16 z)
  | .joinUnanswered n => framed 0x0B [byteOf n]
  | .duplicateId n => framed 0x0C [byteOf5 n]
  | .outboundDiscarded n t => framed 0x0D [byteOf n, t]

/-- The eight counters in the status record's order (R188). -/
def Counters.bytes (c : Counters) : List Byte :=
  be16 c.checkFailures ++ be16 c.duplicates ++ be16 c.replaysDropped ++ be16 c.objectionsMarked
    ++ be16 c.ownObjected ++ be16 c.collisions ++ be16 c.resendsSent ++ be16 c.replaysSent

/-- The 38-byte status record (R179, R188). Bits 6..4 of byte 21, which R188 does not name, are sent as 0: the model's
choice (log 36). -/
def State.statusRecord (s : State) : List Byte :=
  [stateCodeByte s.stn.state, byteOf5 s.line.id, s.line.rate.setWidth 8]
    ++ be16 s.rx.count ++ be16 s.rx.settled
    ++ [byteOf s.send.outbound.length, byteOf s.send.retained.length, byteOf s.freeSendCells,
        byteOf s.pool.freeCells.length, byteOf s.pool.freeDescs.length, byteOf s.rx.holdSet.length,
        byteOf s.rx.queue.length, byteOf s.gaps.length, byteOf s.port.reports.length, byteOf s.port.overflow,
        s.statusFlags, s.send.lastCommitted, s.send.lastReleased,
        ResultCode.code s.port.result.code ||| bitAt 7 s.port.result.tag.isSome, s.port.result.tag.getD 0]
    ++ s.counters.bytes

/-- A member's six bytes in the MEMBERS response (R188). -/
def Member.bytes (m : Member) : List Byte :=
  [byteOf5 m.station, stateCodeByte m.state ||| bitAt 4 m.includedMe ||| bitAt 5 m.word.isSome]
    ++ be16 m.settled ++ be16 (m.word.getD 0)

/-- The MEMBERS response: the member count, then the entries in table order (R174, R188). -/
def State.membersResponse (s : State) : List Byte := byteOf s.members.length :: s.members.flatMap Member.bytes

end Sys2Proof.Machine
end

