-- ==== Sys2Proof/Machine/Port.lean ====
section
/-!
DEFINITION. The controller port (R165 to R181): CS_FALL, CS_RISE, the nine commands and UNKNOWN_CODE.
-/

namespace Sys2Proof.Machine

/-! ### Transactions -/

/-- A transaction is open and its command byte has not been decided (R165: one command a transaction). -/
def State.awaiting (s : State) : Bool :=
  match s.port.link with
  | .transaction _ .awaiting => true
  | .transaction _ .incomplete => false
  | .transaction _ (.decided ..) => false
  | .closed => false
  | .ignored => false

/-- A command of the controller port: it has its effect in an open transaction that carries no command yet; bytes
clocked at any other time are ignored (R165, log 5). -/
def command (f : State → State) : State → Host.Outcome State Fault Refusal :=
  event fun s => if s.awaiting then f s else s

/-- The transaction passes to another phase. -/
def State.setPhase (s : State) (p : Phase) : State :=
  match s.port.link with
  | .transaction summary _ => { s with port := { s.port with link := .transaction summary p } }
  | .closed => s
  | .ignored => s

/-- The command is decided after `taken` argument bytes with these response bytes, and the rise of CS# has this
effect. -/
def State.respond (s : State) (taken : Nat) (response : List Byte) (onRise : RiseEffect) : State :=
  s.setPhase (.decided taken response onRise)

/-- What MISO carries at byte `k` of a transaction, counted from 1 (R165): the summary byte, zero filler under the
command byte and the arguments, the response, zero filler; high impedance (`none`) while CS# is high. In a transaction
that is ignored the port gives no byte, and the model has MISO at high impedance there too (log 34). -/
def PortLink.misoByte : PortLink → Nat → Option Byte
  | .closed, _ => none
  | .ignored, _ => none
  | .transaction summary .awaiting, k => some (if k = 1 then summary else 0)
  | .transaction summary .incomplete, k => some (if k = 1 then summary else 0)
  | .transaction summary (.decided taken response _), k =>
    some (if k = 1 then summary else if k < 3 + taken then 0 else response.getD (k - 3 - taken) 0)

/-- The level MISO carries at bit `j` of byte `k` (R165): bytes travel most significant bit first. -/
def PortLink.misoBit (l : PortLink) (k j : Nat) : Option Bool := (l.misoByte k).map fun b => (portBits b).getD j false

/-- The last-command result (R168). -/
def State.setResult (s : State) (code : ResultCode) (tag : Option Tag) : State :=
  { s with port := { s.port with result := ⟨code, tag⟩ } }

/-- A decision whose response is one result byte: START, WORD, LEAVE, an unknown code (R168, R185). -/
def State.answer (s : State) (taken : Nat) (code : ResultCode) : State :=
  (s.setResult code none).respond taken [ResultCode.code code] .nothing

/-- CS_FALL (R166): a transaction opens with its summary byte fixed; while reset is held the fall is ignored, and the
transaction with it (R147, R165). -/
def execCsFall (s : State) : Host.Outcome State Fault Refusal :=
  .next (match s.port.link with
    | .closed =>
      { s with port := { s.port with
          link := if s.pins.resetLow then .ignored else .transaction s.summaryByte .awaiting } }
    | .ignored => s
    | .transaction _ _ => s)

/-- A completed TAKE removes the head record: its storage is freed and handed on (R106, R172, R67). -/
def State.removeHead (s : State) : State :=
  match s.rx.queue with
  | [] => s
  | r :: rest =>
    let s := { s with rx := { s.rx with queue := rest } }
    (match r with
      | .notice n => s.freeNotice n
      | .lost _ _ d => s.freeDesc d
      | .base _ d => s.freeDesc d).handOn

/-- What the rise of CS# does to the transaction that ends (R167, R172, R177), `clocked` whole response bytes having
been clocked out. -/
def State.closeTransaction (s : State) (clocked : Nat) : Phase → State
  | .awaiting => s
  | .incomplete => s.setResult .truncated none
  | .decided _ response .takeHead =>
    if response.length ≤ clocked then
      { s with port := { s.port with takeIncomplete := false } }.removeHead
    else { s with port := { s.port with takeIncomplete := true } }
  | .decided _ response .reportHead =>
    if response.length ≤ clocked then { s with port := { s.port with reports := s.port.reports.tail } } else s
  | .decided _ _ .nothing => s

/-- CS_RISE (R167): the transaction ends. One that was ignored only closes (R165). -/
def execCsRise (clocked : Nat) (s : State) : Host.Outcome State Fault Refusal :=
  let shut := { s with port := { s.port with link := .closed } }
  match s.port.link with
  | .closed => .next s
  | .ignored => .next shut
  | .transaction _ phase => event (fun t => t.closeTransaction clocked phase) shut

/-! ### START -/

/-- The effects of an accepted START (R135), less its result. -/
def State.applyStart (s : State) (c : StartConfig) (word : Word16) : State :=
  { s with
    rx := { count := 0, settled := 0, known := 0, holdSet := [], queue := [], backlog := false }
    gaps := []
    members := []
    counters :=
      { checkFailures := 0, duplicates := 0, replaysDropped := 0, objectionsMarked := 0, ownObjected := 0
        collisions := 0, resendsSent := 0, replaysSent := 0 }
    pool :=
      { s.pool with
        freeCells := (List.range (Config.cells - c.sendSize)).map (c.sendSize + ·)
        freeDescs := List.range Config.recvDescs
        pendingBase := none }
    send :=
      { retained := [], outbound := [], releasePoint := ⟨0, 0⟩, transmitPoint := ⟨0, 0⟩, postEnd := ⟨0, 0⟩
        tagCounter := 0, lastCommitted := 255, lastReleased := 255, room := false, catchUp := none
        releaseWaiting := false }
    line :=
      { s.line with
        rotationBase := 0, displaced := false, yield := false, timing := .busy, ready := false
        collisionCount := 0, collisionsArmed := true, lastCollided := none, ownFrame := none, window := none
        driving := false }
    commit :=
      { provisional := none, objections := 0, congestedArmed := true, congested := false, catchingUp := false }
    port := { s.port with reports := [], overflow := 0, takeIncomplete := false }
    stn :=
      { s.stn with
        config := some c
        word := word
        listenTimer := .running (c.listenMultiple * c.beaconInterval)
        joinTimer := .stopped
        beaconTimer := .stopped
        beaconDue := false
        leaveHeld := false
        joinExpiryHeld := false } }.enterState .listen .start

/-- START (R134, R135): decided at the sixteenth argument byte; with fewer, the arguments are incomplete (R167). -/
def execStart (args : List Byte) (s : State) : Host.Outcome State Fault Refusal :=
  command (fun s =>
    match readStartRecord (args.take 16) with
    | none => s.setPhase .incomplete
    | some (c, attention, word) =>
      if s.stn.state ≠ .idle then s.answer 16 .wrongState
      else if !startInRange c attention then s.answer 16 .badConfig
      else (s.applyStart c word).answer 16 .accepted) s

/-! ### POST -/

/-- A POST is taken in LISTEN, JOINING and ACTIVE (R71, R169). -/
def StationBlock.takesPosts (b : StationBlock) : Bool :=
  match b.state with
  | .listen | .joining | .active => true
  | .idle | .leaving | .halted => false

/-- An accepted post is stored at the post end with the tag of the counter (R58, R72, R73). -/
def State.storePost (s : State) (topic : Topic) (payload : List Byte) : State :=
  let c := cellsFor payload.length
  let n : SendNotice :=
    { number := none, topic := topic, length := payload.length, firstCell := s.send.postEnd.cell
      desc := s.send.postEnd.desc, tag := s.send.tagCounter, marked := false }
  { s with
    pool := { s.pool with
      cells := Memory.writeChain s.pool.cells (ringCells s.cfg.sendSize s.send.postEnd.cell c) payload }
    send := { s.send with
      outbound := s.send.outbound ++ [n]
      postEnd := s.send.postEnd.past s.cfg.sendSize c
      tagCounter := s.send.tagCounter + 1 } }

/-- A POST's response: the result byte, then the tag given or zero filler (R170). -/
def State.answerPost (s : State) (taken : Nat) (code : ResultCode) (tag : Option Tag) : State :=
  (s.setResult code tag).respond taken [ResultCode.code code, tag.getD 0] .nothing

/-- POST (R71, R170): the tests in the order R71 gives. -/
def execPost (args : List Byte) (s : State) : Host.Outcome State Fault Refusal :=
  command (fun s =>
    match readPost args with
    | .incomplete => s.setPhase .incomplete
    | .decided topic len payload =>
      let taken := 2 + payload.length
      if !s.stn.takesPosts then s.answerPost taken .wrongState none
      else if 31 < topic.toNat ∨ Config.maxPayload < len.toNat then s.answerPost taken .badLen none
      else if s.freeSendCells < cellsFor len.toNat ∨ s.freeSendDescs < 1 then s.answerPost taken .noRoom none
      else (s.storePost (topic.setWidth 5) payload).answerPost taken .accepted (some s.send.tagCounter)) s

/-! ### The reading commands -/

/-- TAKE (R172): the head record, or EMPTY; the record leaves at the rise of CS#. -/
def execTake (s : State) : Host.Outcome State Fault Refusal :=
  command (fun s =>
    match s.rx.queue with
    | [] => s.respond 0 emptyResponse .nothing
    | r :: _ => s.respond 0 (deliveryBytes (s.recordPayload r) r) .takeHead) s

/-- PEEK (R173): the head record, or EMPTY; nothing leaves. -/
def execPeek (s : State) : Host.Outcome State Fault Refusal :=
  command (fun s =>
    match s.rx.queue with
    | [] => s.respond 0 emptyResponse .nothing
    | r :: _ => s.respond 0 (deliveryBytes (s.recordPayload r) r) .nothing) s

/-- REPORT (R177): the oldest report, or EMPTY; the record leaves at the rise of CS#. -/
def execReport (s : State) : Host.Outcome State Fault Refusal :=
  command (fun s =>
    match s.port.reports with
    | [] => s.respond 0 emptyResponse .nothing
    | r :: _ => s.respond 0 (reportBytes r) .reportHead) s

/-- STATUS (R178): the record as the fields stand, and the backlog and room event flags cleared. -/
def execStatus (s : State) : Host.Outcome State Fault Refusal :=
  command (fun s =>
    { s with rx := { s.rx with backlog := false }, send := { s.send with room := false } }.respond 0 s.statusRecord
      .nothing) s

/-- MEMBERS (R174). -/
def execMembers (s : State) : Host.Outcome State Fault Refusal :=
  command (fun s => s.respond 0 s.membersResponse .nothing) s

/-! ### WORD, LEAVE and unknown codes -/

/-- WORD (R171): decided at the second argument byte, high byte first (R185). -/
def execWord (args : List Byte) (s : State) : Host.Outcome State Fault Refusal :=
  command (fun s =>
    match args with
    | hi :: lo :: _ =>
      if s.stn.state = .halted then s.answer 2 .wrongState
      else { s with stn := { s.stn with word := of16 hi lo } }.answer 2 .accepted
    | _ => s.setPhase .incomplete) s

/-- LEAVE (R144): at once from LISTEN into IDLE and from JOINING or ACTIVE into LEAVING; held while a frame of the
station's own, with its window, is on the line. On a line that is idle the first offer waits for the next idle moment
(R144, R54); a held LEAVE is taken on a busy line, or with the end of the own window, at the idle moment itself (R23,
log 30). -/
def execLeave (s : State) : Host.Outcome State Fault Refusal :=
  command (fun s =>
    match s.stn.state with
    | .idle | .leaving | .halted => s.answer 0 .wrongState
    | .listen => (s.enterIdle .leaveCommand).answer 0 .accepted
    | .joining | .active =>
      if s.line.ownFrame.isSome then { s with stn := { s.stn with leaveHeld := true } }.answer 0 .accepted
      else s.waitForIdle.enterLeaving.answer 0 .accepted) s

/-- UNKNOWN_CODE (R169): BADCOMMAND, for a byte that names no command. -/
def execUnknownCode (code : Byte) (s : State) : Host.Outcome State Fault Refusal :=
  command (fun s => if commandOf code [] = .unknownCode code then s.answer 0 .badCommand else s) s

end Sys2Proof.Machine
end

