-- ==== Sys2Proof/Machine/Receive.lean ====
section
/-!
DEFINITION. Valid frames from the line (R22, R38 to R41, R84, R95 to R100, R126 to R129, R154 to R158): NOTICE_FRAME_RECEIVED,
REPLAY_RECEIVED, RESEND_RECEIVED and BEACON_RECEIVED.
-/

namespace Sys2Proof.Machine

/-- One more duplicate discarded (R95, R96). -/
def State.countDuplicate (s : State) : State :=
  { s with counters := { s.counters with duplicates := s.counters.duplicates + 1 } }

/-- One more NOTICE frame whose window this station marks (R39). -/
def State.countMark (s : State) : State :=
  { s with counters := { s.counters with objectionsMarked := s.counters.objectionsMarked + 1 } }

/-! ### NOTICE frames -/

/-- This station takes part in the window of a NOTICE frame, in this role and with these marks (R31, R38). -/
def State.openWindow (s : State) (role : WindowRole) (h : Header) (number : LineNo) (full stale : Bool) : State :=
  { s with line := { s.line with
      window := some { role := role, header := h, number := number, markFull := full, markStale := stale
                       turnGap := false, full := false, stale := false } } }

/-- A full receiver's decision at the check pass (R39 to R41, R95): STALE when the number is at or before the count;
else, for a subscribed topic, the claim under the room rule or FULL; else nothing. -/
def State.decideNotice (s : State) (h : Header) (b : NoticeBody) : State :=
  if frameAtOrBefore b.number s.rx.count then
    let s1 := if frameAtOrBefore b.number s.rx.settled || s.knownAt b.number then s.countDuplicate else s
    s1.countMark.openWindow .receiver h b.number false true
  else if s.subscribed b.topic then
    if s.roomRule (cellsFor b.payload.length) then
      let (n, t) := s.storeNotice b.number h.sender b.topic b.payload false none false
      { t with commit := { t.commit with provisional := some n } }.openWindow .receiver h b.number false false
    else s.countMark.openWindow .receiver h b.number true false
  else s.openWindow .receiver h b.number false false

/-- A NOTICE frame at a full receiver (R38): header processing, then the decision, unless the header count was refused
(R45). -/
def State.noticeArrives (h : Header) (b : NoticeBody) (s : State) : State :=
  let (t, goOn) := s.headerProcess h false
  if goOn then t.decideNotice h b else t

/-- NOTICE_FRAME_RECEIVED (R22, R38). In LISTEN the window is only sampled, and adoption follows at its end (R9). -/
def execNoticeFrameReceived (chars : List LineChar) : State → Host.Outcome State Fault Refusal :=
  event fun s =>
    match readFrame chars with
    | some (.notice h b) =>
      s.receiveFrame h (fun s => s.openWindow .adopting h b.number false false) (State.noticeArrives h b)
    | _ => s

/-! ### REPLAY frames -/

/-- A position settled by a notice taken from a REPLAY (R4, R97): the count rises when the number follows it, and the
advance runs. -/
def State.riseAndAdvance (s : State) (n : LineNo) : State :=
  (if follows s.rx.count n then s.raiseCount n (n - 1) else s).advance

/-- An accepted REPLAY (R97, R98): of an unsubscribed topic, the position becomes known; else it is stored under the
reserve test (settled point + 1) or the room rule, or dropped and counted. A rise of the count that the span limit
refuses stores nothing (R12); the span is tested before the storage claim, so a REPLAY that is beyond it and finds no
room is refused (R12) and not dropped (R98), which the manual does not order (log 32). -/
def State.acceptReplay (s : State) (h : Header) (b : NoticeBody) : State :=
  if follows s.rx.count b.number && s.spanRefuses b.number then s.spanResync h.count
  else if !s.subscribed b.topic then (s.makeKnown b.number).riseAndAdvance b.number
  else
    let c := cellsFor b.payload.length
    if if b.number = s.rx.settled + 1 then s.reserveTest c else s.roomRule c then
      let (n, t) := s.storeNotice b.number h.sender b.topic b.payload false none true
      (t.hold n).riseAndAdvance b.number
    else { s with counters := { s.counters with replaysDropped := s.counters.replaysDropped + 1 } }

/-- The classification of a REPLAY against the state that header processing has left (R96, R100). -/
def State.classifyReplay (s : State) (h : Header) (b : NoticeBody) : State :=
  if frameAtOrBefore b.number s.rx.settled then s.countDuplicate
  else if s.knownAt b.number then
    match s.rx.holdSet.find? (·.number == b.number) with
    | some held =>
      if held.originator = h.sender then s.countDuplicate
      else s.countDuplicate.postReport (.numberingConflict b.number held.originator h.sender)
    | none => s.countDuplicate
  else s.acceptReplay h b

/-- A REPLAY at a station on the line (R96). -/
def State.replayArrives (h : Header) (b : NoticeBody) (s : State) : State :=
  let (t, goOn) := s.headerProcess h false
  if goOn then t.classifyReplay h b else t

/-- REPLAY_RECEIVED (R22, R96). In LISTEN it adopts first (R9). -/
def execReplayReceived (chars : List LineChar) : State → Host.Outcome State Fault Refusal :=
  event fun s =>
    match readFrame chars with
    | some (.replay h b) =>
      s.receiveFrame h (fun s => State.replayArrives h b (s.adopt h.count)) (State.replayArrives h b)
    | _ => s

/-! ### RESEND frames -/

/-- A RESEND at a station on the line: suppression of this station's own entries, and the marks on its retained notices
(R84, R126, R128). -/
def State.resendArrives (h : Header) (r : ResendRange) (s : State) : State :=
  let (t, goOn) := s.headerProcess h false
  if goOn then (t.suppress r).markReplays r else t

/-- RESEND_RECEIVED (R22, R126). In LISTEN it adopts first (R129). -/
def execResendReceived (chars : List LineChar) : State → Host.Outcome State Fault Refusal :=
  event fun s =>
    match readFrame chars with
    | some (.resend h r) =>
      s.receiveFrame h (fun s => State.resendArrives h r (s.adopt h.count)) (State.resendArrives h r)
    | _ => s

/-! ### BEACON frames -/

/-- The sender's entry has its included-me flag set. -/
def State.includedBy (s : State) (n : StationNo) : Bool := (s.member n).any (·.includedMe)

/-- The view of a PERIODIC or JOIN beacon (R156 to R158): inclusion, the flag cleared by a JOIN, or exclusion. -/
def State.takeView (s : State) (h : Header) (kind : BeaconKind) (view : Set32) : State :=
  if viewNames view s.line.id then
    let s := s.updateMember h.sender fun e => { e with includedMe := true }
    if s.stn.state = .joining then s.include else s
  else
    match kind with
    | .join => s.updateMember h.sender fun e => { e with includedMe := false }
    | .periodic =>
      if s.includedBy h.sender && s.stn.joinedOrActive then s.resync .resyncExcluded .resyncExcluded h.count else s
    | .leave => s

/-- A BEACON at a station on the line (R151, R154): header processing, the status word, the view. A LEAVE beacon's word
and view are not examined, nor any beacon's in LEAVING. -/
def State.beaconArrives (h : Header) (kind : BeaconKind) (view : Set32) (word : Word16) (s : State) : State :=
  let (t, goOn) := s.headerProcess h (kind == .leave)
  if !goOn || kind == .leave || t.stn.state == .leaving then t
  else (t.takeWord h.sender word).takeView h kind view

/-- BEACON_RECEIVED (R22, R154). In LISTEN it adopts first (R9, R138). -/
def execBeaconReceived (chars : List LineChar) : State → Host.Outcome State Fault Refusal :=
  event fun s =>
    match readFrame chars with
    | some (.beacon h kind view word) =>
      s.receiveFrame h (fun s => State.beaconArrives h kind view word (s.adopt h.count))
        (State.beaconArrives h kind view word)
    | _ => s

end Sys2Proof.Machine
end

