-- ==== Sys2Proof/Machine/Reset.lean ====
section
/-!
DEFINITION. The reset commands (R147): POWER_ON_RESET, RESET_ASSERTED, RESET_RELEASED.
-/

namespace Sys2Proof.Machine

/-- A transaction that meets a reset is abandoned and stays ignored until CS# rises (R147, R165). -/
def PortLink.abandoned : PortLink → PortLink
  | .closed => .closed
  | .ignored => .ignored
  | .transaction _ _ => .ignored

/-- The station as reset is released: every item at its reset value, the straps sampled (R147). CS# keeps its level, the
waiting commands wait on, and the count of drawn free values goes on. -/
def State.released (s : State) (id : StationNo) (rate : BitVec 2) : State :=
  let r := State.atReset id rate
  { r with
    port := { r.port with link := s.port.link.abandoned }
    freeReads := s.freeReads
    pending := s.pending }

/-- POWER_ON_RESET (R147): the internal reset, held until supply and clock are stable and then released, as one step.
While RESET# is low at that moment the station stays held (log 7). -/
def execPowerOnReset (id : StationNo) (rate : BitVec 2) (s : State) : Host.Outcome State Fault Refusal :=
  .next { s.released id rate with pins := { resetLow := s.pins.resetLow, attnLow := false } }

/-- RESET_ASSERTED (R147, R30, R55, R165): DE and ATTN# are released, CS# is ignored, an own frame, a window and a
transaction are abandoned, the last-command result takes its reset value; the other items take theirs at the release
(log 7). -/
def execResetAsserted (s : State) : Host.Outcome State Fault Refusal :=
  .next { s with
    line := { s.line with driving := false, ownFrame := none, window := none }
    port := { s.port with link := s.port.link.abandoned, result := ⟨.none, none⟩ }
    pins := { resetLow := true, attnLow := false } }

/-- RESET_RELEASED (R147): the straps are sampled and the station enters IDLE with every item at its reset value. -/
def execResetReleased (id : StationNo) (rate : BitVec 2) (s : State) : Host.Outcome State Fault Refusal :=
  .next (s.released id rate)

end Sys2Proof.Machine
end

