-- ==== Sys2Proof/Machine/Timers.lean ====
section
/-!
DEFINITION. The timer expiries: listen (R137, R139), join (R141), beacon (R142), repair (R121, R122), presence (R152). An expiry
of a timer that is not running does not arise and changes nothing (log 5).
-/

namespace Sys2Proof.Machine

/-- LISTEN_TIMER_EXPIRY (R137, R139): the station founds. -/
def execListenTimerExpiry : State → Host.Outcome State Fault Refusal :=
  event fun s => if s.stn.state = .listen ∧ s.stn.listenTimer ≠ .stopped then s.found else s

/-- JOIN_TIMER_EXPIRY (R141): join failure, held while the own frame is on the line or a received NOTICE frame's window
is open. -/
def execJoinTimerExpiry : State → Host.Outcome State Fault Refusal :=
  event fun s =>
    if s.stn.state = .joining ∧ s.stn.joinTimer ≠ .stopped then
      if s.line.ownFrame.isSome || s.line.window.isSome then
        { s with stn := { s.stn with joinTimer := .stopped, joinExpiryHeld := true } }
      else s.joinFailure
    else s

/-- BEACON_TIMER_EXPIRY (R142): the timer stops and a beacon is due. -/
def execBeaconTimerExpiry : State → Host.Outcome State Fault Refusal :=
  event fun s =>
    if s.stn.joinedOrActive ∧ s.stn.beaconTimer ≠ .stopped then
      { s with stn := { s.stn with beaconTimer := .stopped, beaconDue := true } }
    else s

/-- What a WAITING entry's expiry makes of it (R121, R122): REQUESTED below the repair limit, LOST at it; the timer is
stopped. -/
def GapEntry.expired (e : GapEntry) (limit : Nat) : GapEntry :=
  { e with state := if e.attempts < limit then .requested else .lost, timer := .stopped }

/-- REPAIR_TIMER_EXPIRY (R121, R122): the WAITING entry that begins at `first` expires; when it is declared LOST the
advance runs (R103). -/
def execRepairTimerExpiry (first : LineNo) : State → Host.Outcome State Fault Refusal :=
  event fun s =>
    match s.gaps.find? fun e => e.first == first && e.state == .waiting with
    | none => s
    | some e =>
      let t := s.updateGap e.id fun g => g.expired s.cfg.repairLimit
      if e.attempts < s.cfg.repairLimit then t else t.advance

/-- PRESENCE_TIMER_EXPIRY (R152): the entry is removed with MEMBER_LOST SILENT, and release is evaluated. -/
def execPresenceTimerExpiry (station : StationNo) : State → Host.Outcome State Fault Refusal :=
  event fun s =>
    match s.member station with
    | none => s
    | some _ => ((s.removeMember station).postReport (.memberLost station .silent)).evaluateRelease

end Sys2Proof.Machine
end

