-- ==== Sys2Proof/Machine/Dispatch.lean ====
section
/-!
DEFINITION. One arm per row of spec/opcode_table.json: the meaning of each command.
-/

namespace Sys2Proof.Machine

/-- The effect of one command on everything but the queue. -/
def exec (i : Instr) (s : State) : Host.Outcome State Fault Refusal :=
  match i with
  | .powerOnReset id rate => Sys2Proof.Machine.execPowerOnReset id rate s
  | .resetAsserted => Sys2Proof.Machine.execResetAsserted s
  | .resetReleased id rate => Sys2Proof.Machine.execResetReleased id rate s
  | .csFall => Sys2Proof.Machine.execCsFall s
  | .csRise clocked => Sys2Proof.Machine.execCsRise clocked s
  | .start args => Sys2Proof.Machine.execStart args s
  | .post args => Sys2Proof.Machine.execPost args s
  | .take => Sys2Proof.Machine.execTake s
  | .peek => Sys2Proof.Machine.execPeek s
  | .report => Sys2Proof.Machine.execReport s
  | .status => Sys2Proof.Machine.execStatus s
  | .members => Sys2Proof.Machine.execMembers s
  | .word args => Sys2Proof.Machine.execWord args s
  | .leave => Sys2Proof.Machine.execLeave s
  | .unknownCode code => Sys2Proof.Machine.execUnknownCode code s
  | .lineIdle => Sys2Proof.Machine.execLineIdle s
  | .slotBegins slot dominant => Sys2Proof.Machine.execSlotBegins slot dominant s
  | .frameSent => Sys2Proof.Machine.execFrameSent s
  | .collision => Sys2Proof.Machine.execCollision s
  | .checkFailure chars => Sys2Proof.Machine.execCheckFailure chars s
  | .noticeFrameReceived chars => Sys2Proof.Machine.execNoticeFrameReceived chars s
  | .replayReceived chars => Sys2Proof.Machine.execReplayReceived chars s
  | .resendReceived chars => Sys2Proof.Machine.execResendReceived chars s
  | .beaconReceived chars => Sys2Proof.Machine.execBeaconReceived chars s
  | .windowPosition pos dominant => Sys2Proof.Machine.execWindowPosition pos dominant s
  | .windowEndReceiver => Sys2Proof.Machine.execWindowEndReceiver s
  | .windowEndSender => Sys2Proof.Machine.execWindowEndSender s
  | .listenTimerExpiry => Sys2Proof.Machine.execListenTimerExpiry s
  | .joinTimerExpiry => Sys2Proof.Machine.execJoinTimerExpiry s
  | .beaconTimerExpiry => Sys2Proof.Machine.execBeaconTimerExpiry s
  | .repairTimerExpiry first => Sys2Proof.Machine.execRepairTimerExpiry first s
  | .presenceTimerExpiry station => Sys2Proof.Machine.execPresenceTimerExpiry station s
  | .lineActivity startBit => Sys2Proof.Machine.execLineActivity startBit s

end Sys2Proof.Machine
end

