-- ==== Sys2Proof/Safety.lean ====
section
/-!
DEFINITION. What statements are said in: the two conditions under which an event has its effect, the state at a frame's
check pass, and the invariants of the station.
-/

namespace Sys2Proof.Machine

/-! ### Words of the statements -/

/-- The commands that sample the straps (R147). -/
def samplesStraps : Instr → Bool
  | .powerOnReset _ _ => true
  | .resetReleased _ _ => true
  | _ => false

/-- The commands a station held in reset still answers to (R147, R165): the resets, and the level of CS#. -/
def actsInReset : Instr → Bool
  | .powerOnReset _ _ => true
  | .resetAsserted => true
  | .resetReleased _ _ => true
  | .csFall => true
  | .csRise _ => true
  | _ => false

/-- The commands of the controller port that stand in a transaction (R169). -/
def portCommand : Instr → Bool
  | .start _ | .post _ | .take | .peek | .report | .status | .members | .word _ | .leave | .unknownCode _ => true
  | _ => false

/-- The events of the notice line and of the station's own timing (R16 to R33, R137 to R142, R121, R152). -/
def lineEvent : Instr → Bool
  | .lineIdle | .slotBegins _ _ | .frameSent | .collision | .checkFailure _ | .noticeFrameReceived _
  | .replayReceived _ | .resendReceived _ | .beaconReceived _ | .windowPosition _ _ | .windowEndReceiver
  | .windowEndSender | .listenTimerExpiry | .joinTimerExpiry | .beaconTimerExpiry | .repairTimerExpiry _
  | .presenceTimerExpiry _ | .lineActivity _ => true
  | _ => false

/-- ATTN# is low exactly while a cause in the attention set is present, and released while reset is held (R181, R147). -/
def AttnFollows (s : State) : Prop := s.pins.attnLow = (!s.pins.resetLow && s.attentionWanted)

/-- The station is not held in reset, and ATTN# follows its causes. -/
def Live (s : State) : Prop := s.pins.resetLow = false ∧ AttnFollows s

/-- The state in which a valid frame's own processing begins (R22): the frame has ended at this station, and its sender
has set the rotation base and cleared the displaced flag (R25, R26). -/
def State.arrival (s : State) (h : Header) : State :=
  { s with line :=
    { s.line with ready := false, timing := .busy, rotationBase := h.sender + 1, displaced := false } }

/-- The event of a valid frame's check pass, by its kind (R22). -/
def frameEvent (chars : List LineChar) : Frame → Instr
  | .notice _ _ => .noticeFrameReceived chars
  | .replay _ _ => .replayReceived chars
  | .resend _ _ => .resendReceived chars
  | .beacon _ _ _ _ => .beaconReceived chars

/-- A valid frame from another station is at its check pass at a station that hears the line (R22). -/
def Arrives (s : State) (chars : List LineChar) (f : Frame) : Prop :=
  Live s ∧ s.receiving = true ∧ readFrame chars = some f ∧ (Frame.header f).sender ≠ s.line.id

/-- The tests of R20 on a frame's fields, kind by kind, with the payload's bound (R18): the sender states each kind may carry, a
NOTICE's number one above its sender count, a REPLAY's that does not follow its sender count, a closed RESEND's last that
neither precedes its first nor is unordered against it, and a view without the frame's own sender. -/
def FieldsPass : Frame → Prop
  | .notice h b => h.senderState = .active ∧ b.number = h.count + 1 ∧ b.payload.length ≤ 64
  | .replay h b =>
    (h.senderState = .joining ∨ h.senderState = .active)
      ∧ ¬(1 ≤ (b.number - h.count).toNat ∧ (b.number - h.count).toNat ≤ 32767) ∧ b.payload.length ≤ 64
  | .resend h (.closed first last) =>
    (h.senderState = .joining ∨ h.senderState = .active) ∧ (last - first).toNat ≤ 32767
  | .resend h (.openFrom _) => h.senderState = .joining ∨ h.senderState = .active
  | .beacon h kind view _ =>
    (kind = .join ∧ h.senderState = .joining ∨ kind = .periodic ∧ h.senderState = .active
        ∨ kind = .leave ∧ h.senderState = .leaving)
      ∧ view.getLsbD h.sender.toNat = false

/-- A frame's bytes up to its check, at R183's offsets (R182, R183). A receiver ignores bits 7..1 of a RESEND's flags, and its last
when the open flag is set. -/
def LaidOut (f : Frame) (bytes : List Byte) : Prop :=
  let word (w : BitVec 16) : List Byte := [w.extractLsb' 8 8, w.extractLsb' 0 8]
  let code : StationState → BitVec 3
    | .idle => 0 | .listen => 1 | .joining => 2 | .active => 3 | .leaving => 4 | .halted => 5
  let header (kind : Byte) (h : Header) : List Byte :=
    [kind, code h.senderState ++ h.sender] ++ word h.count ++ word h.settled
  let notice (b : NoticeBody) : List Byte :=
    word b.number ++ [b.topic.setWidth 8, BitVec.ofNat 8 b.payload.length] ++ b.payload
  match f with
  | .notice h b => bytes = header 0x11 h ++ notice b
  | .replay h b => bytes = header 0x12 h ++ notice b
  | .resend h (.closed first last) => ∃ flags : Byte, flags.getLsbD 0 = false
      ∧ bytes = header 0x21 h ++ word first ++ [flags] ++ word last
  | .resend h (.openFrom first) => ∃ (flags : Byte) (ignored : BitVec 16), flags.getLsbD 0 = true
      ∧ bytes = header 0x21 h ++ word first ++ [flags] ++ word ignored
  | .beacon h kind view w => bytes = header 0x31 h
      ++ [match kind with | .periodic => 1 | .join => 2 | .leave => 3]
      ++ [view.extractLsb' 24 8, view.extractLsb' 16 8, view.extractLsb' 8 8, view.extractLsb' 0 8] ++ word w

/-- The transaction of `s`, decided after `taken` argument bytes with this response and this effect at the rise. -/
def decidedIn (s : State) (x : Byte) (taken : Nat) (response : List Byte) (e : RiseEffect) : PortBlock :=
  { s.port with link := .transaction x (.decided taken response e) }

/-- The straps of a release and the reset value of every item (R147's table). -/
def AtReset (t : State) (id : StationNo) (rate : BitVec 2) : Prop :=
  t.line.id = id ∧ t.line.rate = rate ∧ t.stn.state = .idle ∧ t.stn.config = none ∧ t.stn.word = 0
    ∧ t.rx = { count := 0, settled := 0, known := 0, holdSet := [], queue := [], backlog := false }
    ∧ t.pool.freeCells = [] ∧ t.pool.freeDescs = List.range 64 ∧ t.pool.pendingBase = none
    ∧ t.port.reports = [] ∧ t.port.overflow = 0 ∧ t.port.takeIncomplete = false ∧ t.port.result = ⟨.none, none⟩
    ∧ t.gaps = [] ∧ t.members = []
    ∧ t.send.outbound = [] ∧ t.send.retained = [] ∧ t.send.tagCounter = 0 ∧ t.send.lastCommitted = 255
    ∧ t.send.lastReleased = 255 ∧ t.send.room = false ∧ t.send.catchUp = none
    ∧ t.send.releasePoint = ⟨0, 0⟩ ∧ t.send.transmitPoint = ⟨0, 0⟩ ∧ t.send.postEnd = ⟨0, 0⟩
    ∧ t.line.rotationBase = 0 ∧ t.line.displaced = false ∧ t.line.yield = false ∧ t.line.collisionCount = 0
    ∧ t.line.collisionsArmed = true ∧ t.line.ownFrame = none ∧ t.line.window = none ∧ t.line.driving = false
    ∧ t.line.timing = .off
    ∧ t.commit = { provisional := none, objections := 0, congestedArmed := true, congested := false, catchingUp := false }
    ∧ t.stn.listenTimer = .stopped ∧ t.stn.joinTimer = .stopped ∧ t.stn.beaconTimer = .stopped
    ∧ t.stn.beaconDue = false ∧ t.stn.joinBeacons = 0 ∧ t.stn.leaveHeld = false ∧ t.stn.joinExpiryHeld = false
    ∧ t.counters = { checkFailures := 0, duplicates := 0, replaysDropped := 0, objectionsMarked := 0, ownObjected := 0
                     collisions := 0, resendsSent := 0, replaysSent := 0 }
    ∧ t.pins.attnLow = false

/-- A slot that is the station's own begins on an idle line (R24): nothing of its own is on the line, no window is open. -/
def AtSlot (s : State) (p : Slot) : Prop :=
  Live s ∧ s.line.timing = .idle p ∧ s.line.ownFrame = none ∧ s.line.window = none

/-- The line interface when a frame starts (R24, R26, R29). -/
def LineBlock.started (l : LineBlock) (c : Candidate) (f : Frame) : LineBlock :=
  { l with
    yield := false
    collisionCount := if l.lastCollided = some c then l.collisionCount else 0
    ownFrame := some { candidate := c, frame := f, sent := false }
    timing := .busy
    driving := true }

/-- The line interface when a frame is sent (R25, R26, R27, R29). -/
def LineBlock.afterSent (l : LineBlock) : LineBlock :=
  { l with
    rotationBase := l.id + 1, displaced := false, collisionCount := 0, collisionsArmed := true, lastCollided := none
    ownFrame := none, timing := .busy, ready := false, driving := false }

/-- The station state machine when a frame is sent (R142): in JOINING and ACTIVE the beacon timer restarts. -/
def State.beaconRestarted (s : State) : StationBlock :=
  if s.stn.state = .joining ∨ s.stn.state = .active then
    { s.stn with beaconTimer := .running s.cfg.beaconInterval }
  else s.stn

/-- The line interface once the yield flag is set (R26): on a line that is idle the access position becomes 32 + own number
at once (R138, R139, log 29). -/
def LineBlock.yielded (l : LineBlock) : LineBlock :=
  { l with
    yield := true
    timing := match l.timing with
      | .idle _ => .idle (32 + l.id.setWidth 6)
      | .busy => .busy
      | .awaitsIdle => .awaitsIdle
      | .off => .off }

/-- The eighth collision of one candidate while the report is armed (R29). -/
def LineBlock.eighthCollision (l : LineBlock) : Bool := l.collisionCount + 1 == 8 && l.collisionsArmed

/-- The line interface when a frame ends in collision (R28, R29). -/
def LineBlock.afterCollision (l : LineBlock) (c : Candidate) : LineBlock :=
  { l with
    yield := true, collisionCount := min (l.collisionCount + 1) 255
    collisionsArmed := l.collisionsArmed && !l.eighthCollision
    lastCollided := some c, ownFrame := none, ready := true, timing := .busy, driving := false }

/-- The position after the settled point is unknown and in no LOST entry, and no BASE record waits: the delivery advance
has nothing to do (R101). -/
def NothingToAdvance (s : State) : Prop :=
  s.pool.pendingBase = none ∧ (∀ h ∈ s.rx.holdSet, h.number ≠ s.rx.settled + 1)
    ∧ s.knownAt (s.rx.settled + 1) = false ∧ s.lostAt (s.rx.settled + 1) = false

/-- How far `n` lies after the settled point. -/
def State.ahead (s : State) (n : LineNo) : Nat := (n - s.rx.settled).toNat

/-- The delivery advance stops before its first step (R101, R102): a BASE record waits (R68), or the position after the
settled point is unknown, held by no notice, and in no LOST entry or without a free descriptor for its LOST record. -/
def AdvanceRests (s : State) : Prop :=
  s.pool.pendingBase ≠ none
    ∨ (∀ h ∈ s.rx.holdSet, h.number ≠ s.rx.settled + 1) ∧ s.knownAt (s.rx.settled + 1) = false
        ∧ (s.lostAt (s.rx.settled + 1) = false ∨ s.pool.freeDescs = [])

/-- The LOST record from the position after the settled point to `last` covers its run (R102): unknown positions in LOST
entries, up to the first position that is known or in no LOST entry. -/
def LostRun (s : State) (lostIn : LineNo → Prop) (last : LineNo) : Prop :=
  1 ≤ s.ahead last
    ∧ (∀ n, 1 ≤ s.ahead n → s.ahead n ≤ s.ahead last → s.knownAt n = false ∧ lostIn n)
    ∧ (s.knownAt (last + 1) = true ∨ ¬lostIn (last + 1))

/-- No LEAVE and no join expiry is held for the end of the frame or window (R141, R144). -/
def NothingHeld (s : State) : Prop := s.stn.leaveHeld = false ∧ s.stn.joinExpiryHeld = false

/-- The member table once the horizon has been applied at count `n` (R15): the entries whose reported settled point lies within
16384 of it, in their order. -/
def State.keptAtHorizon (s : State) (n : LineNo) : List Member :=
  s.members.filter fun x => decide (distance x.settled n ≤ 16384)

/-- The reports of the horizon at count `n` (R15): one MEMBER_LOST of cause HORIZON for each entry beyond it, in
station-number order (log 12). -/
def State.horizonReports (s : State) (n : LineNo) : List Report :=
  (s.members.filter fun x => decide (16384 < distance x.settled n)).map fun x => .memberLost x.station .horizon

/-- The send block once the horizon has been applied at count `n` (R15): where an entry goes, release is evaluated once, over the
entries that stay; else as it stands. -/
def State.releasedAtHorizon (s : State) (n : LineNo) : SendBlock :=
  if s.horizonReports n = [] then s.send else { s with members := s.keptAtHorizon n }.evaluateRelease.send

/-- What appending does to the backlog event flag where the queue held `level` records before (R107): raised by a level that
goes from at or below the backlog limit to above it, else as it stood. -/
def BacklogFollows (s t : State) (level : Nat) : Prop :=
  t.rx.backlog = (s.rx.backlog
    || (decide (level ≤ s.cfg.backlogLimit) && decide (s.cfg.backlogLimit < t.rx.queue.length)))

/-- What the settled point's move from `s` to `t` leaves of the gap table `gaps` (R118, R119): of the entries in their order,
those that end at or before it are gone, those that begin after it stay as they are, and one that reaches past it begins right
after it, and goes when none of its positions is missing. -/
def GapsTrimmed (s : State) (gaps : List GapEntry) (t : State) : Prop :=
  t.gaps = gaps.filterMap fun e =>
    if s.ahead e.last ≤ s.ahead t.rx.settled then none
    else if s.ahead t.rx.settled < s.ahead e.first then some e
    else if t.missing { e with first := t.rx.settled + 1 } = [] then none
    else some { e with first := t.rx.settled + 1 }

/-- The receive order (R6, R12, R92, R94, R112): the count lies at most 256 after the settled point; every known position,
held number and gap entry lies after the settled point and at or before the count; a held position is known. -/
def OrderSound (s : State) : Prop :=
  s.ahead s.rx.count ≤ 256
    ∧ (∀ i, s.ahead s.rx.count ≤ i → s.rx.known.getLsbD i = false)
    ∧ (∀ n ∈ s.rx.holdSet, s.knownAt n.number = true)
    ∧ s.rx.holdSet.Pairwise (fun a b => s.ahead a.number < s.ahead b.number)
    ∧ (∀ e ∈ s.gaps, 1 ≤ s.ahead e.first ∧ s.ahead e.first ≤ s.ahead e.last ∧ s.ahead e.last ≤ s.ahead s.rx.count)
    ∧ s.gaps.Pairwise (fun a b => s.ahead a.last < s.ahead b.first ∧ a.id < b.id)
    ∧ (∀ e ∈ s.gaps, e.id < s.nextGapId)
    ∧ s.gaps.length ≤ 8

/-- What handing freed storage on may leave (R67, R101): appends to the delivery queue with the backlog event flag following
them, and the gap table trimmed to the settled point. -/
def HandedOn (s t : State) : Prop :=
  (∃ more, t.rx.queue = s.rx.queue ++ more) ∧ BacklogFollows s t s.rx.queue.length
    ∧ (OrderSound s → GapsTrimmed s s.gaps t)

/-- What a rise of the count from `m` to `n` does, with the missing range up to `last` (R2, R5, R12, R15, R53, R114 to R116): the
catch-up ends; the members it leaves beyond the horizon go, each with its report (in station-number order, log 12), and release
is evaluated once after them all; the range opens an entry, or with eight entries extends the newest, a LOST one with
GAP_OVERFLOW, which stands before or after the horizon's reports (log 11). -/
def CountRaised (m t : State) (n last : LineNo) : Prop :=
  let lost := m.horizonReports n
  let overflow : Report := .gapOverflow (m.rx.count + 1) last
  t.rx.count = n ∧ t.commit = { m.commit with catchingUp := false }
    ∧ t.members = m.keptAtHorizon n ∧ t.send = { m.releasedAtHorizon n with catchUp := none }
    ∧ (last = m.rx.count → t.port = (m.postReports lost).port ∧ t.gaps = m.gaps)
    ∧ (last ≠ m.rx.count →
      (m.gaps.length < 8 → t.port = (m.postReports lost).port
        ∧ t.gaps = m.gaps ++
          [{ id := m.nextGapId, first := m.rx.count + 1, last := last, attempts := 0, state := .waiting
             timer := .running m.cfg.repairInterval }])
      ∧ ∀ before e, m.gaps = before ++ [e] → m.gaps.length = 8 →
        (e.state ≠ .lost → t.port = (m.postReports lost).port
          ∧ t.gaps = before ++ [{ e with
              last := last, attempts := 0, state := .waiting, timer := .running m.cfg.repairInterval }])
        ∧ (e.state = .lost →
            (t.port = ((m.postReports lost).postReport overflow).port
              ∨ t.port = ((m.postReport overflow).postReports lost).port)
            ∧ (OrderSound m → AdvanceRests m → t.gaps = before ++ [{ e with last := last }])))

/-- Where a BASE record goes (R68, R104, R107): to the tail of the queue with the first free descriptor, or to the pending-BASE
register, superseding a record there. -/
def BaseEmitted (s t : State) (free : List Nat) (reason : BaseReason) (number : LineNo) : Prop :=
  BacklogFollows s t s.rx.queue.length ∧ match free with
  | d :: ds =>
    t.rx.queue = s.rx.queue ++ [.base { reason := reason, number := number, superseded := false } d]
      ∧ t.pool.freeDescs = ds ∧ t.pool.pendingBase = none
  | [] =>
    t.rx.queue = s.rx.queue ∧ t.pool.freeDescs = []
      ∧ t.pool.pendingBase
        = some { reason := reason, number := number, superseded := s.pool.pendingBase.isSome }

/-- What adoption at `n` leaves (R9, R138): both numbers set, a BASE record, the timers, the due beacon, the yield flag. -/
def AdoptedAt (s t : State) (n : LineNo) : Prop :=
  t.rx.count = n ∧ t.rx.settled = n ∧ t.rx.known = 0 ∧ t.rx.holdSet = [] ∧ t.gaps = []
    ∧ BaseEmitted s t s.pool.freeDescs .joined n
    ∧ t.stn.listenTimer = .stopped ∧ t.stn.beaconTimer = .running s.cfg.beaconInterval ∧ t.stn.beaconDue = true
    ∧ t.stn.joinBeacons = 0 ∧ t.line.yield = true ∧ t.line.window = none
    ∧ t.stn.config = s.stn.config ∧ t.stn.word = s.stn.word ∧ t.send.outbound = s.send.outbound
    ∧ t.send.tagCounter = s.send.tagCounter ∧ t.pool.freeCells = s.pool.freeCells

/-- The station right after adoption at `n` (R9, R15, R138), JOINING, before the adopting frame is processed: the members that the
horizon keeps stay, with their included-me flags clear; the STATE report follows the horizon's reports (log 27). -/
def AdoptedJoining (s a : State) (n : LineNo) : Prop :=
  AdoptedAt s a n
    ∧ a.stn = { s.stn with
        state := .joining, listenTimer := .stopped, joinTimer := .running (8 * s.cfg.beaconInterval)
        beaconTimer := .running s.cfg.beaconInterval, beaconDue := true, joinBeacons := 0 }
    ∧ a.members = (s.keptAtHorizon n).map (fun m => { m with includedMe := false })
    ∧ a.send = s.releasedAtHorizon n ∧ a.commit = s.commit ∧ a.counters = s.counters ∧ a.pool.cells = s.pool.cells
    ∧ a.port = ((s.postReports (s.horizonReports n)).postReport (.stateChange .listen .joining .adoption)).port

/-- The retained notices that an evaluation of release leaves (R78, R81): from the first that is not due, or whose REPLAY
is on the line. -/
def State.keptByRelease (s : State) : List SendNotice :=
  s.send.retained.dropWhile fun n => s.releaseDue n && !s.replayOnLine n

/-- The send block after the release that waited for a REPLAY frame, taken at its end (R80, R81, R82), when the retained span
with its marks is then `span`: from the release point on, every notice that is due leaves. -/
def State.releasedAtReplayEnd (s : State) (span : List SendNotice) : SendBlock :=
  let kept := span.dropWhile fun n => s.releaseDue n
  let gone := span.takeWhile fun n => s.releaseDue n
  { s.send with
    retained := kept
    releasePoint := gone.foldl (fun p n => p.past s.cfg.sendSize (cellsFor n.length)) s.send.releasePoint
    lastReleased := (gone.getLast?.map (·.tag)).getD s.send.lastReleased
    room := s.send.room
      || (decide (s.freeSendCells ≤ s.cfg.roomLimit)
        && decide (s.cfg.roomLimit < s.cfg.sendSize - (sendCellsOf kept + sendCellsOf s.send.outbound)))
    releaseWaiting := false }

/-- Every notice that occupies receive storage, but for delivery records: held and provisional (R63). -/
def State.storedNotices (s : State) : List RxNotice := s.rx.holdSet ++ s.commit.provisional.toList

/-- The discards of entry into IDLE and HALTED at the receive side (R110, R145): the delivery queue, its flag, the waiting BASE
record and the cells' bytes stay, and what the held notices and the provisional one occupied is free again, each once, in
log 13's order. -/
def ReceiveSideFreed (s t : State) : Prop :=
  t.rx.queue = s.rx.queue ∧ t.rx.backlog = s.rx.backlog
    ∧ t.pool = { s.pool with
        freeCells := s.pool.freeCells ++ s.storedNotices.flatMap (·.chain)
        freeDescs := s.pool.freeDescs ++ s.storedNotices.map (·.desc) }

/-- The receive cells a delivery record occupies (R63). -/
def DeliveryRecord.cells : DeliveryRecord → List Nat
  | .notice n => n.chain
  | .lost .. => []
  | .base .. => []

/-- The receive descriptor a delivery record occupies (R63). -/
def DeliveryRecord.descriptor : DeliveryRecord → Nat
  | .notice n => n.desc
  | .lost _ _ d => d
  | .base _ d => d

/-- Records that stand in the order of delivery (R14): a period runs at `base`, it has come `done` positions past it, and the
records bring the delivery to at most `stop` positions past `base'`. Within a period a NOTICE record's number, and a LOST
record's first, lie after the place reached, and a LOST record reaches to its last; a BASE record begins a period at its
number. No record lies more than `span` positions past the base of its period here, so the order is R1's. -/
def InOrder (span : Nat) : LineNo → Nat → List DeliveryRecord → LineNo → Nat → Prop
  | base, done, [], base', stop => base' = base ∧ done ≤ stop ∧ stop ≤ span
  | base, done, .notice n :: rest, base', stop =>
    done < (n.number - base).toNat ∧ (n.number - base).toNat ≤ span
      ∧ InOrder span base (n.number - base).toNat rest base' stop
  | base, done, .lost first last _ :: rest, base', stop =>
    done < (first - base).toNat ∧ (first - base).toNat ≤ (last - base).toNat ∧ (last - base).toNat ≤ span
      ∧ InOrder span base (last - base).toNat rest base' stop
  | _, _, .base b _ :: rest, base', stop => InOrder span b.number 0 rest base' stop

/-- What a step makes of the delivery queue (R14): at most the head leaves, and the records appended stand in order from the
settled point on, the last of them at or before the new settled point, which no step moves by more than 1024 but to a BASE
record's number: such a record is then among those appended, or it waits. (An order of all the queue's records by R1 holds
step by step only: positions of no subscribed topic may separate two of them by any distance.) -/
def DeliveredInOrder (s t : State) : Prop :=
  ∃ (gone : Nat) (more : List DeliveryRecord) (base : LineNo) (stop : Nat), gone ≤ 1
    ∧ t.rx.queue = s.rx.queue.drop gone ++ more
    ∧ InOrder 1024 s.rx.settled 0 more base stop
    ∧ (t.pool.pendingBase = none → (t.rx.settled - base).toNat = stop)

/-- The commands that empty the delivery queue (R110). -/
def emptiesQueue : Instr → Bool
  | .powerOnReset _ _ | .resetReleased _ _ | .start _ => true
  | _ => false

/-! ### Invariants -/

/-- Counts that saturate, and the report queue's bound (R29, R51, R141, R175). -/
def CountsBounded (s : State) : Prop :=
  s.port.reports.length ≤ 16 ∧ s.port.overflow ≤ 255 ∧ s.line.collisionCount ≤ 255 ∧ s.commit.objections ≤ 255
    ∧ s.stn.joinBeacons ≤ 255

/-- What a window's role says of the station (R31, R38): the sender's own NOTICE frame was sent; a full receiver has no
frame of its own; in LISTEN the window is only sampled, the listen timer is stopped, and the frame's sender is another
station in ACTIVE. -/
def WindowSound (s : State) (w : Window) : Prop :=
  match w.role with
  | .sender => (∃ f, s.line.ownFrame = some f ∧ f.sent = true) ∧ w.markFull = false ∧ w.markStale = false
  | .receiver => s.line.ownFrame = none ∧ s.stn.onLine = true
  | .adopting =>
    s.line.ownFrame = none ∧ s.stn.state = .listen ∧ s.stn.listenTimer = .stopped ∧ w.header.sender ≠ s.line.id
      ∧ w.header.senderState = .active ∧ w.markFull = false ∧ w.markStale = false

/-- What an own frame says of the station (R27, R30, R34): it stands only in JOINING, ACTIVE and LEAVING; a NOTICE
candidate carries a NOTICE frame; before it is sent there is no window, and after it there is the sender's. -/
def OwnFrameSound (s : State) (f : OwnFrame) : Prop :=
  s.stn.onLine = true ∧ ((∃ tag, f.candidate = .notice tag) → ∃ h b, f.frame = .notice h b)
    ∧ (f.sent = false → s.line.window = none)
    ∧ (f.sent = true → ∃ w, s.line.window = some w ∧ w.role = .sender)

/-- The line interface (R16, R23, R31): own frame and window are sound; line timing is held exactly where the station
hears the line; the station drives only an own frame not yet sent or a marked window. -/
def LineSound (s : State) : Prop :=
  (∀ f, s.line.ownFrame = some f → OwnFrameSound s f)
    ∧ (∀ w, s.line.window = some w → WindowSound s w)
    ∧ (s.line.timing = .off ↔ s.stn.hearsLine = false)
    ∧ (s.line.driving = true →
        (∃ f, s.line.ownFrame = some f ∧ f.sent = false)
          ∨ ∃ w, s.line.window = some w ∧ (w.markFull = true ∨ w.markStale = true))

/-- The member table (R148, R15): entries in increasing order of station number, none of this station's own, each in
reported state JOINING or ACTIVE and within the member horizon of the count. -/
def MembersSound (s : State) : Prop :=
  s.members.Pairwise (fun a b => a.station.toNat < b.station.toNat)
    ∧ ∀ m ∈ s.members, m.station ≠ s.line.id ∧ (m.state = .joining ∨ m.state = .active)
        ∧ distance m.settled s.rx.count ≤ 16384

/-- Off the line (IDLE, LISTEN, HALTED) the station stores nothing (R92, R113, R37); in IDLE and HALTED it holds nothing of
the line at all (R132, R145, R146): no notice to send, no member, no timer, no due beacon, no request. -/
def OffLineEmpty (s : State) : Prop :=
  (s.stn.onLine = false →
    s.rx.holdSet = [] ∧ s.rx.known = 0 ∧ s.gaps = [] ∧ s.commit.provisional = none ∧ s.line.ownFrame = none)
  ∧ (s.stn.state = .idle ∨ s.stn.state = .halted →
    s.send.retained = [] ∧ s.send.outbound = [] ∧ s.send.catchUp = none ∧ s.members = []
      ∧ s.commit.catchingUp = false ∧ s.commit.objections = 0 ∧ s.commit.congested = false
      ∧ s.line.window = none ∧ s.line.driving = false ∧ s.line.timing = .off
      ∧ s.stn.listenTimer = .stopped ∧ s.stn.joinTimer = .stopped ∧ s.stn.beaconTimer = .stopped
      ∧ s.stn.beaconDue = false ∧ s.stn.leaveHeld = false ∧ s.stn.joinExpiryHeld = false)

/-- While a BASE record waits (R68): no descriptor is free, nothing is held, and no provisional notice exists. -/
def PendingBaseSound (s : State) : Prop :=
  s.pool.pendingBase ≠ none → s.pool.freeDescs = [] ∧ s.rx.holdSet = [] ∧ s.commit.provisional = none

/-- A BASE record that waits carries the settled point as its number (R68, R104): the settled point stands while it waits. -/
def BaseWaitsAtSettled (s : State) : Prop := ∀ b, s.pool.pendingBase = some b → b.number = s.rx.settled

/-- A provisional notice lives only for an own NOTICE frame or an open window (R37); a station held in reset gives it up
at the release. -/
def ProvisionalSound (s : State) : Prop :=
  s.commit.provisional ≠ none → s.pins.resetLow = false →
    (∃ f tag, s.line.ownFrame = some f ∧ f.candidate = .notice tag)
      ∨ ∃ w, s.line.window = some w ∧ w.role = .receiver

/-- Receive storage is conserved (R70): the free cells and the cells of held notices, of the provisional notice and of the
delivery queue's records are together the receive region, each once; the same for the 64 descriptors. -/
def StorageConserved (s : State) : Prop :=
  (s.pool.freeCells ++ s.storedNotices.flatMap (·.chain) ++ s.rx.queue.flatMap DeliveryRecord.cells).Perm
      ((List.range s.receiveSize).map fun i => s.cfg.sendSize + i)
    ∧ (s.pool.freeDescs ++ s.storedNotices.map (·.desc) ++ s.rx.queue.map DeliveryRecord.descriptor).Perm
      (List.range 64)

/-- Every notice in receive storage has the cells of its length, and a length that a payload can have (R57, R63). -/
def ChainsSized (s : State) : Prop :=
  ∀ n, n ∈ s.storedNotices ∨ .notice n ∈ s.rx.queue → n.chain.length = cellsFor n.length ∧ n.length ≤ 64

/-- A run of notices lies on the send ring from one point to another, in ring order (R58). -/
def RingLaid (size : Nat) (p : RingPoint) : List SendNotice → RingPoint → Prop
  | [], q => p = q
  | n :: rest, q => n.firstCell = p.cell ∧ n.desc = p.desc ∧ RingLaid size (p.past size (cellsFor n.length)) rest q

/-- Post tags run consecutively, modulo 256 (R72). -/
def TagsRun (t : Tag) : List SendNotice → Tag → Prop
  | [], u => t = u
  | n :: rest, u => n.tag = t ∧ TagsRun (t + 1) rest u

/-- The send queue (R58, R59, R61, R72, R76, R77): the two spans lie on the ring between its three points, within S cells
and 32 descriptors; their tags run consecutively up to the tag counter; retained notices carry numbers, outbound notices
none and no mark; no payload is longer than 64 bytes. -/
def SendSound (s : State) : Prop :=
  RingLaid s.cfg.sendSize s.send.releasePoint s.send.retained s.send.transmitPoint
    ∧ RingLaid s.cfg.sendSize s.send.transmitPoint s.send.outbound s.send.postEnd
    ∧ sendCellsOf s.send.retained + sendCellsOf s.send.outbound ≤ s.cfg.sendSize
    ∧ s.send.retained.length + s.send.outbound.length ≤ 32
    ∧ (∃ t, TagsRun t (s.send.retained ++ s.send.outbound) s.send.tagCounter)
    ∧ (∀ n ∈ s.send.retained, n.number ≠ none)
    ∧ (∀ n ∈ s.send.outbound, n.number = none ∧ n.marked = false)
    ∧ ∀ n ∈ s.send.retained ++ s.send.outbound, n.length ≤ 64

/-- Retained numbers strictly increase from the release point to the transmit point (R76), each following the one before it;
and the number of an own NOTICE frame, on the line or in its window, follows the newest of them. -/
def RetainedRise (s : State) : Prop :=
  s.send.retained.IsChain (fun a b => follows a.lineNo b.lineNo = true)
    ∧ ∀ newest, s.send.retained.getLast? = some newest →
      (∀ f h b, s.line.ownFrame = some f → f.frame = .notice h b → follows newest.lineNo b.number = true)
        ∧ ∀ w, s.line.window = some w → w.role = .sender → follows newest.lineNo w.number = true

/-- Every unknown position after the settled point and at or before the count lies in a gap entry (R112), at a station on
the line. -/
def GapsCover (s : State) : Prop :=
  s.stn.onLine = true →
    ∀ n, 1 ≤ s.ahead n → s.ahead n ≤ s.ahead s.rx.count → s.knownAt n = false →
      ∃ e ∈ s.gaps, s.ahead e.first ≤ s.ahead n ∧ s.ahead n ≤ s.ahead e.last

/-- The number a NOTICE frame carries while its sender or a receiver works on it (R4, R39, R46): one above the count. -/
def StampSound (s : State) : Prop :=
  (∀ f h b, s.line.ownFrame = some f → f.frame = .notice h b → b.number = s.rx.count + 1 ∧ h.count = s.rx.count)
    ∧ (∀ w, s.line.window = some w → w.role = .sender → w.number = s.rx.count + 1 ∧ w.header.count = s.rx.count)
    ∧ (∀ w, s.line.window = some w → w.role = .receiver → w.markStale = false →
        w.number = s.rx.count + 1 ∧ w.header.count = s.rx.count)
    ∧ ∀ p, s.commit.provisional = some p → s.pins.resetLow = false → p.number = s.rx.count + 1

end Sys2Proof.Machine
end

