-- ==== Sys2Proof/Certificates/Slice0/Obligations.lean ====
section
/-!
DEFINITION. The statements about the station, from the rules of spec/: `OBLIGATIONS.json` gives each its title, tier and
rules.
-/

open Sys2Proof Sys2Proof.Machine

/-! ### The queue of commands, and what every command does -/

/-- A step runs the command at the front of the queue on the state with the queue's rest. -/
def Obligations.StepRunsFrontCommand : Prop :=
  ∀ (c : Instr) (rest : List Instr) (s : State),
    step { s with pending := c :: rest } = exec c { s with pending := rest }

/-- Every command completes in every state, leaves the queue alone, and leaves the straps as sampled unless it is one of
the two events that sample them. The queue is the model's (log 2); that an event completes also where it does not arise, or
with operands of no such event, is the model's choice (logs 5, 6). -/
def Obligations.EveryCommandCompletes : Prop :=
  ∀ (c : Instr) (s : State), ∃ t, exec c s = .next t ∧ t.pending = s.pending
    ∧ (samplesStraps c = false → t.line.id = s.line.id ∧ t.line.rate = s.line.rate)

/-! ### Serial order, characters and frames -/

/-- The judgements of R1, for a pair and for the minimum of a set. -/
def Obligations.SerialJudgements : Prop :=
  ∀ a b : LineNo,
    (follows a b = true ↔ 1 ≤ (b - a).toNat ∧ (b - a).toNat ≤ 32767)
      ∧ (follows b a = true ↔ 32769 ≤ (b - a).toNat)
      ∧ (unordered a b = true ↔ (b - a).toNat = 32768)
      ∧ (atOrBefore a b = true ↔ a = b ∨ follows a b = true)
      ∧ (unordered a b = true → frameAtOrBefore a b = true ∧ frameAtOrAfter a b = false)
      ∧ (unordered a b = false → frameAtOrBefore a b = atOrBefore a b ∧ frameAtOrAfter a b = atOrBefore b a)
      ∧ serialMin a [] = a
      ∧ (∀ l, serialMin a (b :: l) = serialMin (if follows b a then b else a) l)
      ∧ distance a b = min (a - b).toNat (b - a).toNat
      ∧ distance a b ≤ 32768

/-- A character is a dominant start bit, eight data bits, least significant first with 0 dominant, and a recessive stop bit
(R16), and is read back; ten dominant levels read as 00h with a framing error; an edge that is recessive at the middle of the
start bit is no character. A run of characters is read as a frame exactly where it passes the check of R20: no framing error, the
bytes at R183's offsets, the fields within the tests of the kind (`FieldsPass`), and the CRC of them all, high byte first; and it
has that frame's size (R18). DE and TXD (R16): a dominant bit is DE asserted with TXD low; for a recessive bit of an own frame, and whenever
the station drives nothing, DE is released and TXD high. -/
def Obligations.CharactersAndTheCheck : Prop :=
  (∀ b : Byte, readChar (charLevels b) = some { data := b, framingError := false })
    ∧ (∀ b : Byte, charLevels b = [true, !b.getLsbD 0, !b.getLsbD 1, !b.getLsbD 2, !b.getLsbD 3, !b.getLsbD 4,
        !b.getLsbD 5, !b.getLsbD 6, !b.getLsbD 7, false])
    ∧ (∀ (s : State) (bit : Nat), (s.linePins bit).txd = !(s.linePins bit).de
        ∧ (s.line.driving = false → s.linePins bit = { de := false, txd := true })
        ∧ (s.line.driving = true → s.line.ownFrame = none → s.linePins bit = { de := true, txd := false })
        ∧ ∀ f, s.line.driving = true → s.line.ownFrame = some f → f.sent = false →
            (∀ k b, (frameBytes f.frame)[k]? = some b → 10 * k ≤ bit → bit < 10 * k + 10 →
              (s.linePins bit).de = (charLevels b).getD (bit - 10 * k) false)
            ∧ (10 * (frameBytes f.frame).length ≤ bit → s.linePins bit = { de := false, txd := true }))
    ∧ readChar (List.replicate 10 true) = some { data := 0, framingError := true }
    ∧ (∀ levels, readChar (false :: levels) = none)
    ∧ crc16 [0x31, 0x32, 0x33, 0x34, 0x35, 0x36, 0x37, 0x38, 0x39] = 0x29B1
    ∧ (∀ f : Frame, Frame.valid f = true ↔ FieldsPass f)
    ∧ (∀ (chars : List LineChar) (f : Frame), readFrame chars = some f ↔
        (∀ c ∈ chars, c.framingError = false) ∧ FieldsPass f ∧ ∃ body, LaidOut f body
          ∧ chars.map (·.data) = body ++ [(crc16 body).extractLsb' 8 8, (crc16 body).extractLsb' 0 8])
    ∧ ∀ (chars : List LineChar) (f : Frame), readFrame chars = some f →
      Frame.valid f = true ∧ (∀ c ∈ chars, c.framingError = false)
        ∧ (chars.map (·.data)).drop (chars.length - 2)
            = be16 (crc16 ((chars.map (·.data)).take (chars.length - 2)))
        ∧ chars.length = (match f with
            | .notice _ b => 12 + b.payload.length
            | .replay _ b => 12 + b.payload.length
            | .resend _ _ => 13
            | .beacon _ _ _ _ => 15)
        ∧ (chars.map (·.data)).head? = some (FrameKind.code (Frame.kind f))

/-- Every valid frame is read back from its own characters with every field at every value. -/
def Obligations.FramesReadBack : Prop := ∀ f : Frame, Frame.valid f = true → readFrame (frameChars f) = some f

/-! ### Cells -/

/-- A payload of L bytes takes max(1, ⌈L/16⌉) cells, lies in its chain in payload order, sixteen bytes a cell, and reads
back as exactly L bytes, whatever the last cell holds beyond them; nothing outside the chain's cells changes. -/
def Obligations.PayloadReadsBack : Prop :=
  (∀ len : Nat, len ≤ 64 → cellsFor len = if len ≤ 16 then 1 else if len ≤ 32 then 2 else if len ≤ 48 then 3 else 4)
    ∧ ∀ (m : List Host.Cell) (chain : List Nat) (payload : List Byte), Memory.wf m = true →
        chain.Nodup →
        chain.length = cellsFor payload.length → payload.length ≤ 64 →
        Memory.readChain (Memory.writeChain m chain payload) chain payload.length = payload
          ∧ (∀ (k c i : Nat), chain[k]? = some c → i < 16 → 16 * k + i < payload.length →
              Memory.read (Memory.writeChain m chain payload) (16 * c + i) = payload.getD (16 * k + i) 0)
          ∧ (∀ other : List Host.Cell, (Memory.readChain other chain payload.length).length = payload.length)
          ∧ ∀ a : Nat, a / 16 ∉ chain → Memory.read (Memory.writeChain m chain payload) a = Memory.read m a

/-! ### Reset -/

/-- Both kinds of release leave every item at its reset value, in every state they meet; a transaction stays ignored until
CS# rises. -/
def Obligations.ResetReleaseSetsEveryItem : Prop :=
  ∀ (s : State) (id : StationNo) (rate : BitVec 2),
    (∃ t, exec (.resetReleased id rate) s = .next t ∧ AtReset t id rate ∧ t.pins.resetLow = false
      ∧ (t.port.link = if s.port.link = .closed then .closed else .ignored))
    ∧ (∃ t, exec (.powerOnReset id rate) s = .next t ∧ AtReset t id rate ∧ t.pins.resetLow = s.pins.resetLow
      ∧ (t.port.link = if s.port.link = .closed then .closed else .ignored))
    ∧ AtReset State.reset 0 0

/-- RESET# low breaks off an own frame and its window, abandons a transaction without result, and releases DE and ATTN#;
every other item waits for the release (log 7). -/
def Obligations.ResetAssertedBreaksOff : Prop :=
  ∀ s : State, ∃ t, exec .resetAsserted s = .next t
    ∧ t.pins = { resetLow := true, attnLow := false }
    ∧ t.line = { s.line with driving := false, ownFrame := none, window := none }
    ∧ (∀ bit, t.linePins bit = { de := false, txd := true })
    ∧ t.port = { s.port with
        link := if s.port.link = .closed then .closed else .ignored
        result := ⟨.none, none⟩ }
    ∧ t.commit = s.commit ∧ t.pool = s.pool ∧ t.send = s.send ∧ t.rx = s.rx ∧ t.gaps = s.gaps
    ∧ t.members = s.members ∧ t.stn = s.stn ∧ t.counters = s.counters

/-- Where a command or event finds nothing to act on, nothing changes: held in reset (R147, log 7), a port command outside
its place in a transaction (R165), the line in IDLE and HALTED (R22, R23, R132). -/
def Obligations.NothingActsOutOfPlace : Prop :=
  ∀ s : State,
    (s.pins.resetLow = true →
      (∀ c, actsInReset c = false → exec c s = .next s)
        ∧ (s.port.link = .closed → exec .csFall s = .next { s with port := { s.port with link := .ignored } }))
    ∧ (∀ n, s.port.link = .ignored →
        exec (.csRise n) s = .next { s with port := { s.port with link := .closed } })
    ∧ (Live s → ∀ c, portCommand c = true → s.awaiting = false → exec c s = .next s)
    ∧ (Live s → s.stn.state = .idle ∨ s.stn.state = .halted → OffLineEmpty s →
        ∀ c, lineEvent c = true → exec c s = .next s)

/-! ### The controller port -/

/-- ATTN# follows its four causes (R181), and the summary byte fixed at the fall of CS# shows them (R166); a transaction
with no command changes nothing. MISO carries the summary byte, zero filler under the command byte and the arguments, the
response from the byte after the last argument taken, zero filler after it, each byte's most significant bit first, and is at
high impedance while CS# is high (R165); that it is so too in a transaction that is ignored is the model's choice (log 34). -/
def Obligations.AttentionAndSummaryByte : Prop :=
  ∀ s : State,
    (s.attentionWanted = true ↔
      (s.cfg.attention.delivery = true ∧ s.rx.queue ≠ [])
        ∨ (s.cfg.attention.backlog = true ∧ s.rx.backlog = true)
        ∨ (s.cfg.attention.room = true ∧ s.send.room = true)
        ∨ (s.cfg.attention.report = true ∧ s.port.reports ≠ []))
    ∧ (s.stn.config = none → s.attentionWanted = false)
    ∧ AttnFollows s.settleAttn
    ∧ (Live s → s.port.link = .closed → ∃ b : Byte,
      exec .csFall s = .next { s with port := { s.port with link := .transaction b .awaiting } }
      ∧ b.extractLsb' 0 3 = StationState.code s.stn.state
      ∧ b.getLsbD 3 = !s.port.reports.isEmpty
      ∧ b.getLsbD 4 = (s.cfg.attention.delivery && !s.rx.queue.isEmpty)
      ∧ b.getLsbD 5 = (s.cfg.attention.backlog && s.rx.backlog)
      ∧ b.getLsbD 6 = (s.cfg.attention.room && s.send.room)
      ∧ b.getLsbD 7 = (s.cfg.attention.report && !s.port.reports.isEmpty)
      ∧ (s.stn.config = none → b.getLsbD 4 = false ∧ b.getLsbD 5 = false ∧ b.getLsbD 6 = false ∧ b.getLsbD 7 = false)
      ∧ PortLink.misoByte (.transaction b .awaiting) 1 = some b
      ∧ (∀ j, j < 8 → PortLink.misoBit (.transaction b .awaiting) 1 j = some (b.getLsbD (7 - j)))
      ∧ ∀ n, exec (.csRise n) { s with port := { s.port with link := .transaction b .awaiting } } = .next s)
    ∧ (∀ (b : Byte) (taken : Nat) (response : List Byte) (e : RiseEffect),
        let link : PortLink := .transaction b (.decided taken response e)
        link.misoByte 1 = some b
          ∧ (∀ k, 2 ≤ k → k < 3 + taken → link.misoByte k = some 0)
          ∧ (∀ i, i < response.length → link.misoByte (3 + taken + i) = response[i]?)
          ∧ (∀ i, response.length ≤ i → link.misoByte (3 + taken + i) = some 0))
    ∧ (∀ (b : Byte) (phase : Phase), phase = .awaiting ∨ phase = .incomplete →
        PortLink.misoByte (.transaction b phase) 1 = some b
          ∧ ∀ k, 2 ≤ k → PortLink.misoByte (.transaction b phase) k = some 0)
    ∧ (∀ k, PortLink.misoByte .closed k = none ∧ PortLink.misoByte .ignored k = none)
    ∧ ∀ (link : PortLink) (k j : Nat), j < 8 → link.misoBit k j = (link.misoByte k).map fun b => b.getLsbD (7 - j)

/-- START (R134, R186): the outcome, judged on the sixteen bytes. -/
def Obligations.StartDecided : Prop :=
  ∀ (s : State) (x b1 b2 b3 b4 b5 b6 b7 b8 b9 b10 b11 b12 b13 b14 b15 b16 : Byte), Live s →
    s.port.link = .transaction x .awaiting →
    let args := [b1, b2, b3, b4, b5, b6, b7, b8, b9, b10, b11, b12, b13, b14, b15, b16]
    let interval := 256 * b6.toNat + b7.toNat
    let inRange := (b1 = 32 ∨ b1 = 64 ∨ b1 = 128) ∧ 10 ≤ interval ∧ interval ≤ 1000 ∧ 3 ≤ b8.toNat ∧ b8.toNat ≤ 15
      ∧ 2 ≤ b9.toNat ∧ b9.toNat ≤ 15 ∧ 1 ≤ b10.toNat ∧ 1 ≤ b11.toNat ∧ b11.toNat ≤ 15 ∧ b12.toNat ≤ 63
      ∧ b13.toNat + 1 ≤ b1.toNat ∧ b14.toNat < 16
    (s.stn.state ≠ .idle → exec (.start args) s
      = .next { s with port := { decidedIn s x 16 [0x02] .nothing with result := ⟨.wrongState, none⟩ } })
    ∧ (s.stn.state = .idle → ¬inRange → exec (.start args) s
      = .next { s with port := { decidedIn s x 16 [0x04] .nothing with result := ⟨.badConfig, none⟩ } })
    ∧ (s.stn.state = .idle → inRange → ∃ t, exec (.start args) s = .next t
        ∧ t.port.result = ⟨.accepted, none⟩ ∧ t.port.link = .transaction x (.decided 16 [0x01] .nothing)
        ∧ t.stn.state = .listen ∧ t.stn.word = of16 b15 b16
        ∧ t.stn.config = some
            { sendSize := b1.toNat, topics := of32 b2 b3 b4 b5, beaconInterval := interval
              presenceMultiple := b8.toNat, listenMultiple := b9.toNat, repairInterval := b10.toNat
              repairLimit := b11.toNat, backlogLimit := b12.toNat, roomLimit := b13.toNat
              attention :=
                { delivery := b14.getLsbD 0, backlog := b14.getLsbD 1, room := b14.getLsbD 2
                  report := b14.getLsbD 3 } })
    ∧ (∀ (few : List Byte) (n : Nat), few.length < 16 → ∃ t, exec (.start few) s = .next t
        ∧ exec (.csRise n) t
          = .next { s with port := { s.port with link := .closed, result := ⟨.truncated, none⟩ } })

/-- An accepted START (R135): everything it clears, and what it sets. -/
def Obligations.StartEffects : Prop :=
  ∀ (s : State) (x : Byte) (args : List Byte) (c : StartConfig) (attention : Byte) (word : Word16), Live s →
    s.port.link = .transaction x .awaiting → s.stn.state = .idle →
    readStartRecord (args.take 16) = some (c, attention, word) → startInRange c attention = true →
    ∃ t, exec (.start args) s = .next t ∧ AttnFollows t ∧ t.pins.resetLow = false
      ∧ t.rx = { count := 0, settled := 0, known := 0, holdSet := [], queue := [], backlog := false }
      ∧ t.pool = { s.pool with
          freeCells := (List.range (256 - c.sendSize)).map (c.sendSize + ·)
          freeDescs := List.range 64
          pendingBase := none }
      ∧ t.port.reports = [.stateChange .idle .listen .start] ∧ t.port.overflow = 0 ∧ t.port.takeIncomplete = false
      ∧ t.counters = { checkFailures := 0, duplicates := 0, replaysDropped := 0, objectionsMarked := 0
                       ownObjected := 0, collisions := 0, resendsSent := 0, replaysSent := 0 }
      ∧ t.stn.config = some c ∧ t.stn.word = word
      ∧ t.send.outbound = [] ∧ t.send.retained = [] ∧ t.send.tagCounter = 0 ∧ t.send.lastCommitted = 255
      ∧ t.send.lastReleased = 255 ∧ t.send.room = false ∧ t.send.catchUp = none
      ∧ t.send.releasePoint = ⟨0, 0⟩ ∧ t.send.transmitPoint = ⟨0, 0⟩ ∧ t.send.postEnd = ⟨0, 0⟩
      ∧ t.freeSendCells = c.sendSize ∧ t.freeSendDescs = 32
      ∧ t.line.rotationBase = 0 ∧ t.line.displaced = false ∧ t.line.yield = false ∧ t.line.collisionCount = 0
      ∧ t.line.collisionsArmed = true ∧ t.line.timing = .busy ∧ t.line.ready = false ∧ t.line.driving = false
      ∧ t.line.id = s.line.id ∧ t.line.rate = s.line.rate
      ∧ t.commit = { provisional := none, objections := 0, congestedArmed := true, congested := false
                     catchingUp := false }
      ∧ t.gaps = [] ∧ t.members = []
      ∧ t.stn.state = .listen ∧ t.stn.listenTimer = .running (c.listenMultiple * c.beaconInterval)
      ∧ t.stn.joinTimer = .stopped ∧ t.stn.beaconTimer = .stopped ∧ t.stn.beaconDue = false

/-- POST (R71): the four outcomes in their order, bytes after the deciding one ignored, and a cut-short POST. -/
def Obligations.PostDecided : Prop :=
  ∀ (s : State) (x topic len : Byte) (payload extra : List Byte), Live s →
    s.port.link = .transaction x .awaiting → payload.length = (if len.toNat ≤ 64 then len.toNat else 0) →
    let args := topic :: len :: (payload ++ extra)
    let taken := 2 + payload.length
    let takes := s.stn.state = .listen ∨ s.stn.state = .joining ∨ s.stn.state = .active
    let fits := topic.toNat ≤ 31 ∧ len.toNat ≤ 64
    let room := max 1 ((len.toNat + 15) / 16) ≤ s.freeSendCells ∧ 1 ≤ s.freeSendDescs
    (¬takes → exec (.post args) s
      = .next { s with port := { decidedIn s x taken [0x02, 0x00] .nothing with result := ⟨.wrongState, none⟩ } })
    ∧ (takes → ¬fits → exec (.post args) s
      = .next { s with port := { decidedIn s x taken [0x03, 0x00] .nothing with result := ⟨.badLen, none⟩ } })
    ∧ (takes → fits → ¬room → exec (.post args) s
      = .next { s with port := { decidedIn s x taken [0x05, 0x00] .nothing with result := ⟨.noRoom, none⟩ } })
    ∧ (takes → fits → room → ∃ t, exec (.post args) s = .next t
        ∧ t.port = { decidedIn s x taken [0x01, s.send.tagCounter] .nothing with
            result := ⟨.accepted, some s.send.tagCounter⟩ })
    ∧ (∀ (few : List Byte) (n : Nat),
        few.length < 2 ∨ (∃ p, few = topic :: len :: p ∧ len.toNat ≤ 64 ∧ p.length < len.toNat) →
        ∃ t, exec (.post few) s = .next t
          ∧ exec (.csRise n) t
            = .next { s with port := { s.port with link := .closed, result := ⟨.truncated, none⟩ } })

/-- What an accepted POST stores (R58, R72, R73): the newest outbound notice, at the post end, with the counter's tag,
its payload readable from its send cells; nothing else of the station changes. -/
def Obligations.PostStored : Prop :=
  ∀ (s : State) (x topic len : Byte) (payload : List Byte), Live s → s.port.link = .transaction x .awaiting →
    (s.stn.state = .listen ∨ s.stn.state = .joining ∨ s.stn.state = .active) → topic.toNat ≤ 31 →
    len.toNat = payload.length → payload.length ≤ 64 →
    max 1 ((payload.length + 15) / 16) ≤ s.freeSendCells → 1 ≤ s.freeSendDescs → Memory.wf s.pool.cells = true →
    let c := max 1 ((payload.length + 15) / 16)
    let n : SendNotice :=
      { number := none, topic := topic.setWidth 5, length := payload.length, firstCell := s.send.postEnd.cell
        desc := s.send.postEnd.desc, tag := s.send.tagCounter, marked := false }
    ∃ t, exec (.post (topic :: len :: payload)) s = .next t
      ∧ t.send = { s.send with
          outbound := s.send.outbound ++ [n]
          tagCounter := s.send.tagCounter + 1
          postEnd := ⟨(s.send.postEnd.cell + c) % s.cfg.sendSize, (s.send.postEnd.desc + 1) % 32⟩ }
      ∧ t.sendPayload n = payload
      ∧ (∀ a : Nat, a / 16 ∉ ringCells s.cfg.sendSize s.send.postEnd.cell c →
          Memory.read t.pool.cells a = Memory.read s.pool.cells a)
      ∧ t.freeSendCells = s.freeSendCells - c ∧ t.freeSendDescs = s.freeSendDescs - 1
      ∧ t.pool.freeCells = s.pool.freeCells ∧ t.pool.freeDescs = s.pool.freeDescs
      ∧ t.pool.pendingBase = s.pool.pendingBase
      ∧ t.line = s.line ∧ t.commit = s.commit ∧ t.rx = s.rx ∧ t.gaps = s.gaps ∧ t.members = s.members
      ∧ t.stn = s.stn ∧ t.counters = s.counters ∧ t.pins = s.pins

/-- TAKE and PEEK (R172, R173, R187): EMPTY, or the head record with its kind and length; nothing but the transaction
changes at the command byte, and nothing at all after a PEEK, or after EMPTY, whatever is clocked out. The bits of a flags
byte that R187 does not name are 0 by the model's choice (log 36). -/
def Obligations.TakeAndPeekShowTheHead : Prop :=
  ∀ (s : State) (x : Byte), Live s → s.port.link = .transaction x .awaiting →
    (∀ (response : List Byte) (n : Nat), exec (.csRise n) { s with port := decidedIn s x 0 response .nothing }
      = .next { s with port := { s.port with link := .closed } })
    ∧ (s.rx.queue = [] →
      exec .take s = .next { s with port := decidedIn s x 0 [0x00, 0x00] .nothing }
      ∧ exec .peek s = .next { s with port := decidedIn s x 0 [0x00, 0x00] .nothing })
    ∧ ∀ r rest, s.rx.queue = r :: rest → ∃ response : List Byte,
        exec .take s = .next { s with port := decidedIn s x 0 response .takeHead }
        ∧ exec .peek s = .next { s with port := decidedIn s x 0 response .nothing }
        ∧ (match r with
          | .notice n => response = [0x01, byteOf (7 + (s.rxPayload n).length)] ++ be16 n.number
              ++ [byteOf5 n.originator, byteOf5 n.topic,
                  (if n.own then 1 else 0) ||| (if n.replay then 2 else 0),
                  if n.own then n.tag.getD 0 else 0, byteOf n.length] ++ s.rxPayload n
          | .lost first last _ => response = [0x02, 0x04] ++ be16 first ++ be16 last
          | .base b _ => response = [0x03, 0x04,
              (match b.reason with | .joined => 1 | .founded => 2 | .resyncExcluded => 3 | .resyncSpan => 4),
              if b.superseded then 1 else 0] ++ be16 b.number)

/-- The rise of CS# after a TAKE (R106, R172): clocked in full, the head leaves and its storage is free again; else it
stays and take-incomplete is set. The descriptor freed serves a waiting BASE record first (R67); without one, a LOST record
that waited for a descriptor takes it (R102). The backlog event flag follows what is appended (R107), and the gap table the
settled point (R118, R119). -/
def Obligations.TakeRemovesAtTheRise : Prop :=
  ∀ (s : State) (x : Byte) (taken n : Nat) (response : List Byte) (r : DeliveryRecord) (rest : List DeliveryRecord),
    Live s → s.port.link = .transaction x (.decided taken response .takeHead) → s.rx.queue = r :: rest →
    (n < response.length →
      exec (.csRise n) s = .next { s with port := { s.port with link := .closed, takeIncomplete := true } })
    ∧ (response.length ≤ n → ∃ t, exec (.csRise n) s = .next t ∧ AttnFollows t
        ∧ t.port = { s.port with link := .closed, takeIncomplete := false }
        ∧ (∃ more, t.rx.queue = rest ++ more) ∧ t.rx.count = s.rx.count ∧ t.pool.cells = s.pool.cells
        ∧ BacklogFollows s t rest.length ∧ (OrderSound s → GapsTrimmed s s.gaps t)
        ∧ t.pool.freeCells = s.pool.freeCells ++ r.cells
        ∧ t.line = s.line ∧ t.commit = s.commit ∧ t.send = s.send ∧ t.members = s.members ∧ t.stn = s.stn
        ∧ t.counters = s.counters
        ∧ (NothingToAdvance s →
            t.rx = { s.rx with queue := rest } ∧ t.gaps = s.gaps
              ∧ t.pool.freeDescs = s.pool.freeDescs ++ [r.descriptor])
        ∧ (∀ b, s.pool.pendingBase = some b → s.pool.freeDescs = [] → ∃ more,
            t.rx.queue = rest ++ .base b r.descriptor :: more ∧ t.pool.pendingBase = none ∧ t.pool.freeDescs = [])
        ∧ (OrderSound s → AdvanceRests s → s.pool.pendingBase = none → s.lostAt (s.rx.settled + 1) = true →
            ∃ last more, t.rx.queue = rest ++ .lost (s.rx.settled + 1) last r.descriptor :: more
              ∧ LostRun s (fun n => s.lostAt n = true) last ∧ s.ahead last ≤ s.ahead t.rx.settled
              ∧ t.pool.pendingBase = none ∧ t.pool.freeDescs = []))

/-- The report queue (R175): a report posted with fewer than 16 records held is appended at the tail, the overflow count standing;
with 16 held it is dropped, the queue stands, and the overflow count rises by one, up to 255; reports of one event are posted one
after the other; and nothing else changes. REPORT (R177, R187): EMPTY, or the oldest record in its layout; it leaves at the rise
only when clocked in full, and no flag changes. -/
def Obligations.ReportReadsAndRemoves : Prop :=
  (∀ (s : State) (r : Report),
    (s.port.reports.length < 16 →
      s.postReport r = { s with port := { s.port with reports := s.port.reports ++ [r] } })
    ∧ (16 ≤ s.port.reports.length →
      s.postReport r = { s with port := { s.port with overflow := min (s.port.overflow + 1) 255 } }))
  ∧ (∀ s : State, s.postReports [] = s)
  ∧ (∀ (s : State) (r : Report) (rs : List Report), s.postReports (r :: rs) = (s.postReport r).postReports rs)
  ∧ ∀ (s : State) (x : Byte), Live s → s.port.link = .transaction x .awaiting →
    (s.port.reports = [] → exec .report s = .next { s with port := decidedIn s x 0 [0x00, 0x00] .nothing })
    ∧ ∀ r rest, s.port.reports = r :: rest → ∃ response : List Byte,
        exec .report s = .next { s with port := decidedIn s x 0 response .reportHead }
        ∧ response = (match r with
          | .memberJoined n => [0x01, 0x01, byteOf5 n]
          | .memberLost n cause => [0x02, 0x02, byteOf5 n, (match cause with | .silent => 1 | .horizon => 2)]
          | .memberLeft n => [0x03, 0x01, byteOf5 n]
          | .peerWord n word => [0x04, 0x03, byteOf5 n] ++ be16 word
          | .stateChange previous new cause => [0x05, 0x03, (StationState.code previous).setWidth 8,
              (StationState.code new).setWidth 8, (match cause with
                | .start => 1 | .adoption => 2 | .founding => 3 | .inclusion => 4 | .joinFailure => 5
                | .resyncExcluded => 6 | .resyncSpan => 7 | .leaveCommand => 8 | .leaveSent => 9 | .duplicateId => 10)]
          | .staleSender number count => [0x06, 0x04] ++ be16 number ++ be16 count
          | .congested count => [0x07, 0x01, BitVec.ofNat 8 count]
          | .collisions kind count => [0x08, 0x02, FrameKind.code kind, BitVec.ofNat 8 count]
          | .numberingConflict number held sender => [0x09, 0x04] ++ be16 number ++ [byteOf5 held, byteOf5 sender]
          | .gapOverflow first last => [0x0A, 0x04] ++ be16 first ++ be16 last
          | .joinUnanswered count => [0x0B, 0x01, BitVec.ofNat 8 count]
          | .duplicateId n => [0x0C, 0x01, byteOf5 n]
          | .outboundDiscarded count tag => [0x0D, 0x02, BitVec.ofNat 8 count, tag])
        ∧ ∀ n, ∃ t, exec (.csRise n) { s with port := decidedIn s x 0 response .reportHead } = .next t
            ∧ AttnFollows t
            ∧ t.port = { s.port with link := .closed, reports := if response.length ≤ n then rest else r :: rest }
            ∧ t.rx = s.rx ∧ t.pool = s.pool ∧ t.send = s.send ∧ t.gaps = s.gaps ∧ t.members = s.members
            ∧ t.line = s.line ∧ t.commit = s.commit ∧ t.stn = s.stn ∧ t.counters = s.counters

/-- STATUS (R178, R188): the 38 bytes as the fields stand, then both event flags cleared, and nothing else changes, then
or at the rise of CS#, whatever is clocked out. Bits 6..4 of byte 21, which no statement reads, are 0 by the model's choice
(log 36). -/
def Obligations.StatusReadsAndClears : Prop :=
  ∀ (s : State) (x : Byte), Live s → s.port.link = .transaction x .awaiting →
    ∃ (r : List Byte) (t : State), exec .status s = .next t ∧ AttnFollows t
      ∧ t.port = decidedIn s x 0 r .nothing
      ∧ t.rx = { s.rx with backlog := false } ∧ t.send = { s.send with room := false }
      ∧ t.line = s.line ∧ t.commit = s.commit ∧ t.pool = s.pool ∧ t.gaps = s.gaps ∧ t.members = s.members
      ∧ t.stn = s.stn ∧ t.counters = s.counters ∧ t.pins.resetLow = false
      ∧ (∀ n, exec (.csRise n) t = .next { t with port := { t.port with link := .closed } })
      ∧ r.length = 38
      ∧ r.take 18 = [stateCodeByte s.stn.state, byteOf5 s.line.id, s.line.rate.setWidth 8]
          ++ be16 s.rx.count ++ be16 s.rx.settled
          ++ [byteOf s.send.outbound.length, byteOf s.send.retained.length, byteOf s.freeSendCells,
              byteOf s.pool.freeCells.length, byteOf s.pool.freeDescs.length, byteOf s.rx.holdSet.length,
              byteOf s.rx.queue.length, byteOf s.gaps.length, byteOf s.port.reports.length,
              byteOf s.port.overflow, r.getD 17 0]
      ∧ (r.getD 17 0).getLsbD 0 = s.rx.backlog ∧ (r.getD 17 0).getLsbD 1 = s.send.room
      ∧ (r.getD 17 0).getLsbD 2 = s.port.takeIncomplete ∧ (r.getD 17 0).getLsbD 3 = s.commit.catchingUp
      ∧ (r.getD 17 0).getLsbD 4 = s.commit.congested ∧ (r.getD 17 0).getLsbD 5 = s.pool.pendingBase.isSome
      ∧ (r.getD 17 0).getLsbD 6 = false ∧ (r.getD 17 0).getLsbD 7 = false
      ∧ r.getD 18 0 = s.send.lastCommitted ∧ r.getD 19 0 = s.send.lastReleased
      ∧ (r.getD 20 0).extractLsb' 0 4 = (ResultCode.code s.port.result.code).extractLsb' 0 4
      ∧ (r.getD 20 0).getLsbD 7 = s.port.result.tag.isSome ∧ r.getD 21 0 = s.port.result.tag.getD 0
      ∧ r.drop 22 = be16 s.counters.checkFailures ++ be16 s.counters.duplicates ++ be16 s.counters.replaysDropped
          ++ be16 s.counters.objectionsMarked ++ be16 s.counters.ownObjected ++ be16 s.counters.collisions
          ++ be16 s.counters.resendsSent ++ be16 s.counters.replaysSent

/-- MEMBERS (R174, R188): the count, then six bytes a member in table order; nothing but the transaction changes. -/
def Obligations.MembersListsTheTable : Prop :=
  ∀ (s : State) (x : Byte), Live s → s.port.link = .transaction x .awaiting →
    ∃ r : List Byte, exec .members s = .next { s with port := decidedIn s x 0 r .nothing }
      ∧ r.length = 1 + 6 * s.members.length ∧ r[0]? = some (byteOf s.members.length)
      ∧ ∀ (i : Nat) (m : Member), s.members[i]? = some m → ∃ flags : Byte,
          (r.drop (1 + 6 * i)).take 6
            = [byteOf5 m.station, flags] ++ be16 m.settled ++ be16 (m.word.getD 0)
          ∧ flags.extractLsb' 0 3 = StationState.code m.state ∧ flags.getLsbD 4 = m.includedMe
          ∧ flags.getLsbD 5 = m.word.isSome ∧ flags.getLsbD 3 = false ∧ flags.getLsbD 6 = false
          ∧ flags.getLsbD 7 = false

/-- WORD and an unknown code (R169, R171, R185); and which command the second byte of a transaction selects, its bytes
clocked most significant bit first, with the arguments up to the deciding byte and the whole response bytes after it, the
bits of an incomplete byte discarded (R165, R167; the events' operands are log 19's). -/
def Obligations.WordAndUnknownCodeDecided : Prop :=
  ∀ (s : State) (x hi lo code : Byte) (extra : List Byte), Live s → s.port.link = .transaction x .awaiting →
    (s.stn.state ≠ .halted → exec (.word (hi :: lo :: extra)) s
      = .next { s with
          stn := { s.stn with word := hi ++ lo }
          port := { decidedIn s x 2 [0x01] .nothing with result := ⟨.accepted, none⟩ } })
    ∧ (s.stn.state = .halted → exec (.word (hi :: lo :: extra)) s
      = .next { s with port := { decidedIn s x 2 [0x02] .nothing with result := ⟨.wrongState, none⟩ } })
    ∧ (∀ (few : List Byte) (n : Nat), few.length < 2 → ∃ t, exec (.word few) s = .next t ∧ exec (.csRise n) t
      = .next { s with port := { s.port with link := .closed, result := ⟨.truncated, none⟩ } })
    ∧ (code ∉ ([0x10, 0x20, 0x30, 0x31, 0x40, 0x50, 0x51, 0x60, 0x70] : List Byte) → exec (.unknownCode code) s
      = .next { s with port := { decidedIn s x 0 [0x06] .nothing with result := ⟨.badCommand, none⟩ } })
    ∧ (∀ (first : Byte) (rest : List Byte) (cut : List Bool), cut.length < 8 →
        let clocked (bytes : List Byte) : List Bool :=
          (bytes.flatMap fun b => (List.range 8).map fun i => b.getLsbD (7 - i)) ++ cut
        let plain (c : Instr) : List Instr := [.csFall, c, .csRise rest.length]
        transactionEvents (clocked []) = [.csFall, .csRise 0] ∧ transactionEvents (clocked [first]) = [.csFall, .csRise 0]
        ∧ transactionEvents (clocked (first :: 0x10 :: rest))
          = [.csFall, .start (rest.take 16), .csRise (rest.length - 16)]
        ∧ (rest.length < 2 → transactionEvents (clocked (first :: 0x20 :: rest)) = [.csFall, .post rest, .csRise 0])
        ∧ (∀ topic len payload, rest = topic :: len :: payload →
            (64 < len.toNat → transactionEvents (clocked (first :: 0x20 :: rest))
              = [.csFall, .post [topic, len], .csRise payload.length])
            ∧ (len.toNat ≤ 64 → transactionEvents (clocked (first :: 0x20 :: rest))
              = [.csFall, .post (topic :: len :: payload.take len.toNat), .csRise (payload.length - len.toNat)]))
        ∧ transactionEvents (clocked (first :: 0x30 :: rest)) = plain .take
        ∧ transactionEvents (clocked (first :: 0x31 :: rest)) = plain .peek
        ∧ transactionEvents (clocked (first :: 0x40 :: rest)) = plain .report
        ∧ transactionEvents (clocked (first :: 0x50 :: rest)) = plain .status
        ∧ transactionEvents (clocked (first :: 0x51 :: rest)) = plain .members
        ∧ transactionEvents (clocked (first :: 0x60 :: rest))
          = [.csFall, .word (rest.take 2), .csRise (rest.length - 2)]
        ∧ transactionEvents (clocked (first :: 0x70 :: rest)) = plain .leave
        ∧ (code ∉ ([0x10, 0x20, 0x30, 0x31, 0x40, 0x50, 0x51, 0x60, 0x70] : List Byte) →
            transactionEvents (clocked (first :: code :: rest)) = plain (.unknownCode code)))

/-- LEAVE (R144): refused, into IDLE from LISTEN, into LEAVING, or held for the own frame. A station that enters LEAVING on
a line that is idle starts nothing there: its first offer waits for the next idle moment (R144, R54). -/
def Obligations.LeaveDecided : Prop :=
  ∀ (s : State) (x : Byte), Live s → s.port.link = .transaction x .awaiting →
    ((s.stn.state = .idle ∨ s.stn.state = .leaving ∨ s.stn.state = .halted) → exec .leave s
      = .next { s with port := { decidedIn s x 0 [0x02] .nothing with result := ⟨.wrongState, none⟩ } })
    ∧ ((s.stn.state = .joining ∨ s.stn.state = .active) → s.line.ownFrame ≠ none → exec .leave s
      = .next { s with
          stn := { s.stn with leaveHeld := true }
          port := { decidedIn s x 0 [0x01] .nothing with result := ⟨.accepted, none⟩ } })
    ∧ ((s.stn.state = .joining ∨ s.stn.state = .active) → s.line.ownFrame = none → ∃ t, exec .leave s = .next t
        ∧ AttnFollows t
        ∧ t.stn = { s.stn with
            state := .leaving, joinTimer := .stopped, beaconTimer := .stopped, beaconDue := true
            leaveHeld := false, joinExpiryHeld := false }
        ∧ t.port = { ({ s with port := decidedIn s x 0 [0x01] .nothing }.postReport
            (.stateChange s.stn.state .leaving .leaveCommand)).port with result := ⟨.accepted, none⟩ }
        ∧ ((∀ p, s.line.timing ≠ .idle p) → t.line = s.line)
        ∧ (∀ p, s.line.timing = .idle p → t.line = { s.line with timing := .awaitsIdle }
            ∧ ∀ (q : Slot) (dominant : Bool), exec (.slotBegins q dominant) t = .next t)
        ∧ t.commit = s.commit ∧ t.pool = s.pool ∧ t.send = s.send ∧ t.rx = s.rx
        ∧ t.gaps = s.gaps ∧ t.members = s.members ∧ t.counters = s.counters)
    ∧ (s.stn.state = .listen → ∃ t, exec .leave s = .next t ∧ AttnFollows t ∧ t.stn.state = .idle
        ∧ t.port.result = ⟨.accepted, none⟩ ∧ t.port.link = .transaction x (.decided 0 [0x01] .nothing)
        ∧ (s.send.outbound = [] →
            t.port.reports = (s.postReport (.stateChange .listen .idle .leaveCommand)).port.reports
              ∧ t.port.overflow = (s.postReport (.stateChange .listen .idle .leaveCommand)).port.overflow)
        ∧ (∀ n rest, s.send.outbound = n :: rest →
            let posted := (s.postReport (.outboundDiscarded (n :: rest).length n.tag)).postReport
              (.stateChange .listen .idle .leaveCommand)
            t.port.reports = posted.port.reports ∧ t.port.overflow = posted.port.overflow)
        ∧ t.port.takeIncomplete = s.port.takeIncomplete
        ∧ t.send.lastCommitted = s.send.lastCommitted ∧ t.send.lastReleased = s.send.lastReleased
        ∧ t.send.releasePoint = ⟨0, 0⟩ ∧ t.send.transmitPoint = ⟨0, 0⟩ ∧ t.send.postEnd = ⟨0, 0⟩
        ∧ (∃ more, t.rx.queue = s.rx.queue ++ more)
        ∧ (OffLineEmpty s → PendingBaseSound s →
            t.rx.queue = s.rx.queue ∧ t.rx.backlog = s.rx.backlog ∧ t.pool = s.pool)
        ∧ OffLineEmpty t ∧ t.rx.count = s.rx.count ∧ t.rx.settled = s.rx.settled ∧ t.counters = s.counters
        ∧ t.send.tagCounter = s.send.tagCounter ∧ t.send.room = s.send.room ∧ t.stn.config = s.stn.config
        ∧ t.stn.word = s.stn.word)

/-! ### Access to the line -/

/-- The idle moment (R23, R24, R26): slots are counted from it, and the access position is computed; later activity ends
the idle state (whether it begins a character, so that a frame may follow, is log 26's operand and log 16's flag), and
activity on a line already busy, as between the characters of a frame in reception, ends no frame (R17, R18). A check
failure displaces the station and is counted, and nothing else changes (R21). -/
def Obligations.AccessPositionAndDisplacement : Prop :=
  ∀ s : State, Live s →
    (s.stn.hearsLine = true → (∀ f, s.line.ownFrame = some f → f.sent = true) → ∃ p : Slot,
      exec .lineIdle s = .next { s with line := { s.line with timing := .idle p, ready := true } }
      ∧ (s.line.displaced = false → s.line.yield = false →
          p.toNat = (s.line.id.toNat + 32 - s.line.rotationBase.toNat) % 32)
      ∧ (s.line.displaced = true ∨ s.line.yield = true → p.toNat = 32 + s.line.id.toNat)
      ∧ ∀ startBit, exec (.lineActivity startBit) { s with line := { s.line with timing := .idle p, ready := true } }
          = .next { s with line := { s.line with timing := .busy, ready := startBit } })
    ∧ (s.line.timing = .busy → ∀ startBit, exec (.lineActivity startBit) s = .next s)
    ∧ ∀ chars : List LineChar, readFrame chars = none →
      (s.receiving = true → ∃ t, exec (.checkFailure chars) s = .next t
        ∧ t = { s with
            line := { s.line with displaced := true, ready := false, timing := .busy }
            counters := { s.counters with checkFailures := s.counters.checkFailures + 1 } }
        ∧ t.line.accessPosition.toNat = 32 + s.line.id.toNat)
      ∧ (s.stn.state = .idle ∨ s.stn.state = .halted → exec (.checkFailure chars) s = .next s)

/-- A slot in which this station starts nothing (R24, R34, R35): not its own, not free, or with nothing eligible. That a
slot not its own, or one with an own frame or a window open, changes nothing is the model's choice (logs 18, 5). On a line
dominant at its slot the idle state is over, and activity there that proves to be no character is no frame (R18, logs 16,
26). -/
def Obligations.SlotWaits : Prop :=
  ∀ (s : State) (p : Slot) (dominant : Bool), Live s →
    ((s.line.timing ≠ .idle p ∨ s.line.ownFrame ≠ none ∨ s.line.window ≠ none) →
      exec (.slotBegins p dominant) s = .next s)
    ∧ (AtSlot s p → exec (.slotBegins p true) s = .next { s with line := { s.line with timing := .awaitsIdle } }
        ∧ (s.stn.hearsLine = true → ∀ startBit,
            exec (.lineActivity startBit) { s with line := { s.line with timing := .awaitsIdle } }
              = .next { s with line := { s.line with timing := .busy, ready := s.line.ready && startBit } }))
    ∧ (AtSlot s p →
        (s.stn.state = .listen
          ∨ ((s.stn.state = .joining ∨ s.stn.state = .active) ∧ s.send.catchUp = none
              ∧ (∀ e ∈ s.gaps, e.state ≠ .requested)
              ∧ (∀ n ∈ s.send.retained, n.marked = true → atOrBefore n.lineNo s.rx.count = false)
              ∧ s.stn.beaconDue = false
              ∧ (s.stn.state = .active → s.send.outbound = [] ∨ s.commit.catchingUp = true
                  ∨ (∃ n, s.send.retained.getLast? = some n ∧ follows n.lineNo (s.rx.count + 1) = false)
                  ∨ ∃ n, s.send.outbound.head? = some n ∧ s.cfg.topics.getLsbD n.topic.toNat = true
                    ∧ (s.pool.freeCells.length < cellsFor n.length + 4 ∨ s.pool.freeDescs.length < 2)))) →
        exec (.slotBegins p false) s = .next s)

/-- A request or a REPLAY starts (R34, R86, R88, R123): the catch-up RESEND before the lowest REQUESTED gap, and both before
the lowest marked retained notice; the frame is formed as the owner holds it, and only the line interface changes. -/
def Obligations.SlotStartsRepair : Prop :=
  ∀ (s : State) (p : Slot), AtSlot s p → (s.stn.state = .joining ∨ s.stn.state = .active) →
    let h : Header :=
      { senderState := s.stn.state, sender := s.line.id, count := s.rx.count, settled := s.rx.settled }
    (∀ first, s.send.catchUp = some first → exec (.slotBegins p false) s
      = .next { s with line := s.line.started .catchUp (.resend h (.openFrom first)) })
    ∧ (s.send.catchUp = none → OrderSound s →
        ∀ before e after, s.gaps = before ++ e :: after → e.state = .requested →
          (∀ g ∈ before, g.state ≠ .requested) → s.missing e ≠ [] → ∃ lo hi,
            exec (.slotBegins p false) s
              = .next { s with line := s.line.started (.gap e.id) (.resend h (.closed lo hi)) }
            ∧ lo ∈ s.missing e ∧ hi ∈ s.missing e
            ∧ ∀ n ∈ s.missing e, s.ahead lo ≤ s.ahead n ∧ s.ahead n ≤ s.ahead hi)
    ∧ (s.send.catchUp = none → (∀ g ∈ s.gaps, g.state ≠ .requested) →
        ∀ before n after, s.send.retained = before ++ n :: after → n.marked = true →
          atOrBefore n.lineNo s.rx.count = true →
          (∀ m ∈ before, m.tag ≠ n.tag ∧ (m.marked = true → atOrBefore m.lineNo s.rx.count = false)) →
          exec (.slotBegins p false) s
            = .next { s with
                line := s.line.started (.replay n.tag)
                  (.replay h { number := n.lineNo, topic := n.topic, payload := s.sendPayload n }) })

/-- The outbound head starts (R34, R46, R76): stamped count + 1, and for a subscribed topic its own copy is stored under
the room rule as the provisional notice. -/
def Obligations.SlotStartsNotice : Prop :=
  ∀ (s : State) (p : Slot) (n : SendNotice) (rest : List SendNotice), AtSlot s p → s.stn.state = .active →
    s.send.catchUp = none → (∀ e ∈ s.gaps, e.state ≠ .requested) →
    (∀ m ∈ s.send.retained, m.marked = true → atOrBefore m.lineNo s.rx.count = false) →
    s.send.outbound = n :: rest → s.commit.catchingUp = false →
    (∀ m, s.send.retained.getLast? = some m → follows m.lineNo (s.rx.count + 1) = true) →
    let c := cellsFor n.length
    let frame : Frame := .notice
      { senderState := .active, sender := s.line.id, count := s.rx.count, settled := s.rx.settled }
      { number := s.rx.count + 1, topic := n.topic, payload := s.sendPayload n }
    (s.cfg.topics.getLsbD n.topic.toNat = false → exec (.slotBegins p false) s
      = .next { s with line := s.line.started (.notice n.tag) frame })
    ∧ (s.cfg.topics.getLsbD n.topic.toNat = true → c + 4 ≤ s.pool.freeCells.length → 2 ≤ s.pool.freeDescs.length →
        s.pool.freeCells.Nodup → Memory.wf s.pool.cells = true →
        ∃ (t : State) (own : RxNotice), exec (.slotBegins p false) s = .next t
          ∧ t.line = s.line.started (.notice n.tag) frame
          ∧ t.commit = { s.commit with provisional := some own }
          ∧ own = { number := s.rx.count + 1, originator := s.line.id, topic := n.topic, length := n.length, own := true
                    tag := some n.tag, replay := false, desc := s.pool.freeDescs.headD 0
                    chain := s.pool.freeCells.take c }
          ∧ t.pool.freeCells = s.pool.freeCells.drop c ∧ t.pool.freeDescs = s.pool.freeDescs.tail
          ∧ t.pool.pendingBase = s.pool.pendingBase ∧ t.rxPayload own = s.sendPayload n
          ∧ (∀ a : Nat, a / 16 ∉ s.pool.freeCells.take c → Memory.read t.pool.cells a = Memory.read s.pool.cells a)
          ∧ t.send = s.send ∧ t.rx = s.rx ∧ t.gaps = s.gaps ∧ t.members = s.members ∧ t.stn = s.stn
          ∧ t.port = s.port ∧ t.counters = s.counters ∧ t.pins = s.pins)

/-- A beacon starts (R34, R36, R160): its kind follows the state, its view names every member, its word is the standing
word. An ACTIVE station comes to it past an outbound head that it may not start (R76, R34). A LEAVING station comes to a slot
of its own only after the next idle moment (R144, LeaveDecided; log 30 for an entry at that moment itself); that its LEAVE
beacon needs no due beacon is the model's reading (log 22). -/
def Obligations.SlotStartsBeacon : Prop :=
  ∀ (s : State) (p : Slot), AtSlot s p →
    (s.stn.state = .leaving
      ∨ ((s.stn.state = .joining ∨ s.stn.state = .active) ∧ s.stn.beaconDue = true ∧ s.send.catchUp = none
          ∧ (∀ e ∈ s.gaps, e.state ≠ .requested)
          ∧ (∀ n ∈ s.send.retained, n.marked = true → atOrBefore n.lineNo s.rx.count = false)
          ∧ (s.stn.state = .active → s.send.outbound = [] ∨ s.commit.catchingUp = true
              ∨ (∃ n, s.send.retained.getLast? = some n ∧ follows n.lineNo (s.rx.count + 1) = false)
              ∨ ∃ n, s.send.outbound.head? = some n ∧ s.cfg.topics.getLsbD n.topic.toNat = true
                ∧ (s.pool.freeCells.length < cellsFor n.length + 4 ∨ s.pool.freeDescs.length < 2)))) →
    ∃ (kind : BeaconKind) (view : Set32),
      exec (.slotBegins p false) s
        = .next { s with
            line := s.line.started .dueBeacon
              (.beacon { senderState := s.stn.state, sender := s.line.id, count := s.rx.count, settled := s.rx.settled }
                kind view s.stn.word) }
      ∧ (s.stn.state = .joining → kind = .join) ∧ (s.stn.state = .active → kind = .periodic)
      ∧ (s.stn.state = .leaving → kind = .leave)
      ∧ ∀ i : StationNo, view.getLsbD i.toNat = true ↔ ∃ m ∈ s.members, m.station = i

/-! ### The end of an own frame -/

/-- A RESEND or a REPLAY was sent (R27, R87, R88, R124, R142); a release that waited for the REPLAY is taken (R81). -/
def Obligations.RepairFrameSent : Prop :=
  ∀ (s : State) (f : OwnFrame), Live s → s.line.ownFrame = some f → f.sent = false → NothingHeld s →
    (∀ id, f.candidate = .gap id → exec .frameSent s
      = .next { s with
          line := s.line.afterSent
          stn := s.beaconRestarted
          gaps := s.gaps.map fun e =>
            if e.id = id then
              { e with attempts := e.attempts + 1, state := .waiting, timer := .running s.cfg.repairInterval }
            else e
          counters := { s.counters with resendsSent := s.counters.resendsSent + 1 } })
    ∧ (f.candidate = .catchUp → exec .frameSent s
      = .next { s with
          line := s.line.afterSent
          stn := s.beaconRestarted
          send := { s.send with catchUp := none }
          counters := { s.counters with resendsSent := s.counters.resendsSent + 1 } })
    ∧ (∀ tag, f.candidate = .replay tag → s.send.releaseWaiting = false → exec .frameSent s
      = .next { s with
          line := s.line.afterSent
          stn := s.beaconRestarted
          send := { s.send with
            retained := s.send.retained.map fun n => if n.tag = tag then { n with marked := false } else n }
          counters := { s.counters with replaysSent := s.counters.replaysSent + 1 } })
    ∧ (∀ tag, f.candidate = .replay tag → s.send.releaseWaiting = true → ∃ t, exec .frameSent s = .next t
        ∧ AttnFollows t ∧ t.line = s.line.afterSent ∧ t.stn = s.beaconRestarted
        ∧ t.send = s.releasedAtReplayEnd
            (s.send.retained.map fun n => if n.tag = tag then { n with marked := false } else n)
        ∧ t.counters = { s.counters with replaysSent := s.counters.replaysSent + 1 }
        ∧ t.rx = s.rx ∧ t.pool = s.pool ∧ t.gaps = s.gaps ∧ t.members = s.members ∧ t.commit = s.commit
        ∧ t.port = s.port)

/-- A NOTICE frame was sent: its window opens at the sender, who marks nothing (R27, R31). A beacon was sent: it is no
longer due; a JOIN beacon is counted, and the LEAVE beacon takes the station into IDLE (R36, R141, R145), the delivery queue
kept and the storage of the notices discarded back on the free lists (R110; in log 13's order). -/
def Obligations.NoticeOrBeaconSent : Prop :=
  ∀ (s : State) (f : OwnFrame), Live s → s.line.ownFrame = some f → f.sent = false → NothingHeld s →
    (∀ tag h b, f.candidate = .notice tag → f.frame = .notice h b → exec .frameSent s
      = .next { s with
          line := { s.line.afterSent with
            ownFrame := some { f with sent := true }
            window := some { role := .sender, header := h, number := b.number, markFull := false, markStale := false
                             turnGap := false, full := false, stale := false } }
          stn := s.beaconRestarted })
    ∧ (∀ h v w, f.candidate = .dueBeacon → f.frame = .beacon h .periodic v w → exec .frameSent s
      = .next { s with line := s.line.afterSent, stn := { s.beaconRestarted with beaconDue := false } })
    ∧ (∀ h v w, f.candidate = .dueBeacon → f.frame = .beacon h .join v w → exec .frameSent s
      = .next { s with
          line := s.line.afterSent
          stn := { s.beaconRestarted with beaconDue := false, joinBeacons := min (s.stn.joinBeacons + 1) 255 } })
    ∧ (∀ h v w, f.candidate = .dueBeacon → f.frame = .beacon h .leave v w →
        ∃ t, exec .frameSent s = .next t ∧ AttnFollows t ∧ t.stn.state = .idle ∧ OffLineEmpty t
          ∧ (s.send.outbound = [] → t.port = (s.postReport (.stateChange s.stn.state .idle .leaveSent)).port)
          ∧ (∀ n rest, s.send.outbound = n :: rest → t.port
              = ((s.postReport (.outboundDiscarded (n :: rest).length n.tag)).postReport
                  (.stateChange s.stn.state .idle .leaveSent)).port)
          ∧ t.send.releasePoint = ⟨0, 0⟩ ∧ t.send.transmitPoint = ⟨0, 0⟩ ∧ t.send.postEnd = ⟨0, 0⟩
          ∧ t.send.tagCounter = s.send.tagCounter ∧ t.send.lastCommitted = s.send.lastCommitted
          ∧ t.send.lastReleased = s.send.lastReleased ∧ t.send.room = s.send.room
          ∧ t.rx.count = s.rx.count ∧ t.rx.settled = s.rx.settled
          ∧ t.stn.config = s.stn.config ∧ t.stn.word = s.stn.word ∧ t.counters = s.counters
          ∧ (∃ more, t.rx.queue = s.rx.queue ++ more) ∧ (PendingBaseSound s → ReceiveSideFreed s t))

/-- A frame ends in collision (R28, R29, R35, R47): the candidate stays as its owner holds it, the station yields, the
counts rise, the eighth collision reports, and a NOTICE frame's reservation is freed. The mark on a REPLAY's notice stays; a
release that waited for the frame is taken, and the mark vanishes with its notice (R81). -/
def Obligations.CollisionKeepsTheCandidate : Prop :=
  ∀ (s : State) (f : OwnFrame), Live s → s.line.ownFrame = some f → f.sent = false → NothingHeld s →
    ∃ t, exec .collision s = .next t ∧ AttnFollows t
      ∧ t.line = s.line.afterCollision f.candidate
      ∧ t.counters = { s.counters with collisions := s.counters.collisions + 1 }
      ∧ t.port = (if s.line.eighthCollision then
          (s.postReport (.collisions (Frame.kind f.frame) 8)).port else s.port)
      ∧ t.stn = s.stn ∧ t.members = s.members ∧ t.send.outbound = s.send.outbound ∧ t.send.catchUp = s.send.catchUp
      ∧ t.rx.count = s.rx.count ∧ t.commit.objections = s.commit.objections
      ∧ t.commit.catchingUp = s.commit.catchingUp
      ∧ ((∀ tag, f.candidate ≠ .notice tag) →
          t.gaps = s.gaps ∧ t.rx = s.rx ∧ t.pool = s.pool ∧ t.commit = s.commit
            ∧ (s.send.releaseWaiting = false ∨ (∀ tag, f.candidate ≠ .replay tag) → t.send = s.send))
      ∧ (∀ tag, f.candidate = .replay tag → s.send.releaseWaiting = true →
          t.send = s.releasedAtReplayEnd s.send.retained)
      ∧ (∀ tag, f.candidate = .notice tag → t.commit.provisional = none ∧ t.send = s.send
          ∧ (s.commit.provisional = none → t.pool = s.pool ∧ t.rx = s.rx ∧ t.gaps = s.gaps)
          ∧ HandedOn s t
          ∧ ∀ own, s.commit.provisional = some own → t.pool.freeCells = s.pool.freeCells ++ own.chain ∧
            (NothingToAdvance s →
              t.pool = { s.pool with
                freeCells := s.pool.freeCells ++ own.chain, freeDescs := s.pool.freeDescs ++ [own.desc] }
              ∧ t.rx = s.rx ∧ t.gaps = s.gaps))

/-- What was held for the end of the own frame, or of a received NOTICE frame's window, is taken there (R28, R30, R141,
R144): a LEAVE, which drops a held join expiry; else the join expiry. It is taken at a collision, when a frame other than a
NOTICE frame was sent, and at the end of a window; the sent end of a NOTICE frame, whose window is to come, takes neither.
Its reports follow those of the frame's or window's own end: COLLISIONS (log 35), CONGESTED, STALE_SENDER, the horizon's where the
count rises or is set (R15, log 12), or the STATE of a resync after them (log 27). -/
def Obligations.HeldEventsTakenAtTheEnd : Prop :=
  ∀ s : State, Live s →
    let left (t : State) : Prop :=
      t.stn.state = .leaving ∧ t.stn.leaveHeld = false ∧ t.stn.joinExpiryHeld = false ∧ t.stn.beaconDue = true
        ∧ t.stn.joinTimer = .stopped ∧ t.stn.beaconTimer = .stopped
    let failed (t : State) : Prop :=
      t.stn.state = .listen ∧ t.stn.joinExpiryHeld = false ∧ t.stn.beaconDue = false ∧ t.stn.joinTimer = .stopped
        ∧ t.stn.beaconTimer = .stopped
        ∧ t.stn.listenTimer = .running (s.cfg.listenMultiple * s.cfg.beaconInterval)
        ∧ t.rx.holdSet = [] ∧ t.rx.known = 0 ∧ t.gaps = []
    let joinFailed (u : State) (beacons : Nat) : State :=
      (u.postReport (.joinUnanswered beacons)).postReport (.stateChange s.stn.state .listen .joinFailure)
    let objectedAt (w : Window) : State :=
      let u := if s.commit.objections + 1 == 16 && s.commit.congestedArmed then s.postReport (.congested 16) else s
      if w.stale then u.postReport (.staleSender w.number s.rx.count) else u
    let rises (w : Window) : Prop := w.objected = false ∧ s.ahead w.number ≤ 256 ∧ w.number = s.rx.count + 1
    let refused (w : Window) : Prop := w.objected = false ∧ 256 < s.ahead w.number
    let lost (n : LineNo) : State := s.postReports (s.horizonReports n)
    (∀ f, s.line.ownFrame = some f → f.sent = false →
      let u := if s.line.eighthCollision then s.postReport (.collisions (Frame.kind f.frame) 8) else s
      (s.stn.leaveHeld = true → ∃ t, exec .collision s = .next t ∧ left t
        ∧ t.port = (u.postReport (.stateChange s.stn.state .leaving .leaveCommand)).port)
      ∧ (s.stn.leaveHeld = false → s.stn.joinExpiryHeld = true → ∃ t, exec .collision s = .next t ∧ failed t
        ∧ t.port = (joinFailed u s.stn.joinBeacons).port))
    ∧ (∀ f, s.line.ownFrame = some f → f.sent = false → (∀ tag, f.candidate ≠ .notice tag) →
        (∀ h v w, f.candidate = .dueBeacon → f.frame ≠ .beacon h .leave v w) →
        (s.stn.leaveHeld = true → ∃ t, exec .frameSent s = .next t ∧ left t
          ∧ t.port = (s.postReport (.stateChange s.stn.state .leaving .leaveCommand)).port)
        ∧ (s.stn.leaveHeld = false → s.stn.joinExpiryHeld = true → ∃ t, exec .frameSent s = .next t ∧ failed t
          ∧ ((∀ h v w, f.candidate = .dueBeacon → f.frame ≠ .beacon h .join v w) →
              t.port = (joinFailed s s.stn.joinBeacons).port)
          ∧ ∀ h v w, f.candidate = .dueBeacon → f.frame = .beacon h .join v w →
              t.port = (joinFailed s (min (s.stn.joinBeacons + 1) 255)).port))
    ∧ (∀ f tag h b, s.line.ownFrame = some f → f.sent = false → f.candidate = .notice tag → f.frame = .notice h b →
        ∃ t, exec .frameSent s = .next t ∧ t.stn.state = s.stn.state ∧ t.stn.leaveHeld = s.stn.leaveHeld
          ∧ t.stn.joinExpiryHeld = s.stn.joinExpiryHeld ∧ t.port = s.port)
    ∧ (∀ w, s.line.window = some w → w.role = .sender →
        (s.stn.leaveHeld = true → ∃ t, exec .windowEndSender s = .next t ∧ left t
          ∧ (w.objected = true →
              t.port = ((objectedAt w).postReport (.stateChange s.stn.state .leaving .leaveCommand)).port)
          ∧ (rises w → t.port = ((lost w.number).postReport (.stateChange s.stn.state .leaving .leaveCommand)).port)
          ∧ (refused w → s.stn.state = .joining ∨ s.stn.state = .active →
              t.port = (((lost w.header.count).postReport (.stateChange s.stn.state .joining .resyncSpan)).postReport
                (.stateChange .joining .leaving .leaveCommand)).port))
        ∧ (s.stn.leaveHeld = false → s.stn.joinExpiryHeld = true → w.objected = true ∨ s.ahead w.number ≤ 256 →
            ∃ t, exec .windowEndSender s = .next t ∧ failed t
              ∧ (w.objected = true → t.port = (joinFailed (objectedAt w) s.stn.joinBeacons).port)
              ∧ (rises w → t.port = (joinFailed (lost w.number) s.stn.joinBeacons).port)))
    ∧ (∀ w, s.line.window = some w → w.role = .receiver → s.stn.leaveHeld = false → s.stn.joinExpiryHeld = true →
        (w.objected = true ∨ s.ahead w.number ≤ 256 → ∃ t, exec .windowEndReceiver s = .next t ∧ failed t
          ∧ t.commit.provisional = none ∧ t.rx.count = (if w.objected = true then s.rx.count else w.number)
          ∧ (w.objected = true → t.port = (joinFailed s s.stn.joinBeacons).port)
          ∧ (rises w → t.port = (joinFailed (lost w.number) s.stn.joinBeacons).port))
        ∧ (w.objected = false → 256 < s.ahead w.number → s.stn.state = .joining →
            ∃ t, exec .windowEndReceiver s = .next t ∧ t.stn.state = .joining ∧ t.stn.joinExpiryHeld = false
              ∧ t.stn.joinTimer = .running (8 * s.cfg.beaconInterval)
              ∧ (refused w → t.port
                  = ((lost w.header.count).postReport (.stateChange .joining .joining .resyncSpan)).port)))

/-! ### The objection window -/

/-- A window position (R31, R32): the station drives it if it chose to mark it, with DE asserted and TXD low for the whole
position (R16, R32), and records the level it samples. -/
def Obligations.WindowPositionSampled : Prop :=
  ∀ (s : State) (w : Window) (dominant : Bool), Live s → s.line.window = some w →
    (exec (.windowPosition .turnGap dominant) s = .next { s with line := { s.line with
      window := some { w with turnGap := dominant }, driving := false
      timing := if dominant then .busy else s.line.timing } })
    ∧ (exec (.windowPosition .full dominant) s = .next { s with line := { s.line with
      window := some { w with full := dominant || w.markFull }, driving := w.markFull
      timing := if dominant || w.markFull then .busy else s.line.timing } })
    ∧ (exec (.windowPosition .stale dominant) s = .next { s with line := { s.line with
      window := some { w with stale := dominant || w.markStale }, driving := w.markStale
      timing := if dominant || w.markStale then .busy else s.line.timing } })
    ∧ (∀ pos, ∃ t, exec (.windowPosition pos dominant) s = .next t ∧ ∀ bit,
        let marks := match pos with
          | .turnGap => false
          | .full => w.markFull
          | .stale => w.markStale
        (s.line.ownFrame = none → t.linePins bit = { de := marks, txd := !marks })
          ∧ ∀ f, s.line.ownFrame = some f → f.sent = true → t.linePins bit = { de := false, txd := true })
    ∧ (w.objected = true ↔ w.turnGap = true ∨ w.full = true ∨ w.stale = true ∨ w.markFull = true
        ∨ w.markStale = true)

/-- An objected window at a full receiver (R43): the provisional notice is freed, and neither count nor position moves. -/
def Obligations.ReceiverDiscardsObjected : Prop :=
  ∀ (s : State) (w : Window), Live s → s.line.window = some w → w.role = .receiver → w.objected = true →
    NothingHeld s → ∃ t, exec .windowEndReceiver s = .next t ∧ AttnFollows t
      ∧ t.line = { s.line with window := none, driving := false }
      ∧ t.commit = { s.commit with provisional := none }
      ∧ t.rx.count = s.rx.count ∧ t.send = s.send ∧ t.members = s.members ∧ t.stn = s.stn ∧ t.port = s.port
      ∧ t.counters = s.counters ∧ HandedOn s t
      ∧ (s.commit.provisional = none → t.rx = s.rx ∧ t.gaps = s.gaps ∧ t.pool = s.pool)
      ∧ ∀ own, s.commit.provisional = some own → t.pool.freeCells = s.pool.freeCells ++ own.chain ∧
        (NothingToAdvance s →
          t.rx = s.rx ∧ t.gaps = s.gaps
            ∧ t.pool = { s.pool with
                freeCells := s.pool.freeCells ++ own.chain, freeDescs := s.pool.freeDescs ++ [own.desc] })

/-- A clean window at a full receiver (R42, R53): the count rises to the number; in order, the notice is delivered at once,
or its position only settled when it is of no subscribed topic; out of order, it waits in the hold set; and while a BASE
record waits its position only becomes known, the settled point standing (R68, R101). The backlog event flag follows what is
delivered (R107). The members that the rise leaves beyond the horizon go, each with its report (in station-number order, log 12),
and release is evaluated once after them (R15). -/
def Obligations.ReceiverCommitsClean : Prop :=
  ∀ (s : State) (w : Window), Live s → s.line.window = some w → w.role = .receiver → w.objected = false →
    NothingHeld s → w.number = s.rx.count + 1 →
    (∀ own, s.commit.provisional = some own → own.number = w.number) →
    let committed (t : State) : Prop :=
      AttnFollows t ∧ t.rx.count = w.number
        ∧ t.commit = { s.commit with provisional := none, catchingUp := false }
        ∧ t.members = s.keptAtHorizon w.number ∧ t.send = { s.releasedAtHorizon w.number with catchUp := none }
        ∧ t.port = (s.postReports (s.horizonReports w.number)).port
        ∧ t.pool = s.pool ∧ t.stn = s.stn ∧ t.counters = s.counters
        ∧ t.line = { s.line with window := none, driving := false }
    ((s.rx.settled = s.rx.count → s.pool.pendingBase = none → s.rx.holdSet = [] → s.rx.known = 0 → s.gaps = [] →
      ∃ t, exec .windowEndReceiver s = .next t ∧ committed t
        ∧ t.rx.settled = w.number ∧ t.rx.known = 0 ∧ t.rx.holdSet = []
        ∧ t.rx.queue = s.rx.queue ++ s.commit.provisional.toList.map .notice ∧ BacklogFollows s t s.rx.queue.length
        ∧ t.gaps = [])
    ∧ (OrderSound s → s.rx.settled ≠ s.rx.count ∨ s.pool.pendingBase ≠ none → s.ahead w.number ≤ 256 → AdvanceRests s →
      ∃ t, exec .windowEndReceiver s = .next t ∧ committed t
        ∧ t.rx.settled = s.rx.settled ∧ t.rx.queue = s.rx.queue ∧ t.rx.backlog = s.rx.backlog
        ∧ t.knownAt w.number = true ∧ (∀ n, n ≠ w.number → t.knownAt n = s.knownAt n)
        ∧ (∀ n, n ∈ t.rx.holdSet ↔ n ∈ s.rx.holdSet ∨ s.commit.provisional = some n) ∧ t.gaps = s.gaps))

/-- A clean window whose rise the span limit refuses (R12, R45, R49, R143): a JOINING or ACTIVE station resyncs SPAN to the
frame's header count, its stored notices freed within the resync (log 14; in log 13's order), with the BASE record
RESYNC_SPAN and the STATE report, and before it the reports of the members that the horizon of the count set takes out, release
being evaluated once after them (R15, logs 12, 27); a LEAVING one only frees the provisional notice; the sender's send queue
commits all the same, before its resync. -/
def Obligations.RefusedCommitResyncs : Prop :=
  ∀ (s : State) (w : Window), Live s → s.line.window = some w → w.objected = false → 256 < s.ahead w.number →
    NothingHeld s →
    let resynced (t : State) : Prop :=
      AttnFollows t ∧ t.stn.state = .joining ∧ t.stn.joinTimer = .running (8 * s.cfg.beaconInterval)
        ∧ t.stn.beaconTimer = .running s.cfg.beaconInterval ∧ t.stn.beaconDue = true ∧ t.stn.joinBeacons = 0
        ∧ t.rx.count = w.header.count ∧ t.rx.settled = w.header.count ∧ t.rx.holdSet = [] ∧ t.rx.known = 0
        ∧ t.gaps = [] ∧ t.commit.provisional = none ∧ t.commit.catchingUp = false ∧ t.send.catchUp = none
        ∧ t.line.yield = true ∧ t.line.window = none ∧ t.line.driving = false ∧ t.counters = s.counters
        ∧ t.members = (s.keptAtHorizon w.header.count).map (fun m => { m with includedMe := false })
        ∧ (PendingBaseSound s →
            t.pool.freeCells = s.pool.freeCells ++ s.storedNotices.flatMap (·.chain)
              ∧ BaseEmitted s t (s.pool.freeDescs ++ s.storedNotices.map (·.desc)) .resyncSpan w.header.count)
        ∧ t.port = ((s.postReports (s.horizonReports w.header.count)).postReport
            (.stateChange s.stn.state .joining .resyncSpan)).port
    (w.role = .receiver → (s.stn.state = .joining ∨ s.stn.state = .active) →
      ∃ t, exec .windowEndReceiver s = .next t ∧ resynced t
        ∧ t = (({ s with line := { s.line with window := none, driving := false } }).resync .resyncSpan .resyncSpan
            w.header.count).settleAttn
        ∧ t.send.outbound = s.send.outbound ∧ t.send.lastCommitted = s.send.lastCommitted
        ∧ t.send = { s.releasedAtHorizon w.header.count with catchUp := none })
    ∧ (w.role = .receiver → s.stn.state = .leaving →
      ∃ t, exec .windowEndReceiver s = .next t ∧ AttnFollows t ∧ t.line = { s.line with window := none, driving := false }
        ∧ t.commit = { s.commit with provisional := none } ∧ t.rx.count = s.rx.count ∧ t.send = s.send
        ∧ t.members = s.members ∧ t.stn = s.stn ∧ t.port = s.port ∧ t.counters = s.counters ∧ HandedOn s t
        ∧ (s.commit.provisional = none → t.rx = s.rx ∧ t.gaps = s.gaps ∧ t.pool = s.pool)
        ∧ ∀ own, s.commit.provisional = some own → t.pool.freeCells = s.pool.freeCells ++ own.chain ∧
          (NothingToAdvance s →
            t.rx = s.rx ∧ t.gaps = s.gaps
              ∧ t.pool = { s.pool with
                  freeCells := s.pool.freeCells ++ own.chain, freeDescs := s.pool.freeDescs ++ [own.desc] }))
    ∧ (w.role = .sender → (s.stn.state = .joining ∨ s.stn.state = .active) →
      ∀ head rest, s.send.outbound = head :: rest →
      let send : SendBlock := { s.send with
        outbound := rest
        retained := s.send.retained ++ [{ head with number := some w.number }]
        transmitPoint := ⟨(s.send.transmitPoint.cell + cellsFor head.length) % s.cfg.sendSize,
          (s.send.transmitPoint.desc + 1) % 32⟩
        lastCommitted := head.tag
        catchUp := none }
      ∃ t, exec .windowEndSender s = .next t ∧ resynced t
        ∧ t.line.ownFrame = none ∧ t.commit.objections = 0 ∧ t.commit.congestedArmed = true
        ∧ t.commit.congested = false
        ∧ (s.members ≠ [] → t.send = State.releasedAtHorizon
            { s with send := send, line := { s.line with ownFrame := none } } w.header.count)
        ∧ (s.members = [] →
            t.send = { send with
              retained := [], lastReleased := head.tag
              releasePoint := (s.send.retained ++ [head]).foldl
                (fun p n => p.past s.cfg.sendSize (cellsFor n.length)) s.send.releasePoint
              room := s.send.room
                || (decide (s.freeSendCells ≤ s.cfg.roomLimit) && decide (s.cfg.roomLimit < t.freeSendCells)) }))

/-- A clean window of the own NOTICE frame (R48, R51, R75): the head is retained under its number, and released at once when
the member table is empty; the count rises to the number; in order the own copy is delivered at once, and behind a gap it
waits in the hold set; while a BASE record waits its position only becomes known (R68, R101). The backlog event flag follows
what is delivered (R107). The members that the rise leaves beyond the horizon go, each with its report (in station-number order,
log 12), and release is evaluated once after them, over a retained span that holds the head (R15). -/
def Obligations.SenderCommitsClean : Prop :=
  ∀ (s : State) (w : Window) (head : SendNotice) (rest : List SendNotice), Live s → s.line.window = some w →
    w.role = .sender → w.objected = false → NothingHeld s → w.number = s.rx.count + 1 →
    s.send.outbound = head :: rest →
    (∀ own, s.commit.provisional = some own → own.number = w.number) →
    let send : SendBlock := { s.send with
      outbound := rest
      retained := s.send.retained ++ [{ head with number := some w.number }]
      transmitPoint := ⟨(s.send.transmitPoint.cell + cellsFor head.length) % s.cfg.sendSize,
        (s.send.transmitPoint.desc + 1) % 32⟩
      lastCommitted := head.tag
      catchUp := none }
    let committed (t : State) : Prop :=
      AttnFollows t ∧ t.rx.count = w.number
        ∧ t.commit = { provisional := none, objections := 0, congestedArmed := true, congested := false
                       catchingUp := false }
        ∧ t.line = { s.line with window := none, driving := false, ownFrame := none }
        ∧ (s.members ≠ [] → t.send = State.releasedAtHorizon
            { s with send := send, line := { s.line with ownFrame := none } } w.number)
        ∧ (s.members = [] →
            t.send = { send with
              retained := [], lastReleased := head.tag
              releasePoint := (s.send.retained ++ [head]).foldl
                (fun p n => p.past s.cfg.sendSize (cellsFor n.length)) s.send.releasePoint
              room := s.send.room
                || (decide (s.freeSendCells ≤ s.cfg.roomLimit) && decide (s.cfg.roomLimit < t.freeSendCells)) })
        ∧ t.members = s.keptAtHorizon w.number ∧ t.port = (s.postReports (s.horizonReports w.number)).port
        ∧ t.pool = s.pool ∧ t.stn = s.stn ∧ t.counters = s.counters
    (s.rx.settled = s.rx.count → s.pool.pendingBase = none → s.rx.holdSet = [] → s.rx.known = 0 → s.gaps = [] →
      ∃ t, exec .windowEndSender s = .next t ∧ committed t
        ∧ t.rx.settled = w.number ∧ t.rx.known = 0 ∧ t.rx.holdSet = []
        ∧ t.rx.queue = s.rx.queue ++ s.commit.provisional.toList.map .notice ∧ BacklogFollows s t s.rx.queue.length
        ∧ t.gaps = [])
    ∧ (OrderSound s → s.rx.settled ≠ s.rx.count ∨ s.pool.pendingBase ≠ none → s.ahead w.number ≤ 256 → AdvanceRests s →
      ∃ t, exec .windowEndSender s = .next t ∧ committed t
        ∧ t.rx.settled = s.rx.settled ∧ t.rx.queue = s.rx.queue ∧ t.rx.backlog = s.rx.backlog
        ∧ t.knownAt w.number = true ∧ (∀ n, n ≠ w.number → t.knownAt n = s.knownAt n)
        ∧ (∀ n, n ∈ t.rx.holdSet ↔ n ∈ s.rx.holdSet ∨ s.commit.provisional = some n) ∧ t.gaps = s.gaps)

/-- An objected window of the own NOTICE frame (R50, R51, R52): the notice stays outbound, the reservation is freed, the
counts rise, the sixteenth in a row posts CONGESTED, and STALE starts the catch-up. The yield flag moves the position of a
line that is idle (log 29). -/
def Obligations.SenderObjected : Prop :=
  ∀ (s : State) (w : Window), Live s → s.line.window = some w → w.role = .sender → w.objected = true →
    NothingHeld s →
    let sixteenth := s.commit.objections + 1 == 16 && s.commit.congestedArmed
    let posted := if sixteenth then s.postReport (.congested 16) else s
    ∃ t, exec .windowEndSender s = .next t ∧ AttnFollows t
      ∧ t.line = { s.line.yielded with window := none, driving := false, ownFrame := none }
      ∧ t.counters = { s.counters with ownObjected := s.counters.ownObjected + 1 }
      ∧ t.commit = { provisional := none, objections := min (s.commit.objections + 1) 255
                     congestedArmed := s.commit.congestedArmed && !sixteenth
                     congested := s.commit.congested || sixteenth
                     catchingUp := s.commit.catchingUp || w.stale }
      ∧ t.send = { s.send with catchUp := if w.stale then some (s.rx.count + 1) else s.send.catchUp }
      ∧ t.port = (if w.stale then posted.postReport (.staleSender w.number s.rx.count) else posted).port
      ∧ t.rx.count = s.rx.count ∧ t.members = s.members ∧ t.stn = s.stn ∧ HandedOn s t
      ∧ (s.commit.provisional = none → t.rx = s.rx ∧ t.gaps = s.gaps ∧ t.pool = s.pool)
      ∧ ∀ own, s.commit.provisional = some own → t.pool.freeCells = s.pool.freeCells ++ own.chain ∧
        (NothingToAdvance s →
          t.rx = s.rx ∧ t.gaps = s.gaps
            ∧ t.pool = { s.pool with
                freeCells := s.pool.freeCells ++ own.chain, freeDescs := s.pool.freeDescs ++ [own.desc] })

/-- Adoption (R9, R138): in LISTEN a NOTICE frame's window is sampled to its end, and the count adopted is its number when
it was clean, its header count when it was objected, and then its header's part of the member table follows; any other valid
frame's header count is adopted at its check pass, and the frame is then processed as at a JOINING station (R9, R129, R164):
of a sender that is no member, an entry with MEMBER_JOINED after the STATE report of ADOPTION, a beacon's PEER_WORD before the
STATE report of INCLUSION; of a RESEND, the marks on notices retained from before a join failure. At the count adopted the horizon
takes out members kept from before a join failure, each with its report before the STATE report of ADOPTION (in station-number
order, log 12; log 27), and release is evaluated once after them (R15); the sender may be one of them, and is then no member. -/
def Obligations.AdoptionSetsTheCount : Prop :=
  ∀ s : State, Live s → s.stn.state = .listen → OffLineEmpty s → PendingBaseSound s →
    let adopted (n : LineNo) : State :=
      (s.postReports (s.horizonReports n)).postReport (.stateChange .listen .joining .adoption)
    let greeted (h : Header) (n : LineNo) : State := (adopted n).postReport (.memberJoined h.sender)
    let absent (h : Header) (n : LineNo) : Prop := ∀ m ∈ s.keptAtHorizon n, m.station ≠ h.sender
    let unknown (h : Header) (n : LineNo) : Prop := absent h n ∧ distance h.settled n ≤ 16384
    let entry (h : Header) (word : Option Word16) (included : Bool) : Member :=
      { station := h.sender, state := h.senderState, settled := h.settled
        presence := .running (s.cfg.presenceMultiple * s.cfg.beaconInterval), includedMe := included, word := word }
    let asked (r : ResendRange) (n : LineNo) : Bool := match r with
      | .closed first last => frameAtOrBefore first n && frameAtOrAfter last n
      | .openFrom first => frameAtOrBefore first n
    let joins (t : State) (n : LineNo) : Prop :=
      AttnFollows t ∧ AdoptedAt s t n ∧ t.stn.state = .joining ∧ t.stn.joinTimer = .running (8 * s.cfg.beaconInterval)
        ∧ (∀ m ∈ t.members, m.includedMe = false)
    (∀ (w : Window) (n : LineNo), s.line.window = some w → w.role = .adopting →
      (w.objected = true → n = w.header.count) → (w.objected = false → n = w.number ∧ n = w.header.count + 1) →
      ∃ t, exec .windowEndReceiver s = .next t ∧ joins t n
        ∧ (∃ a, AdoptedJoining s a n ∧ a.line = { s.line.yielded with window := none, driving := false }
            ∧ t = (a.headerMember w.header false).settleAttn)
        ∧ (unknown w.header n → t.port = (greeted w.header n).port ∧ t.send = s.releasedAtHorizon n
            ∧ entry w.header none false ∈ t.members))
    ∧ (∀ (chars : List LineChar) (f : Frame), Arrives s chars f →
      (∀ h b, f = .notice h b → exec (.noticeFrameReceived chars) s = .next { s with
        line := { (s.arrival h).line with
          window := some { role := .adopting, header := h, number := b.number, markFull := false, markStale := false
                           turnGap := false, full := false, stale := false } }
        stn := { s.stn with listenTimer := .stopped } })
      ∧ ((∀ h b, f ≠ .notice h b) → ∃ a, AdoptedJoining s a (Frame.header f).count
          ∧ a.line = { (s.arrival (Frame.header f)).line with ready := true, yield := true }
          ∧ Arrives a chars f ∧ exec (frameEvent chars f) s = exec (frameEvent chars f) a)
      ∧ (∀ h b, f = .replay h b → ∃ t, exec (.replayReceived chars) s = .next t ∧ joins t h.count
          ∧ t.counters = { s.counters with duplicates := s.counters.duplicates + 1 }
          ∧ (unknown h h.count → t.port = (greeted h h.count).port ∧ t.send = s.releasedAtHorizon h.count
              ∧ entry h none false ∈ t.members))
      ∧ (∀ h r, f = .resend h r → ∃ t, exec (.resendReceived chars) s = .next t ∧ joins t h.count
          ∧ t.counters = s.counters
          ∧ (unknown h h.count → t.port = (greeted h h.count).port ∧ entry h none false ∈ t.members
              ∧ t.send = { s.releasedAtHorizon h.count with
                  retained := (s.releasedAtHorizon h.count).retained.map fun (n : SendNotice) =>
                    if asked r n.lineNo = true ∧ atOrBefore n.lineNo h.count = true then { n with marked := true }
                    else n }))
      ∧ (∀ h kind view word, f = .beacon h kind view word → kind = .leave ∨ viewNames view s.line.id = false →
          ∃ t, exec (.beaconReceived chars) s = .next t ∧ joins t h.count ∧ t.counters = s.counters
            ∧ (kind = .leave → absent h h.count → t.port = (adopted h.count).port ∧ t.send = s.releasedAtHorizon h.count
                ∧ t.members = (s.keptAtHorizon h.count).map (fun m => { m with includedMe := false }))
            ∧ (kind ≠ .leave → unknown h h.count →
                t.port = ((greeted h h.count).postReport (.peerWord h.sender word)).port
                  ∧ t.send = s.releasedAtHorizon h.count ∧ entry h (some word) false ∈ t.members))
      ∧ (∀ h kind view word, f = .beacon h kind view word → kind ≠ .leave → viewNames view s.line.id = true →
          ∃ t, exec (.beaconReceived chars) s = .next t ∧ AttnFollows t ∧ AdoptedAt s t h.count ∧ t.stn.state = .active
            ∧ t.stn.joinTimer = .stopped ∧ t.counters = s.counters
            ∧ (unknown h h.count → t.send = s.releasedAtHorizon h.count ∧ entry h (some word) true ∈ t.members
                ∧ t.port = (((greeted h h.count).postReport (.peerWord h.sender word)).postReport
                    (.stateChange .joining .active .inclusion)).port)))

/-! ### Header processing -/

/-- The member table's part of header processing (R15, R149 to R151): the horizon and a LEAVE take the sender out of the
table; else its entry is refreshed or made; release is evaluated where a reported settled point went or changed. That a sender
beyond the horizon gets no entry at an empty table too, where R15 says the horizon does nothing, is the model's reading
(log 31). -/
def Obligations.HeaderTakesTheMember : Prop :=
  ∀ (s : State) (h : Header) (leaving : Bool),
    let t := s.headerMember h leaving
    let far := 16384 < distance h.settled s.rx.count
    (t.rx = s.rx ∧ t.line = s.line ∧ t.commit = s.commit ∧ t.pool = s.pool ∧ t.gaps = s.gaps ∧ t.stn = s.stn
      ∧ t.counters = s.counters ∧ t.pins = s.pins)
    ∧ ((∀ m ∈ s.members, m.station ≠ h.sender) → far ∨ leaving = true → t = s)
    ∧ (∀ before m after, s.members = before ++ m :: after → m.station = h.sender →
        (∀ e ∈ before ++ after, e.station ≠ h.sender) →
        (far ∨ leaving = true →
          t.members = before ++ after
            ∧ t.send = ({ s with members := before ++ after }).evaluateRelease.send
            ∧ t.port = (s.postReport (if distance h.settled s.rx.count ≤ 16384 then .memberLeft h.sender
                else .memberLost h.sender .horizon)).port)
        ∧ (¬far → leaving = false →
          t.members = before ++ { m with
              state := h.senderState, settled := h.settled
              presence := .running (s.cfg.presenceMultiple * s.cfg.beaconInterval) } :: after
            ∧ t.port = s.port ∧ (m.settled = h.settled → t.send = s.send)
            ∧ (m.settled ≠ h.settled → t.send = ({ s with members := t.members }).evaluateRelease.send)))
    ∧ ((∀ m ∈ s.members, m.station ≠ h.sender) → ¬far → leaving = false →
        t.port = (s.postReport (.memberJoined h.sender)).port ∧ t.send = s.send
          ∧ ∃ before after, s.members = before ++ after
            ∧ t.members = before ++
                { station := h.sender, state := h.senderState, settled := h.settled
                  presence := .running (s.cfg.presenceMultiple * s.cfg.beaconInterval), includedMe := false
                  word := none } :: after
            ∧ (∀ e ∈ before, e.station.toNat < h.sender.toNat)
            ∧ (MembersSound s → ∀ e ∈ after, h.sender.toNat < e.station.toNat))

/-- The header count (R3, R12, R15, R53, R114 to R116): a count that does not follow changes nothing; one that follows
within the span raises the count and hands the missing range to the gap table; else the frame is refused. A rise removes the
members it leaves beyond the horizon, each with a MEMBER_LOST HORIZON report (in station-number order, log 12), and evaluates
release once; the order of these reports and GAP_OVERFLOW is open (log 11). -/
def Obligations.HeaderCountRaises : Prop :=
  ∀ (s : State) (h : Header) (leaving : Bool), s.stn.onLine = true →
    let m := s.headerMember h leaving
    let t := s.headerProcess h leaving
    (follows s.rx.count h.count = false → unordered s.rx.count h.count = false → t = (m, true))
    ∧ (unordered s.rx.count h.count = true ∨ follows s.rx.count h.count = true ∧ 256 < s.ahead h.count →
        t.2 = false ∧ (s.stn.state = .leaving → t.1 = m)
          ∧ (s.stn.state ≠ .leaving → t.1 = m.resync .resyncSpan .resyncSpan h.count))
    ∧ (follows s.rx.count h.count = true → s.ahead h.count ≤ 256 →
        t.2 = true ∧ CountRaised m t.1 h.count h.count
          ∧ t.1.stn = s.stn ∧ t.1.line = s.line ∧ t.1.counters = s.counters ∧ t.1.commit.provisional = s.commit.provisional
          ∧ t.1.pool.cells = s.pool.cells ∧ t.1.pool.freeCells = s.pool.freeCells ∧ BacklogFollows s t.1 s.rx.queue.length
          ∧ (s.gaps.length < 8 ∨ (∃ before e, s.gaps = before ++ [e] ∧ e.state ≠ .lost) ∨ OrderSound s ∧ AdvanceRests s →
              t.1.rx = { s.rx with count := h.count } ∧ t.1.pool = s.pool))

/-! ### What each kind of frame does after its header -/

/-- A NOTICE frame at a full receiver (R39 to R41, R95): STALE for a number at or before the count; for a subscribed topic
the claim under the room rule, or FULL; for any other topic no mark. -/
def Obligations.NoticeFrameDecided : Prop :=
  ∀ (s : State) (chars : List LineChar) (h : Header) (b : NoticeBody), Arrives s chars (.notice h b) →
    s.stn.onLine = true →
    let u := ((s.arrival h).headerProcess h false).1
    (((s.arrival h).headerProcess h false).2 = false → exec (.noticeFrameReceived chars) s = .next u.settleAttn)
    ∧ (((s.arrival h).headerProcess h false).2 = true →
    let opened (full stale : Bool) : LineBlock := { u.line with
      window := some { role := .receiver, header := h, number := b.number, markFull := full, markStale := stale
                       turnGap := false, full := false, stale := false } }
    let c := cellsFor b.payload.length
    let room := c + 4 ≤ u.pool.freeCells.length ∧ 2 ≤ u.pool.freeDescs.length
    (frameAtOrBefore b.number u.rx.count = true → exec (.noticeFrameReceived chars) s
      = .next ({ u with
          line := opened false true
          counters := { u.counters with
            objectionsMarked := u.counters.objectionsMarked + 1
            duplicates := if frameAtOrBefore b.number u.rx.settled = true ∨ u.knownAt b.number = true
              then u.counters.duplicates + 1 else u.counters.duplicates } }).settleAttn)
    ∧ (frameAtOrBefore b.number u.rx.count = false → u.cfg.topics.getLsbD b.topic.toNat = false →
        exec (.noticeFrameReceived chars) s = .next ({ u with line := opened false false }).settleAttn)
    ∧ (frameAtOrBefore b.number u.rx.count = false → u.cfg.topics.getLsbD b.topic.toNat = true → ¬room →
        exec (.noticeFrameReceived chars) s
          = .next ({ u with
              line := opened true false
              counters := { u.counters with objectionsMarked := u.counters.objectionsMarked + 1 } }).settleAttn)
    ∧ (frameAtOrBefore b.number u.rx.count = false → u.cfg.topics.getLsbD b.topic.toNat = true → room →
        u.pool.freeCells.Nodup → Memory.wf s.pool.cells = true → ∃ (t : State) (n : RxNotice),
          exec (.noticeFrameReceived chars) s = .next t
          ∧ AttnFollows t ∧ t.line = opened false false ∧ t.commit = { u.commit with provisional := some n }
          ∧ n = { number := b.number, originator := h.sender, topic := b.topic, length := b.payload.length, own := false
                  tag := none, replay := false, desc := u.pool.freeDescs.headD 0, chain := u.pool.freeCells.take c }
          ∧ t.pool.freeCells = u.pool.freeCells.drop c ∧ t.pool.freeDescs = u.pool.freeDescs.tail
          ∧ t.pool.pendingBase = u.pool.pendingBase ∧ t.rxPayload n = b.payload
          ∧ (∀ a : Nat, a / 16 ∉ u.pool.freeCells.take c → Memory.read t.pool.cells a = Memory.read s.pool.cells a)
          ∧ t.send = u.send ∧ t.rx = u.rx ∧ t.gaps = u.gaps ∧ t.members = u.members ∧ t.stn = u.stn
          ∧ t.port = u.port ∧ t.counters = u.counters))

/-- A REPLAY of a position settled or known (R96, R100): discarded and counted; a held notice of another originator is
reported as a numbering conflict. -/
def Obligations.ReplayDiscarded : Prop :=
  ∀ (s : State) (chars : List LineChar) (h : Header) (b : NoticeBody), Arrives s chars (.replay h b) →
    s.stn.onLine = true →
    let u := ((s.arrival h).headerProcess h false).1
    (((s.arrival h).headerProcess h false).2 = false → exec (.replayReceived chars) s = .next u.settleAttn)
    ∧ (((s.arrival h).headerProcess h false).2 = true →
    let counted : State := { u with counters := { u.counters with duplicates := u.counters.duplicates + 1 } }
    (frameAtOrBefore b.number u.rx.settled = true → exec (.replayReceived chars) s = .next counted.settleAttn)
    ∧ (frameAtOrBefore b.number u.rx.settled = false → u.knownAt b.number = true →
        (∀ x ∈ u.rx.holdSet, x.number = b.number → x.originator = h.sender) →
        exec (.replayReceived chars) s = .next counted.settleAttn)
    ∧ (frameAtOrBefore b.number u.rx.settled = false → u.knownAt b.number = true →
        ∀ before held after, u.rx.holdSet = before ++ held :: after → held.number = b.number →
          (∀ x ∈ before, x.number ≠ b.number) → held.originator ≠ h.sender →
          exec (.replayReceived chars) s
            = .next (counted.postReport (.numberingConflict b.number held.originator h.sender)).settleAttn))

/-- A REPLAY of a missing position (R97, R98): of no subscribed topic, the position becomes known; else it is stored, under
the reserve test at the position after the settled point and under the room rule elsewhere, and delivered or held; without
room it is dropped and counted. While a BASE record waits the settled point stands (R68, R101). A number that follows the count
(R4; it takes a sender whose number lies half the circle from its own count, log 21) raises the count to it with the positions
below it missing (R5), or, beyond the span limit, stores nothing and resyncs, or in LEAVING does nothing (R12); that the span
is tested before the room is the model's choice (log 32). The backlog event flag follows what is delivered (R107), and the gap
table the settled point (R118, R119). -/
def Obligations.ReplayAccepted : Prop :=
  ∀ (s : State) (chars : List LineChar) (h : Header) (b : NoticeBody), Arrives s chars (.replay h b) →
    s.stn.onLine = true → ((s.arrival h).headerProcess h false).2 = true →
    let u := ((s.arrival h).headerProcess h false).1
    let c := cellsFor b.payload.length
    let next := b.number = u.rx.settled + 1
    let room := if b.number = u.rx.settled + 1 then c ≤ u.pool.freeCells.length ∧ 1 ≤ u.pool.freeDescs.length
      else c + 4 ≤ u.pool.freeCells.length ∧ 2 ≤ u.pool.freeDescs.length
    let subscribed := u.cfg.topics.getLsbD b.topic.toNat = true
    let n : RxNotice :=
      { number := b.number, originator := h.sender, topic := b.topic, length := b.payload.length, own := false
        tag := none, replay := true, desc := u.pool.freeDescs.headD 0, chain := u.pool.freeCells.take c }
    let rises := follows u.rx.count b.number = true
    let refused := follows u.rx.count b.number = true ∧ 256 < u.ahead b.number
    frameAtOrBefore b.number u.rx.settled = false → u.knownAt b.number = false →
    (refused → s.stn.state = .leaving → exec (.replayReceived chars) s = .next u.settleAttn)
    ∧ (refused → s.stn.state ≠ .leaving → exec (.replayReceived chars) s
        = .next (u.resync .resyncSpan .resyncSpan h.count).settleAttn)
    ∧ (¬refused → subscribed → ¬room → exec (.replayReceived chars) s
      = .next ({ u with
          counters := { u.counters with replaysDropped := u.counters.replaysDropped + 1 } }).settleAttn)
    ∧ (¬refused → subscribed ∧ room ∨ ¬subscribed → OrderSound u → AdvanceRests u →
        ∃ t, exec (.replayReceived chars) s = .next t ∧ AttnFollows t
          ∧ t.line = u.line ∧ t.stn = u.stn ∧ t.counters = u.counters
          ∧ (rises → CountRaised u t b.number (b.number - 1))
          ∧ (¬rises → t.rx.count = u.rx.count ∧ t.commit = u.commit ∧ t.send = u.send ∧ t.members = u.members
              ∧ t.port = u.port)
          ∧ t.pool.freeCells = (if u.cfg.topics.getLsbD b.topic.toNat = true then u.pool.freeCells.drop c
              else u.pool.freeCells)
          ∧ (subscribed → u.pool.freeCells.Nodup → Memory.wf s.pool.cells = true → t.rxPayload n = b.payload
              ∧ ∀ a : Nat, a / 16 ∉ u.pool.freeCells.take c → Memory.read t.pool.cells a = Memory.read s.pool.cells a)
          ∧ (¬subscribed → t.pool.cells = s.pool.cells)
          ∧ (¬next ∨ u.pool.pendingBase ≠ none → t.rx.settled = u.rx.settled ∧ t.rx.queue = u.rx.queue
              ∧ t.rx.backlog = u.rx.backlog ∧ t.knownAt b.number = true
              ∧ (∀ m, m ≠ b.number → t.knownAt m = u.knownAt m)
              ∧ (∀ x, x ∈ t.rx.holdSet ↔ x ∈ u.rx.holdSet ∨ subscribed ∧ x = n)
              ∧ (¬rises → ∀ e, e ∈ t.gaps ↔ e ∈ u.gaps ∧ (e.covers b.number = false ∨ t.missing e ≠ [])))
          ∧ (next → u.pool.pendingBase = none → BacklogFollows u t u.rx.queue.length ∧ GapsTrimmed u u.gaps t
              ∧ 1 ≤ u.ahead t.rx.settled ∧ u.ahead t.rx.settled ≤ u.ahead t.rx.count
              ∧ (subscribed → ∃ more, t.rx.queue = u.rx.queue ++ .notice n :: more)
              ∧ (rises → t.rx.settled = b.number
                  ∧ t.rx.queue = u.rx.queue ++ if u.cfg.topics.getLsbD b.topic.toNat = true then [.notice n] else [])))

/-- A peer's RESEND (R84, R126, R128): it suppresses the entries whose missing positions it asks for, and marks the retained
notices in its range that lie at or before the count. -/
def Obligations.ResendSuppressesAndMarks : Prop :=
  ∀ (s : State) (chars : List LineChar) (h : Header) (r : ResendRange), Arrives s chars (.resend h r) →
    s.stn.onLine = true →
    let u := ((s.arrival h).headerProcess h false).1
    (((s.arrival h).headerProcess h false).2 = false → exec (.resendReceived chars) s = .next u.settleAttn)
    ∧ (((s.arrival h).headerProcess h false).2 = true →
    let asked (n : LineNo) : Bool := match r with
      | .closed first last => frameAtOrBefore first n && frameAtOrAfter last n
      | .openFrom first => frameAtOrBefore first n
    exec (.resendReceived chars) s
      = .next ({ u with
          gaps := u.gaps.map fun (e : GapEntry) =>
            if e.state ≠ GapState.lost ∧ ∀ n ∈ u.missing e, asked n = true then
              { e with
                attempts := min (e.attempts + 1) u.cfg.repairLimit
                state := .waiting
                timer := .running u.cfg.repairInterval }
            else e
          send := { u.send with
            retained := u.send.retained.map fun (n : SendNotice) =>
              if asked n.lineNo = true ∧ atOrBefore n.lineNo u.rx.count = true then { n with marked := true }
              else n } }).settleAttn)

/-- A BEACON (R151, R154 to R158): a LEAVE beacon, or any at a LEAVING station, ends with its header; else the status word is
taken and reported when it changed, and the view includes, clears the flag (JOIN), or excludes (PERIODIC). A sender that the
member horizon keeps out of the table (R154, R164) has no word stored: its view can include, and cannot exclude. -/
def Obligations.BeaconWordAndView : Prop :=
  ∀ (s : State) (chars : List LineChar) (h : Header) (kind : BeaconKind) (view : Set32) (word : Word16),
    Arrives s chars (.beacon h kind view word) → s.stn.onLine = true →
    let u := ((s.arrival h).headerProcess h (kind == .leave)).1
    (((s.arrival h).headerProcess h (kind == .leave)).2 = false → exec (.beaconReceived chars) s = .next u.settleAttn)
    ∧ (((s.arrival h).headerProcess h (kind == .leave)).2 = true →
    let named := view.getLsbD s.line.id.toNat = true
    (kind = .leave ∨ u.stn.state = .leaving → exec (.beaconReceived chars) s = .next u.settleAttn)
    ∧ (kind ≠ .leave → u.stn.state ≠ .leaving → ∀ before m after, u.members = before ++ m :: after →
        m.station = h.sender → (∀ e ∈ before ++ after, e.station ≠ h.sender) →
        let told (included : Bool) : State := { u with
          members := before ++ { m with word := some word, includedMe := included } :: after
          port := if m.word = some word then u.port else (u.postReport (.peerWord h.sender word)).port }
        (named → u.stn.state = .active → exec (.beaconReceived chars) s = .next (told true).settleAttn)
        ∧ (named → u.stn.state = .joining → ∃ t, exec (.beaconReceived chars) s = .next t ∧ AttnFollows t
            ∧ t.members = (told true).members
            ∧ t.port = ((told true).postReport (.stateChange .joining .active .inclusion)).port
            ∧ t.stn = { u.stn with state := .active, joinTimer := .stopped, joinExpiryHeld := false }
            ∧ t.line = { u.line with yield := true }
            ∧ t.rx = u.rx ∧ t.send = u.send ∧ t.pool = u.pool ∧ t.gaps = u.gaps ∧ t.commit = u.commit
            ∧ t.counters = u.counters)
        ∧ (¬named → kind = .join → exec (.beaconReceived chars) s = .next (told false).settleAttn)
        ∧ (¬named → kind = .periodic → m.includedMe = false →
            exec (.beaconReceived chars) s = .next (told false).settleAttn)
        ∧ (¬named → kind = .periodic → m.includedMe = true → exec (.beaconReceived chars) s
            = .next ((told true).resync .resyncExcluded .resyncExcluded h.count).settleAttn))
    ∧ (kind ≠ .leave → u.stn.state ≠ .leaving → (∀ m ∈ u.members, m.station ≠ h.sender) →
        (named → u.stn.state = .active → exec (.beaconReceived chars) s = .next u.settleAttn)
        ∧ (named → u.stn.state = .joining → ∃ t, exec (.beaconReceived chars) s = .next t ∧ AttnFollows t
            ∧ t.members = u.members
            ∧ t.port = (u.postReport (.stateChange .joining .active .inclusion)).port
            ∧ t.stn = { u.stn with state := .active, joinTimer := .stopped, joinExpiryHeld := false }
            ∧ t.line = { u.line with yield := true }
            ∧ t.rx = u.rx ∧ t.send = u.send ∧ t.pool = u.pool ∧ t.gaps = u.gaps ∧ t.commit = u.commit
            ∧ t.counters = u.counters)
        ∧ (¬named → exec (.beaconReceived chars) s = .next u.settleAttn)))

/-- A valid frame that carries this station's own number (R33, R146): the station halts with its reports, and holds
nothing of the line, the storage it discards back on the free lists (in log 13's order); a LEAVING station drops the
frame. -/
def Obligations.DuplicateNumberHalts : Prop :=
  ∀ (s : State) (chars : List LineChar) (f : Frame), Live s → s.receiving = true → readFrame chars = some f →
    (Frame.header f).sender = s.line.id →
    (s.stn.state = .leaving → exec (frameEvent chars f) s = .next (s.arrival (Frame.header f)))
    ∧ (s.stn.state ≠ .leaving → ∃ t, exec (frameEvent chars f) s = .next t ∧ AttnFollows t ∧ t.stn.state = .halted
        ∧ OffLineEmpty t
        ∧ (s.send.outbound = [] → t.port = ((s.postReport (.duplicateId s.line.id)).postReport
            (.stateChange s.stn.state .halted .duplicateId)).port)
        ∧ (∀ n rest, s.send.outbound = n :: rest → t.port = (((s.postReport (.duplicateId s.line.id)).postReport
            (.outboundDiscarded (n :: rest).length n.tag)).postReport
              (.stateChange s.stn.state .halted .duplicateId)).port)
        ∧ t.rx.count = s.rx.count ∧ t.rx.settled = s.rx.settled ∧ (∃ more, t.rx.queue = s.rx.queue ++ more)
        ∧ (PendingBaseSound s → ReceiveSideFreed s t)
        ∧ t.counters = s.counters ∧ t.stn.config = s.stn.config ∧ t.stn.word = s.stn.word
        ∧ t.send.tagCounter = s.send.tagCounter ∧ t.send.lastCommitted = s.send.lastCommitted
        ∧ t.send.lastReleased = s.send.lastReleased ∧ t.send.room = s.send.room
        ∧ t.send.releasePoint = ⟨0, 0⟩ ∧ t.send.transmitPoint = ⟨0, 0⟩ ∧ t.send.postEnd = ⟨0, 0⟩
        ∧ t.line.id = s.line.id)

/-! ### Timers -/

/-- The listen timer's expiry (R10, R137, R139): the station founds the line's numbering at 0, and on a line that is idle its
first offer is at position 32 + own number (R139, log 29). Members kept from before a join failure that lie beyond the horizon of 0
go, each with its report before the STATE report (in station-number order, log 12; log 27), and release is evaluated once after
them (R15). -/
def Obligations.ListenExpiryFounds : Prop :=
  ∀ s : State, Live s → s.stn.state = .listen → s.stn.listenTimer ≠ .stopped → OffLineEmpty s → PendingBaseSound s →
    ∃ t, exec .listenTimerExpiry s = .next t ∧ AttnFollows t
      ∧ t.rx.count = 0 ∧ t.rx.settled = 0 ∧ t.rx.known = 0 ∧ t.rx.holdSet = [] ∧ t.gaps = []
      ∧ BaseEmitted s t s.pool.freeDescs .founded 0
      ∧ t.stn = { s.stn with
          state := .active, listenTimer := .stopped, beaconTimer := .running s.cfg.beaconInterval, beaconDue := true }
      ∧ t.line = s.line.yielded
      ∧ t.commit = s.commit ∧ t.counters = s.counters
      ∧ t.send.outbound = s.send.outbound ∧ t.pool.freeCells = s.pool.freeCells
      ∧ t.members = s.keptAtHorizon 0 ∧ t.send = s.releasedAtHorizon 0
      ∧ t.port = ((s.postReports (s.horizonReports 0)).postReport (.stateChange .listen .active .founding)).port

/-- The join timer's expiry (R141): join failure at once, or held while the own frame or a received NOTICE frame's window is
open. The order in which the held notices' storage joins the free lists is the model's choice (log 13). -/
def Obligations.JoinExpiryFails : Prop :=
  ∀ s : State, Live s → s.stn.state = .joining → s.stn.joinTimer ≠ .stopped →
    (s.line.ownFrame ≠ none ∨ s.line.window ≠ none → exec .joinTimerExpiry s
      = .next { s with stn := { s.stn with joinTimer := .stopped, joinExpiryHeld := true } })
    ∧ (s.line.ownFrame = none → s.line.window = none → PendingBaseSound s → s.commit.provisional = none →
        ∃ t, exec .joinTimerExpiry s = .next t ∧ AttnFollows t
          ∧ t.stn = { s.stn with
              state := .listen, beaconDue := false, joinTimer := .stopped, beaconTimer := .stopped
              joinExpiryHeld := false
              listenTimer := .running (s.cfg.listenMultiple * s.cfg.beaconInterval) }
          ∧ t.port = ((s.postReport (.joinUnanswered s.stn.joinBeacons)).postReport
              (.stateChange .joining .listen .joinFailure)).port
          ∧ t.rx = { s.rx with holdSet := [], known := 0 } ∧ t.gaps = []
          ∧ t.pool = { s.pool with
              freeCells := s.pool.freeCells ++ s.rx.holdSet.flatMap (·.chain)
              freeDescs := s.pool.freeDescs ++ s.rx.holdSet.map (·.desc) }
          ∧ t.send = s.send ∧ t.members = s.members ∧ t.line = s.line ∧ t.commit = s.commit
          ∧ t.counters = s.counters)

/-- The beacon timer's expiry makes a beacon due (R142); a presence timer's expiry removes the member with MEMBER_LOST
SILENT, and release is evaluated (R152). That the expiry of a station that is no member changes nothing is the model's
choice (log 5). -/
def Obligations.BeaconAndPresenceExpiry : Prop :=
  ∀ s : State, Live s →
    ((s.stn.state = .joining ∨ s.stn.state = .active) → s.stn.beaconTimer ≠ .stopped → exec .beaconTimerExpiry s
      = .next { s with stn := { s.stn with beaconTimer := .stopped, beaconDue := true } })
    ∧ (∀ n before m after, s.members = before ++ m :: after → m.station = n →
        (∀ e ∈ before ++ after, e.station ≠ n) → ∃ t, exec (.presenceTimerExpiry n) s = .next t ∧ AttnFollows t
          ∧ t.members = before ++ after
          ∧ t.send = ({ s with members := before ++ after }).evaluateRelease.send
          ∧ t.port = (s.postReport (.memberLost n .silent)).port
          ∧ t.rx = s.rx ∧ t.line = s.line ∧ t.commit = s.commit ∧ t.pool = s.pool ∧ t.gaps = s.gaps ∧ t.stn = s.stn
          ∧ t.counters = s.counters)
    ∧ (∀ n, (∀ m ∈ s.members, m.station ≠ n) → exec (.presenceTimerExpiry n) s = .next s)

/-- A repair timer's expiry (R121, R122, R102, R103): below the repair limit the entry is REQUESTED; at it the entry is
LOST, and when it begins right after the settled point its unknown positions are delivered as one LOST record; while a BASE
record waits, or no descriptor is free, the entry is LOST and nothing is delivered (R68, R101, R102). The backlog event flag
follows what is delivered (R107), and the gap table the settled point (R118, R119). -/
def Obligations.RepairExpiry : Prop :=
  ∀ (s : State) (before after : List GapEntry) (e : GapEntry), Live s → OrderSound s →
    s.gaps = before ++ e :: after → e.state = .waiting →
    let lost : GapEntry := { e with state := .lost, timer := .stopped }
    (e.attempts < s.cfg.repairLimit → exec (.repairTimerExpiry e.first) s
      = .next { s with gaps := before ++ { e with state := .requested, timer := .stopped } :: after })
    ∧ (s.cfg.repairLimit ≤ e.attempts → AdvanceRests s →
        e.first ≠ s.rx.settled + 1 ∨ s.pool.freeDescs = [] ∨ s.pool.pendingBase ≠ none →
        exec (.repairTimerExpiry e.first) s = .next { s with gaps := before ++ lost :: after })
    ∧ (∀ d ds, s.cfg.repairLimit ≤ e.attempts → e.first = s.rx.settled + 1 → NothingToAdvance s →
        s.pool.freeDescs = d :: ds →
        ∃ t last more, exec (.repairTimerExpiry e.first) s = .next t ∧ AttnFollows t
          ∧ t.rx.queue = s.rx.queue ++ .lost e.first last d :: more ∧ t.rx.count = s.rx.count
          ∧ LostRun s (fun n => ∃ g ∈ before ++ lost :: after, g.state = .lost ∧ g.covers n = true) last
          ∧ s.ahead last ≤ s.ahead t.rx.settled
          ∧ BacklogFollows s t s.rx.queue.length ∧ GapsTrimmed s (before ++ lost :: after) t
          ∧ t.pool.freeCells = s.pool.freeCells ∧ t.line = s.line ∧ t.commit = s.commit ∧ t.send = s.send
          ∧ t.members = s.members ∧ t.stn = s.stn ∧ t.port = s.port ∧ t.counters = s.counters)

/-! ### Shared operations -/

/-- Release (R78 to R82): from the release point on, every retained notice is released up to the first that is not due, or
whose REPLAY is on the line; due is a notice at or before the serial minimum of the members' settled points, none of which
is unordered against it, or any where there is no member; ROOM is raised by a crossing. -/
def Obligations.ReleaseInOrder : Prop :=
  ∀ s : State,
    let t := s.evaluateRelease
    let kept := s.keptByRelease
    let gone := s.send.retained.take (s.send.retained.length - kept.length)
    s.send.retained = gone ++ kept
      ∧ t = { s with send := { s.send with
          retained := kept
          releasePoint := gone.foldl (fun p n => p.past s.cfg.sendSize (cellsFor n.length)) s.send.releasePoint
          lastReleased := (gone.getLast?.map (·.tag)).getD s.send.lastReleased
          room := s.send.room || (decide (s.freeSendCells ≤ s.cfg.roomLimit) && decide (s.cfg.roomLimit < t.freeSendCells))
          releaseWaiting := s.send.releaseWaiting || (kept.head?.any fun n => s.releaseDue n) } }
      ∧ (∀ n ∈ gone, s.members = [] ∨ ∃ m ∈ s.members, atOrBefore n.lineNo m.settled = true)
      ∧ (∀ m ms, s.members = m :: ms →
          (∀ n ∈ gone, atOrBefore n.lineNo (serialMin m.settled (ms.map (·.settled))) = true
            ∧ ∀ x ∈ m :: ms, unordered n.lineNo x.settled = false)
          ∧ ∀ n more, kept = n :: more →
              atOrBefore n.lineNo (serialMin m.settled (ms.map (·.settled))) = false
                ∨ (∃ x ∈ m :: ms, unordered n.lineNo x.settled = true)
                ∨ ∃ f, s.line.ownFrame = some f ∧ f.candidate = .replay n.tag)
      ∧ (s.members = [] → s.line.ownFrame = none → kept = [])
      ∧ ∀ m, s.members = [m] → ∀ n ∈ gone, atOrBefore n.lineNo m.settled = true

/-- The delivery advance (R14, R101, R102): it runs until nothing after the settled point can be delivered, only appending to
the delivery queue, its NOTICE and LOST records in rising order of number; every position it settles is a held notice's, now
a record, or a LOST record's, unknown and in a LOST entry, or known and of no subscribed topic; the backlog event flag rises when
the queue crosses the backlog limit (R107), and the gap table is trimmed to the settled point reached (R118, R119); the count,
the storage of cells, the line interface, commit logic, send queue, member table, station, port, counters and pins stay. -/
def Obligations.AdvanceRunsToTheEnd : Prop :=
  ∀ s : State, OrderSound s →
    let t := s.advance
    t.advanceStep = none ∧ t.rx.count = s.rx.count
      ∧ (∃ more, t.rx.queue = s.rx.queue ++ more
          ∧ InOrder 256 s.rx.settled 0 more s.rx.settled (s.ahead t.rx.settled)
          ∧ (∀ x, .notice x ∈ more → x ∈ s.rx.holdSet)
          ∧ (∀ first last d n, .lost first last d ∈ more → s.ahead first ≤ s.ahead n → s.ahead n ≤ s.ahead last →
              s.knownAt n = false ∧ s.lostAt n = true)
          ∧ ∀ n, 1 ≤ s.ahead n → s.ahead n ≤ s.ahead t.rx.settled →
              (∃ x ∈ s.rx.holdSet, x.number = n ∧ .notice x ∈ more)
                ∨ (∃ first last d, .lost first last d ∈ more ∧ s.ahead first ≤ s.ahead n ∧ s.ahead n ≤ s.ahead last)
                ∨ (s.knownAt n = true ∧ ∀ x ∈ s.rx.holdSet, x.number ≠ n))
      ∧ s.ahead t.rx.settled ≤ s.ahead s.rx.count ∧ OrderSound t
      ∧ BacklogFollows s t s.rx.queue.length ∧ GapsTrimmed s s.gaps t ∧ t.nextGapId = s.nextGapId
      ∧ (s.pool.pendingBase ≠ none → t = s)
      ∧ t.pool.freeCells = s.pool.freeCells ∧ t.pool.cells = s.pool.cells
      ∧ t.line = s.line ∧ t.commit = s.commit ∧ t.send = s.send ∧ t.members = s.members ∧ t.stn = s.stn
      ∧ t.port = s.port ∧ t.counters = s.counters ∧ t.pins = s.pins
      ∧ (∀ n, 1 ≤ t.ahead n → t.ahead n ≤ t.ahead t.rx.count → t.knownAt n = s.knownAt n)
      ∧ ∀ n ∈ s.rx.holdSet, n ∈ t.rx.holdSet ∨ .notice n ∈ t.rx.queue

/-- Resync (R11, R143): the receive side is discarded and its storage freed, both numbers are set to the header count with a
BASE record, and the station is JOINING with a beacon due; the send queue and the standing configuration stay. The order
in which the discarded notices' storage joins the free lists, and so the descriptor the BASE record takes, is the model's
choice (log 13); the yield flag moves the position of a line that is idle (log 29). The horizon of the count set takes out the
members beyond it, each with its report before the STATE report (in station-number order, log 12; log 27), and release is evaluated
once after them (R15). -/
def Obligations.ResyncEffects : Prop :=
  ∀ (s : State) (reason : BaseReason) (cause : StateCause) (count : LineNo), PendingBaseSound s →
    let t := s.resync reason cause count
    t.rx.count = count ∧ t.rx.settled = count ∧ t.rx.known = 0 ∧ t.rx.holdSet = [] ∧ t.gaps = []
      ∧ t.pool.freeCells = s.pool.freeCells ++ s.storedNotices.flatMap (·.chain)
      ∧ BaseEmitted s t (s.pool.freeDescs ++ s.storedNotices.map (·.desc)) reason count
      ∧ t.commit = { s.commit with provisional := none, catchingUp := false }
      ∧ t.send = { s.releasedAtHorizon count with catchUp := none }
      ∧ t.members = (s.keptAtHorizon count).map (fun m => { m with includedMe := false })
      ∧ t.line = { s.line.yielded with window := none }
      ∧ t.stn = { s.stn with
          state := .joining, joinTimer := .running (8 * s.cfg.beaconInterval)
          beaconTimer := .running s.cfg.beaconInterval, beaconDue := true, joinBeacons := 0, joinExpiryHeld := false }
      ∧ t.port = ((s.postReports (s.horizonReports count)).postReport (.stateChange s.stn.state .joining cause)).port
      ∧ t.counters = s.counters ∧ t.pins = s.pins

/-! ### Invariants that every step keeps -/

/-- All the invariants hold right after reset. -/
def Obligations.InvariantsHoldAtReset : Prop :=
  let s := State.reset
  AttnFollows s ∧ CountsBounded s ∧ Memory.wf s.pool.cells = true ∧ LineSound s ∧ MembersSound s ∧ OffLineEmpty s
    ∧ PendingBaseSound s ∧ ProvisionalSound s ∧ StorageConserved s ∧ SendSound s ∧ OrderSound s ∧ GapsCover s
    ∧ StampSound s ∧ BaseWaitsAtSettled s ∧ ChainsSized s ∧ RetainedRise s

/-- ATTN# follows its causes (R181); the report queue and the saturating counts stay within their bounds (R29, R51, R141,
R175); cell memory keeps its canonical form. -/
def Obligations.AttentionAndBoundsAreKept : Prop :=
  ∀ s t : State, step s = .next t →
    (AttnFollows s → AttnFollows t) ∧ (CountsBounded s → CountsBounded t)
      ∧ (Memory.wf s.pool.cells = true → Memory.wf t.pool.cells = true)

/-- Own frame, window, line timing and what is driven agree, and nothing stands off the line that may not (R16, R23, R31, R132,
R145): a station in IDLE, LISTEN or HALTED releases DE and holds TXD high. -/
def Obligations.LineIsKept : Prop :=
  ∀ s t : State, LineSound s → OffLineEmpty s → PendingBaseSound s → step s = .next t →
    LineSound t ∧ OffLineEmpty t ∧ PendingBaseSound t
      ∧ (t.stn.onLine = false → ∀ bit, t.linePins bit = { de := false, txd := true })

/-- The member table stays in order, without this station, in JOINING or ACTIVE, within the horizon (R15, R148). -/
def Obligations.MembersAreKept : Prop :=
  ∀ s t : State, MembersSound s → LineSound s → step s = .next t → MembersSound t

/-- No cell and no descriptor is ever lost or used twice (R70); and every notice in receive storage keeps the cells of its
length (R57, R63), so that a NOTICE record's payload is exactly its length, at most 64 bytes. -/
def Obligations.StorageIsConserved : Prop :=
  ∀ s t : State, StorageConserved s → ProvisionalSound s → LineSound s → OffLineEmpty s → step s = .next t →
    StorageConserved t ∧ ProvisionalSound t
      ∧ (ChainsSized s → SendSound s → ChainsSized t
          ∧ ∀ n, .notice n ∈ t.rx.queue → (t.rxPayload n).length = n.length ∧ n.length ≤ 64)

/-- The send queue stays laid on its ring with consecutive tags (R58, R59, R61, R72, R77), and its retained numbers rise
strictly, the own NOTICE frame's after them (R76). -/
def Obligations.SendQueueIsKept : Prop :=
  ∀ s t : State, step s = .next t → (SendSound s → SendSound t) ∧ (RetainedRise s → RetainedRise t)

/-- The receive order is kept (R6, R12, R92, R94, R112), and with it the stamp of the frame in hand (R4, R39, R46). Delivery
is in order (R14): but where START or a reset empties the queue, what a step appends rises in number from the settled point
on, or follows a BASE record; a BASE record that waits carries the settled point. -/
def Obligations.OrderIsKept : Prop :=
  ∀ s t : State, OrderSound s → StampSound s → LineSound s → OffLineEmpty s → ProvisionalSound s → step s = .next t →
    OrderSound t ∧ StampSound t
      ∧ (PendingBaseSound s → BaseWaitsAtSettled s → BaseWaitsAtSettled t
          ∧ (DeliveredInOrder s t
              ∨ (∃ c rest, s.pending = c :: rest ∧ emptiesQueue c = true) ∧ t.rx.queue = [] ∧ t.rx.settled = 0
                  ∧ t.pool.pendingBase = none))

/-- Every missing position lies in a gap entry (R112). -/
def Obligations.GapsCoverIsKept : Prop :=
  ∀ s t : State, GapsCover s → OrderSound s → StampSound s → LineSound s → OffLineEmpty s → ProvisionalSound s →
    step s = .next t → GapsCover t
end

