-- ==== Sys2Proof/Laws/State.lean ====
section
/-!
SUPPORT. One lemma per field of State per named update, true by rfl: no later proof unfolds a record update.
-/

namespace Sys2Proof.Machine

@[simp] theorem State.settleAttn_line (s : State) : (s.settleAttn).line = s.line := rfl
@[simp] theorem State.settleAttn_commit (s : State) : (s.settleAttn).commit = s.commit := rfl
@[simp] theorem State.settleAttn_pool (s : State) : (s.settleAttn).pool = s.pool := rfl
@[simp] theorem State.settleAttn_send (s : State) : (s.settleAttn).send = s.send := rfl
@[simp] theorem State.settleAttn_rx (s : State) : (s.settleAttn).rx = s.rx := rfl
@[simp] theorem State.settleAttn_gaps (s : State) : (s.settleAttn).gaps = s.gaps := rfl
@[simp] theorem State.settleAttn_nextGapId (s : State) : (s.settleAttn).nextGapId = s.nextGapId := rfl
@[simp] theorem State.settleAttn_members (s : State) : (s.settleAttn).members = s.members := rfl
@[simp] theorem State.settleAttn_stn (s : State) : (s.settleAttn).stn = s.stn := rfl
@[simp] theorem State.settleAttn_port (s : State) : (s.settleAttn).port = s.port := rfl
@[simp] theorem State.settleAttn_counters (s : State) : (s.settleAttn).counters = s.counters := rfl
@[simp] theorem State.settleAttn_pins (s : State) : (s.settleAttn).pins
    = { s.pins with attnLow := !s.pins.resetLow && s.attentionWanted } := rfl
@[simp] theorem State.settleAttn_freeReads (s : State) : (s.settleAttn).freeReads = s.freeReads := rfl
@[simp] theorem State.settleAttn_pending (s : State) : (s.settleAttn).pending = s.pending := rfl
@[simp] theorem State.settleAttn_cfg (s : State) : (s.settleAttn).cfg = s.cfg := rfl

@[simp] theorem State.freeNotice_line (s : State) (n : RxNotice) : (s.freeNotice n).line = s.line := rfl
@[simp] theorem State.freeNotice_commit (s : State) (n : RxNotice) : (s.freeNotice n).commit = s.commit := rfl
@[simp] theorem State.freeNotice_pool (s : State) (n : RxNotice) : (s.freeNotice n).pool
    = { s.pool with freeCells := s.pool.freeCells ++ n.chain, freeDescs := s.pool.freeDescs ++ [n.desc] } := rfl
@[simp] theorem State.freeNotice_send (s : State) (n : RxNotice) : (s.freeNotice n).send = s.send := rfl
@[simp] theorem State.freeNotice_rx (s : State) (n : RxNotice) : (s.freeNotice n).rx = s.rx := rfl
@[simp] theorem State.freeNotice_gaps (s : State) (n : RxNotice) : (s.freeNotice n).gaps = s.gaps := rfl
@[simp] theorem State.freeNotice_nextGapId (s : State) (n : RxNotice) : (s.freeNotice n).nextGapId = s.nextGapId := rfl
@[simp] theorem State.freeNotice_members (s : State) (n : RxNotice) : (s.freeNotice n).members = s.members := rfl
@[simp] theorem State.freeNotice_stn (s : State) (n : RxNotice) : (s.freeNotice n).stn = s.stn := rfl
@[simp] theorem State.freeNotice_port (s : State) (n : RxNotice) : (s.freeNotice n).port = s.port := rfl
@[simp] theorem State.freeNotice_counters (s : State) (n : RxNotice) : (s.freeNotice n).counters = s.counters := rfl
@[simp] theorem State.freeNotice_pins (s : State) (n : RxNotice) : (s.freeNotice n).pins = s.pins := rfl
@[simp] theorem State.freeNotice_freeReads (s : State) (n : RxNotice) : (s.freeNotice n).freeReads = s.freeReads := rfl
@[simp] theorem State.freeNotice_pending (s : State) (n : RxNotice) : (s.freeNotice n).pending = s.pending := rfl
@[simp] theorem State.freeNotice_cfg (s : State) (n : RxNotice) : (s.freeNotice n).cfg = s.cfg := rfl

@[simp] theorem State.freeDesc_line (s : State) (d : Nat) : (s.freeDesc d).line = s.line := rfl
@[simp] theorem State.freeDesc_commit (s : State) (d : Nat) : (s.freeDesc d).commit = s.commit := rfl
@[simp] theorem State.freeDesc_pool (s : State) (d : Nat) : (s.freeDesc d).pool
    = { s.pool with freeDescs := s.pool.freeDescs ++ [d] } := rfl
@[simp] theorem State.freeDesc_send (s : State) (d : Nat) : (s.freeDesc d).send = s.send := rfl
@[simp] theorem State.freeDesc_rx (s : State) (d : Nat) : (s.freeDesc d).rx = s.rx := rfl
@[simp] theorem State.freeDesc_gaps (s : State) (d : Nat) : (s.freeDesc d).gaps = s.gaps := rfl
@[simp] theorem State.freeDesc_nextGapId (s : State) (d : Nat) : (s.freeDesc d).nextGapId = s.nextGapId := rfl
@[simp] theorem State.freeDesc_members (s : State) (d : Nat) : (s.freeDesc d).members = s.members := rfl
@[simp] theorem State.freeDesc_stn (s : State) (d : Nat) : (s.freeDesc d).stn = s.stn := rfl
@[simp] theorem State.freeDesc_port (s : State) (d : Nat) : (s.freeDesc d).port = s.port := rfl
@[simp] theorem State.freeDesc_counters (s : State) (d : Nat) : (s.freeDesc d).counters = s.counters := rfl
@[simp] theorem State.freeDesc_pins (s : State) (d : Nat) : (s.freeDesc d).pins = s.pins := rfl
@[simp] theorem State.freeDesc_freeReads (s : State) (d : Nat) : (s.freeDesc d).freeReads = s.freeReads := rfl
@[simp] theorem State.freeDesc_pending (s : State) (d : Nat) : (s.freeDesc d).pending = s.pending := rfl
@[simp] theorem State.freeDesc_cfg (s : State) (d : Nat) : (s.freeDesc d).cfg = s.cfg := rfl

@[simp] theorem State.makeKnown_line (s : State) (n : LineNo) : (s.makeKnown n).line = s.line := rfl
@[simp] theorem State.makeKnown_commit (s : State) (n : LineNo) : (s.makeKnown n).commit = s.commit := rfl
@[simp] theorem State.makeKnown_pool (s : State) (n : LineNo) : (s.makeKnown n).pool = s.pool := rfl
@[simp] theorem State.makeKnown_send (s : State) (n : LineNo) : (s.makeKnown n).send = s.send := rfl
@[simp] theorem State.makeKnown_rx (s : State) (n : LineNo) : (s.makeKnown n).rx
    = { s.rx with known := markKnown s.rx.settled s.rx.known n } := rfl
@[simp] theorem State.makeKnown_nextGapId (s : State) (n : LineNo) : (s.makeKnown n).nextGapId = s.nextGapId := rfl
@[simp] theorem State.makeKnown_members (s : State) (n : LineNo) : (s.makeKnown n).members = s.members := rfl
@[simp] theorem State.makeKnown_stn (s : State) (n : LineNo) : (s.makeKnown n).stn = s.stn := rfl
@[simp] theorem State.makeKnown_port (s : State) (n : LineNo) : (s.makeKnown n).port = s.port := rfl
@[simp] theorem State.makeKnown_counters (s : State) (n : LineNo) : (s.makeKnown n).counters = s.counters := rfl
@[simp] theorem State.makeKnown_pins (s : State) (n : LineNo) : (s.makeKnown n).pins = s.pins := rfl
@[simp] theorem State.makeKnown_freeReads (s : State) (n : LineNo) : (s.makeKnown n).freeReads = s.freeReads := rfl
@[simp] theorem State.makeKnown_pending (s : State) (n : LineNo) : (s.makeKnown n).pending = s.pending := rfl
@[simp] theorem State.makeKnown_cfg (s : State) (n : LineNo) : (s.makeKnown n).cfg = s.cfg := rfl

@[simp] theorem State.settle_line (s : State) (n : LineNo) : (s.settle n).line = s.line := rfl
@[simp] theorem State.settle_commit (s : State) (n : LineNo) : (s.settle n).commit = s.commit := rfl
@[simp] theorem State.settle_pool (s : State) (n : LineNo) : (s.settle n).pool = s.pool := rfl
@[simp] theorem State.settle_send (s : State) (n : LineNo) : (s.settle n).send = s.send := rfl
@[simp] theorem State.settle_rx (s : State) (n : LineNo) : (s.settle n).rx
    = { s.rx with settled := n, known := s.rx.known >>> (n - s.rx.settled).toNat } := rfl
@[simp] theorem State.settle_gaps (s : State) (n : LineNo) : (s.settle n).gaps
    = s.gaps.filterMap (trimGap n (s.rx.known >>> (n - s.rx.settled).toNat)) := rfl
@[simp] theorem State.settle_nextGapId (s : State) (n : LineNo) : (s.settle n).nextGapId = s.nextGapId := rfl
@[simp] theorem State.settle_members (s : State) (n : LineNo) : (s.settle n).members = s.members := rfl
@[simp] theorem State.settle_stn (s : State) (n : LineNo) : (s.settle n).stn = s.stn := rfl
@[simp] theorem State.settle_port (s : State) (n : LineNo) : (s.settle n).port = s.port := rfl
@[simp] theorem State.settle_counters (s : State) (n : LineNo) : (s.settle n).counters = s.counters := rfl
@[simp] theorem State.settle_pins (s : State) (n : LineNo) : (s.settle n).pins = s.pins := rfl
@[simp] theorem State.settle_freeReads (s : State) (n : LineNo) : (s.settle n).freeReads = s.freeReads := rfl
@[simp] theorem State.settle_pending (s : State) (n : LineNo) : (s.settle n).pending = s.pending := rfl
@[simp] theorem State.settle_cfg (s : State) (n : LineNo) : (s.settle n).cfg = s.cfg := rfl

@[simp] theorem State.appendRecord_line (s : State) (r : DeliveryRecord) : (s.appendRecord r).line = s.line := rfl
@[simp] theorem State.appendRecord_commit (s : State) (r : DeliveryRecord) : (s.appendRecord r).commit = s.commit := rfl
@[simp] theorem State.appendRecord_pool (s : State) (r : DeliveryRecord) : (s.appendRecord r).pool = s.pool := rfl
@[simp] theorem State.appendRecord_send (s : State) (r : DeliveryRecord) : (s.appendRecord r).send = s.send := rfl
@[simp] theorem State.appendRecord_rx (s : State) (r : DeliveryRecord) : (s.appendRecord r).rx
    = { s.rx with
        queue := s.rx.queue ++ [r], backlog := s.backlogAfter s.rx.queue.length (s.rx.queue.length + 1) } := rfl
@[simp] theorem State.appendRecord_gaps (s : State) (r : DeliveryRecord) : (s.appendRecord r).gaps = s.gaps := rfl
@[simp] theorem State.appendRecord_nextGapId (s : State) (r : DeliveryRecord) : (s.appendRecord r).nextGapId = s.nextGapId := rfl
@[simp] theorem State.appendRecord_members (s : State) (r : DeliveryRecord) : (s.appendRecord r).members = s.members := rfl
@[simp] theorem State.appendRecord_stn (s : State) (r : DeliveryRecord) : (s.appendRecord r).stn = s.stn := rfl
@[simp] theorem State.appendRecord_port (s : State) (r : DeliveryRecord) : (s.appendRecord r).port = s.port := rfl
@[simp] theorem State.appendRecord_counters (s : State) (r : DeliveryRecord) : (s.appendRecord r).counters = s.counters := rfl
@[simp] theorem State.appendRecord_pins (s : State) (r : DeliveryRecord) : (s.appendRecord r).pins = s.pins := rfl
@[simp] theorem State.appendRecord_freeReads (s : State) (r : DeliveryRecord) : (s.appendRecord r).freeReads = s.freeReads := rfl
@[simp] theorem State.appendRecord_pending (s : State) (r : DeliveryRecord) : (s.appendRecord r).pending = s.pending := rfl
@[simp] theorem State.appendRecord_cfg (s : State) (r : DeliveryRecord) : (s.appendRecord r).cfg = s.cfg := rfl

@[simp] theorem State.hold_line (s : State) (n : RxNotice) : (s.hold n).line = s.line := rfl
@[simp] theorem State.hold_commit (s : State) (n : RxNotice) : (s.hold n).commit = s.commit := rfl
@[simp] theorem State.hold_pool (s : State) (n : RxNotice) : (s.hold n).pool = s.pool := rfl
@[simp] theorem State.hold_send (s : State) (n : RxNotice) : (s.hold n).send = s.send := rfl
@[simp] theorem State.hold_rx (s : State) (n : RxNotice) : (s.hold n).rx
    = { s.rx with
        holdSet := insertHeld s.rx.settled n s.rx.holdSet
        known := markKnown s.rx.settled s.rx.known n.number } := rfl
@[simp] theorem State.hold_nextGapId (s : State) (n : RxNotice) : (s.hold n).nextGapId = s.nextGapId := rfl
@[simp] theorem State.hold_members (s : State) (n : RxNotice) : (s.hold n).members = s.members := rfl
@[simp] theorem State.hold_stn (s : State) (n : RxNotice) : (s.hold n).stn = s.stn := rfl
@[simp] theorem State.hold_port (s : State) (n : RxNotice) : (s.hold n).port = s.port := rfl
@[simp] theorem State.hold_counters (s : State) (n : RxNotice) : (s.hold n).counters = s.counters := rfl
@[simp] theorem State.hold_pins (s : State) (n : RxNotice) : (s.hold n).pins = s.pins := rfl
@[simp] theorem State.hold_freeReads (s : State) (n : RxNotice) : (s.hold n).freeReads = s.freeReads := rfl
@[simp] theorem State.hold_pending (s : State) (n : RxNotice) : (s.hold n).pending = s.pending := rfl
@[simp] theorem State.hold_cfg (s : State) (n : RxNotice) : (s.hold n).cfg = s.cfg := rfl

@[simp] theorem State.markReplays_line (s : State) (r : ResendRange) : (s.markReplays r).line = s.line := rfl
@[simp] theorem State.markReplays_commit (s : State) (r : ResendRange) : (s.markReplays r).commit = s.commit := rfl
@[simp] theorem State.markReplays_pool (s : State) (r : ResendRange) : (s.markReplays r).pool = s.pool := rfl
@[simp] theorem State.markReplays_rx (s : State) (r : ResendRange) : (s.markReplays r).rx = s.rx := rfl
@[simp] theorem State.markReplays_gaps (s : State) (r : ResendRange) : (s.markReplays r).gaps = s.gaps := rfl
@[simp] theorem State.markReplays_nextGapId (s : State) (r : ResendRange) : (s.markReplays r).nextGapId = s.nextGapId := rfl
@[simp] theorem State.markReplays_members (s : State) (r : ResendRange) : (s.markReplays r).members = s.members := rfl
@[simp] theorem State.markReplays_stn (s : State) (r : ResendRange) : (s.markReplays r).stn = s.stn := rfl
@[simp] theorem State.markReplays_port (s : State) (r : ResendRange) : (s.markReplays r).port = s.port := rfl
@[simp] theorem State.markReplays_counters (s : State) (r : ResendRange) : (s.markReplays r).counters = s.counters := rfl
@[simp] theorem State.markReplays_pins (s : State) (r : ResendRange) : (s.markReplays r).pins = s.pins := rfl
@[simp] theorem State.markReplays_freeReads (s : State) (r : ResendRange) : (s.markReplays r).freeReads = s.freeReads := rfl
@[simp] theorem State.markReplays_pending (s : State) (r : ResendRange) : (s.markReplays r).pending = s.pending := rfl
@[simp] theorem State.markReplays_cfg (s : State) (r : ResendRange) : (s.markReplays r).cfg = s.cfg := rfl

@[simp] theorem State.clearMark_line (s : State) (t : Tag) : (s.clearMark t).line = s.line := rfl
@[simp] theorem State.clearMark_commit (s : State) (t : Tag) : (s.clearMark t).commit = s.commit := rfl
@[simp] theorem State.clearMark_pool (s : State) (t : Tag) : (s.clearMark t).pool = s.pool := rfl
@[simp] theorem State.clearMark_rx (s : State) (t : Tag) : (s.clearMark t).rx = s.rx := rfl
@[simp] theorem State.clearMark_gaps (s : State) (t : Tag) : (s.clearMark t).gaps = s.gaps := rfl
@[simp] theorem State.clearMark_nextGapId (s : State) (t : Tag) : (s.clearMark t).nextGapId = s.nextGapId := rfl
@[simp] theorem State.clearMark_members (s : State) (t : Tag) : (s.clearMark t).members = s.members := rfl
@[simp] theorem State.clearMark_stn (s : State) (t : Tag) : (s.clearMark t).stn = s.stn := rfl
@[simp] theorem State.clearMark_port (s : State) (t : Tag) : (s.clearMark t).port = s.port := rfl
@[simp] theorem State.clearMark_counters (s : State) (t : Tag) : (s.clearMark t).counters = s.counters := rfl
@[simp] theorem State.clearMark_pins (s : State) (t : Tag) : (s.clearMark t).pins = s.pins := rfl
@[simp] theorem State.clearMark_freeReads (s : State) (t : Tag) : (s.clearMark t).freeReads = s.freeReads := rfl
@[simp] theorem State.clearMark_pending (s : State) (t : Tag) : (s.clearMark t).pending = s.pending := rfl
@[simp] theorem State.clearMark_cfg (s : State) (t : Tag) : (s.clearMark t).cfg = s.cfg := rfl

@[simp] theorem State.clearCatchingUp_line (s : State) : (s.clearCatchingUp).line = s.line := rfl
@[simp] theorem State.clearCatchingUp_commit (s : State) : (s.clearCatchingUp).commit
    = { s.commit with catchingUp := false } := rfl
@[simp] theorem State.clearCatchingUp_pool (s : State) : (s.clearCatchingUp).pool = s.pool := rfl
@[simp] theorem State.clearCatchingUp_send (s : State) : (s.clearCatchingUp).send
    = { s.send with catchUp := none } := rfl
@[simp] theorem State.clearCatchingUp_rx (s : State) : (s.clearCatchingUp).rx = s.rx := rfl
@[simp] theorem State.clearCatchingUp_gaps (s : State) : (s.clearCatchingUp).gaps = s.gaps := rfl
@[simp] theorem State.clearCatchingUp_nextGapId (s : State) : (s.clearCatchingUp).nextGapId = s.nextGapId := rfl
@[simp] theorem State.clearCatchingUp_members (s : State) : (s.clearCatchingUp).members = s.members := rfl
@[simp] theorem State.clearCatchingUp_stn (s : State) : (s.clearCatchingUp).stn = s.stn := rfl
@[simp] theorem State.clearCatchingUp_port (s : State) : (s.clearCatchingUp).port = s.port := rfl
@[simp] theorem State.clearCatchingUp_counters (s : State) : (s.clearCatchingUp).counters = s.counters := rfl
@[simp] theorem State.clearCatchingUp_pins (s : State) : (s.clearCatchingUp).pins = s.pins := rfl
@[simp] theorem State.clearCatchingUp_freeReads (s : State) : (s.clearCatchingUp).freeReads = s.freeReads := rfl
@[simp] theorem State.clearCatchingUp_pending (s : State) : (s.clearCatchingUp).pending = s.pending := rfl
@[simp] theorem State.clearCatchingUp_cfg (s : State) : (s.clearCatchingUp).cfg = s.cfg := rfl

@[simp] theorem State.updateMember_line (s : State) (n : StationNo) (f : Member → Member) : (s.updateMember n f).line = s.line := rfl
@[simp] theorem State.updateMember_commit (s : State) (n : StationNo) (f : Member → Member) : (s.updateMember n f).commit = s.commit := rfl
@[simp] theorem State.updateMember_pool (s : State) (n : StationNo) (f : Member → Member) : (s.updateMember n f).pool = s.pool := rfl
@[simp] theorem State.updateMember_send (s : State) (n : StationNo) (f : Member → Member) : (s.updateMember n f).send = s.send := rfl
@[simp] theorem State.updateMember_rx (s : State) (n : StationNo) (f : Member → Member) : (s.updateMember n f).rx = s.rx := rfl
@[simp] theorem State.updateMember_gaps (s : State) (n : StationNo) (f : Member → Member) : (s.updateMember n f).gaps = s.gaps := rfl
@[simp] theorem State.updateMember_nextGapId (s : State) (n : StationNo) (f : Member → Member) : (s.updateMember n f).nextGapId = s.nextGapId := rfl
@[simp] theorem State.updateMember_members (s : State) (n : StationNo) (f : Member → Member) : (s.updateMember n f).members
    = s.members.map fun m => if m.station == n then f m else m := rfl
@[simp] theorem State.updateMember_stn (s : State) (n : StationNo) (f : Member → Member) : (s.updateMember n f).stn = s.stn := rfl
@[simp] theorem State.updateMember_port (s : State) (n : StationNo) (f : Member → Member) : (s.updateMember n f).port = s.port := rfl
@[simp] theorem State.updateMember_counters (s : State) (n : StationNo) (f : Member → Member) : (s.updateMember n f).counters = s.counters := rfl
@[simp] theorem State.updateMember_pins (s : State) (n : StationNo) (f : Member → Member) : (s.updateMember n f).pins = s.pins := rfl
@[simp] theorem State.updateMember_freeReads (s : State) (n : StationNo) (f : Member → Member) : (s.updateMember n f).freeReads = s.freeReads := rfl
@[simp] theorem State.updateMember_pending (s : State) (n : StationNo) (f : Member → Member) : (s.updateMember n f).pending = s.pending := rfl
@[simp] theorem State.updateMember_cfg (s : State) (n : StationNo) (f : Member → Member) : (s.updateMember n f).cfg = s.cfg := rfl

@[simp] theorem State.removeMember_line (s : State) (n : StationNo) : (s.removeMember n).line = s.line := rfl
@[simp] theorem State.removeMember_commit (s : State) (n : StationNo) : (s.removeMember n).commit = s.commit := rfl
@[simp] theorem State.removeMember_pool (s : State) (n : StationNo) : (s.removeMember n).pool = s.pool := rfl
@[simp] theorem State.removeMember_send (s : State) (n : StationNo) : (s.removeMember n).send = s.send := rfl
@[simp] theorem State.removeMember_rx (s : State) (n : StationNo) : (s.removeMember n).rx = s.rx := rfl
@[simp] theorem State.removeMember_gaps (s : State) (n : StationNo) : (s.removeMember n).gaps = s.gaps := rfl
@[simp] theorem State.removeMember_nextGapId (s : State) (n : StationNo) : (s.removeMember n).nextGapId = s.nextGapId := rfl
@[simp] theorem State.removeMember_members (s : State) (n : StationNo) : (s.removeMember n).members
    = s.members.filter fun m => !(m.station == n) := rfl
@[simp] theorem State.removeMember_stn (s : State) (n : StationNo) : (s.removeMember n).stn = s.stn := rfl
@[simp] theorem State.removeMember_port (s : State) (n : StationNo) : (s.removeMember n).port = s.port := rfl
@[simp] theorem State.removeMember_counters (s : State) (n : StationNo) : (s.removeMember n).counters = s.counters := rfl
@[simp] theorem State.removeMember_pins (s : State) (n : StationNo) : (s.removeMember n).pins = s.pins := rfl
@[simp] theorem State.removeMember_freeReads (s : State) (n : StationNo) : (s.removeMember n).freeReads = s.freeReads := rfl
@[simp] theorem State.removeMember_pending (s : State) (n : StationNo) : (s.removeMember n).pending = s.pending := rfl
@[simp] theorem State.removeMember_cfg (s : State) (n : StationNo) : (s.removeMember n).cfg = s.cfg := rfl

@[simp] theorem State.clearIncluded_line (s : State) : (s.clearIncluded).line = s.line := rfl
@[simp] theorem State.clearIncluded_commit (s : State) : (s.clearIncluded).commit = s.commit := rfl
@[simp] theorem State.clearIncluded_pool (s : State) : (s.clearIncluded).pool = s.pool := rfl
@[simp] theorem State.clearIncluded_send (s : State) : (s.clearIncluded).send = s.send := rfl
@[simp] theorem State.clearIncluded_rx (s : State) : (s.clearIncluded).rx = s.rx := rfl
@[simp] theorem State.clearIncluded_gaps (s : State) : (s.clearIncluded).gaps = s.gaps := rfl
@[simp] theorem State.clearIncluded_nextGapId (s : State) : (s.clearIncluded).nextGapId = s.nextGapId := rfl
@[simp] theorem State.clearIncluded_members (s : State) : (s.clearIncluded).members
    = s.members.map fun m => { m with includedMe := false } := rfl
@[simp] theorem State.clearIncluded_stn (s : State) : (s.clearIncluded).stn = s.stn := rfl
@[simp] theorem State.clearIncluded_port (s : State) : (s.clearIncluded).port = s.port := rfl
@[simp] theorem State.clearIncluded_counters (s : State) : (s.clearIncluded).counters = s.counters := rfl
@[simp] theorem State.clearIncluded_pins (s : State) : (s.clearIncluded).pins = s.pins := rfl
@[simp] theorem State.clearIncluded_freeReads (s : State) : (s.clearIncluded).freeReads = s.freeReads := rfl
@[simp] theorem State.clearIncluded_pending (s : State) : (s.clearIncluded).pending = s.pending := rfl
@[simp] theorem State.clearIncluded_cfg (s : State) : (s.clearIncluded).cfg = s.cfg := rfl

@[simp] theorem State.updateGap_line (s : State) (id : Nat) (f : GapEntry → GapEntry) : (s.updateGap id f).line = s.line := rfl
@[simp] theorem State.updateGap_commit (s : State) (id : Nat) (f : GapEntry → GapEntry) : (s.updateGap id f).commit = s.commit := rfl
@[simp] theorem State.updateGap_pool (s : State) (id : Nat) (f : GapEntry → GapEntry) : (s.updateGap id f).pool = s.pool := rfl
@[simp] theorem State.updateGap_send (s : State) (id : Nat) (f : GapEntry → GapEntry) : (s.updateGap id f).send = s.send := rfl
@[simp] theorem State.updateGap_rx (s : State) (id : Nat) (f : GapEntry → GapEntry) : (s.updateGap id f).rx = s.rx := rfl
@[simp] theorem State.updateGap_gaps (s : State) (id : Nat) (f : GapEntry → GapEntry) : (s.updateGap id f).gaps
    = s.gaps.map fun e => if e.id == id then f e else e := rfl
@[simp] theorem State.updateGap_nextGapId (s : State) (id : Nat) (f : GapEntry → GapEntry) : (s.updateGap id f).nextGapId = s.nextGapId := rfl
@[simp] theorem State.updateGap_members (s : State) (id : Nat) (f : GapEntry → GapEntry) : (s.updateGap id f).members = s.members := rfl
@[simp] theorem State.updateGap_stn (s : State) (id : Nat) (f : GapEntry → GapEntry) : (s.updateGap id f).stn = s.stn := rfl
@[simp] theorem State.updateGap_port (s : State) (id : Nat) (f : GapEntry → GapEntry) : (s.updateGap id f).port = s.port := rfl
@[simp] theorem State.updateGap_counters (s : State) (id : Nat) (f : GapEntry → GapEntry) : (s.updateGap id f).counters = s.counters := rfl
@[simp] theorem State.updateGap_pins (s : State) (id : Nat) (f : GapEntry → GapEntry) : (s.updateGap id f).pins = s.pins := rfl
@[simp] theorem State.updateGap_freeReads (s : State) (id : Nat) (f : GapEntry → GapEntry) : (s.updateGap id f).freeReads = s.freeReads := rfl
@[simp] theorem State.updateGap_pending (s : State) (id : Nat) (f : GapEntry → GapEntry) : (s.updateGap id f).pending = s.pending := rfl
@[simp] theorem State.updateGap_cfg (s : State) (id : Nat) (f : GapEntry → GapEntry) : (s.updateGap id f).cfg = s.cfg := rfl

@[simp] theorem State.suppress_line (s : State) (r : ResendRange) : (s.suppress r).line = s.line := rfl
@[simp] theorem State.suppress_commit (s : State) (r : ResendRange) : (s.suppress r).commit = s.commit := rfl
@[simp] theorem State.suppress_pool (s : State) (r : ResendRange) : (s.suppress r).pool = s.pool := rfl
@[simp] theorem State.suppress_send (s : State) (r : ResendRange) : (s.suppress r).send = s.send := rfl
@[simp] theorem State.suppress_rx (s : State) (r : ResendRange) : (s.suppress r).rx = s.rx := rfl
@[simp] theorem State.suppress_nextGapId (s : State) (r : ResendRange) : (s.suppress r).nextGapId = s.nextGapId := rfl
@[simp] theorem State.suppress_members (s : State) (r : ResendRange) : (s.suppress r).members = s.members := rfl
@[simp] theorem State.suppress_stn (s : State) (r : ResendRange) : (s.suppress r).stn = s.stn := rfl
@[simp] theorem State.suppress_port (s : State) (r : ResendRange) : (s.suppress r).port = s.port := rfl
@[simp] theorem State.suppress_counters (s : State) (r : ResendRange) : (s.suppress r).counters = s.counters := rfl
@[simp] theorem State.suppress_pins (s : State) (r : ResendRange) : (s.suppress r).pins = s.pins := rfl
@[simp] theorem State.suppress_freeReads (s : State) (r : ResendRange) : (s.suppress r).freeReads = s.freeReads := rfl
@[simp] theorem State.suppress_pending (s : State) (r : ResendRange) : (s.suppress r).pending = s.pending := rfl
@[simp] theorem State.suppress_cfg (s : State) (r : ResendRange) : (s.suppress r).cfg = s.cfg := rfl

@[simp] theorem State.endReception_line (s : State) : (s.endReception).line
    = { s.line with ready := false, timing := .busy } := rfl
@[simp] theorem State.endReception_commit (s : State) : (s.endReception).commit = s.commit := rfl
@[simp] theorem State.endReception_pool (s : State) : (s.endReception).pool = s.pool := rfl
@[simp] theorem State.endReception_send (s : State) : (s.endReception).send = s.send := rfl
@[simp] theorem State.endReception_rx (s : State) : (s.endReception).rx = s.rx := rfl
@[simp] theorem State.endReception_gaps (s : State) : (s.endReception).gaps = s.gaps := rfl
@[simp] theorem State.endReception_nextGapId (s : State) : (s.endReception).nextGapId = s.nextGapId := rfl
@[simp] theorem State.endReception_members (s : State) : (s.endReception).members = s.members := rfl
@[simp] theorem State.endReception_stn (s : State) : (s.endReception).stn = s.stn := rfl
@[simp] theorem State.endReception_port (s : State) : (s.endReception).port = s.port := rfl
@[simp] theorem State.endReception_counters (s : State) : (s.endReception).counters = s.counters := rfl
@[simp] theorem State.endReception_pins (s : State) : (s.endReception).pins = s.pins := rfl
@[simp] theorem State.endReception_freeReads (s : State) : (s.endReception).freeReads = s.freeReads := rfl
@[simp] theorem State.endReception_pending (s : State) : (s.endReception).pending = s.pending := rfl
@[simp] theorem State.endReception_cfg (s : State) : (s.endReception).cfg = s.cfg := rfl

@[simp] theorem State.arrival_line (s : State) (h : Header) : (s.arrival h).line
    = { s.line with
        ready := false, timing := .busy, rotationBase := h.sender + 1, displaced := false } := rfl
@[simp] theorem State.arrival_commit (s : State) (h : Header) : (s.arrival h).commit = s.commit := rfl
@[simp] theorem State.arrival_pool (s : State) (h : Header) : (s.arrival h).pool = s.pool := rfl
@[simp] theorem State.arrival_send (s : State) (h : Header) : (s.arrival h).send = s.send := rfl
@[simp] theorem State.arrival_rx (s : State) (h : Header) : (s.arrival h).rx = s.rx := rfl
@[simp] theorem State.arrival_gaps (s : State) (h : Header) : (s.arrival h).gaps = s.gaps := rfl
@[simp] theorem State.arrival_nextGapId (s : State) (h : Header) : (s.arrival h).nextGapId = s.nextGapId := rfl
@[simp] theorem State.arrival_members (s : State) (h : Header) : (s.arrival h).members = s.members := rfl
@[simp] theorem State.arrival_stn (s : State) (h : Header) : (s.arrival h).stn = s.stn := rfl
@[simp] theorem State.arrival_port (s : State) (h : Header) : (s.arrival h).port = s.port := rfl
@[simp] theorem State.arrival_counters (s : State) (h : Header) : (s.arrival h).counters = s.counters := rfl
@[simp] theorem State.arrival_pins (s : State) (h : Header) : (s.arrival h).pins = s.pins := rfl
@[simp] theorem State.arrival_freeReads (s : State) (h : Header) : (s.arrival h).freeReads = s.freeReads := rfl
@[simp] theorem State.arrival_pending (s : State) (h : Header) : (s.arrival h).pending = s.pending := rfl
@[simp] theorem State.arrival_cfg (s : State) (h : Header) : (s.arrival h).cfg = s.cfg := rfl

@[simp] theorem State.countDuplicate_line (s : State) : (s.countDuplicate).line = s.line := rfl
@[simp] theorem State.countDuplicate_commit (s : State) : (s.countDuplicate).commit = s.commit := rfl
@[simp] theorem State.countDuplicate_pool (s : State) : (s.countDuplicate).pool = s.pool := rfl
@[simp] theorem State.countDuplicate_send (s : State) : (s.countDuplicate).send = s.send := rfl
@[simp] theorem State.countDuplicate_rx (s : State) : (s.countDuplicate).rx = s.rx := rfl
@[simp] theorem State.countDuplicate_gaps (s : State) : (s.countDuplicate).gaps = s.gaps := rfl
@[simp] theorem State.countDuplicate_nextGapId (s : State) : (s.countDuplicate).nextGapId = s.nextGapId := rfl
@[simp] theorem State.countDuplicate_members (s : State) : (s.countDuplicate).members = s.members := rfl
@[simp] theorem State.countDuplicate_stn (s : State) : (s.countDuplicate).stn = s.stn := rfl
@[simp] theorem State.countDuplicate_port (s : State) : (s.countDuplicate).port = s.port := rfl
@[simp] theorem State.countDuplicate_counters (s : State) : (s.countDuplicate).counters
    = { s.counters with duplicates := s.counters.duplicates + 1 } := rfl
@[simp] theorem State.countDuplicate_pins (s : State) : (s.countDuplicate).pins = s.pins := rfl
@[simp] theorem State.countDuplicate_freeReads (s : State) : (s.countDuplicate).freeReads = s.freeReads := rfl
@[simp] theorem State.countDuplicate_pending (s : State) : (s.countDuplicate).pending = s.pending := rfl
@[simp] theorem State.countDuplicate_cfg (s : State) : (s.countDuplicate).cfg = s.cfg := rfl

@[simp] theorem State.countMark_line (s : State) : (s.countMark).line = s.line := rfl
@[simp] theorem State.countMark_commit (s : State) : (s.countMark).commit = s.commit := rfl
@[simp] theorem State.countMark_pool (s : State) : (s.countMark).pool = s.pool := rfl
@[simp] theorem State.countMark_send (s : State) : (s.countMark).send = s.send := rfl
@[simp] theorem State.countMark_rx (s : State) : (s.countMark).rx = s.rx := rfl
@[simp] theorem State.countMark_gaps (s : State) : (s.countMark).gaps = s.gaps := rfl
@[simp] theorem State.countMark_nextGapId (s : State) : (s.countMark).nextGapId = s.nextGapId := rfl
@[simp] theorem State.countMark_members (s : State) : (s.countMark).members = s.members := rfl
@[simp] theorem State.countMark_stn (s : State) : (s.countMark).stn = s.stn := rfl
@[simp] theorem State.countMark_port (s : State) : (s.countMark).port = s.port := rfl
@[simp] theorem State.countMark_counters (s : State) : (s.countMark).counters
    = { s.counters with objectionsMarked := s.counters.objectionsMarked + 1 } := rfl
@[simp] theorem State.countMark_pins (s : State) : (s.countMark).pins = s.pins := rfl
@[simp] theorem State.countMark_freeReads (s : State) : (s.countMark).freeReads = s.freeReads := rfl
@[simp] theorem State.countMark_pending (s : State) : (s.countMark).pending = s.pending := rfl
@[simp] theorem State.countMark_cfg (s : State) : (s.countMark).cfg = s.cfg := rfl

@[simp] theorem State.countResend_line (s : State) : (s.countResend).line = s.line := rfl
@[simp] theorem State.countResend_commit (s : State) : (s.countResend).commit = s.commit := rfl
@[simp] theorem State.countResend_pool (s : State) : (s.countResend).pool = s.pool := rfl
@[simp] theorem State.countResend_send (s : State) : (s.countResend).send = s.send := rfl
@[simp] theorem State.countResend_rx (s : State) : (s.countResend).rx = s.rx := rfl
@[simp] theorem State.countResend_gaps (s : State) : (s.countResend).gaps = s.gaps := rfl
@[simp] theorem State.countResend_nextGapId (s : State) : (s.countResend).nextGapId = s.nextGapId := rfl
@[simp] theorem State.countResend_members (s : State) : (s.countResend).members = s.members := rfl
@[simp] theorem State.countResend_stn (s : State) : (s.countResend).stn = s.stn := rfl
@[simp] theorem State.countResend_port (s : State) : (s.countResend).port = s.port := rfl
@[simp] theorem State.countResend_counters (s : State) : (s.countResend).counters
    = { s.counters with resendsSent := s.counters.resendsSent + 1 } := rfl
@[simp] theorem State.countResend_pins (s : State) : (s.countResend).pins = s.pins := rfl
@[simp] theorem State.countResend_freeReads (s : State) : (s.countResend).freeReads = s.freeReads := rfl
@[simp] theorem State.countResend_pending (s : State) : (s.countResend).pending = s.pending := rfl
@[simp] theorem State.countResend_cfg (s : State) : (s.countResend).cfg = s.cfg := rfl

@[simp] theorem State.openWindow_commit (s : State) (r : WindowRole) (h : Header) (n : LineNo) (full stale : Bool) : (s.openWindow r h n full stale).commit = s.commit := rfl
@[simp] theorem State.openWindow_pool (s : State) (r : WindowRole) (h : Header) (n : LineNo) (full stale : Bool) : (s.openWindow r h n full stale).pool = s.pool := rfl
@[simp] theorem State.openWindow_send (s : State) (r : WindowRole) (h : Header) (n : LineNo) (full stale : Bool) : (s.openWindow r h n full stale).send = s.send := rfl
@[simp] theorem State.openWindow_rx (s : State) (r : WindowRole) (h : Header) (n : LineNo) (full stale : Bool) : (s.openWindow r h n full stale).rx = s.rx := rfl
@[simp] theorem State.openWindow_gaps (s : State) (r : WindowRole) (h : Header) (n : LineNo) (full stale : Bool) : (s.openWindow r h n full stale).gaps = s.gaps := rfl
@[simp] theorem State.openWindow_nextGapId (s : State) (r : WindowRole) (h : Header) (n : LineNo) (full stale : Bool) : (s.openWindow r h n full stale).nextGapId = s.nextGapId := rfl
@[simp] theorem State.openWindow_members (s : State) (r : WindowRole) (h : Header) (n : LineNo) (full stale : Bool) : (s.openWindow r h n full stale).members = s.members := rfl
@[simp] theorem State.openWindow_stn (s : State) (r : WindowRole) (h : Header) (n : LineNo) (full stale : Bool) : (s.openWindow r h n full stale).stn = s.stn := rfl
@[simp] theorem State.openWindow_port (s : State) (r : WindowRole) (h : Header) (n : LineNo) (full stale : Bool) : (s.openWindow r h n full stale).port = s.port := rfl
@[simp] theorem State.openWindow_counters (s : State) (r : WindowRole) (h : Header) (n : LineNo) (full stale : Bool) : (s.openWindow r h n full stale).counters = s.counters := rfl
@[simp] theorem State.openWindow_pins (s : State) (r : WindowRole) (h : Header) (n : LineNo) (full stale : Bool) : (s.openWindow r h n full stale).pins = s.pins := rfl
@[simp] theorem State.openWindow_freeReads (s : State) (r : WindowRole) (h : Header) (n : LineNo) (full stale : Bool) : (s.openWindow r h n full stale).freeReads = s.freeReads := rfl
@[simp] theorem State.openWindow_pending (s : State) (r : WindowRole) (h : Header) (n : LineNo) (full stale : Bool) : (s.openWindow r h n full stale).pending = s.pending := rfl
@[simp] theorem State.openWindow_cfg (s : State) (r : WindowRole) (h : Header) (n : LineNo) (full stale : Bool) : (s.openWindow r h n full stale).cfg = s.cfg := rfl

@[simp] theorem State.closeWindow_line (s : State) : (s.closeWindow).line
    = { s.line with window := none, driving := false } := rfl
@[simp] theorem State.closeWindow_commit (s : State) : (s.closeWindow).commit = s.commit := rfl
@[simp] theorem State.closeWindow_pool (s : State) : (s.closeWindow).pool = s.pool := rfl
@[simp] theorem State.closeWindow_send (s : State) : (s.closeWindow).send = s.send := rfl
@[simp] theorem State.closeWindow_rx (s : State) : (s.closeWindow).rx = s.rx := rfl
@[simp] theorem State.closeWindow_gaps (s : State) : (s.closeWindow).gaps = s.gaps := rfl
@[simp] theorem State.closeWindow_nextGapId (s : State) : (s.closeWindow).nextGapId = s.nextGapId := rfl
@[simp] theorem State.closeWindow_members (s : State) : (s.closeWindow).members = s.members := rfl
@[simp] theorem State.closeWindow_stn (s : State) : (s.closeWindow).stn = s.stn := rfl
@[simp] theorem State.closeWindow_port (s : State) : (s.closeWindow).port = s.port := rfl
@[simp] theorem State.closeWindow_counters (s : State) : (s.closeWindow).counters = s.counters := rfl
@[simp] theorem State.closeWindow_pins (s : State) : (s.closeWindow).pins = s.pins := rfl
@[simp] theorem State.closeWindow_freeReads (s : State) : (s.closeWindow).freeReads = s.freeReads := rfl
@[simp] theorem State.closeWindow_pending (s : State) : (s.closeWindow).pending = s.pending := rfl
@[simp] theorem State.closeWindow_cfg (s : State) : (s.closeWindow).cfg = s.cfg := rfl

@[simp] theorem State.clearObjections_line (s : State) : (s.clearObjections).line = s.line := rfl
@[simp] theorem State.clearObjections_commit (s : State) : (s.clearObjections).commit
    = { s.commit with objections := 0, congestedArmed := true, congested := false } := rfl
@[simp] theorem State.clearObjections_pool (s : State) : (s.clearObjections).pool = s.pool := rfl
@[simp] theorem State.clearObjections_send (s : State) : (s.clearObjections).send = s.send := rfl
@[simp] theorem State.clearObjections_rx (s : State) : (s.clearObjections).rx = s.rx := rfl
@[simp] theorem State.clearObjections_gaps (s : State) : (s.clearObjections).gaps = s.gaps := rfl
@[simp] theorem State.clearObjections_nextGapId (s : State) : (s.clearObjections).nextGapId = s.nextGapId := rfl
@[simp] theorem State.clearObjections_members (s : State) : (s.clearObjections).members = s.members := rfl
@[simp] theorem State.clearObjections_stn (s : State) : (s.clearObjections).stn = s.stn := rfl
@[simp] theorem State.clearObjections_port (s : State) : (s.clearObjections).port = s.port := rfl
@[simp] theorem State.clearObjections_counters (s : State) : (s.clearObjections).counters = s.counters := rfl
@[simp] theorem State.clearObjections_pins (s : State) : (s.clearObjections).pins = s.pins := rfl
@[simp] theorem State.clearObjections_freeReads (s : State) : (s.clearObjections).freeReads = s.freeReads := rfl
@[simp] theorem State.clearObjections_pending (s : State) : (s.clearObjections).pending = s.pending := rfl
@[simp] theorem State.clearObjections_cfg (s : State) : (s.clearObjections).cfg = s.cfg := rfl

@[simp] theorem State.setResult_line (s : State) (c : ResultCode) (t : Option Tag) : (s.setResult c t).line = s.line := rfl
@[simp] theorem State.setResult_commit (s : State) (c : ResultCode) (t : Option Tag) : (s.setResult c t).commit = s.commit := rfl
@[simp] theorem State.setResult_pool (s : State) (c : ResultCode) (t : Option Tag) : (s.setResult c t).pool = s.pool := rfl
@[simp] theorem State.setResult_send (s : State) (c : ResultCode) (t : Option Tag) : (s.setResult c t).send = s.send := rfl
@[simp] theorem State.setResult_rx (s : State) (c : ResultCode) (t : Option Tag) : (s.setResult c t).rx = s.rx := rfl
@[simp] theorem State.setResult_gaps (s : State) (c : ResultCode) (t : Option Tag) : (s.setResult c t).gaps = s.gaps := rfl
@[simp] theorem State.setResult_nextGapId (s : State) (c : ResultCode) (t : Option Tag) : (s.setResult c t).nextGapId = s.nextGapId := rfl
@[simp] theorem State.setResult_members (s : State) (c : ResultCode) (t : Option Tag) : (s.setResult c t).members = s.members := rfl
@[simp] theorem State.setResult_stn (s : State) (c : ResultCode) (t : Option Tag) : (s.setResult c t).stn = s.stn := rfl
@[simp] theorem State.setResult_port (s : State) (c : ResultCode) (t : Option Tag) : (s.setResult c t).port
    = { s.port with result := ⟨c, t⟩ } := rfl
@[simp] theorem State.setResult_counters (s : State) (c : ResultCode) (t : Option Tag) : (s.setResult c t).counters = s.counters := rfl
@[simp] theorem State.setResult_pins (s : State) (c : ResultCode) (t : Option Tag) : (s.setResult c t).pins = s.pins := rfl
@[simp] theorem State.setResult_freeReads (s : State) (c : ResultCode) (t : Option Tag) : (s.setResult c t).freeReads = s.freeReads := rfl
@[simp] theorem State.setResult_pending (s : State) (c : ResultCode) (t : Option Tag) : (s.setResult c t).pending = s.pending := rfl
@[simp] theorem State.setResult_cfg (s : State) (c : ResultCode) (t : Option Tag) : (s.setResult c t).cfg = s.cfg := rfl

@[simp] theorem State.releaseOne_line (s : State) (n : SendNotice) (l : List SendNotice) : (s.releaseOne n l).line = s.line := rfl
@[simp] theorem State.releaseOne_commit (s : State) (n : SendNotice) (l : List SendNotice) : (s.releaseOne n l).commit = s.commit := rfl
@[simp] theorem State.releaseOne_pool (s : State) (n : SendNotice) (l : List SendNotice) : (s.releaseOne n l).pool = s.pool := rfl
@[simp] theorem State.releaseOne_rx (s : State) (n : SendNotice) (l : List SendNotice) : (s.releaseOne n l).rx = s.rx := rfl
@[simp] theorem State.releaseOne_gaps (s : State) (n : SendNotice) (l : List SendNotice) : (s.releaseOne n l).gaps = s.gaps := rfl
@[simp] theorem State.releaseOne_nextGapId (s : State) (n : SendNotice) (l : List SendNotice) : (s.releaseOne n l).nextGapId = s.nextGapId := rfl
@[simp] theorem State.releaseOne_members (s : State) (n : SendNotice) (l : List SendNotice) : (s.releaseOne n l).members = s.members := rfl
@[simp] theorem State.releaseOne_stn (s : State) (n : SendNotice) (l : List SendNotice) : (s.releaseOne n l).stn = s.stn := rfl
@[simp] theorem State.releaseOne_port (s : State) (n : SendNotice) (l : List SendNotice) : (s.releaseOne n l).port = s.port := rfl
@[simp] theorem State.releaseOne_counters (s : State) (n : SendNotice) (l : List SendNotice) : (s.releaseOne n l).counters = s.counters := rfl
@[simp] theorem State.releaseOne_pins (s : State) (n : SendNotice) (l : List SendNotice) : (s.releaseOne n l).pins = s.pins := rfl
@[simp] theorem State.releaseOne_freeReads (s : State) (n : SendNotice) (l : List SendNotice) : (s.releaseOne n l).freeReads = s.freeReads := rfl
@[simp] theorem State.releaseOne_pending (s : State) (n : SendNotice) (l : List SendNotice) : (s.releaseOne n l).pending = s.pending := rfl
@[simp] theorem State.releaseOne_cfg (s : State) (n : SendNotice) (l : List SendNotice) : (s.releaseOne n l).cfg = s.cfg := rfl

@[simp] theorem State.noteSent_line (s : State) : (s.noteSent).line
    = s.line.afterSent := rfl
@[simp] theorem State.noteSent_commit (s : State) : (s.noteSent).commit = s.commit := rfl
@[simp] theorem State.noteSent_pool (s : State) : (s.noteSent).pool = s.pool := rfl
@[simp] theorem State.noteSent_send (s : State) : (s.noteSent).send = s.send := rfl
@[simp] theorem State.noteSent_rx (s : State) : (s.noteSent).rx = s.rx := rfl
@[simp] theorem State.noteSent_gaps (s : State) : (s.noteSent).gaps = s.gaps := rfl
@[simp] theorem State.noteSent_nextGapId (s : State) : (s.noteSent).nextGapId = s.nextGapId := rfl
@[simp] theorem State.noteSent_members (s : State) : (s.noteSent).members = s.members := rfl
@[simp] theorem State.noteSent_stn (s : State) : (s.noteSent).stn
    = s.stn.restartBeaconTimer s.cfg.beaconInterval := rfl
@[simp] theorem State.noteSent_port (s : State) : (s.noteSent).port = s.port := rfl
@[simp] theorem State.noteSent_counters (s : State) : (s.noteSent).counters = s.counters := rfl
@[simp] theorem State.noteSent_pins (s : State) : (s.noteSent).pins = s.pins := rfl
@[simp] theorem State.noteSent_freeReads (s : State) : (s.noteSent).freeReads = s.freeReads := rfl
@[simp] theorem State.noteSent_pending (s : State) : (s.noteSent).pending = s.pending := rfl

theorem StationBlock.onLine_iff (b : StationBlock) :
    b.onLine = true ↔ b.state = .joining ∨ b.state = .active ∨ b.state = .leaving := by
  unfold StationBlock.onLine; split <;> simp [*]

theorem StationBlock.joinedOrActive_iff (b : StationBlock) :
    b.joinedOrActive = true ↔ b.state = .joining ∨ b.state = .active := by
  unfold StationBlock.joinedOrActive; split <;> simp [*]

theorem StationBlock.hearsLine_iff (b : StationBlock) :
    b.hearsLine = true ↔ b.state ≠ .idle ∧ b.state ≠ .halted := by
  unfold StationBlock.hearsLine; split <;> simp [*]

@[simp] theorem LineBlock.standBack_id (l : LineBlock) : l.standBack.id = l.id := rfl
@[simp] theorem LineBlock.standBack_rate (l : LineBlock) : l.standBack.rate = l.rate := rfl
@[simp] theorem LineBlock.standBack_rotationBase (l : LineBlock) : l.standBack.rotationBase = l.rotationBase := rfl
@[simp] theorem LineBlock.standBack_displaced (l : LineBlock) : l.standBack.displaced = l.displaced := rfl
@[simp] theorem LineBlock.standBack_yield (l : LineBlock) : l.standBack.yield = true := rfl
@[simp] theorem LineBlock.standBack_ready (l : LineBlock) : l.standBack.ready = l.ready := rfl
@[simp] theorem LineBlock.standBack_collisionCount (l : LineBlock) : l.standBack.collisionCount = l.collisionCount := rfl
@[simp] theorem LineBlock.standBack_collisionsArmed (l : LineBlock) : l.standBack.collisionsArmed = l.collisionsArmed := rfl
@[simp] theorem LineBlock.standBack_lastCollided (l : LineBlock) : l.standBack.lastCollided = l.lastCollided := rfl
@[simp] theorem LineBlock.standBack_ownFrame (l : LineBlock) : l.standBack.ownFrame = l.ownFrame := rfl
@[simp] theorem LineBlock.standBack_window (l : LineBlock) : l.standBack.window = l.window := rfl
@[simp] theorem LineBlock.standBack_de (l : LineBlock) : l.standBack.driving = l.driving := rfl

/-- Giving up the slots of an idle line touches line timing alone. -/
@[simp] theorem State.waitForIdle_frame (s : State) :
    s.waitForIdle.commit = s.commit ∧ s.waitForIdle.pool = s.pool ∧ s.waitForIdle.send = s.send ∧ s.waitForIdle.rx = s.rx
      ∧ s.waitForIdle.gaps = s.gaps ∧ s.waitForIdle.nextGapId = s.nextGapId ∧ s.waitForIdle.members = s.members
      ∧ s.waitForIdle.stn = s.stn ∧ s.waitForIdle.port = s.port ∧ s.waitForIdle.counters = s.counters
      ∧ s.waitForIdle.pins = s.pins ∧ s.waitForIdle.freeReads = s.freeReads ∧ s.waitForIdle.pending = s.pending
      ∧ s.waitForIdle.line.id = s.line.id ∧ s.waitForIdle.line.rate = s.line.rate
      ∧ s.waitForIdle.line.rotationBase = s.line.rotationBase ∧ s.waitForIdle.line.displaced = s.line.displaced
      ∧ s.waitForIdle.line.yield = s.line.yield ∧ s.waitForIdle.line.ready = s.line.ready
      ∧ s.waitForIdle.line.collisionCount = s.line.collisionCount
      ∧ s.waitForIdle.line.collisionsArmed = s.line.collisionsArmed
      ∧ s.waitForIdle.line.lastCollided = s.line.lastCollided ∧ s.waitForIdle.line.ownFrame = s.line.ownFrame
      ∧ s.waitForIdle.line.window = s.line.window ∧ s.waitForIdle.line.driving = s.line.driving :=
  ⟨rfl, rfl, rfl, rfl, rfl, rfl, rfl, rfl, rfl, rfl, rfl, rfl, rfl, rfl, rfl, rfl, rfl, rfl, rfl, rfl, rfl, rfl, rfl, rfl, rfl⟩

theorem State.waitForIdle_of_idle {s : State} {p : Slot} (h : s.line.timing = .idle p) :
    s.waitForIdle = { s with line := { s.line with timing := .awaitsIdle } } := by
  unfold State.waitForIdle; rw [h]

theorem State.waitForIdle_of_not_idle {s : State} (h : ∀ p, s.line.timing ≠ .idle p) : s.waitForIdle = s := by
  unfold State.waitForIdle
  cases ht : s.line.timing with
  | idle p => exact absurd ht (h p)
  | off => simp only [← ht]
  | busy => simp only [← ht]
  | awaitsIdle => simp only [← ht]

/-- Line timing stays held or not. -/
@[simp] theorem State.waitForIdle_timing_off (s : State) : s.waitForIdle.line.timing = .off ↔ s.line.timing = .off := by
  unfold State.waitForIdle; cases s.line.timing <;> simp

/-- Standing back keeps line timing held or not. -/
@[simp] theorem LineBlock.standBack_timing_off (l : LineBlock) : l.standBack.timing = .off ↔ l.timing = .off := by
  unfold LineBlock.standBack; cases l.timing <;> simp

/-- Standing back as the statements spell it. -/
theorem LineBlock.standBack_eq_yielded (l : LineBlock) : l.standBack = l.yielded := by
  unfold LineBlock.standBack LineBlock.yielded
  cases l.timing <;> simp [LineBlock.accessPosition]

/-- Off an idle line standing back sets the flag alone. -/
theorem LineBlock.standBack_of_busy {l : LineBlock} (h : l.timing = .busy) : l.standBack = { l with yield := true } := by
  unfold LineBlock.standBack; rw [h]

/-- On an idle line the position is 32 + own number from here on (R26, R138, R139). -/
theorem LineBlock.standBack_of_idle {l : LineBlock} {p : Slot} (h : l.timing = .idle p) :
    l.standBack = { l with yield := true, timing := .idle (32 + l.id.setWidth 6) } := by
  unfold LineBlock.standBack; rw [h]; simp [LineBlock.accessPosition]

end Sys2Proof.Machine
end

