-- ==== Sys2Proof/Laws/Frame.lean ====
section
/-!
SUPPORT. For each shared operation, everything it leaves as it was, in one lemma that simp uses field by field.
-/

namespace Sys2Proof.Machine

/-! ### Reports, states and storage -/

@[simp] theorem State.postReport_frame (s : State) (r : Report) :
    (s.postReport r).line = s.line ∧ (s.postReport r).commit = s.commit ∧ (s.postReport r).pool = s.pool
      ∧ (s.postReport r).send = s.send ∧ (s.postReport r).rx = s.rx ∧ (s.postReport r).gaps = s.gaps
      ∧ (s.postReport r).nextGapId = s.nextGapId ∧ (s.postReport r).members = s.members ∧ (s.postReport r).stn = s.stn
      ∧ (s.postReport r).counters = s.counters ∧ (s.postReport r).pins = s.pins
      ∧ (s.postReport r).freeReads = s.freeReads ∧ (s.postReport r).pending = s.pending ∧ (s.postReport r).cfg = s.cfg
      ∧ (s.postReport r).port.link = s.port.link ∧ (s.postReport r).port.takeIncomplete = s.port.takeIncomplete
      ∧ (s.postReport r).port.result = s.port.result := by
  unfold State.postReport; split <;> simp [State.cfg]

@[simp] theorem State.postReports_frame (s : State) (l : List Report) :
    (s.postReports l).line = s.line ∧ (s.postReports l).commit = s.commit ∧ (s.postReports l).pool = s.pool
      ∧ (s.postReports l).send = s.send ∧ (s.postReports l).rx = s.rx ∧ (s.postReports l).gaps = s.gaps
      ∧ (s.postReports l).nextGapId = s.nextGapId ∧ (s.postReports l).members = s.members
      ∧ (s.postReports l).stn = s.stn ∧ (s.postReports l).counters = s.counters ∧ (s.postReports l).pins = s.pins
      ∧ (s.postReports l).freeReads = s.freeReads ∧ (s.postReports l).pending = s.pending
      ∧ (s.postReports l).cfg = s.cfg ∧ (s.postReports l).port.link = s.port.link
      ∧ (s.postReports l).port.takeIncomplete = s.port.takeIncomplete ∧ (s.postReports l).port.result = s.port.result := by
  induction l generalizing s with
  | nil => simp [State.postReports]
  | cons r l ih => have := ih (s.postReport r); simpa [State.postReports] using this

@[simp] theorem State.enterState_frame (s : State) (st : StationState) (c : StateCause) :
    (s.enterState st c).line = s.line ∧ (s.enterState st c).commit = s.commit ∧ (s.enterState st c).pool = s.pool
      ∧ (s.enterState st c).send = s.send ∧ (s.enterState st c).rx = s.rx ∧ (s.enterState st c).gaps = s.gaps
      ∧ (s.enterState st c).nextGapId = s.nextGapId ∧ (s.enterState st c).members = s.members
      ∧ (s.enterState st c).counters = s.counters ∧ (s.enterState st c).pins = s.pins
      ∧ (s.enterState st c).freeReads = s.freeReads ∧ (s.enterState st c).pending = s.pending
      ∧ (s.enterState st c).port.link = s.port.link ∧ (s.enterState st c).port.takeIncomplete = s.port.takeIncomplete
      ∧ (s.enterState st c).port.result = s.port.result := by
  simp [State.enterState]

/-- A report is posted to the report queue as it stands. -/
theorem State.postReport_port_congr {s t : State} (h : s.port = t.port) (r : Report) :
    (s.postReport r).port = (t.postReport r).port := by
  unfold State.postReport; rw [h]; split <;> simp

@[simp] theorem State.enterState_stn (s : State) (st : StationState) (c : StateCause) :
    (s.enterState st c).stn = { s.stn with state := st } := by simp [State.enterState]

@[simp] theorem State.enterState_cfg (s : State) (st : StationState) (c : StateCause) :
    (s.enterState st c).cfg = s.cfg := by simp [State.cfg]

theorem State.enterState_port (s : State) (st : StationState) (c : StateCause) :
    (s.enterState st c).port = (s.postReport (.stateChange s.stn.state st c)).port := by
  unfold State.enterState; apply State.postReport_port_congr; rfl

@[simp] theorem State.storeNotice_frame (s : State) (number : LineNo) (originator : StationNo) (topic : Topic) (payload : List Byte) (own : Bool)
    (tag : Option Tag) (replay : Bool) :
    (s.storeNotice number originator topic payload own tag replay).2.line = s.line
      ∧ (s.storeNotice number originator topic payload own tag replay).2.commit = s.commit
      ∧ (s.storeNotice number originator topic payload own tag replay).2.send = s.send
      ∧ (s.storeNotice number originator topic payload own tag replay).2.rx = s.rx
      ∧ (s.storeNotice number originator topic payload own tag replay).2.gaps = s.gaps
      ∧ (s.storeNotice number originator topic payload own tag replay).2.nextGapId = s.nextGapId
      ∧ (s.storeNotice number originator topic payload own tag replay).2.members = s.members
      ∧ (s.storeNotice number originator topic payload own tag replay).2.stn = s.stn
      ∧ (s.storeNotice number originator topic payload own tag replay).2.port = s.port
      ∧ (s.storeNotice number originator topic payload own tag replay).2.counters = s.counters
      ∧ (s.storeNotice number originator topic payload own tag replay).2.pins = s.pins
      ∧ (s.storeNotice number originator topic payload own tag replay).2.freeReads = s.freeReads
      ∧ (s.storeNotice number originator topic payload own tag replay).2.pending = s.pending
      ∧ (s.storeNotice number originator topic payload own tag replay).2.cfg = s.cfg
      ∧ (s.storeNotice number originator topic payload own tag replay).2.pool.pendingBase = s.pool.pendingBase := by
  simp [State.storeNotice, State.cfg]

@[simp] theorem State.dropProvisional_frame (s : State) :
    (s.dropProvisional).line = s.line ∧ (s.dropProvisional).send = s.send ∧ (s.dropProvisional).rx = s.rx
      ∧ (s.dropProvisional).gaps = s.gaps ∧ (s.dropProvisional).nextGapId = s.nextGapId
      ∧ (s.dropProvisional).members = s.members ∧ (s.dropProvisional).stn = s.stn ∧ (s.dropProvisional).port = s.port
      ∧ (s.dropProvisional).counters = s.counters ∧ (s.dropProvisional).pins = s.pins
      ∧ (s.dropProvisional).freeReads = s.freeReads ∧ (s.dropProvisional).pending = s.pending
      ∧ (s.dropProvisional).cfg = s.cfg ∧ (s.dropProvisional).pool.cells = s.pool.cells
      ∧ (s.dropProvisional).pool.pendingBase = s.pool.pendingBase
      ∧ (s.dropProvisional).commit.objections = s.commit.objections
      ∧ (s.dropProvisional).commit.congestedArmed = s.commit.congestedArmed
      ∧ (s.dropProvisional).commit.congested = s.commit.congested
      ∧ (s.dropProvisional).commit.catchingUp = s.commit.catchingUp := by
  unfold State.dropProvisional; split <;> simp [State.cfg]

/-! ### Delivery -/

/-- One step of the advance, case by case (R101, R102). -/
theorem State.advanceStep_cases {s t : State} (h : s.advanceStep = some t) :
    s.pool.pendingBase = none ∧
      ((∃ n, s.rx.holdSet.find? (·.number == s.rx.settled + 1) = some n
          ∧ t = ({ s with rx := { s.rx with
              holdSet := s.rx.holdSet.eraseP (·.number == s.rx.settled + 1) } }.appendRecord (.notice n)).settle
                (s.rx.settled + 1))
        ∨ (s.rx.holdSet.find? (·.number == s.rx.settled + 1) = none ∧ s.knownAt (s.rx.settled + 1) = true
          ∧ t = s.settle (s.rx.settled + 1))
        ∨ (s.rx.holdSet.find? (·.number == s.rx.settled + 1) = none ∧ s.knownAt (s.rx.settled + 1) = false
          ∧ s.lostAt (s.rx.settled + 1) = true ∧ ∃ d ds, s.pool.freeDescs = d :: ds
            ∧ t = ({ s with pool := { s.pool with freeDescs := ds } }.appendRecord
              (.lost (s.rx.settled + 1) (s.lostRunEnd Config.spanLimit (s.rx.settled + 1)) d)).settle
                (s.lostRunEnd Config.spanLimit (s.rx.settled + 1)))) := by
  unfold State.advanceStep at h
  dsimp only at h
  split at h
  · simp at h
  · rename_i hp
    refine ⟨by simpa using hp, ?_⟩
    split at h
    · rename_i n hn
      exact Or.inl ⟨n, hn, by simpa using h.symm⟩
    · rename_i hn
      split at h
      · rename_i hk
        exact Or.inr (Or.inl ⟨hn, hk, by simpa using h.symm⟩)
      · rename_i hk
        split at h
        · rename_i hl
          split at h
          · simp at h
          · rename_i d ds hd
            exact Or.inr (Or.inr ⟨hn, by simpa using hk, hl, d, ds, hd, by simpa using h.symm⟩)
        · simp at h

theorem State.advanceStep_frame (s : State) {t : State} (h : s.advanceStep = some t) :
    t.line = s.line ∧ t.commit = s.commit ∧ t.send = s.send ∧ t.nextGapId = s.nextGapId ∧ t.members = s.members
      ∧ t.stn = s.stn ∧ t.port = s.port ∧ t.counters = s.counters ∧ t.pins = s.pins ∧ t.freeReads = s.freeReads
      ∧ t.pending = s.pending ∧ t.cfg = s.cfg ∧ t.rx.count = s.rx.count ∧ t.pool.cells = s.pool.cells
      ∧ t.pool.freeCells = s.pool.freeCells ∧ t.pool.pendingBase = s.pool.pendingBase := by
  obtain ⟨-, h | h | h⟩ := State.advanceStep_cases h
  · obtain ⟨n, -, rfl⟩ := h; simp [State.cfg]
  · obtain ⟨-, -, rfl⟩ := h; simp [State.cfg]
  · obtain ⟨-, -, -, d, ds, -, rfl⟩ := h; simp [State.cfg]

@[simp] theorem State.advanceRun_frame (s : State) (fuel : Nat) :
    (State.advanceRun fuel s).line = s.line ∧ (State.advanceRun fuel s).commit = s.commit
      ∧ (State.advanceRun fuel s).send = s.send ∧ (State.advanceRun fuel s).nextGapId = s.nextGapId
      ∧ (State.advanceRun fuel s).members = s.members ∧ (State.advanceRun fuel s).stn = s.stn
      ∧ (State.advanceRun fuel s).port = s.port ∧ (State.advanceRun fuel s).counters = s.counters
      ∧ (State.advanceRun fuel s).pins = s.pins ∧ (State.advanceRun fuel s).freeReads = s.freeReads
      ∧ (State.advanceRun fuel s).pending = s.pending ∧ (State.advanceRun fuel s).cfg = s.cfg
      ∧ (State.advanceRun fuel s).rx.count = s.rx.count ∧ (State.advanceRun fuel s).pool.cells = s.pool.cells
      ∧ (State.advanceRun fuel s).pool.freeCells = s.pool.freeCells
      ∧ (State.advanceRun fuel s).pool.pendingBase = s.pool.pendingBase := by
  induction fuel generalizing s with
  | zero => simp [State.advanceRun]
  | succ fuel ih =>
    unfold State.advanceRun
    split
    · rename_i t ht
      have h1 := State.advanceStep_frame s ht
      have h2 := ih t
      simp only [h1] at h2
      simpa using h2
    · simp

@[simp] theorem State.advance_frame (s : State) :
    (s.advance).line = s.line ∧ (s.advance).commit = s.commit ∧ (s.advance).send = s.send
      ∧ (s.advance).nextGapId = s.nextGapId ∧ (s.advance).members = s.members ∧ (s.advance).stn = s.stn
      ∧ (s.advance).port = s.port ∧ (s.advance).counters = s.counters ∧ (s.advance).pins = s.pins
      ∧ (s.advance).freeReads = s.freeReads ∧ (s.advance).pending = s.pending ∧ (s.advance).cfg = s.cfg
      ∧ (s.advance).rx.count = s.rx.count ∧ (s.advance).pool.cells = s.pool.cells
      ∧ (s.advance).pool.freeCells = s.pool.freeCells ∧ (s.advance).pool.pendingBase = s.pool.pendingBase := by
  simp [State.advance]

@[simp] theorem State.servePendingBase_frame (s : State) :
    (s.servePendingBase).line = s.line ∧ (s.servePendingBase).commit = s.commit ∧ (s.servePendingBase).send = s.send
      ∧ (s.servePendingBase).gaps = s.gaps ∧ (s.servePendingBase).nextGapId = s.nextGapId
      ∧ (s.servePendingBase).members = s.members ∧ (s.servePendingBase).stn = s.stn
      ∧ (s.servePendingBase).port = s.port ∧ (s.servePendingBase).counters = s.counters
      ∧ (s.servePendingBase).pins = s.pins ∧ (s.servePendingBase).freeReads = s.freeReads
      ∧ (s.servePendingBase).pending = s.pending ∧ (s.servePendingBase).cfg = s.cfg
      ∧ (s.servePendingBase).rx.count = s.rx.count ∧ (s.servePendingBase).rx.settled = s.rx.settled
      ∧ (s.servePendingBase).rx.known = s.rx.known ∧ (s.servePendingBase).rx.holdSet = s.rx.holdSet
      ∧ (s.servePendingBase).pool.cells = s.pool.cells ∧ (s.servePendingBase).pool.freeCells = s.pool.freeCells := by
  unfold State.servePendingBase; split <;> simp [State.cfg]

@[simp] theorem State.handOn_frame (s : State) :
    (s.handOn).line = s.line ∧ (s.handOn).commit = s.commit ∧ (s.handOn).send = s.send
      ∧ (s.handOn).nextGapId = s.nextGapId ∧ (s.handOn).members = s.members ∧ (s.handOn).stn = s.stn
      ∧ (s.handOn).port = s.port ∧ (s.handOn).counters = s.counters ∧ (s.handOn).pins = s.pins
      ∧ (s.handOn).freeReads = s.freeReads ∧ (s.handOn).pending = s.pending ∧ (s.handOn).cfg = s.cfg
      ∧ (s.handOn).rx.count = s.rx.count ∧ (s.handOn).pool.cells = s.pool.cells
      ∧ (s.handOn).pool.freeCells = s.pool.freeCells := by
  simp [State.handOn]

@[simp] theorem State.emitBase_frame (s : State) (r : BaseReason) (n : LineNo) :
    (s.emitBase r n).line = s.line ∧ (s.emitBase r n).commit = s.commit ∧ (s.emitBase r n).send = s.send
      ∧ (s.emitBase r n).nextGapId = s.nextGapId ∧ (s.emitBase r n).members = s.members ∧ (s.emitBase r n).stn = s.stn
      ∧ (s.emitBase r n).port = s.port ∧ (s.emitBase r n).counters = s.counters ∧ (s.emitBase r n).pins = s.pins
      ∧ (s.emitBase r n).freeReads = s.freeReads ∧ (s.emitBase r n).pending = s.pending ∧ (s.emitBase r n).cfg = s.cfg
      ∧ (s.emitBase r n).rx.count = s.rx.count ∧ (s.emitBase r n).pool.cells = s.pool.cells
      ∧ (s.emitBase r n).pool.freeCells = s.pool.freeCells := by
  unfold State.emitBase; split <;> simp [State.cfg]

@[simp] theorem State.freeProvisional_frame (s : State) :
    (s.freeProvisional).line = s.line ∧ (s.freeProvisional).send = s.send
      ∧ (s.freeProvisional).nextGapId = s.nextGapId ∧ (s.freeProvisional).members = s.members
      ∧ (s.freeProvisional).stn = s.stn ∧ (s.freeProvisional).port = s.port
      ∧ (s.freeProvisional).counters = s.counters ∧ (s.freeProvisional).pins = s.pins
      ∧ (s.freeProvisional).freeReads = s.freeReads ∧ (s.freeProvisional).pending = s.pending
      ∧ (s.freeProvisional).cfg = s.cfg ∧ (s.freeProvisional).rx.count = s.rx.count
      ∧ (s.freeProvisional).pool.cells = s.pool.cells ∧ (s.freeProvisional).commit.objections = s.commit.objections
      ∧ (s.freeProvisional).commit.congestedArmed = s.commit.congestedArmed
      ∧ (s.freeProvisional).commit.congested = s.commit.congested
      ∧ (s.freeProvisional).commit.catchingUp = s.commit.catchingUp := by
  unfold State.freeProvisional; split <;> simp

/-- A run of frees touches the two free lists alone. -/
theorem State.freeNotices_eq (s : State) (l : List RxNotice) : l.foldl State.freeNotice s
    = { s with pool := { s.pool with
        freeCells := s.pool.freeCells ++ l.flatMap (·.chain), freeDescs := s.pool.freeDescs ++ l.map (·.desc) } } := by
  induction l generalizing s with
  | nil => simp
  | cons n l ih => simp [ih, State.freeNotice]

/-- The discard of the receive side as one update (R110, R130). -/
theorem State.discardReceive_eq (s : State) : s.discardReceive
    = { s with
        commit := { s.commit with provisional := none }
        pool := { s.pool with
          freeCells := s.pool.freeCells ++ s.storedNotices.flatMap (·.chain)
          freeDescs := s.pool.freeDescs ++ s.storedNotices.map (·.desc) }
        rx := { s.rx with holdSet := [], known := 0 }
        gaps := [] } := by
  unfold State.discardReceive State.dropProvisional State.storedNotices
  rw [State.freeNotices_eq]
  cases h : s.commit.provisional with
  | none => simp only [Option.toList, List.append_nil]; rw [← h]
  | some n => simp [State.freeNotice]

@[simp] theorem State.discardReceive_frame (s : State) :
    (s.discardReceive).line = s.line ∧ (s.discardReceive).send = s.send ∧ (s.discardReceive).nextGapId = s.nextGapId
      ∧ (s.discardReceive).members = s.members ∧ (s.discardReceive).stn = s.stn ∧ (s.discardReceive).port = s.port
      ∧ (s.discardReceive).counters = s.counters ∧ (s.discardReceive).pins = s.pins
      ∧ (s.discardReceive).freeReads = s.freeReads ∧ (s.discardReceive).pending = s.pending
      ∧ (s.discardReceive).cfg = s.cfg ∧ (s.discardReceive).rx.count = s.rx.count
      ∧ (s.discardReceive).rx.settled = s.rx.settled ∧ (s.discardReceive).rx.queue = s.rx.queue
      ∧ (s.discardReceive).rx.backlog = s.rx.backlog ∧ (s.discardReceive).pool.cells = s.pool.cells
      ∧ (s.discardReceive).pool.pendingBase = s.pool.pendingBase
      ∧ (s.discardReceive).commit.objections = s.commit.objections
      ∧ (s.discardReceive).commit.congestedArmed = s.commit.congestedArmed
      ∧ (s.discardReceive).commit.congested = s.commit.congested
      ∧ (s.discardReceive).commit.catchingUp = s.commit.catchingUp := by
  simp [State.discardReceive_eq, State.cfg]

/-! ### The send queue and the member table -/

@[simp] theorem State.releaseRun_frame (s : State) (l : List SendNotice) :
    (State.releaseRun l s).line = s.line ∧ (State.releaseRun l s).commit = s.commit
      ∧ (State.releaseRun l s).pool = s.pool ∧ (State.releaseRun l s).rx = s.rx ∧ (State.releaseRun l s).gaps = s.gaps
      ∧ (State.releaseRun l s).nextGapId = s.nextGapId ∧ (State.releaseRun l s).members = s.members
      ∧ (State.releaseRun l s).stn = s.stn ∧ (State.releaseRun l s).port = s.port
      ∧ (State.releaseRun l s).counters = s.counters ∧ (State.releaseRun l s).pins = s.pins
      ∧ (State.releaseRun l s).freeReads = s.freeReads ∧ (State.releaseRun l s).pending = s.pending
      ∧ (State.releaseRun l s).cfg = s.cfg ∧ (State.releaseRun l s).send.outbound = s.send.outbound
      ∧ (State.releaseRun l s).send.transmitPoint = s.send.transmitPoint
      ∧ (State.releaseRun l s).send.postEnd = s.send.postEnd
      ∧ (State.releaseRun l s).send.tagCounter = s.send.tagCounter
      ∧ (State.releaseRun l s).send.lastCommitted = s.send.lastCommitted
      ∧ (State.releaseRun l s).send.catchUp = s.send.catchUp := by
  induction l generalizing s with
  | nil => simp [State.releaseRun]
  | cons n l ih =>
    unfold State.releaseRun
    split
    · simp
    · split
      · simp [State.cfg]
      · have h := ih (s.releaseOne n l)
        simp only [State.releaseOne_line, State.releaseOne_commit, State.releaseOne_pool, State.releaseOne_rx,
          State.releaseOne_gaps, State.releaseOne_nextGapId, State.releaseOne_members, State.releaseOne_stn,
          State.releaseOne_port, State.releaseOne_counters, State.releaseOne_pins, State.releaseOne_freeReads,
          State.releaseOne_pending, State.releaseOne_cfg] at h
        simpa [State.releaseOne] using h

@[simp] theorem State.evaluateRelease_frame (s : State) :
    (s.evaluateRelease).line = s.line ∧ (s.evaluateRelease).commit = s.commit ∧ (s.evaluateRelease).pool = s.pool
      ∧ (s.evaluateRelease).rx = s.rx ∧ (s.evaluateRelease).gaps = s.gaps
      ∧ (s.evaluateRelease).nextGapId = s.nextGapId ∧ (s.evaluateRelease).members = s.members
      ∧ (s.evaluateRelease).stn = s.stn ∧ (s.evaluateRelease).port = s.port
      ∧ (s.evaluateRelease).counters = s.counters ∧ (s.evaluateRelease).pins = s.pins
      ∧ (s.evaluateRelease).freeReads = s.freeReads ∧ (s.evaluateRelease).pending = s.pending
      ∧ (s.evaluateRelease).cfg = s.cfg ∧ (s.evaluateRelease).send.outbound = s.send.outbound
      ∧ (s.evaluateRelease).send.transmitPoint = s.send.transmitPoint
      ∧ (s.evaluateRelease).send.postEnd = s.send.postEnd ∧ (s.evaluateRelease).send.tagCounter = s.send.tagCounter
      ∧ (s.evaluateRelease).send.lastCommitted = s.send.lastCommitted
      ∧ (s.evaluateRelease).send.catchUp = s.send.catchUp := by
  simp [State.evaluateRelease]

@[simp] theorem State.releaseAfterReplay_frame (s : State) :
    (s.releaseAfterReplay).line = s.line ∧ (s.releaseAfterReplay).commit = s.commit
      ∧ (s.releaseAfterReplay).pool = s.pool ∧ (s.releaseAfterReplay).rx = s.rx ∧ (s.releaseAfterReplay).gaps = s.gaps
      ∧ (s.releaseAfterReplay).nextGapId = s.nextGapId ∧ (s.releaseAfterReplay).members = s.members
      ∧ (s.releaseAfterReplay).stn = s.stn ∧ (s.releaseAfterReplay).port = s.port
      ∧ (s.releaseAfterReplay).counters = s.counters ∧ (s.releaseAfterReplay).pins = s.pins
      ∧ (s.releaseAfterReplay).freeReads = s.freeReads ∧ (s.releaseAfterReplay).pending = s.pending
      ∧ (s.releaseAfterReplay).cfg = s.cfg ∧ (s.releaseAfterReplay).send.outbound = s.send.outbound
      ∧ (s.releaseAfterReplay).send.transmitPoint = s.send.transmitPoint
      ∧ (s.releaseAfterReplay).send.postEnd = s.send.postEnd
      ∧ (s.releaseAfterReplay).send.tagCounter = s.send.tagCounter
      ∧ (s.releaseAfterReplay).send.lastCommitted = s.send.lastCommitted
      ∧ (s.releaseAfterReplay).send.catchUp = s.send.catchUp := by
  unfold State.releaseAfterReplay; split <;> simp [State.cfg]

@[simp] theorem State.retainHead_frame (s : State) (n : LineNo) :
    (s.retainHead n).line = s.line ∧ (s.retainHead n).commit = s.commit ∧ (s.retainHead n).pool = s.pool
      ∧ (s.retainHead n).rx = s.rx ∧ (s.retainHead n).gaps = s.gaps ∧ (s.retainHead n).nextGapId = s.nextGapId
      ∧ (s.retainHead n).members = s.members ∧ (s.retainHead n).stn = s.stn ∧ (s.retainHead n).port = s.port
      ∧ (s.retainHead n).counters = s.counters ∧ (s.retainHead n).pins = s.pins
      ∧ (s.retainHead n).freeReads = s.freeReads ∧ (s.retainHead n).pending = s.pending ∧ (s.retainHead n).cfg = s.cfg
      ∧ (s.retainHead n).send.releasePoint = s.send.releasePoint ∧ (s.retainHead n).send.postEnd = s.send.postEnd
      ∧ (s.retainHead n).send.tagCounter = s.send.tagCounter
      ∧ (s.retainHead n).send.lastReleased = s.send.lastReleased ∧ (s.retainHead n).send.room = s.send.room
      ∧ (s.retainHead n).send.catchUp = s.send.catchUp ∧ (s.retainHead n).send.releaseWaiting = s.send.releaseWaiting := by
  unfold State.retainHead; split <;> simp [State.cfg]

@[simp] theorem State.discardSend_frame (s : State) :
    (s.discardSend).line = s.line ∧ (s.discardSend).pool = s.pool ∧ (s.discardSend).rx = s.rx
      ∧ (s.discardSend).gaps = s.gaps ∧ (s.discardSend).nextGapId = s.nextGapId ∧ (s.discardSend).members = s.members
      ∧ (s.discardSend).stn = s.stn ∧ (s.discardSend).counters = s.counters ∧ (s.discardSend).pins = s.pins
      ∧ (s.discardSend).freeReads = s.freeReads ∧ (s.discardSend).pending = s.pending ∧ (s.discardSend).cfg = s.cfg
      ∧ (s.discardSend).send.tagCounter = s.send.tagCounter
      ∧ (s.discardSend).send.lastCommitted = s.send.lastCommitted
      ∧ (s.discardSend).send.lastReleased = s.send.lastReleased ∧ (s.discardSend).send.room = s.send.room
      ∧ (s.discardSend).port.link = s.port.link ∧ (s.discardSend).port.takeIncomplete = s.port.takeIncomplete
      ∧ (s.discardSend).port.result = s.port.result ∧ (s.discardSend).commit.provisional = s.commit.provisional
      ∧ (s.discardSend).commit.objections = s.commit.objections
      ∧ (s.discardSend).commit.congestedArmed = s.commit.congestedArmed
      ∧ (s.discardSend).commit.congested = s.commit.congested := by
  unfold State.discardSend; dsimp only; split <;> simp [State.cfg]

@[simp] theorem State.applyHorizon_frame (s : State) :
    (s.applyHorizon).line = s.line ∧ (s.applyHorizon).commit = s.commit ∧ (s.applyHorizon).pool = s.pool
      ∧ (s.applyHorizon).rx = s.rx ∧ (s.applyHorizon).gaps = s.gaps ∧ (s.applyHorizon).nextGapId = s.nextGapId
      ∧ (s.applyHorizon).stn = s.stn ∧ (s.applyHorizon).counters = s.counters ∧ (s.applyHorizon).pins = s.pins
      ∧ (s.applyHorizon).freeReads = s.freeReads ∧ (s.applyHorizon).pending = s.pending ∧ (s.applyHorizon).cfg = s.cfg
      ∧ (s.applyHorizon).send.outbound = s.send.outbound ∧ (s.applyHorizon).send.transmitPoint = s.send.transmitPoint
      ∧ (s.applyHorizon).send.postEnd = s.send.postEnd ∧ (s.applyHorizon).send.tagCounter = s.send.tagCounter
      ∧ (s.applyHorizon).send.lastCommitted = s.send.lastCommitted ∧ (s.applyHorizon).send.catchUp = s.send.catchUp
      ∧ (s.applyHorizon).port.link = s.port.link ∧ (s.applyHorizon).port.takeIncomplete = s.port.takeIncomplete
      ∧ (s.applyHorizon).port.result = s.port.result := by
  unfold State.applyHorizon; split <;> simp [State.cfg]

@[simp] theorem State.headerMember_frame (s : State) (h : Header) (leaving : Bool) :
    (s.headerMember h leaving).line = s.line ∧ (s.headerMember h leaving).commit = s.commit
      ∧ (s.headerMember h leaving).pool = s.pool ∧ (s.headerMember h leaving).rx = s.rx
      ∧ (s.headerMember h leaving).gaps = s.gaps ∧ (s.headerMember h leaving).nextGapId = s.nextGapId
      ∧ (s.headerMember h leaving).stn = s.stn ∧ (s.headerMember h leaving).counters = s.counters
      ∧ (s.headerMember h leaving).pins = s.pins ∧ (s.headerMember h leaving).freeReads = s.freeReads
      ∧ (s.headerMember h leaving).pending = s.pending ∧ (s.headerMember h leaving).cfg = s.cfg
      ∧ (s.headerMember h leaving).send.outbound = s.send.outbound
      ∧ (s.headerMember h leaving).send.transmitPoint = s.send.transmitPoint
      ∧ (s.headerMember h leaving).send.postEnd = s.send.postEnd
      ∧ (s.headerMember h leaving).send.tagCounter = s.send.tagCounter
      ∧ (s.headerMember h leaving).send.lastCommitted = s.send.lastCommitted
      ∧ (s.headerMember h leaving).send.catchUp = s.send.catchUp ∧ (s.headerMember h leaving).port.link = s.port.link
      ∧ (s.headerMember h leaving).port.takeIncomplete = s.port.takeIncomplete
      ∧ (s.headerMember h leaving).port.result = s.port.result := by
  unfold State.headerMember
  split_ifs <;> split <;> (try split_ifs) <;> simp [State.cfg]

@[simp] theorem State.takeWord_frame (s : State) (n : StationNo) (w : Word16) :
    (s.takeWord n w).line = s.line ∧ (s.takeWord n w).commit = s.commit ∧ (s.takeWord n w).pool = s.pool
      ∧ (s.takeWord n w).send = s.send ∧ (s.takeWord n w).rx = s.rx ∧ (s.takeWord n w).gaps = s.gaps
      ∧ (s.takeWord n w).nextGapId = s.nextGapId ∧ (s.takeWord n w).stn = s.stn
      ∧ (s.takeWord n w).counters = s.counters ∧ (s.takeWord n w).pins = s.pins
      ∧ (s.takeWord n w).freeReads = s.freeReads ∧ (s.takeWord n w).pending = s.pending ∧ (s.takeWord n w).cfg = s.cfg
      ∧ (s.takeWord n w).port.link = s.port.link ∧ (s.takeWord n w).port.takeIncomplete = s.port.takeIncomplete
      ∧ (s.takeWord n w).port.result = s.port.result := by
  unfold State.takeWord; split <;> (try split_ifs) <;> simp

/-! ### Rises of the count and the passages between states -/

@[simp] theorem State.handRange_frame (s : State) (a z : LineNo) :
    (s.handRange a z).line = s.line ∧ (s.handRange a z).commit = s.commit ∧ (s.handRange a z).send = s.send
      ∧ (s.handRange a z).members = s.members ∧ (s.handRange a z).stn = s.stn
      ∧ (s.handRange a z).counters = s.counters ∧ (s.handRange a z).pins = s.pins
      ∧ (s.handRange a z).freeReads = s.freeReads ∧ (s.handRange a z).pending = s.pending
      ∧ (s.handRange a z).cfg = s.cfg ∧ (s.handRange a z).rx.count = s.rx.count
      ∧ (s.handRange a z).pool.cells = s.pool.cells ∧ (s.handRange a z).pool.freeCells = s.pool.freeCells
      ∧ (s.handRange a z).pool.pendingBase = s.pool.pendingBase ∧ (s.handRange a z).port.link = s.port.link
      ∧ (s.handRange a z).port.takeIncomplete = s.port.takeIncomplete ∧ (s.handRange a z).port.result = s.port.result := by
  unfold State.handRange; split_ifs <;> simp [State.cfg]

@[simp] theorem State.raiseCount_frame (s : State) (n l : LineNo) :
    (s.raiseCount n l).line = s.line ∧ (s.raiseCount n l).stn = s.stn ∧ (s.raiseCount n l).counters = s.counters
      ∧ (s.raiseCount n l).pins = s.pins ∧ (s.raiseCount n l).pending = s.pending ∧ (s.raiseCount n l).cfg = s.cfg
      ∧ (s.raiseCount n l).send.outbound = s.send.outbound
      ∧ (s.raiseCount n l).send.transmitPoint = s.send.transmitPoint
      ∧ (s.raiseCount n l).send.postEnd = s.send.postEnd ∧ (s.raiseCount n l).send.tagCounter = s.send.tagCounter
      ∧ (s.raiseCount n l).send.lastCommitted = s.send.lastCommitted ∧ (s.raiseCount n l).port.link = s.port.link
      ∧ (s.raiseCount n l).port.takeIncomplete = s.port.takeIncomplete
      ∧ (s.raiseCount n l).port.result = s.port.result ∧ (s.raiseCount n l).pool.cells = s.pool.cells
      ∧ (s.raiseCount n l).pool.freeCells = s.pool.freeCells
      ∧ (s.raiseCount n l).pool.pendingBase = s.pool.pendingBase
      ∧ (s.raiseCount n l).commit.provisional = s.commit.provisional
      ∧ (s.raiseCount n l).commit.objections = s.commit.objections := by
  unfold State.raiseCount; dsimp only; split_ifs <;> simp [State.cfg]

@[simp] theorem State.setCount_frame (s : State) (n : LineNo) :
    (s.setCount n).line = s.line ∧ (s.setCount n).commit = s.commit ∧ (s.setCount n).pool = s.pool
      ∧ (s.setCount n).gaps = s.gaps ∧ (s.setCount n).nextGapId = s.nextGapId ∧ (s.setCount n).stn = s.stn
      ∧ (s.setCount n).counters = s.counters ∧ (s.setCount n).pins = s.pins ∧ (s.setCount n).freeReads = s.freeReads
      ∧ (s.setCount n).pending = s.pending ∧ (s.setCount n).cfg = s.cfg
      ∧ (s.setCount n).send.outbound = s.send.outbound ∧ (s.setCount n).send.transmitPoint = s.send.transmitPoint
      ∧ (s.setCount n).send.postEnd = s.send.postEnd ∧ (s.setCount n).send.tagCounter = s.send.tagCounter
      ∧ (s.setCount n).send.lastCommitted = s.send.lastCommitted ∧ (s.setCount n).send.catchUp = s.send.catchUp
      ∧ (s.setCount n).port.link = s.port.link ∧ (s.setCount n).port.takeIncomplete = s.port.takeIncomplete
      ∧ (s.setCount n).port.result = s.port.result ∧ (s.setCount n).rx.holdSet = s.rx.holdSet
      ∧ (s.setCount n).rx.queue = s.rx.queue ∧ (s.setCount n).rx.backlog = s.rx.backlog := by
  simp [State.setCount, State.cfg]

@[simp] theorem State.resync_frame (s : State) (r : BaseReason) (c : StateCause) (n : LineNo) :
    (s.resync r c n).nextGapId = s.nextGapId ∧ (s.resync r c n).counters = s.counters ∧ (s.resync r c n).pins = s.pins
      ∧ (s.resync r c n).freeReads = s.freeReads ∧ (s.resync r c n).pending = s.pending
      ∧ (s.resync r c n).line.id = s.line.id ∧ (s.resync r c n).line.rate = s.line.rate
      ∧ (s.resync r c n).line.ownFrame = s.line.ownFrame ∧ ((s.resync r c n).line.timing = .off ↔ s.line.timing = .off)
      ∧ (s.resync r c n).line.ready = s.line.ready ∧ (s.resync r c n).line.driving = s.line.driving
      ∧ (s.resync r c n).stn.config = s.stn.config ∧ (s.resync r c n).stn.word = s.stn.word
      ∧ (s.resync r c n).stn.listenTimer = s.stn.listenTimer ∧ (s.resync r c n).stn.leaveHeld = s.stn.leaveHeld
      ∧ (s.resync r c n).port.link = s.port.link ∧ (s.resync r c n).port.takeIncomplete = s.port.takeIncomplete
      ∧ (s.resync r c n).port.result = s.port.result ∧ (s.resync r c n).pool.cells = s.pool.cells
      ∧ (s.resync r c n).send.outbound = s.send.outbound ∧ (s.resync r c n).send.tagCounter = s.send.tagCounter
      ∧ (s.resync r c n).send.postEnd = s.send.postEnd ∧ (s.resync r c n).send.transmitPoint = s.send.transmitPoint := by
  simp [State.resync]

@[simp] theorem State.spanResync_frame (s : State) (n : LineNo) :
    (s.spanResync n).nextGapId = s.nextGapId ∧ (s.spanResync n).counters = s.counters ∧ (s.spanResync n).pins = s.pins
      ∧ (s.spanResync n).freeReads = s.freeReads ∧ (s.spanResync n).pending = s.pending
      ∧ (s.spanResync n).line.id = s.line.id ∧ (s.spanResync n).line.rate = s.line.rate
      ∧ (s.spanResync n).stn.config = s.stn.config ∧ (s.spanResync n).stn.word = s.stn.word
      ∧ (s.spanResync n).port.link = s.port.link ∧ (s.spanResync n).port.takeIncomplete = s.port.takeIncomplete
      ∧ (s.spanResync n).port.result = s.port.result ∧ (s.spanResync n).pool.cells = s.pool.cells
      ∧ (s.spanResync n).send.tagCounter = s.send.tagCounter ∧ (s.spanResync n).line.ownFrame = s.line.ownFrame
      ∧ (s.spanResync n).line.ready = s.line.ready ∧ ((s.spanResync n).line.timing = .off ↔ s.line.timing = .off) := by
  unfold State.spanResync; split_ifs <;> simp

@[simp] theorem State.adopt_frame (s : State) (n : LineNo) :
    (s.adopt n).commit = s.commit ∧ (s.adopt n).nextGapId = s.nextGapId ∧ (s.adopt n).counters = s.counters
      ∧ (s.adopt n).pins = s.pins ∧ (s.adopt n).freeReads = s.freeReads ∧ (s.adopt n).pending = s.pending
      ∧ (s.adopt n).line.id = s.line.id ∧ (s.adopt n).line.rate = s.line.rate ∧ (s.adopt n).stn.config = s.stn.config
      ∧ (s.adopt n).stn.word = s.stn.word ∧ (s.adopt n).port.link = s.port.link
      ∧ (s.adopt n).port.takeIncomplete = s.port.takeIncomplete ∧ (s.adopt n).port.result = s.port.result
      ∧ (s.adopt n).pool.cells = s.pool.cells ∧ (s.adopt n).send.tagCounter = s.send.tagCounter
      ∧ (s.adopt n).line.ownFrame = s.line.ownFrame ∧ (s.adopt n).line.window = s.line.window
      ∧ ((s.adopt n).line.timing = .off ↔ s.line.timing = .off) ∧ (s.adopt n).line.ready = s.line.ready
      ∧ (s.adopt n).line.driving = s.line.driving ∧ (s.adopt n).send.outbound = s.send.outbound
      ∧ (s.adopt n).pool.freeCells = s.pool.freeCells := by
  simp [State.adopt]

@[simp] theorem State.found_frame (s : State) :
    (s.found).commit = s.commit ∧ (s.found).nextGapId = s.nextGapId ∧ (s.found).counters = s.counters
      ∧ (s.found).pins = s.pins ∧ (s.found).freeReads = s.freeReads ∧ (s.found).pending = s.pending
      ∧ (s.found).line.id = s.line.id ∧ (s.found).line.rate = s.line.rate ∧ (s.found).stn.config = s.stn.config
      ∧ (s.found).stn.word = s.stn.word ∧ (s.found).port.link = s.port.link
      ∧ (s.found).port.takeIncomplete = s.port.takeIncomplete ∧ (s.found).port.result = s.port.result
      ∧ (s.found).pool.cells = s.pool.cells ∧ (s.found).send.tagCounter = s.send.tagCounter
      ∧ (s.found).line.ownFrame = s.line.ownFrame ∧ (s.found).line.window = s.line.window
      ∧ ((s.found).line.timing = .off ↔ s.line.timing = .off) ∧ (s.found).line.ready = s.line.ready ∧ (s.found).line.driving = s.line.driving
      ∧ (s.found).send.outbound = s.send.outbound ∧ (s.found).pool.freeCells = s.pool.freeCells := by
  simp [State.found]

@[simp] theorem State.include_frame (s : State) :
    (s.include).commit = s.commit ∧ (s.include).pool = s.pool ∧ (s.include).send = s.send ∧ (s.include).rx = s.rx
      ∧ (s.include).gaps = s.gaps ∧ (s.include).nextGapId = s.nextGapId ∧ (s.include).members = s.members
      ∧ (s.include).counters = s.counters ∧ (s.include).pins = s.pins ∧ (s.include).freeReads = s.freeReads
      ∧ (s.include).pending = s.pending ∧ (s.include).line.id = s.line.id ∧ (s.include).line.rate = s.line.rate
      ∧ (s.include).line.ownFrame = s.line.ownFrame ∧ (s.include).line.window = s.line.window
      ∧ ((s.include).line.timing = .off ↔ s.line.timing = .off) ∧ (s.include).line.ready = s.line.ready
      ∧ (s.include).line.driving = s.line.driving ∧ (s.include).stn.config = s.stn.config ∧ (s.include).stn.word = s.stn.word
      ∧ (s.include).port.link = s.port.link ∧ (s.include).port.takeIncomplete = s.port.takeIncomplete
      ∧ (s.include).port.result = s.port.result := by
  simp [State.include]

@[simp] theorem State.joinFailure_frame (s : State) :
    (s.joinFailure).line = s.line ∧ (s.joinFailure).send = s.send ∧ (s.joinFailure).nextGapId = s.nextGapId
      ∧ (s.joinFailure).members = s.members ∧ (s.joinFailure).counters = s.counters ∧ (s.joinFailure).pins = s.pins
      ∧ (s.joinFailure).freeReads = s.freeReads ∧ (s.joinFailure).pending = s.pending
      ∧ (s.joinFailure).stn.config = s.stn.config ∧ (s.joinFailure).stn.word = s.stn.word
      ∧ (s.joinFailure).stn.leaveHeld = s.stn.leaveHeld ∧ (s.joinFailure).port.link = s.port.link
      ∧ (s.joinFailure).port.takeIncomplete = s.port.takeIncomplete ∧ (s.joinFailure).port.result = s.port.result
      ∧ (s.joinFailure).pool.cells = s.pool.cells ∧ (s.joinFailure).rx.count = s.rx.count := by
  simp [State.joinFailure]

@[simp] theorem State.enterLeaving_frame (s : State) :
    (s.enterLeaving).line = s.line ∧ (s.enterLeaving).commit = s.commit ∧ (s.enterLeaving).pool = s.pool
      ∧ (s.enterLeaving).send = s.send ∧ (s.enterLeaving).rx = s.rx ∧ (s.enterLeaving).gaps = s.gaps
      ∧ (s.enterLeaving).nextGapId = s.nextGapId ∧ (s.enterLeaving).members = s.members
      ∧ (s.enterLeaving).counters = s.counters ∧ (s.enterLeaving).pins = s.pins
      ∧ (s.enterLeaving).freeReads = s.freeReads ∧ (s.enterLeaving).pending = s.pending
      ∧ (s.enterLeaving).stn.config = s.stn.config ∧ (s.enterLeaving).stn.word = s.stn.word
      ∧ (s.enterLeaving).stn.listenTimer = s.stn.listenTimer ∧ (s.enterLeaving).port.link = s.port.link
      ∧ (s.enterLeaving).port.takeIncomplete = s.port.takeIncomplete ∧ (s.enterLeaving).port.result = s.port.result := by
  simp [State.enterLeaving]

@[simp] theorem State.quit_frame (s : State) :
    (s.quit).nextGapId = s.nextGapId ∧ (s.quit).counters = s.counters ∧ (s.quit).pins = s.pins
      ∧ (s.quit).freeReads = s.freeReads ∧ (s.quit).pending = s.pending ∧ (s.quit).line.id = s.line.id
      ∧ (s.quit).line.rate = s.line.rate ∧ (s.quit).stn.config = s.stn.config ∧ (s.quit).stn.word = s.stn.word
      ∧ (s.quit).port.link = s.port.link ∧ (s.quit).port.takeIncomplete = s.port.takeIncomplete
      ∧ (s.quit).port.result = s.port.result ∧ (s.quit).pool.cells = s.pool.cells
      ∧ (s.quit).send.tagCounter = s.send.tagCounter ∧ (s.quit).stn.state = s.stn.state
      ∧ (s.quit).rx.count = s.rx.count ∧ (s.quit).line.rotationBase = s.line.rotationBase
      ∧ (s.quit).line.displaced = s.line.displaced := by
  simp [State.quit]

@[simp] theorem State.enterIdle_frame (s : State) (c : StateCause) :
    (s.enterIdle c).nextGapId = s.nextGapId ∧ (s.enterIdle c).counters = s.counters ∧ (s.enterIdle c).pins = s.pins
      ∧ (s.enterIdle c).freeReads = s.freeReads ∧ (s.enterIdle c).pending = s.pending
      ∧ (s.enterIdle c).line.id = s.line.id ∧ (s.enterIdle c).line.rate = s.line.rate
      ∧ (s.enterIdle c).stn.config = s.stn.config ∧ (s.enterIdle c).stn.word = s.stn.word
      ∧ (s.enterIdle c).port.link = s.port.link ∧ (s.enterIdle c).port.takeIncomplete = s.port.takeIncomplete
      ∧ (s.enterIdle c).port.result = s.port.result ∧ (s.enterIdle c).pool.cells = s.pool.cells
      ∧ (s.enterIdle c).send.tagCounter = s.send.tagCounter ∧ (s.enterIdle c).rx.count = s.rx.count := by
  simp [State.enterIdle]

@[simp] theorem State.halt_frame (s : State) :
    (s.halt).nextGapId = s.nextGapId ∧ (s.halt).counters = s.counters ∧ (s.halt).pins = s.pins
      ∧ (s.halt).freeReads = s.freeReads ∧ (s.halt).pending = s.pending ∧ (s.halt).line.id = s.line.id
      ∧ (s.halt).line.rate = s.line.rate ∧ (s.halt).stn.config = s.stn.config ∧ (s.halt).stn.word = s.stn.word
      ∧ (s.halt).port.link = s.port.link ∧ (s.halt).port.takeIncomplete = s.port.takeIncomplete
      ∧ (s.halt).port.result = s.port.result ∧ (s.halt).pool.cells = s.pool.cells
      ∧ (s.halt).send.tagCounter = s.send.tagCounter ∧ (s.halt).rx.count = s.rx.count
      ∧ (s.halt).line.rotationBase = s.line.rotationBase ∧ (s.halt).line.displaced = s.line.displaced := by
  simp [State.halt]

@[simp] theorem State.takeHeld_frame (s : State) :
    (s.takeHeld).line = s.line ∧ (s.takeHeld).send = s.send ∧ (s.takeHeld).nextGapId = s.nextGapId
      ∧ (s.takeHeld).members = s.members ∧ (s.takeHeld).counters = s.counters ∧ (s.takeHeld).pins = s.pins
      ∧ (s.takeHeld).freeReads = s.freeReads ∧ (s.takeHeld).pending = s.pending
      ∧ (s.takeHeld).stn.config = s.stn.config ∧ (s.takeHeld).stn.word = s.stn.word
      ∧ (s.takeHeld).port.link = s.port.link ∧ (s.takeHeld).port.takeIncomplete = s.port.takeIncomplete
      ∧ (s.takeHeld).port.result = s.port.result ∧ (s.takeHeld).pool.cells = s.pool.cells
      ∧ (s.takeHeld).rx.count = s.rx.count := by
  unfold State.takeHeld; split_ifs <;> simp

@[simp] theorem State.headerProcess_frame (s : State) (h : Header) (leaving : Bool) :
    (s.headerProcess h leaving).1.counters = s.counters ∧ (s.headerProcess h leaving).1.pins = s.pins
      ∧ (s.headerProcess h leaving).1.pending = s.pending ∧ (s.headerProcess h leaving).1.line.id = s.line.id
      ∧ (s.headerProcess h leaving).1.line.rate = s.line.rate
      ∧ (s.headerProcess h leaving).1.stn.config = s.stn.config ∧ (s.headerProcess h leaving).1.stn.word = s.stn.word
      ∧ (s.headerProcess h leaving).1.port.link = s.port.link
      ∧ (s.headerProcess h leaving).1.port.takeIncomplete = s.port.takeIncomplete
      ∧ (s.headerProcess h leaving).1.port.result = s.port.result
      ∧ (s.headerProcess h leaving).1.pool.cells = s.pool.cells
      ∧ (s.headerProcess h leaving).1.send.tagCounter = s.send.tagCounter
      ∧ (s.headerProcess h leaving).1.line.ownFrame = s.line.ownFrame
      ∧ (s.headerProcess h leaving).1.line.ready = s.line.ready
      ∧ ((s.headerProcess h leaving).1.line.timing = .off ↔ s.line.timing = .off) := by
  unfold State.headerProcess; dsimp only; split_ifs <;> simp

end Sys2Proof.Machine
end

