-- ==== Sys2Proof/Laws/Commands.lean ====
section
/-!
SUPPORT. How an event and a command answer, and what the commands' own operations leave as they were.
-/

namespace Sys2Proof.Machine

/-- An event at a station that is not held in reset: its effect, and then ATTN#. -/
theorem event_live {f : State → State} {s : State} (h : s.pins.resetLow = false) :
    event f s = .next (f s).settleAttn := by simp [event, h]

/-- An event at a station held in reset changes nothing. -/
theorem event_held {f : State → State} {s : State} (h : s.pins.resetLow = true) : event f s = .next s := by
  simp [event, h]

/-- A command in an open transaction with no command yet. -/
theorem command_awaiting {f : State → State} {s : State} (h : s.pins.resetLow = false) (ha : s.awaiting = true) :
    command f s = .next (f s).settleAttn := by simp [command, event, h, ha]

/-- The attention causes, and so ATTN#, depend on four fields only. -/
theorem State.attentionWanted_congr {s t : State} (hc : t.stn.config = s.stn.config) (hq : t.rx.queue = s.rx.queue)
    (hb : t.rx.backlog = s.rx.backlog) (hr : t.send.room = s.send.room) (hp : t.port.reports = s.port.reports) :
    t.attentionWanted = s.attentionWanted := by
  simp [State.attentionWanted, State.deliveryCause, State.backlogCause, State.roomCause, State.reportCause, State.cfg,
    hc, hq, hb, hr, hp]

/-- ATTN# already follows its causes: nothing changes. -/
theorem State.settleAttn_eq_self {s : State} (h : AttnFollows s) : s.settleAttn = s := by
  unfold State.settleAttn; rw [← h]

/-- After an event ATTN# follows its causes. -/
theorem AttnFollows_settleAttn (s : State) : AttnFollows s.settleAttn := rfl

/-! ### The controller port -/

@[simp] theorem State.setPhase_frame (s : State) (p : Phase) :
    (s.setPhase p).line = s.line ∧ (s.setPhase p).commit = s.commit ∧ (s.setPhase p).pool = s.pool
      ∧ (s.setPhase p).send = s.send ∧ (s.setPhase p).rx = s.rx ∧ (s.setPhase p).gaps = s.gaps
      ∧ (s.setPhase p).nextGapId = s.nextGapId ∧ (s.setPhase p).members = s.members ∧ (s.setPhase p).stn = s.stn
      ∧ (s.setPhase p).counters = s.counters ∧ (s.setPhase p).pins = s.pins ∧ (s.setPhase p).freeReads = s.freeReads
      ∧ (s.setPhase p).pending = s.pending ∧ (s.setPhase p).cfg = s.cfg ∧ (s.setPhase p).port.reports = s.port.reports
      ∧ (s.setPhase p).port.overflow = s.port.overflow ∧ (s.setPhase p).port.takeIncomplete = s.port.takeIncomplete
      ∧ (s.setPhase p).port.result = s.port.result := by
  unfold State.setPhase; split <;> simp [State.cfg]

@[simp] theorem State.respond_frame (s : State) (n : Nat) (r : List Byte) (e : RiseEffect) :
    (s.respond n r e).line = s.line ∧ (s.respond n r e).commit = s.commit ∧ (s.respond n r e).pool = s.pool
      ∧ (s.respond n r e).send = s.send ∧ (s.respond n r e).rx = s.rx ∧ (s.respond n r e).gaps = s.gaps
      ∧ (s.respond n r e).nextGapId = s.nextGapId ∧ (s.respond n r e).members = s.members
      ∧ (s.respond n r e).stn = s.stn ∧ (s.respond n r e).counters = s.counters ∧ (s.respond n r e).pins = s.pins
      ∧ (s.respond n r e).freeReads = s.freeReads ∧ (s.respond n r e).pending = s.pending
      ∧ (s.respond n r e).cfg = s.cfg ∧ (s.respond n r e).port.reports = s.port.reports
      ∧ (s.respond n r e).port.overflow = s.port.overflow
      ∧ (s.respond n r e).port.takeIncomplete = s.port.takeIncomplete ∧ (s.respond n r e).port.result = s.port.result := by
  simp [State.respond]

@[simp] theorem State.answer_frame (s : State) (n : Nat) (c : ResultCode) :
    (s.answer n c).line = s.line ∧ (s.answer n c).commit = s.commit ∧ (s.answer n c).pool = s.pool
      ∧ (s.answer n c).send = s.send ∧ (s.answer n c).rx = s.rx ∧ (s.answer n c).gaps = s.gaps
      ∧ (s.answer n c).nextGapId = s.nextGapId ∧ (s.answer n c).members = s.members ∧ (s.answer n c).stn = s.stn
      ∧ (s.answer n c).counters = s.counters ∧ (s.answer n c).pins = s.pins ∧ (s.answer n c).freeReads = s.freeReads
      ∧ (s.answer n c).pending = s.pending ∧ (s.answer n c).cfg = s.cfg ∧ (s.answer n c).port.reports = s.port.reports
      ∧ (s.answer n c).port.overflow = s.port.overflow ∧ (s.answer n c).port.takeIncomplete = s.port.takeIncomplete := by
  simp [State.answer]

@[simp] theorem State.answerPost_frame (s : State) (n : Nat) (c : ResultCode) (t : Option Tag) :
    (s.answerPost n c t).line = s.line ∧ (s.answerPost n c t).commit = s.commit ∧ (s.answerPost n c t).pool = s.pool
      ∧ (s.answerPost n c t).send = s.send ∧ (s.answerPost n c t).rx = s.rx ∧ (s.answerPost n c t).gaps = s.gaps
      ∧ (s.answerPost n c t).nextGapId = s.nextGapId ∧ (s.answerPost n c t).members = s.members
      ∧ (s.answerPost n c t).stn = s.stn ∧ (s.answerPost n c t).counters = s.counters
      ∧ (s.answerPost n c t).pins = s.pins ∧ (s.answerPost n c t).freeReads = s.freeReads
      ∧ (s.answerPost n c t).pending = s.pending ∧ (s.answerPost n c t).cfg = s.cfg
      ∧ (s.answerPost n c t).port.reports = s.port.reports ∧ (s.answerPost n c t).port.overflow = s.port.overflow
      ∧ (s.answerPost n c t).port.takeIncomplete = s.port.takeIncomplete := by
  simp [State.answerPost]

@[simp] theorem State.removeHead_frame (s : State) :
    (s.removeHead).line = s.line ∧ (s.removeHead).commit = s.commit ∧ (s.removeHead).send = s.send
      ∧ (s.removeHead).nextGapId = s.nextGapId ∧ (s.removeHead).members = s.members ∧ (s.removeHead).stn = s.stn
      ∧ (s.removeHead).port = s.port ∧ (s.removeHead).counters = s.counters ∧ (s.removeHead).pins = s.pins
      ∧ (s.removeHead).freeReads = s.freeReads ∧ (s.removeHead).pending = s.pending ∧ (s.removeHead).cfg = s.cfg
      ∧ (s.removeHead).rx.count = s.rx.count ∧ (s.removeHead).pool.cells = s.pool.cells := by
  unfold State.removeHead; split
  · simp
  · split <;> simp [State.cfg]

@[simp] theorem State.closeTransaction_frame (s : State) (n : Nat) (p : Phase) :
    (s.closeTransaction n p).line = s.line ∧ (s.closeTransaction n p).commit = s.commit
      ∧ (s.closeTransaction n p).send = s.send ∧ (s.closeTransaction n p).nextGapId = s.nextGapId
      ∧ (s.closeTransaction n p).members = s.members ∧ (s.closeTransaction n p).stn = s.stn
      ∧ (s.closeTransaction n p).counters = s.counters ∧ (s.closeTransaction n p).pins = s.pins
      ∧ (s.closeTransaction n p).freeReads = s.freeReads ∧ (s.closeTransaction n p).pending = s.pending
      ∧ (s.closeTransaction n p).cfg = s.cfg ∧ (s.closeTransaction n p).rx.count = s.rx.count
      ∧ (s.closeTransaction n p).pool.cells = s.pool.cells ∧ (s.closeTransaction n p).port.overflow = s.port.overflow
      ∧ (s.closeTransaction n p).port.link = s.port.link := by
  unfold State.closeTransaction; split <;> (try split) <;> simp [State.cfg]

/-! ### Own frames -/

@[simp] theorem State.reserveOwnRoom_frame (s : State) (c : Candidate) (f : Frame) :
    (s.reserveOwnRoom c f).line = s.line ∧ (s.reserveOwnRoom c f).send = s.send ∧ (s.reserveOwnRoom c f).rx = s.rx
      ∧ (s.reserveOwnRoom c f).gaps = s.gaps ∧ (s.reserveOwnRoom c f).nextGapId = s.nextGapId
      ∧ (s.reserveOwnRoom c f).members = s.members ∧ (s.reserveOwnRoom c f).stn = s.stn
      ∧ (s.reserveOwnRoom c f).port = s.port ∧ (s.reserveOwnRoom c f).counters = s.counters
      ∧ (s.reserveOwnRoom c f).pins = s.pins ∧ (s.reserveOwnRoom c f).freeReads = s.freeReads
      ∧ (s.reserveOwnRoom c f).pending = s.pending ∧ (s.reserveOwnRoom c f).cfg = s.cfg
      ∧ (s.reserveOwnRoom c f).pool.pendingBase = s.pool.pendingBase
      ∧ (s.reserveOwnRoom c f).commit.objections = s.commit.objections
      ∧ (s.reserveOwnRoom c f).commit.congestedArmed = s.commit.congestedArmed
      ∧ (s.reserveOwnRoom c f).commit.congested = s.commit.congested
      ∧ (s.reserveOwnRoom c f).commit.catchingUp = s.commit.catchingUp := by
  unfold State.reserveOwnRoom; split
  · split <;> simp [State.cfg]
  · simp

@[simp] theorem State.startFrame_frame (s : State) (c : Candidate) (f : Frame) :
    (s.startFrame c f).send = s.send ∧ (s.startFrame c f).rx = s.rx ∧ (s.startFrame c f).gaps = s.gaps
      ∧ (s.startFrame c f).nextGapId = s.nextGapId ∧ (s.startFrame c f).members = s.members
      ∧ (s.startFrame c f).stn = s.stn ∧ (s.startFrame c f).port = s.port ∧ (s.startFrame c f).counters = s.counters
      ∧ (s.startFrame c f).pins = s.pins ∧ (s.startFrame c f).freeReads = s.freeReads
      ∧ (s.startFrame c f).pending = s.pending ∧ (s.startFrame c f).cfg = s.cfg
      ∧ (s.startFrame c f).pool.pendingBase = s.pool.pendingBase
      ∧ (s.startFrame c f).commit.objections = s.commit.objections
      ∧ (s.startFrame c f).commit.congestedArmed = s.commit.congestedArmed
      ∧ (s.startFrame c f).commit.congested = s.commit.congested
      ∧ (s.startFrame c f).commit.catchingUp = s.commit.catchingUp ∧ (s.startFrame c f).line.id = s.line.id
      ∧ (s.startFrame c f).line.rate = s.line.rate ∧ (s.startFrame c f).line.rotationBase = s.line.rotationBase
      ∧ (s.startFrame c f).line.displaced = s.line.displaced ∧ (s.startFrame c f).line.ready = s.line.ready
      ∧ (s.startFrame c f).line.window = s.line.window := by
  simp [State.startFrame, State.cfg]

@[simp] theorem State.countCollision_frame (s : State) (f : OwnFrame) :
    (s.countCollision f).commit = s.commit ∧ (s.countCollision f).pool = s.pool ∧ (s.countCollision f).send = s.send
      ∧ (s.countCollision f).rx = s.rx ∧ (s.countCollision f).gaps = s.gaps
      ∧ (s.countCollision f).nextGapId = s.nextGapId ∧ (s.countCollision f).members = s.members
      ∧ (s.countCollision f).stn = s.stn ∧ (s.countCollision f).pins = s.pins
      ∧ (s.countCollision f).freeReads = s.freeReads ∧ (s.countCollision f).pending = s.pending
      ∧ (s.countCollision f).cfg = s.cfg ∧ (s.countCollision f).line.id = s.line.id
      ∧ (s.countCollision f).line.rate = s.line.rate ∧ (s.countCollision f).line.rotationBase = s.line.rotationBase
      ∧ (s.countCollision f).line.displaced = s.line.displaced ∧ (s.countCollision f).line.window = s.line.window
      ∧ (s.countCollision f).port.link = s.port.link
      ∧ (s.countCollision f).port.takeIncomplete = s.port.takeIncomplete
      ∧ (s.countCollision f).port.result = s.port.result := by
  unfold State.countCollision; dsimp only; split <;> simp [State.cfg]

@[simp] theorem State.afterCollision_frame (s : State) (c : Candidate) :
    (s.afterCollision c).line = s.line ∧ (s.afterCollision c).nextGapId = s.nextGapId
      ∧ (s.afterCollision c).members = s.members ∧ (s.afterCollision c).stn = s.stn
      ∧ (s.afterCollision c).port = s.port ∧ (s.afterCollision c).counters = s.counters
      ∧ (s.afterCollision c).pins = s.pins ∧ (s.afterCollision c).freeReads = s.freeReads
      ∧ (s.afterCollision c).pending = s.pending ∧ (s.afterCollision c).cfg = s.cfg
      ∧ (s.afterCollision c).rx.count = s.rx.count ∧ (s.afterCollision c).pool.cells = s.pool.cells
      ∧ (s.afterCollision c).commit.objections = s.commit.objections
      ∧ (s.afterCollision c).commit.congestedArmed = s.commit.congestedArmed
      ∧ (s.afterCollision c).commit.congested = s.commit.congested
      ∧ (s.afterCollision c).commit.catchingUp = s.commit.catchingUp
      ∧ (s.afterCollision c).send.outbound = s.send.outbound
      ∧ (s.afterCollision c).send.transmitPoint = s.send.transmitPoint
      ∧ (s.afterCollision c).send.postEnd = s.send.postEnd ∧ (s.afterCollision c).send.tagCounter = s.send.tagCounter
      ∧ (s.afterCollision c).send.lastCommitted = s.send.lastCommitted
      ∧ (s.afterCollision c).send.catchUp = s.send.catchUp := by
  unfold State.afterCollision; split <;> simp

/-! ### Frames and windows -/

@[simp] theorem State.riseAndAdvance_frame (s : State) (n : LineNo) :
    (s.riseAndAdvance n).line = s.line ∧ (s.riseAndAdvance n).stn = s.stn ∧ (s.riseAndAdvance n).counters = s.counters
      ∧ (s.riseAndAdvance n).pins = s.pins ∧ (s.riseAndAdvance n).pending = s.pending
      ∧ (s.riseAndAdvance n).cfg = s.cfg ∧ (s.riseAndAdvance n).pool.cells = s.pool.cells
      ∧ (s.riseAndAdvance n).pool.freeCells = s.pool.freeCells ∧ (s.riseAndAdvance n).port.link = s.port.link
      ∧ (s.riseAndAdvance n).port.result = s.port.result
      ∧ (s.riseAndAdvance n).port.takeIncomplete = s.port.takeIncomplete := by
  unfold State.riseAndAdvance; split <;> simp

@[simp] theorem State.takeCommitted_frame (s : State) (n : LineNo) :
    (s.takeCommitted n).line = s.line ∧ (s.takeCommitted n).stn = s.stn ∧ (s.takeCommitted n).counters = s.counters
      ∧ (s.takeCommitted n).pins = s.pins ∧ (s.takeCommitted n).pending = s.pending ∧ (s.takeCommitted n).cfg = s.cfg
      ∧ (s.takeCommitted n).pool.cells = s.pool.cells ∧ (s.takeCommitted n).pool.freeCells = s.pool.freeCells
      ∧ (s.takeCommitted n).port.link = s.port.link ∧ (s.takeCommitted n).port.result = s.port.result
      ∧ (s.takeCommitted n).port.takeIncomplete = s.port.takeIncomplete := by
  unfold State.takeCommitted; split <;> simp [State.cfg]

@[simp] theorem State.releaseIfAlone_frame (s : State) :
    (s.releaseIfAlone).line = s.line ∧ (s.releaseIfAlone).commit = s.commit ∧ (s.releaseIfAlone).pool = s.pool
      ∧ (s.releaseIfAlone).rx = s.rx ∧ (s.releaseIfAlone).gaps = s.gaps ∧ (s.releaseIfAlone).nextGapId = s.nextGapId
      ∧ (s.releaseIfAlone).members = s.members ∧ (s.releaseIfAlone).stn = s.stn ∧ (s.releaseIfAlone).port = s.port
      ∧ (s.releaseIfAlone).counters = s.counters ∧ (s.releaseIfAlone).pins = s.pins
      ∧ (s.releaseIfAlone).freeReads = s.freeReads ∧ (s.releaseIfAlone).pending = s.pending
      ∧ (s.releaseIfAlone).cfg = s.cfg ∧ (s.releaseIfAlone).send.outbound = s.send.outbound
      ∧ (s.releaseIfAlone).send.transmitPoint = s.send.transmitPoint
      ∧ (s.releaseIfAlone).send.postEnd = s.send.postEnd ∧ (s.releaseIfAlone).send.tagCounter = s.send.tagCounter
      ∧ (s.releaseIfAlone).send.lastCommitted = s.send.lastCommitted
      ∧ (s.releaseIfAlone).send.catchUp = s.send.catchUp := by
  unfold State.releaseIfAlone; split <;> simp

end Sys2Proof.Machine
end

