-- ==== Sys2Proof/Laws/Delivery.lean ====
section
/-!
SUPPORT. The delivery advance and what runs it: where it does nothing, and that it only appends to the delivery queue.
-/

namespace Sys2Proof.Machine

/-- Nothing after the settled point can be delivered: a step of the advance is refused. -/
theorem State.advanceStep_of_nothing {s : State} (h : NothingToAdvance s) : s.advanceStep = none := by
  obtain ⟨h1, h2, h3, h4⟩ := h
  have h5 : s.rx.holdSet.find? (·.number == s.rx.settled + 1) = none := by
    rw [List.find?_eq_none]; intro x hx; simpa using h2 x hx
  unfold State.advanceStep
  simp only [h1, h5, h3, h4]; rfl

/-- While a BASE record waits the advance does not run (R68). -/
theorem State.advanceStep_of_pendingBase {s : State} (h : s.pool.pendingBase ≠ none) : s.advanceStep = none := by
  unfold State.advanceStep; simp [Option.isSome_iff_ne_none.mpr h]

theorem State.advance_of_none {s : State} (h : s.advanceStep = none) : s.advance = s := by
  unfold State.advance Config.spanLimit State.advanceRun; rw [h]

theorem State.advance_of_nothing {s : State} (h : NothingToAdvance s) : s.advance = s :=
  State.advance_of_none (State.advanceStep_of_nothing h)

theorem AdvanceRests.of_nothing {s : State} (h : NothingToAdvance s) : AdvanceRests s := Or.inr ⟨h.2.1, h.2.2.1, Or.inl h.2.2.2⟩

/-- Where the advance rests it changes nothing. -/
theorem State.advance_of_rests {s : State} (h : AdvanceRests s) : s.advance = s := by
  apply State.advance_of_none
  rcases h with h | ⟨h1, h2, h3⟩
  · exact State.advanceStep_of_pendingBase h
  · have hf : s.rx.holdSet.find? (·.number == s.rx.settled + 1) = none := by
      rw [List.find?_eq_none]; intro x hx; simpa using h1 x hx
    unfold State.advanceStep
    dsimp only
    rw [hf, h2]
    dsimp only
    rcases h3 with h3 | h3
    · rw [h3]; simp
    · rw [h3]; simp

/-- An empty receive side has nothing to advance over. -/
theorem State.advanceStep_of_empty {s : State} (h1 : s.rx.holdSet = []) (h2 : s.rx.known = 0) (h3 : s.gaps = []) :
    s.advanceStep = none := by
  cases h : s.pool.pendingBase with
  | some b => exact State.advanceStep_of_pendingBase (by simp [h])
  | none =>
    apply State.advanceStep_of_nothing
    refine ⟨h, by simp [h1], ?_, by simp [State.lostAt, h3]⟩
    simp [State.knownAt, knownIn, h2]

theorem State.advance_of_empty {s : State} (h1 : s.rx.holdSet = []) (h2 : s.rx.known = 0) (h3 : s.gaps = []) :
    s.advance = s := State.advance_of_none (State.advanceStep_of_empty h1 h2 h3)

/-- Without a waiting BASE record, nothing is handed on but to the advance. -/
theorem State.handOn_of_noBase {s : State} (h : s.pool.pendingBase = none) : s.handOn = s.advance := by
  unfold State.handOn State.servePendingBase; simp [h]

theorem State.handOn_of_nothing {s : State} (h : NothingToAdvance s) : s.handOn = s := by
  rw [State.handOn_of_noBase h.1, State.advance_of_nothing h]

/-- With an empty receive side the hand-on serves the pending-BASE register alone. -/
theorem State.handOn_of_empty {s : State} (h1 : s.rx.holdSet = []) (h2 : s.rx.known = 0) (h3 : s.gaps = []) :
    s.handOn = s.servePendingBase := by
  unfold State.handOn
  exact State.advance_of_empty (by simp [h1]) (by simp [h2]) (by simp [h3])

/-- With no descriptor free the pending-BASE register waits on. -/
theorem State.servePendingBase_of_noDesc {s : State} (h : s.pool.freeDescs = []) : s.servePendingBase = s := by
  unfold State.servePendingBase; simp [h]

theorem State.servePendingBase_of_none {s : State} (h : s.pool.pendingBase = none) : s.servePendingBase = s := by
  unfold State.servePendingBase; simp [h]

/-- The advance appends to the delivery queue and takes nothing from it. -/
theorem State.advanceRun_queue (fuel : Nat) (s : State) :
    ∃ more, (State.advanceRun fuel s).rx.queue = s.rx.queue ++ more := by
  induction fuel generalizing s with
  | zero => exact ⟨[], by simp [State.advanceRun]⟩
  | succ f ih =>
    unfold State.advanceRun
    split
    · rename_i t ht
      obtain ⟨m, hm⟩ := ih t
      have h1 : ∃ m, t.rx.queue = s.rx.queue ++ m := by
        obtain ⟨-, h | h | h⟩ := State.advanceStep_cases ht
        · obtain ⟨n, -, rfl⟩ := h; exact ⟨[.notice n], by simp⟩
        · obtain ⟨-, -, rfl⟩ := h; exact ⟨[], by simp⟩
        · obtain ⟨-, -, -, d, ds, -, rfl⟩ := h; exact ⟨_, rfl⟩
      obtain ⟨m', hm'⟩ := h1
      exact ⟨m' ++ m, by rw [hm, hm', List.append_assoc]⟩
    · exact ⟨[], by simp⟩

theorem State.advance_queue (s : State) : ∃ more, s.advance.rx.queue = s.rx.queue ++ more :=
  State.advanceRun_queue _ s

theorem State.servePendingBase_queue (s : State) : ∃ more, s.servePendingBase.rx.queue = s.rx.queue ++ more := by
  unfold State.servePendingBase; split
  · rename_i b d ds _ _; exact ⟨[.base b d], by simp⟩
  · exact ⟨[], by simp⟩

theorem State.handOn_queue (s : State) : ∃ more, s.handOn.rx.queue = s.rx.queue ++ more := by
  obtain ⟨a, ha⟩ := State.servePendingBase_queue s
  obtain ⟨b, hb⟩ := State.advance_queue s.servePendingBase
  exact ⟨a ++ b, by unfold State.handOn; rw [hb, ha, List.append_assoc]⟩

/-! ### The backlog event flag -/

/-- Where nothing is appended the flag stands (R107). -/
theorem BacklogFollows_of_same {s t : State} (h1 : t.rx.queue = s.rx.queue) (h2 : t.rx.backlog = s.rx.backlog) :
    BacklogFollows s t s.rx.queue.length := by
  unfold BacklogFollows
  rw [h1, h2]
  have : (decide (s.rx.queue.length ≤ s.cfg.backlogLimit) && decide (s.cfg.backlogLimit < s.rx.queue.length)) = false := by
    rw [Bool.and_eq_false_iff, decide_eq_false_iff_not, decide_eq_false_iff_not]; omega
  rw [this, Bool.or_false]

/-- One append (R107). -/
theorem BacklogFollows_append (s : State) (r : DeliveryRecord) : BacklogFollows s (s.appendRecord r) s.rx.queue.length := by
  unfold BacklogFollows
  simp [State.backlogAfter, crosses]

/-- The flag depends on the queue's length, the limit and how it stood. -/
theorem BacklogFollows.congr {s s' t t' : State} {l : Nat} (h : BacklogFollows s t l) (h1 : s'.rx.backlog = s.rx.backlog)
    (h2 : s'.cfg = s.cfg) (h3 : t'.rx.backlog = t.rx.backlog) (h4 : t'.rx.queue = t.rx.queue) : BacklogFollows s' t' l := by
  unfold BacklogFollows at *
  rw [h1, h2, h3, h4]; exact h

/-- A run of appends raises the flag by at most one crossing (R107). -/
theorem BacklogFollows.trans {s t u : State} {l : Nat} (h : BacklogFollows s t l) (g : BacklogFollows t u t.rx.queue.length)
    (hc : t.cfg = s.cfg) (h1 : l ≤ t.rx.queue.length) (h2 : t.rx.queue.length ≤ u.rx.queue.length) :
    BacklogFollows s u l := by
  unfold BacklogFollows at *
  rw [g, h, hc, Bool.or_assoc, Bool.eq_iff_iff]
  simp only [Bool.or_eq_true, Bool.and_eq_true, decide_eq_true_iff]
  constructor
  · rintro (h | h | h)
    · exact Or.inl h
    · exact Or.inr ⟨h.1, by omega⟩
    · exact Or.inr ⟨by omega, h.2⟩
  · rintro (h | h)
    · exact Or.inl h
    · by_cases hx : t.rx.queue.length ≤ s.cfg.backlogLimit
      · exact Or.inr (Or.inr ⟨hx, h.2⟩)
      · exact Or.inr (Or.inl ⟨h.1, by omega⟩)

/-- Where a BASE record goes with an empty receive side (R68, R104). -/
theorem State.emitBase_of_empty {s : State} (h1 : s.rx.holdSet = []) (h2 : s.rx.known = 0) (h3 : s.gaps = [])
    (r : BaseReason) (n : LineNo) : s.emitBase r n
      = match s.pool.freeDescs with
        | d :: ds => { s with pool := { s.pool with freeDescs := ds } }.appendRecord
            (.base { reason := r, number := n, superseded := false } d)
        | [] => { s with pool := { s.pool with
            pendingBase := some { reason := r, number := n, superseded := s.pool.pendingBase.isSome } } } := by
  unfold State.emitBase
  split <;> rename_i h
  · simp only [h]
    exact State.advance_of_empty (by simp [h1]) (by simp [h2]) (by simp [h3])
  · simp only [h]

end Sys2Proof.Machine
end

