-- ==== Sys2Proof/Laws/Order.lean ====
section
/-!
SUPPORT. Positions measured from the settled point: the arrival map, the coverage of gap entries, and their moves.
-/

namespace Sys2Proof.Machine

/-- How far `n` lies after `a`. -/
theorem State.ahead_eq (s : State) (n : LineNo) : s.ahead n = (n - s.rx.settled).toNat := rfl

theorem ahead_lt (s : State) (n : LineNo) : s.ahead n < 65536 := (n - s.rx.settled).isLt

theorem ahead_congr {s t : State} (h : t.rx.settled = s.rx.settled) (n : LineNo) : t.ahead n = s.ahead n := by
  unfold State.ahead; rw [h]

@[simp] theorem ahead_settled (s : State) : s.ahead s.rx.settled = 0 := by simp [State.ahead]

/-- Positions at the same distance are the same. -/
theorem ahead_inj {s : State} {a b : LineNo} (h : s.ahead a = s.ahead b) : a = b := by
  unfold State.ahead at h
  have h1 := BitVec.eq_of_toNat_eq h
  have h2 : a - s.rx.settled + s.rx.settled = b - s.rx.settled + s.rx.settled := by rw [h1]
  simpa using h2

theorem ahead_add (s : State) (a : LineNo) (k : Nat) (h : s.ahead a + k < 65536) :
    s.ahead (a + BitVec.ofNat 16 k) = s.ahead a + k := by
  unfold State.ahead at *
  have h1 : a + BitVec.ofNat 16 k - s.rx.settled = (a - s.rx.settled) + BitVec.ofNat 16 k := by ring
  rw [h1, BitVec.toNat_add, BitVec.toNat_ofNat]; omega

theorem ahead_succ (s : State) (a : LineNo) (h : s.ahead a + 1 < 65536) : s.ahead (a + 1) = s.ahead a + 1 :=
  ahead_add s a 1 h

@[simp] theorem ahead_next (s : State) : s.ahead (s.rx.settled + 1) = 1 := by
  have := ahead_succ s s.rx.settled (by simp); simpa using this

/-- The difference of two positions, the first not after the second. -/
theorem sub_toNat_of_ahead_le {s : State} {a b : LineNo} (h : s.ahead a ≤ s.ahead b) :
    (b - a).toNat = s.ahead b - s.ahead a := by
  unfold State.ahead at *
  have h1 : b - a = (b - s.rx.settled) - (a - s.rx.settled) := by ring
  rw [h1, BitVec.toNat_sub_of_le (by simpa [BitVec.le_def] using h)]

/-- The difference of two positions, the first after the second. -/
theorem sub_toNat_of_ahead_lt {s : State} {a b : LineNo} (h : s.ahead b < s.ahead a) :
    (b - a).toNat = 65536 - (s.ahead a - s.ahead b) := by
  have h1 := sub_toNat_of_ahead_le (s := s) (a := b) (b := a) (Nat.le_of_lt h)
  have h2 : b - a = -(a - b) := by ring
  have h3 := ahead_lt s a
  rw [h2, BitVec.toNat_neg, h1]; omega

/-- A known position, by its distance. -/
theorem State.knownAt_iff (s : State) (n : LineNo) :
    s.knownAt n = true ↔ 1 ≤ s.ahead n ∧ s.rx.known.getLsbD (s.ahead n - 1) = true := by
  unfold State.knownAt knownIn State.ahead; simp

theorem knownAt_congr {s t : State} (h1 : t.rx.settled = s.rx.settled) (h2 : t.rx.known = s.rx.known) (n : LineNo) :
    t.knownAt n = s.knownAt n := by
  unfold State.knownAt; rw [h1, h2]

theorem lostAt_congr {s t : State} (h : t.gaps = s.gaps) (n : LineNo) : t.lostAt n = s.lostAt n := by
  unfold State.lostAt; rw [h]

theorem missing_congr {s t : State} (h1 : t.rx.settled = s.rx.settled) (h2 : t.rx.known = s.rx.known) (e : GapEntry) :
    t.missing e = s.missing e := by
  unfold State.missing; rw [h1, h2]

/-- A bit of the map with a position set. -/
theorem markKnown_getLsbD (settled n : LineNo) (known : BitVec 256) (i : Nat) :
    (markKnown settled known n).getLsbD i
      = (known.getLsbD i || (decide (n ≠ settled) && decide (i < 256) && decide (i = (n - settled).toNat - 1))) := by
  unfold markKnown
  split
  · rename_i h; simp [h]
  · rename_i h
    rw [BitVec.getLsbD_or, BitVec.getLsbD_shiftLeft, BitVec.getLsbD_one]
    congr 1
    rw [Bool.eq_iff_iff]
    simp [h]; omega

/-- The positions known once `n`, one of the 256 after the settled point, has become known (R93). -/
theorem State.knownAt_makeKnown {s : State} {n : LineNo} (h1 : 1 ≤ s.ahead n) (h2 : s.ahead n ≤ 256) (m : LineNo) :
    (s.makeKnown n).knownAt m = (s.knownAt m || decide (m = n)) := by
  rw [Bool.eq_iff_iff, State.knownAt_iff, Bool.or_eq_true, State.knownAt_iff, decide_eq_true_iff]
  have e1 : (s.makeKnown n).ahead m = s.ahead m := ahead_congr (by simp) m
  have hn : n ≠ s.rx.settled := by rintro rfl; simp at h1
  rw [e1, State.makeKnown_rx, markKnown_getLsbD, ← State.ahead_eq]
  have hm : m = n ↔ s.ahead m = s.ahead n := ⟨by rintro rfl; rfl, ahead_inj⟩
  rw [hm]
  simp only [Bool.or_eq_true, Bool.and_eq_true, decide_eq_true_eq]
  constructor
  · rintro ⟨h3, h4 | ⟨-, h5⟩⟩
    · exact Or.inl ⟨h3, h4⟩
    · exact Or.inr (by omega)
  · rintro (⟨h3, h4⟩ | h3)
    · exact ⟨h3, Or.inl h4⟩
    · exact ⟨by omega, Or.inr ⟨⟨hn, by omega⟩, by omega⟩⟩

/-- What an entry covers, by distances (R112). -/
theorem GapEntry.covers_iff {s : State} {e : GapEntry} (h : s.ahead e.first ≤ s.ahead e.last) (n : LineNo) :
    e.covers n = true ↔ s.ahead e.first ≤ s.ahead n ∧ s.ahead n ≤ s.ahead e.last := by
  unfold GapEntry.covers
  rw [decide_eq_true_iff, sub_toNat_of_ahead_le h]
  have h1 := ahead_lt s e.last
  by_cases h2 : s.ahead e.first ≤ s.ahead n
  · rw [sub_toNat_of_ahead_le h2]; omega
  · rw [sub_toNat_of_ahead_lt (s := s) (by omega)]; omega

/-- Positions of an entry, by distances. -/
theorem GapEntry.mem_positions {s : State} {e : GapEntry} (h : s.ahead e.first ≤ s.ahead e.last) (n : LineNo) :
    n ∈ e.positions ↔ s.ahead e.first ≤ s.ahead n ∧ s.ahead n ≤ s.ahead e.last := by
  unfold GapEntry.positions
  rw [sub_toNat_of_ahead_le h]
  have h1 := ahead_lt s e.last
  simp only [List.mem_map, List.mem_range]
  constructor
  · rintro ⟨i, hi, rfl⟩
    rw [ahead_add s e.first i (by omega)]; omega
  · rintro ⟨h2, h3⟩
    refine ⟨s.ahead n - s.ahead e.first, by omega, ?_⟩
    apply ahead_inj (s := s)
    rw [ahead_add s e.first _ (by omega)]; omega

/-- The missing positions of an entry that lies within 256 after the settled point (R112). -/
theorem State.mem_missing {s : State} {e : GapEntry} (h1 : 1 ≤ s.ahead e.first) (h2 : s.ahead e.first ≤ s.ahead e.last)
    (h3 : s.ahead e.last ≤ 256) (n : LineNo) :
    n ∈ s.missing e ↔ s.ahead e.first ≤ s.ahead n ∧ s.ahead n ≤ s.ahead e.last ∧ s.knownAt n = false := by
  unfold State.missing missingIn
  rw [List.mem_filter, GapEntry.mem_positions h2]
  have hk : knownIn s.rx.settled s.rx.known n = s.knownAt n := rfl
  rw [hk]
  simp only [Bool.and_eq_true, Bool.not_eq_true', and_assoc]
  refine and_congr_right fun h4 => and_congr_right fun h5 => ?_
  rw [and_iff_right_iff_imp]
  intro _
  unfold follows
  rw [Bool.and_eq_true, decide_eq_true_iff, decide_eq_true_iff, ← State.ahead_eq]
  omega

/-- The next position is held: its notice is delivered (R101). -/
theorem State.advanceStep_of_held {s : State} {n : RxNotice} (h1 : s.pool.pendingBase = none)
    (h2 : s.rx.holdSet.find? (·.number == s.rx.settled + 1) = some n) :
    s.advanceStep = some (({ s with rx := { s.rx with
      holdSet := s.rx.holdSet.eraseP (·.number == s.rx.settled + 1) } }.appendRecord (.notice n)).settle
        (s.rx.settled + 1)) := by
  unfold State.advanceStep; simp only [h1, h2]; rfl

/-- The next position is known and not held: it is only settled (R101). -/
theorem State.advanceStep_of_known {s : State} (h1 : s.pool.pendingBase = none)
    (h2 : s.rx.holdSet.find? (·.number == s.rx.settled + 1) = none) (h3 : s.knownAt (s.rx.settled + 1) = true) :
    s.advanceStep = some (s.settle (s.rx.settled + 1)) := by
  unfold State.advanceStep; simp only [h1, h2, h3]; rfl

/-- The next position is unknown and LOST, and a descriptor is free: one LOST record (R102). -/
theorem State.advanceStep_of_lost {s : State} {d : Nat} {ds : List Nat} (h1 : s.pool.pendingBase = none)
    (h2 : s.rx.holdSet.find? (·.number == s.rx.settled + 1) = none) (h3 : s.knownAt (s.rx.settled + 1) = false)
    (h4 : s.lostAt (s.rx.settled + 1) = true) (h5 : s.pool.freeDescs = d :: ds) :
    s.advanceStep = some (({ s with pool := { s.pool with freeDescs := ds } }.appendRecord
      (.lost (s.rx.settled + 1) (s.lostRunEnd Config.spanLimit (s.rx.settled + 1)) d)).settle
        (s.lostRunEnd Config.spanLimit (s.rx.settled + 1))) := by
  unfold State.advanceStep; simp only [h1, h2, h3, h4, h5]; rfl

/-- The next position is unknown and LOST, and no descriptor is free: the run stops (R102). -/
theorem State.advanceStep_of_lost_noDesc {s : State} (h2 : s.rx.holdSet.find? (·.number == s.rx.settled + 1) = none)
    (h3 : s.knownAt (s.rx.settled + 1) = false) (h5 : s.pool.freeDescs = []) : s.advanceStep = none := by
  cases h : s.pool.pendingBase with
  | some b => exact State.advanceStep_of_pendingBase (by simp [h])
  | none =>
    unfold State.advanceStep; simp [h, h5, show s.knownAt (s.rx.settled + 1#16) = false from h3,
      show s.rx.holdSet.find? (·.number == s.rx.settled + 1#16) = none from h2]

/-- A run stops where its first step is refused. -/
theorem State.advanceRun_of_none {s : State} (h : s.advanceStep = none) (fuel : Nat) : State.advanceRun fuel s = s := by
  cases fuel with
  | zero => rfl
  | succ f => unfold State.advanceRun; rw [h]

/-- One step and nothing after it. -/
theorem State.advance_of_one {s t : State} (h : s.advanceStep = some t) (h2 : t.advanceStep = none) : s.advance = t := by
  unfold State.advance Config.spanLimit State.advanceRun
  rw [h]; exact State.advanceRun_of_none h2 _

end Sys2Proof.Machine
end

