-- ==== Sys2Proof/Laws/Release.lean ====
section
/-!
SUPPORT. Release (R78 to R82): an evaluation as one update of the send block.
-/

namespace Sys2Proof.Machine

theorem State.releaseDue_congr {s t : State} (h : t.members = s.members) (n : SendNotice) :
    t.releaseDue n = s.releaseDue n := by
  unfold State.releaseDue State.memberMinimum; rw [h]

theorem State.replayOnLine_congr {s t : State} (h : t.line.ownFrame = s.line.ownFrame) (n : SendNotice) :
    t.replayOnLine n = s.replayOnLine n := by
  unfold State.replayOnLine; rw [h]

/-- A level that only rises: two crossings in a row are one. -/
theorem crosses_trans {l a b c : Nat} (h1 : a ≤ b) (h2 : b ≤ c) :
    (crosses l a b || crosses l b c) = crosses l a c := by
  rw [Bool.eq_iff_iff]; simp only [crosses, Bool.or_eq_true, Bool.and_eq_true, decide_eq_true_eq]; omega

theorem crosses_self (l a : Nat) : crosses l a a = false := by
  rw [← Bool.not_eq_true]; simp only [crosses, Bool.and_eq_true, decide_eq_true_eq]; omega

/-- The free send cells if the retained span were `l`. -/
def State.freeWith (s : State) (l : List SendNotice) : Nat :=
  s.cfg.sendSize - (sendCellsOf l + sendCellsOf s.send.outbound)

theorem State.freeWith_retained (s : State) : s.freeWith s.send.retained = s.freeSendCells := rfl

theorem sendCellsOf_cons (n : SendNotice) (l : List SendNotice) :
    sendCellsOf (n :: l) = cellsFor n.length + sendCellsOf l := by simp [sendCellsOf]

theorem sendCellsOf_dropWhile_le (p : SendNotice → Bool) (l : List SendNotice) :
    sendCellsOf (l.dropWhile p) ≤ sendCellsOf l := by
  induction l with
  | nil => simp
  | cons a l ih =>
    rw [List.dropWhile_cons]
    split
    · rw [sendCellsOf_cons]; omega
    · exact Nat.le_refl _

/-- The notices a release goes over: due, and not on the line as a REPLAY (R78, R81). -/
def State.released? (s : State) (n : SendNotice) : Bool := s.releaseDue n && !s.replayOnLine n

/-- A run of releases along the retained span, as one update (R78, R80 to R82). -/
theorem State.releaseRun_eq (s : State) (l : List SendNotice) (h : s.send.retained = l) :
    State.releaseRun l s = { s with send := { s.send with
      retained := l.dropWhile s.released?
      releasePoint := (l.takeWhile s.released?).foldl (fun p n => p.past s.cfg.sendSize (cellsFor n.length))
        s.send.releasePoint
      lastReleased := ((l.takeWhile s.released?).getLast?.map (·.tag)).getD s.send.lastReleased
      room := s.send.room || crosses s.cfg.roomLimit s.freeSendCells (s.freeWith (l.dropWhile s.released?))
      releaseWaiting := s.send.releaseWaiting || ((l.dropWhile s.released?).head?.any s.releaseDue) } } := by
  induction l generalizing s with
  | nil =>
    have h1 := s.freeWith_retained
    rw [h] at h1
    simp only [State.releaseRun, List.dropWhile_nil, List.takeWhile_nil, List.foldl_nil, List.getLast?_nil,
      Option.map_none, Option.getD_none, h1, crosses_self, Bool.or_false, List.head?_nil, Option.any_none]
    rw [← h]
  | cons n l ih =>
    unfold State.releaseRun
    by_cases hd : s.releaseDue n = true
    · by_cases hr : s.replayOnLine n = true
      · have hp : s.released? n = false := by simp [State.released?, hr]
        have h1 := s.freeWith_retained
        rw [h] at h1
        simp [hd, hr, hp, h1, crosses_self, h]
      · have hp : s.released? n = true := by simp [State.released?, hr, hd]
        have ih' := ih (s.releaseOne n l) (by simp [State.releaseOne])
        have hq : (s.releaseOne n l).released? = s.released? := by
          funext m; simp [State.released?, State.releaseDue_congr (s := s) (t := s.releaseOne n l) (by simp),
            State.replayOnLine_congr (s := s) (t := s.releaseOne n l) (by simp)]
        have hdq : (s.releaseOne n l).releaseDue = s.releaseDue := by
          funext m; exact State.releaseDue_congr (by simp) m
        simp only [hd, hr, Bool.not_true, Bool.false_eq_true, if_false, List.dropWhile_cons, List.takeWhile_cons, hp,
          if_true, List.foldl_cons]
        rw [ih', hq, hdq]
        have hfree : (s.releaseOne n l).freeWith (l.dropWhile s.released?) = s.freeWith (l.dropWhile s.released?) := by
          simp [State.freeWith, State.releaseOne]; rfl
        have hfc : (s.releaseOne n l).freeSendCells = s.freeWith l := by
          simp [State.freeWith, State.freeSendCells, State.releaseOne]; rfl
        have hroom : (s.releaseOne n l).send.room = (s.send.room || crosses s.cfg.roomLimit s.freeSendCells (s.freeWith l)) := rfl
        have hle : s.freeSendCells ≤ s.freeWith l := by
          rw [← s.freeWith_retained, h]; unfold State.freeWith; rw [sendCellsOf_cons]; omega
        have hle2 : s.freeWith l ≤ s.freeWith (l.dropWhile s.released?) := by
          have := sendCellsOf_dropWhile_le s.released? l
          unfold State.freeWith; omega
        have hlast : (((l.takeWhile s.released?).getLast?.map (·.tag)).getD (s.releaseOne n l).send.lastReleased)
            = ((n :: l.takeWhile s.released?).getLast?.map (·.tag)).getD s.send.lastReleased := by
          rw [show (s.releaseOne n l).send.lastReleased = n.tag from rfl]
          cases l.takeWhile s.released? with
          | nil => rfl
          | cons a k => simp [List.getLast?_cons]
        rw [hfree, hfc, hroom, hlast, Bool.or_assoc, State.releaseOne_cfg, crosses_trans hle hle2]
        rfl
    · have hp : s.released? n = false := by simp [State.released?, hd]
      have h1 := s.freeWith_retained
      rw [h] at h1
      simp [hd, hp, h1, crosses_self]
      rw [← h]

/-- An evaluation of release as one update (R78, R80 to R82). -/
theorem State.evaluateRelease_eq (s : State) :
    s.evaluateRelease = { s with send := { s.send with
      retained := s.send.retained.dropWhile s.released?
      releasePoint := (s.send.retained.takeWhile s.released?).foldl
        (fun p n => p.past s.cfg.sendSize (cellsFor n.length)) s.send.releasePoint
      lastReleased := ((s.send.retained.takeWhile s.released?).getLast?.map (·.tag)).getD s.send.lastReleased
      room := s.send.room
        || crosses s.cfg.roomLimit s.freeSendCells (s.freeWith (s.send.retained.dropWhile s.released?))
      releaseWaiting := s.send.releaseWaiting
        || ((s.send.retained.dropWhile s.released?).head?.any s.releaseDue) } } :=
  State.releaseRun_eq s _ rfl

/-- The release that waited for a REPLAY frame, at its end, as one value of the send block (R81). -/
theorem State.releaseAfterReplay_send {s u : State} {span : List SendNotice} (hw : u.send.releaseWaiting = true)
    (ho : u.line.ownFrame = none) (hs : u.send = { s.send with retained := span }) (hm : u.members = s.members)
    (hc : u.cfg = s.cfg) (hl : sendCellsOf span = sendCellsOf s.send.retained) :
    u.releaseAfterReplay.send = s.releasedAtReplayEnd span := by
  have hx : ∀ v : State, v.members = u.members → v.line = u.line → v.released? = s.releaseDue := by
    intro v h1 h2; funext m
    have : v.replayOnLine m = false := by simp [State.replayOnLine, h2, ho]
    simp only [State.released?, this, Bool.not_false, Bool.and_true]
    exact State.releaseDue_congr (h1.trans hm) m
  have hany : ∀ l : List SendNotice, (l.dropWhile s.releaseDue).head?.any s.releaseDue = false := by
    intro l
    induction l with
    | nil => rfl
    | cons a l ih =>
      rw [List.dropWhile_cons]
      split
      · exact ih
      · rename_i h; simpa using h
  have hd : ∀ v : State, v.members = u.members → v.releaseDue = s.releaseDue := fun v h1 => by
    funext m; exact State.releaseDue_congr (h1.trans hm) m
  unfold State.releaseAfterReplay
  rw [if_pos hw, State.evaluateRelease_eq]
  simp only [hx { u with send := { u.send with releaseWaiting := false } } rfl rfl,
    hd { u with send := { u.send with releaseWaiting := false } } rfl]
  have hf : State.freeSendCells { u with send := { u.send with releaseWaiting := false } } = s.freeSendCells := by
    unfold State.freeSendCells
    rw [show State.cfg { u with send := { u.send with releaseWaiting := false } } = s.cfg from hc]
    simp only [hs, hl]
  rw [hf]
  unfold State.freeWith
  rw [show State.cfg { u with send := { u.send with releaseWaiting := false } } = s.cfg from hc]
  simp only [hs, hany, State.releasedAtReplayEnd, crosses, Bool.or_false]

/-- What an evaluation of release does to the send block depends on the send block, the members, the own frame and the
configuration alone. -/
theorem State.evaluateRelease_send_congr {s t : State} (h1 : t.send = s.send) (h2 : t.members = s.members)
    (h3 : t.line.ownFrame = s.line.ownFrame) (h4 : t.cfg = s.cfg) : t.evaluateRelease.send = s.evaluateRelease.send := by
  have hq : t.released? = s.released? := by
    funext m; simp [State.released?, State.releaseDue_congr h2, State.replayOnLine_congr h3]
  have hd : t.releaseDue = s.releaseDue := by funext m; exact State.releaseDue_congr h2 m
  rw [State.evaluateRelease_eq, State.evaluateRelease_eq]
  simp only [hq, hd, h1, h4, State.freeSendCells, State.freeWith]

/-- A pending catch-up RESEND neither decides a release nor changes by it (R78). -/
theorem State.evaluateRelease_catchUp (s : State) :
    ({ s with send := { s.send with catchUp := none } }.evaluateRelease).send
      = { s.evaluateRelease.send with catchUp := none } := by
  have hq : State.released? { s with send := { s.send with catchUp := none } } = s.released? := by
    funext m; simp [State.released?, State.releaseDue_congr (s := s), State.replayOnLine_congr (s := s)]
  have hd : State.releaseDue { s with send := { s.send with catchUp := none } } = s.releaseDue := by
    funext m; exact State.releaseDue_congr rfl m
  rw [State.evaluateRelease_eq, State.evaluateRelease_eq]
  simp only [hq, hd]; rfl

end Sys2Proof.Machine
end

