-- ==== Sys2Proof/Laws/Stations.lean ====
section
/-!
SUPPORT. The passages between station states, field by field: leaving the line, resync, adoption, founding.
-/

namespace Sys2Proof.Machine

/-- The send side is empty, its points at 0 (R60, R90). -/
@[simp] theorem State.discardSend_send (s : State) : s.discardSend.send = { s.send with
    retained := [], outbound := [], releasePoint := ⟨0, 0⟩, transmitPoint := ⟨0, 0⟩, postEnd := ⟨0, 0⟩
    catchUp := none, releaseWaiting := false } := by
  unfold State.discardSend; dsimp only; split <;> simp

@[simp] theorem State.discardSend_commit (s : State) :
    s.discardSend.commit = { s.commit with catchingUp := false } := by
  unfold State.discardSend; dsimp only; split <;> simp

/-- OUTBOUND_DISCARDED is posted when a notice was outbound (R90). -/
theorem State.discardSend_port (s : State) : s.discardSend.port = match s.send.outbound with
    | [] => s.port
    | n :: rest => (s.postReport (.outboundDiscarded (n :: rest).length n.tag)).port := by
  unfold State.discardSend; dsimp only; split <;> simp [*]

/-- A hand-on over an empty receive side touches only the pool and the queue's tail. -/
theorem State.handOn_rx_of_empty {s : State} (h1 : s.rx.holdSet = []) (h2 : s.rx.known = 0) (h3 : s.gaps = []) :
    s.handOn.rx.holdSet = [] ∧ s.handOn.rx.known = 0 ∧ s.handOn.gaps = [] ∧ s.handOn.rx.settled = s.rx.settled := by
  rw [State.handOn_of_empty h1 h2 h3]; simp [h1, h2, h3]

/-- The station off the line (R145, steps 1 to 5). -/
theorem State.quit_spec (s : State) :
    s.quit.rx.holdSet = [] ∧ s.quit.rx.known = 0 ∧ s.quit.gaps = [] ∧ s.quit.rx.settled = s.rx.settled
      ∧ (∃ more, s.quit.rx.queue = s.rx.queue ++ more)
      ∧ s.quit.commit = { provisional := none, objections := 0, congestedArmed := true, congested := false
                          catchingUp := false }
      ∧ s.quit.send = s.discardSend.send ∧ s.quit.port = s.discardSend.port ∧ s.quit.members = []
      ∧ s.quit.line = { s.line with driving := false, timing := .off, ready := false, ownFrame := none, window := none }
      ∧ s.quit.stn = { s.stn with
          beaconDue := false, listenTimer := .stopped, joinTimer := .stopped, beaconTimer := .stopped
          leaveHeld := false, joinExpiryHeld := false } := by
  obtain ⟨e1, e2, e3, e4⟩ := State.handOn_rx_of_empty (s := s.discardSend.discardReceive)
    (by simp [State.discardReceive_eq]) (by simp [State.discardReceive_eq]) (by simp [State.discardReceive_eq])
  obtain ⟨m, hm⟩ := State.handOn_queue s.discardSend.discardReceive
  have hp : s.discardSend.discardReceive.handOn.commit.provisional = none := by simp [State.discardReceive_eq]
  refine ⟨?_, ?_, ?_, ?_, ⟨m, ?_⟩, ?_, ?_, ?_, rfl, ?_, ?_⟩ <;> simp [State.quit, *]
  simpa using hp

/-- What the discard of the receive side frees is handed on to nobody while the pending-BASE register is sound (R67, R68). -/
theorem State.discardReceive_handOn {s : State} (hp : PendingBaseSound s) :
    s.discardReceive.handOn = s.discardReceive := by
  rw [State.handOn_of_empty (by simp [State.discardReceive_eq]) (by simp [State.discardReceive_eq])
    (by simp [State.discardReceive_eq])]
  by_cases h : s.pool.pendingBase = none
  · exact State.servePendingBase_of_none (by simpa [State.discardReceive_eq] using h)
  · obtain ⟨h1, h2, h3⟩ := hp h
    exact State.servePendingBase_of_noDesc (by simp [State.discardReceive_eq, State.storedNotices, h1, h2, h3])

/-- The receive side of a station that leaves the line (R110, R145). -/
theorem State.quit_freed {s : State} (hp : PendingBaseSound s) : ReceiveSideFreed s s.quit := by
  have h : s.discardSend.discardReceive.handOn = s.discardSend.discardReceive :=
    State.discardReceive_handOn (fun h => by
      simp only [State.discardSend_frame, State.discardSend_commit] at h ⊢; exact hp h)
  have e : s.discardSend.storedNotices = s.storedNotices := by simp [State.storedNotices]
  have hr : s.quit.rx = s.discardSend.discardReceive.rx := by rw [← h]; rfl
  have hq : s.quit.pool = s.discardSend.discardReceive.pool := by rw [← h]; rfl
  refine ⟨?_, ?_, ?_⟩ <;> simp [hr, hq, State.discardReceive_eq, e]

/-- A station that stores nothing and leaves the line keeps its receive side and its storage as they are. -/
theorem State.quit_of_empty {s : State} (hp : PendingBaseSound s) (h1 : s.rx.holdSet = []) (h2 : s.rx.known = 0)
    (h3 : s.commit.provisional = none) : s.quit.rx = s.rx ∧ s.quit.pool = s.pool := by
  have hs : s.storedNotices = [] := by simp [State.storedNotices, h1, h3]
  have hd : s.discardSend.discardReceive.rx = s.rx ∧ s.discardSend.discardReceive.pool = s.pool := by
    have e : s.discardSend.storedNotices = [] := by simpa [State.storedNotices] using hs
    simp only [State.discardReceive_eq, e]
    simp only [State.discardSend_frame, List.flatMap_nil, List.map_nil, List.append_nil, and_true]
    rw [← h1, ← h2]
  have hh : s.discardSend.discardReceive.handOn = s.discardSend.discardReceive := by
    rw [State.handOn_of_empty (by rw [hd.1, h1]) (by rw [hd.1, h2]) (by simp [State.discardReceive_eq])]
    by_cases h : s.pool.pendingBase = none
    · exact State.servePendingBase_of_none (by rw [hd.2]; exact h)
    · exact State.servePendingBase_of_noDesc (by rw [hd.2]; exact (hp h).1)
  simp [State.quit, hh, hd]

/-- A station that has left the line holds nothing of it. -/
theorem OffLineEmpty_of_quit {s t : State} (h1 : t.rx = s.quit.rx) (h2 : t.gaps = s.quit.gaps)
    (h3 : t.commit = s.quit.commit) (h4 : t.line = s.quit.line) (h5 : t.send = s.quit.send)
    (h6 : t.members = s.quit.members) (st : StationState) (h7 : t.stn = { s.quit.stn with state := st }) :
    OffLineEmpty t := by
  obtain ⟨q1, q2, q3, -, -, q6, q7, -, q9, q10, q11⟩ := State.quit_spec s
  unfold OffLineEmpty
  rw [h1, h2, h3, h4, h5, h6, h7, q1, q2, q3, q6, q7, q9, q10, q11]
  simp

/-! ### The count set outright -/

theorem beyondHorizon_iff (a b : LineNo) : beyondHorizon a b = true ↔ 16384 < distance a b := by
  unfold beyondHorizon; rw [decide_eq_true_iff]; exact Iff.rfl

/-- A report changes the port alone. -/
theorem State.postReport_eq (s : State) (r : Report) : s.postReport r = { s with port := (s.postReport r).port } := by
  unfold State.postReport; split <;> rfl

/-- Reports posted in order change the port alone. -/
theorem State.postReports_eq (s : State) (l : List Report) : s.postReports l = { s with port := (s.postReports l).port } := by
  induction l generalizing s with
  | nil => rfl
  | cons r l ih =>
    have h := ih (s.postReport r)
    unfold State.postReports at *
    rw [List.foldl_cons, h, s.postReport_eq r]

theorem State.postReports_port_congr {s t : State} (h : s.port = t.port) (l : List Report) :
    (s.postReports l).port = (t.postReports l).port := by
  unfold State.postReports
  induction l generalizing s t with
  | nil => exact h
  | cons r l ih => exact ih (State.postReport_port_congr h r)

/-- The horizon reads the member table alone. -/
theorem State.horizon_congr {s t : State} (h : t.members = s.members) (n : LineNo) :
    t.keptAtHorizon n = s.keptAtHorizon n ∧ t.horizonReports n = s.horizonReports n := by
  unfold State.keptAtHorizon State.horizonReports; rw [h]; exact ⟨rfl, rfl⟩

theorem State.releasedAtHorizon_congr {s t : State} (h1 : t.send = s.send) (h2 : t.members = s.members)
    (h3 : t.line.ownFrame = s.line.ownFrame) (h4 : t.cfg = s.cfg) (n : LineNo) :
    t.releasedAtHorizon n = s.releasedAtHorizon n := by
  unfold State.releasedAtHorizon
  rw [(State.horizon_congr h2 n).1, (State.horizon_congr h2 n).2, h1]
  split
  · rfl
  · exact State.evaluateRelease_send_congr rfl rfl h3 h4

/-- The catching-up flag clears before the horizon at a rise and after it at a resync (R53, R143): no difference. -/
theorem State.releasedAtHorizon_catchUp (s : State) (n : LineNo) :
    State.releasedAtHorizon { s with send := { s.send with catchUp := none } } n
      = { s.releasedAtHorizon n with catchUp := none } := by
  have e := s.horizon_congr (t := { s with send := { s.send with catchUp := none } }) rfl n
  unfold State.releasedAtHorizon
  rw [e.1, e.2]
  split
  · rfl
  · exact State.evaluateRelease_catchUp { s with members := s.keptAtHorizon n }

/-- A table within the horizon of the count set is left as it is, and nothing is posted or released. -/
theorem State.horizon_of_within {s : State} {n : LineNo} (h : ∀ m ∈ s.members, distance m.settled n ≤ 16384) :
    s.keptAtHorizon n = s.members ∧ s.horizonReports n = [] ∧ s.releasedAtHorizon n = s.send := by
  have hr : s.horizonReports n = [] := by
    unfold State.horizonReports
    rw [List.map_eq_nil_iff, List.filter_eq_nil_iff]
    intro m hm; have := h m hm; simpa using this
  refine ⟨?_, hr, by unfold State.releasedAtHorizon; rw [if_pos hr]⟩
  unfold State.keptAtHorizon
  rw [List.filter_eq_self]
  intro m hm; simpa using h m hm

/-- The horizon at a change of the count, in one update (R15): who stays, what is released, what is reported. -/
theorem State.applyHorizon_eq (s : State) : s.applyHorizon = { s with
    members := s.keptAtHorizon s.rx.count, send := s.releasedAtHorizon s.rx.count
    port := (s.postReports (s.horizonReports s.rx.count)).port } := by
  have hk : (s.members.filter fun m => !beyondHorizon m.settled s.rx.count) = s.keptAtHorizon s.rx.count := by
    apply List.filter_congr; intro x _; unfold beyondHorizon Config.horizon; rw [Bool.eq_iff_iff]; simp
  have hr : (s.horizonVictims.map fun (m : Member) => Report.memberLost m.station .horizon) = s.horizonReports s.rx.count := rfl
  unfold State.applyHorizon
  rw [hk, hr]
  split
  · rename_i h
    have h0 : s.horizonReports s.rx.count = [] := by rw [← hr, List.isEmpty_iff.mp h]; rfl
    have h1 : ∀ m ∈ s.members, distance m.settled s.rx.count ≤ 16384 := by
      intro m hm
      have := List.filter_eq_nil_iff.mp (List.isEmpty_iff.mp h) m hm
      rw [beyondHorizon_iff] at this; omega
    obtain ⟨k1, -, k3⟩ := State.horizon_of_within h1
    rw [k1, k3, h0]; rfl
  · rename_i h
    have h0 : s.horizonReports s.rx.count ≠ [] := by
      rw [← hr]; intro hc; rw [List.map_eq_nil_iff] at hc; exact h (by rw [hc]; rfl)
    have hp : (({ s with members := s.keptAtHorizon s.rx.count } : State).postReports (s.horizonReports s.rx.count)).port
        = (s.postReports (s.horizonReports s.rx.count)).port := by apply State.postReports_port_congr; rfl
    have hs : ((({ s with members := s.keptAtHorizon s.rx.count } : State).postReports
        (s.horizonReports s.rx.count)).evaluateRelease).send = s.releasedAtHorizon s.rx.count := by
      unfold State.releasedAtHorizon
      rw [if_neg h0]
      apply State.evaluateRelease_send_congr <;> simp
    rw [← hs, ← hp, State.evaluateRelease_eq, State.postReports_eq]

/-- The members after the horizon (R15). -/
theorem State.applyHorizon_members (s : State) : s.applyHorizon.members = s.keptAtHorizon s.rx.count := by
  rw [State.applyHorizon_eq]

@[simp] theorem State.setCount_rx (s : State) (n : LineNo) :
    (s.setCount n).rx = { s.rx with count := n, settled := n, known := 0 } := by simp [State.setCount]

/-- An outright setting of the count, in one update (R6, R15). -/
theorem State.setCount_eq (s : State) (n : LineNo) : s.setCount n = { s with
    rx := { s.rx with count := n, settled := n, known := 0 }
    members := s.keptAtHorizon n, send := s.releasedAtHorizon n, port := (s.postReports (s.horizonReports n)).port } := by
  unfold State.setCount
  rw [State.applyHorizon_eq]
  have hp : (State.postReports { s with rx := { s.rx with count := n, settled := n, known := 0 } } (s.horizonReports n)).port
      = (s.postReports (s.horizonReports n)).port := by apply State.postReports_port_congr; rfl
  have hr := State.releasedAtHorizon_congr (s := s) (t := { s with rx := { s.rx with count := n, settled := n, known := 0 } })
    rfl rfl rfl rfl n
  have hk := State.horizon_congr (s := s) (t := { s with rx := { s.rx with count := n, settled := n, known := 0 } }) rfl n
  dsimp only
  rw [hr, hk.1, hk.2, hp]

/-- Where a BASE record goes depends on the queue, its flag, the backlog limit and the pending-BASE register. -/
theorem BaseEmitted.congr {s s' t t' : State} {free : List Nat} {r : BaseReason} {n : LineNo} (h : BaseEmitted s t free r n)
    (h1 : s'.rx = s.rx) (h2 : s'.cfg = s.cfg) (h3 : s'.pool = s.pool) (h4 : t'.rx = t.rx) (h5 : t'.pool = t.pool) :
    BaseEmitted s' t' free r n := by
  unfold BaseEmitted BacklogFollows at *
  rw [h1, h2, h3, h4, h5]; exact h

/-- Emitting a BASE record over an empty receive side, field by field (R68, R104). -/
theorem State.emitBase_spec {s : State} (h1 : s.rx.holdSet = []) (h2 : s.rx.known = 0) (h3 : s.gaps = [])
    (hp : s.pool.pendingBase ≠ none → s.pool.freeDescs = []) (r : BaseReason) (n : LineNo) :
    BaseEmitted s (s.emitBase r n) s.pool.freeDescs r n
      ∧ (s.emitBase r n).rx.holdSet = [] ∧ (s.emitBase r n).rx.known = 0 ∧ (s.emitBase r n).gaps = []
      ∧ (s.emitBase r n).rx.settled = s.rx.settled
      ∧ ((s.emitBase r n).pool.pendingBase ≠ none → (s.emitBase r n).pool.freeDescs = []) := by
  rw [State.emitBase_of_empty h1 h2 h3]
  cases h : s.pool.freeDescs with
  | nil => simp [BaseEmitted, h1, h2, h3, h]; exact BacklogFollows_of_same rfl rfl
  | cons d ds =>
    have hn : s.pool.pendingBase = none := by
      by_contra hc; rw [hp hc] at h; exact absurd h (by simp)
    refine ⟨⟨(BacklogFollows_append _ _).congr rfl rfl rfl rfl, ?_⟩, ?_⟩ <;> simp [h1, h2, h3, hn]

/-- Emitting a BASE record over an empty receive side, whatever the pending-BASE register holds. -/
theorem State.emitBase_empty {s : State} (h1 : s.rx.holdSet = []) (h2 : s.rx.known = 0) (h3 : s.gaps = [])
    (r : BaseReason) (n : LineNo) :
    (s.emitBase r n).rx.holdSet = [] ∧ (s.emitBase r n).rx.known = 0 ∧ (s.emitBase r n).gaps = []
      ∧ (s.emitBase r n).rx.settled = s.rx.settled := by
  rw [State.emitBase_of_empty h1 h2 h3]
  cases h : s.pool.freeDescs <;> simp [h1, h2, h3]

/-- Resync, field by field (R11, R143). -/
theorem State.resync_spec (s : State) (r : BaseReason) (c : StateCause) (n : LineNo) :
    (s.resync r c n).rx.count = n ∧ (s.resync r c n).rx.settled = n ∧ (s.resync r c n).rx.known = 0
      ∧ (s.resync r c n).rx.holdSet = [] ∧ (s.resync r c n).gaps = []
      ∧ (s.resync r c n).commit = { s.commit with provisional := none, catchingUp := false }
      ∧ (s.resync r c n).send = { (s.discardReceive.setCount n).send with catchUp := none }
      ∧ (s.resync r c n).members = (s.discardReceive.setCount n).members.map (fun m => { m with includedMe := false })
      ∧ (s.resync r c n).line = { s.line.standBack with window := none }
      ∧ (s.resync r c n).stn = { s.stn with
          state := .joining, joinTimer := .running (8 * s.cfg.beaconInterval)
          beaconTimer := .running s.cfg.beaconInterval, beaconDue := true, joinBeacons := 0, joinExpiryHeld := false }
      ∧ (s.resync r c n).port
        = ((s.discardReceive.setCount n).postReport (.stateChange s.stn.state .joining c)).port := by
  have d1 : (s.discardReceive.setCount n).rx.holdSet = [] := by simp [State.discardReceive_eq]
  have d2 : (s.discardReceive.setCount n).rx.known = 0 := by simp
  have d3 : (s.discardReceive.setCount n).gaps = [] := by simp [State.discardReceive_eq]
  obtain ⟨e1, e2, e3, e4⟩ := State.emitBase_empty d1 d2 d3 r n
  obtain ⟨f1, f2, f3, f4⟩ := State.handOn_rx_of_empty e1 e2 e3
  have hc : s.discardReceive.commit.provisional = none := by simp [State.discardReceive_eq]
  refine ⟨by simp [State.resync], ?_, ?_, ?_, ?_, ?_, ?_, ?_, ?_, ?_, ?_⟩
  · simpa [State.resync, e4] using f4
  · simpa [State.resync] using f2
  · simpa [State.resync] using f1
  · simpa [State.resync] using f3
  · simp [State.resync, hc]
  · simp [State.resync]
  · simp [State.resync]
  · simp [State.resync]
  · simp [State.resync, Config.joinIntervals]
  · unfold State.resync
    rw [State.enterState_port]
    simp only [State.clearIncluded_stn, State.clearCatchingUp_stn, State.handOn_frame, State.emitBase_frame,
      State.setCount_frame, State.discardReceive_frame]
    apply State.postReport_port_congr; simp

/-- Where the BASE record and the freed storage of a resync go (R67, R68, R104). -/
theorem State.resync_storage {s : State} (hp : PendingBaseSound s) (r : BaseReason) (c : StateCause) (n : LineNo) :
    (s.resync r c n).pool.freeCells = s.pool.freeCells ++ s.storedNotices.flatMap (·.chain)
      ∧ BaseEmitted s (s.resync r c n) (s.pool.freeDescs ++ s.storedNotices.map (·.desc)) r n := by
  have d1 : (s.discardReceive.setCount n).rx.holdSet = [] := by simp [State.discardReceive_eq]
  have d2 : (s.discardReceive.setCount n).rx.known = 0 := by simp
  have d3 : (s.discardReceive.setCount n).gaps = [] := by simp [State.discardReceive_eq]
  have dp : (s.discardReceive.setCount n).pool = { s.pool with
      freeCells := s.pool.freeCells ++ s.storedNotices.flatMap (·.chain)
      freeDescs := s.pool.freeDescs ++ s.storedNotices.map (·.desc) } := by simp [State.discardReceive_eq]
  have hpb : (s.discardReceive.setCount n).pool.pendingBase ≠ none →
      (s.discardReceive.setCount n).pool.freeDescs = [] := by
    rw [dp]; intro h
    obtain ⟨h1, h2, h3⟩ := hp h
    simp [h1, State.storedNotices, h2, h3]
  obtain ⟨e0, e1, e2, e3, e4, e5⟩ := State.emitBase_spec d1 d2 d3 hpb r n
  have hh : ((s.discardReceive.setCount n).emitBase r n).handOn = (s.discardReceive.setCount n).emitBase r n := by
    rw [State.handOn_of_empty e1 e2 e3]
    by_cases h : ((s.discardReceive.setCount n).emitBase r n).pool.pendingBase = none
    · exact State.servePendingBase_of_none h
    · exact State.servePendingBase_of_noDesc (e5 h)
  constructor
  · simp [State.resync, State.discardReceive_eq]
  · have hq : (s.resync r c n).rx = ((s.discardReceive.setCount n).emitBase r n).rx := by simp [State.resync, hh]
    have hpo : (s.resync r c n).pool = ((s.discardReceive.setCount n).emitBase r n).pool := by
      simp [State.resync, hh]
    unfold BaseEmitted BacklogFollows at e0 ⊢
    rw [hq, hpo]
    rw [dp] at e0
    simpa using e0

/-- Adoption over an empty receive side, field by field (R9, R138). -/
theorem State.adopt_spec {s : State} (h1 : s.rx.holdSet = []) (h3 : s.gaps = []) (n : LineNo) :
    (s.adopt n).rx.count = n ∧ (s.adopt n).rx.settled = n ∧ (s.adopt n).rx.known = 0 ∧ (s.adopt n).rx.holdSet = []
      ∧ (s.adopt n).gaps = []
      ∧ (s.adopt n).members = (s.setCount n).members.map (fun m => { m with includedMe := false })
      ∧ (s.adopt n).send = (s.setCount n).send
      ∧ (s.adopt n).line = s.line.standBack
      ∧ (s.adopt n).stn = { s.stn with
          state := .joining, listenTimer := .stopped, joinTimer := .running (8 * s.cfg.beaconInterval)
          beaconTimer := .running s.cfg.beaconInterval, beaconDue := true, joinBeacons := 0 }
      ∧ (s.adopt n).port = ((s.setCount n).postReport (.stateChange s.stn.state .joining .adoption)).port
      ∧ (PendingBaseSound s → BaseEmitted s (s.adopt n) s.pool.freeDescs .joined n) := by
  have d1 : (s.setCount n).rx.holdSet = [] := by simp [h1]
  have d2 : (s.setCount n).rx.known = 0 := by simp
  have d3 : (s.setCount n).gaps = [] := by simp [h3]
  obtain ⟨e1, e2, e3, e4⟩ := State.emitBase_empty d1 d2 d3 .joined n
  refine ⟨by simp [State.adopt], ?_, ?_, ?_, ?_, by simp [State.adopt], by simp [State.adopt], by simp [State.adopt],
    by simp [State.adopt, Config.joinIntervals], ?_, fun hp => ?_⟩
  · simpa [State.adopt] using e4
  · simpa [State.adopt] using e2
  · simpa [State.adopt] using e1
  · simpa [State.adopt] using e3
  · unfold State.adopt
    rw [State.enterState_port]
    simp only [State.clearIncluded_stn, State.emitBase_frame, State.setCount_frame]
    apply State.postReport_port_congr; simp
  · obtain ⟨e0, -⟩ := State.emitBase_spec d1 d2 d3 (by simpa using fun h => (hp h).1) .joined n
    have hq : (s.adopt n).rx = ((s.setCount n).emitBase .joined n).rx := by simp [State.adopt]
    have hpo : (s.adopt n).pool = ((s.setCount n).emitBase .joined n).pool := by simp [State.adopt]
    unfold BaseEmitted BacklogFollows at e0 ⊢
    rw [hq, hpo]
    simpa using e0

/-- Founding over an empty receive side, field by field (R10, R139). -/
theorem State.found_spec {s : State} (h1 : s.rx.holdSet = []) (h3 : s.gaps = []) :
    s.found.rx.count = 0 ∧ s.found.rx.settled = 0 ∧ s.found.rx.known = 0 ∧ s.found.rx.holdSet = []
      ∧ s.found.gaps = []
      ∧ s.found.members = (s.setCount 0).members ∧ s.found.send = (s.setCount 0).send
      ∧ s.found.line = s.line.standBack
      ∧ s.found.stn = { s.stn with
          state := .active, listenTimer := .stopped, beaconTimer := .running s.cfg.beaconInterval, beaconDue := true }
      ∧ s.found.port = ((s.setCount 0).postReport (.stateChange s.stn.state .active .founding)).port
      ∧ (PendingBaseSound s → BaseEmitted s s.found s.pool.freeDescs .founded 0) := by
  have d1 : (s.setCount 0).rx.holdSet = [] := by simp [h1]
  have d2 : (s.setCount 0).rx.known = 0 := by simp
  have d3 : (s.setCount 0).gaps = [] := by simp [h3]
  obtain ⟨e1, e2, e3, e4⟩ := State.emitBase_empty d1 d2 d3 .founded 0
  refine ⟨by simp [State.found], ?_, ?_, ?_, ?_, by simp [State.found], by simp [State.found], by simp [State.found],
    by simp [State.found], ?_, fun hp => ?_⟩
  · simpa [State.found] using e4
  · simpa [State.found] using e2
  · simpa [State.found] using e1
  · simpa [State.found] using e3
  · unfold State.found
    rw [State.enterState_port]
    simp only [State.emitBase_frame, State.setCount_frame]
    apply State.postReport_port_congr; simp
  · obtain ⟨e0, -⟩ := State.emitBase_spec d1 d2 d3 (by simpa using fun h => (hp h).1) .founded 0
    have hq : s.found.rx = ((s.setCount 0).emitBase .founded 0).rx := by simp [State.found]
    have hpo : s.found.pool = ((s.setCount 0).emitBase .founded 0).pool := by simp [State.found]
    unfold BaseEmitted BacklogFollows at e0 ⊢
    rw [hq, hpo]
    simpa using e0

/-! ### The horizon at a count set outright (R15, log 27) -/

/-- The discards of a resync come first and do not touch what the horizon reads. -/
theorem State.discardReceive_setCount (s : State) (n : LineNo) :
    (s.discardReceive.setCount n).members = s.keptAtHorizon n
      ∧ (s.discardReceive.setCount n).send = s.releasedAtHorizon n
      ∧ (s.discardReceive.setCount n).port = (s.postReports (s.horizonReports n)).port := by
  have hk := State.horizon_congr (s := s) (t := s.discardReceive) (by simp) n
  rw [State.setCount_eq]
  dsimp only
  rw [hk.1, hk.2]
  refine ⟨rfl, State.releasedAtHorizon_congr (by simp) (by simp) (by simp) (by simp) n, ?_⟩
  apply State.postReports_port_congr; simp

theorem State.resync_horizon (s : State) (r : BaseReason) (c : StateCause) (n : LineNo) :
    (s.resync r c n).members = (s.keptAtHorizon n).map (fun m => { m with includedMe := false })
      ∧ (s.resync r c n).send = { s.releasedAtHorizon n with catchUp := none }
      ∧ (s.resync r c n).port = ((s.postReports (s.horizonReports n)).postReport
          (.stateChange s.stn.state .joining c)).port := by
  obtain ⟨-, -, -, -, -, -, e7, e8, -, -, e11⟩ := State.resync_spec s r c n
  obtain ⟨d1, d2, d3⟩ := s.discardReceive_setCount n
  rw [e7, e8, e11, d1, d2]
  exact ⟨rfl, rfl, State.postReport_port_congr d3 _⟩

theorem State.adopt_horizon {s : State} (h1 : s.rx.holdSet = []) (h3 : s.gaps = []) (n : LineNo) :
    (s.adopt n).members = (s.keptAtHorizon n).map (fun m => { m with includedMe := false })
      ∧ (s.adopt n).send = s.releasedAtHorizon n
      ∧ (s.adopt n).port = ((s.postReports (s.horizonReports n)).postReport
          (.stateChange s.stn.state .joining .adoption)).port := by
  obtain ⟨-, -, -, -, -, e6, e7, -, -, e10, -⟩ := State.adopt_spec h1 h3 n
  rw [e6, e7, e10, State.setCount_eq]
  exact ⟨rfl, rfl, by apply State.postReport_port_congr; rfl⟩

theorem State.found_horizon {s : State} (h1 : s.rx.holdSet = []) (h3 : s.gaps = []) :
    s.found.members = s.keptAtHorizon 0 ∧ s.found.send = s.releasedAtHorizon 0
      ∧ s.found.port = ((s.postReports (s.horizonReports 0)).postReport
          (.stateChange s.stn.state .active .founding)).port := by
  obtain ⟨-, -, -, -, -, e6, e7, -, -, e10, -⟩ := State.found_spec h1 h3
  rw [e6, e7, e10, State.setCount_eq]
  exact ⟨rfl, rfl, by apply State.postReport_port_congr; rfl⟩

/-! ### The configuration in force stays -/

@[simp] theorem State.resync_cfg (s : State) (r : BaseReason) (c : StateCause) (n : LineNo) :
    (s.resync r c n).cfg = s.cfg := by
  unfold State.cfg; rw [(State.resync_spec s r c n).2.2.2.2.2.2.2.2.2.1]

@[simp] theorem State.spanResync_cfg (s : State) (n : LineNo) : (s.spanResync n).cfg = s.cfg := by
  unfold State.spanResync; split <;> simp

@[simp] theorem State.adopt_cfg (s : State) (n : LineNo) : (s.adopt n).cfg = s.cfg := by
  simp [State.adopt, State.cfg]

@[simp] theorem State.found_cfg (s : State) : s.found.cfg = s.cfg := by simp [State.found, State.cfg]

@[simp] theorem State.joinFailure_cfg (s : State) : s.joinFailure.cfg = s.cfg := by simp [State.joinFailure, State.cfg]

@[simp] theorem State.takeHeld_cfg (s : State) : s.takeHeld.cfg = s.cfg := by
  unfold State.takeHeld; split_ifs
  · simp [State.enterLeaving, State.cfg]
  · simp
  · rfl

@[simp] theorem State.headerProcess_cfg (s : State) (h : Header) (l : Bool) : (s.headerProcess h l).1.cfg = s.cfg := by
  unfold State.cfg; simp

end Sys2Proof.Machine
end

