-- ==== Sys2Proof/Laws/Window.lean ====
section
/-!
SUPPORT. What the end of a window does: the commit in order, the freed reservation, and what is held for its end.
-/

namespace Sys2Proof.Machine

theorem State.takeHeld_of_nothing {s : State} (h : NothingHeld s) : s.takeHeld = s := by
  unfold State.takeHeld; simp [h.1, h.2]

theorem State.takeHeld_of_leave {s : State} (h : s.stn.leaveHeld = true) : s.takeHeld = s.enterLeaving := by
  unfold State.takeHeld; simp [h]

theorem State.takeHeld_of_join {s : State} (h : s.stn.leaveHeld = false) (h2 : s.stn.joinExpiryHeld = true) :
    s.takeHeld = s.joinFailure := by
  unfold State.takeHeld; simp [h, h2]

@[simp] theorem State.enterLeaving_stn (s : State) : s.enterLeaving.stn = { s.stn with
    state := .leaving, joinTimer := .stopped, beaconTimer := .stopped, beaconDue := true, leaveHeld := false
    joinExpiryHeld := false } := by simp [State.enterLeaving]

/-- Entry into LEAVING posts its STATE report (R144). -/
theorem State.enterLeaving_port (s : State) :
    s.enterLeaving.port = (s.postReport (.stateChange s.stn.state .leaving .leaveCommand)).port := by
  unfold State.enterLeaving; rw [State.enterState_port]; apply State.postReport_port_congr; rfl

/-- Join failure, field by field (R141): nothing is held, nothing is missing, and the reports stand in their order. -/
theorem State.joinFailure_spec (s : State) :
    s.joinFailure.stn = { s.stn with
        state := .listen, beaconDue := false, joinTimer := .stopped, beaconTimer := .stopped, joinExpiryHeld := false
        listenTimer := .running (s.cfg.listenMultiple * s.cfg.beaconInterval) }
      ∧ s.joinFailure.rx.holdSet = [] ∧ s.joinFailure.rx.known = 0 ∧ s.joinFailure.gaps = []
      ∧ s.joinFailure.rx.settled = s.rx.settled ∧ s.joinFailure.commit = { s.commit with provisional := none }
      ∧ s.joinFailure.port = ((s.postReport (.joinUnanswered s.stn.joinBeacons)).postReport
          (.stateChange s.stn.state .listen .joinFailure)).port := by
  obtain ⟨f1, f2, f3, f4⟩ :=
    State.handOn_rx_of_empty (s := (s.postReport (.joinUnanswered s.stn.joinBeacons)).discardReceive)
      (by simp [State.discardReceive_eq]) (by simp [State.discardReceive_eq]) (by simp [State.discardReceive_eq])
  refine ⟨by simp [State.joinFailure], ?_, ?_, ?_, ?_, ?_, ?_⟩
  · simpa [State.joinFailure] using f1
  · simpa [State.joinFailure] using f2
  · simpa [State.joinFailure] using f3
  · simpa [State.joinFailure, State.discardReceive_eq] using f4
  · simp [State.joinFailure, State.discardReceive_eq]
  · unfold State.joinFailure
    simp only [State.enterState_port, State.handOn_frame, State.discardReceive_frame, State.postReport_frame]
    apply State.postReport_port_congr; simp

/-- Freeing the provisional notice (R43, R47, R50, R67). -/
theorem State.freeProvisional_spec (s : State) :
    (s.commit.provisional = none → s.freeProvisional = s)
      ∧ s.freeProvisional.commit = { s.commit with provisional := none }
      ∧ ∀ own, s.commit.provisional = some own → s.freeProvisional.pool.freeCells = s.pool.freeCells ++ own.chain
        ∧ (NothingToAdvance s → s.freeProvisional.rx = s.rx ∧ s.freeProvisional.gaps = s.gaps
          ∧ s.freeProvisional.pool = { s.pool with
              freeCells := s.pool.freeCells ++ own.chain, freeDescs := s.pool.freeDescs ++ [own.desc] }) := by
  cases hp : s.commit.provisional with
  | none =>
    have h1 : s.freeProvisional = s := by unfold State.freeProvisional; simp [hp]
    exact ⟨fun _ => h1, by rw [h1, ← hp], by simp⟩
  | some own =>
    have e : s.freeProvisional = s.dropProvisional.handOn := by unfold State.freeProvisional; simp [hp]
    have hd : s.dropProvisional = State.freeNotice { s with commit := { s.commit with provisional := none } } own := by
      unfold State.dropProvisional; simp [hp]
    refine ⟨by simp, by rw [e, hd]; simp, ?_⟩
    rintro _ ⟨⟩
    refine ⟨by rw [e, hd]; simp, fun hnt => ?_⟩
    have h1 : NothingToAdvance s.dropProvisional := by
      unfold NothingToAdvance State.knownAt State.lostAt at *
      rw [hd]; exact hnt
    rw [e, State.handOn_of_nothing h1, hd]; simp

/-- The hold set after an entry, as a set (R94). -/
theorem mem_insertHeld (st : LineNo) (n : RxNotice) (l : List RxNotice) (x : RxNotice) :
    x ∈ insertHeld st n l ↔ x = n ∨ x ∈ l := by
  induction l with
  | nil => simp [insertHeld]
  | cons a l ih => unfold insertHeld; split <;> simp [ih]; tauto

/-- What a rise of the count to `n` makes of members, send block, reports and catching-up (R15, R53). -/
abbrev State.horizonTaken (s : State) (n : LineNo) : State := { s with
  members := s.keptAtHorizon n
  send := { s.releasedAtHorizon n with catchUp := none }
  port := (s.postReports (s.horizonReports n)).port
  commit := { s.commit with provisional := none, catchingUp := false } }

/-- A rise of the count by one hands no missing range on; its horizon is that of any state with the same members, send block,
own frame, configuration and reports (R5, R15, R53). -/
theorem State.raiseCount_one {s u : State} {n : LineNo} (hn : n = u.rx.count + 1) (h1 : u.members = s.members)
    (h2 : u.send = s.send) (h3 : u.line = s.line) (h4 : u.stn = s.stn) (h5 : u.port = s.port) :
    u.raiseCount n (n - 1) = { u with
      rx := { u.rx with count := n }
      commit := { u.commit with catchingUp := false }
      members := s.keptAtHorizon n
      send := { s.releasedAtHorizon n with catchUp := none }
      port := (s.postReports (s.horizonReports n)).port } := by
  have e1 : n - 1 = u.rx.count := by rw [hn]; ring
  unfold State.raiseCount; simp only [e1, if_true]
  rw [State.applyHorizon_eq, ← State.releasedAtHorizon_catchUp]
  have hr := State.releasedAtHorizon_congr (s := { s with send := { s.send with catchUp := none } })
    (t := State.clearCatchingUp { u with rx := { u.rx with count := n } })
    (by simp [State.clearCatchingUp, h2]) h1 (by simp [State.clearCatchingUp, h3])
    (by simp [State.clearCatchingUp, State.cfg, h4]) n
  have hp : (State.postReports (State.clearCatchingUp { u with rx := { u.rx with count := n } }) (s.horizonReports n)).port
      = (s.postReports (s.horizonReports n)).port := by apply State.postReports_port_congr; exact h5
  have hk := State.horizon_congr (s := s) (t := State.clearCatchingUp { u with rx := { u.rx with count := n } }) h1 n
  dsimp only [State.clearCatchingUp] at *
  rw [hr, hk.1, hk.2, hp]

/-- A commit, by whether a notice was stored for it (R42, R48). -/
theorem State.takeCommitted_cases (s : State) (n : LineNo) :
    (∃ p, s.commit.provisional = some p ∧ s.takeCommitted n
        = ((State.hold { s with commit := { s.commit with provisional := none } } p).raiseCount n (n - 1)).advance)
      ∨ s.commit.provisional = none ∧ s.takeCommitted n = ((s.makeKnown n).raiseCount n (n - 1)).advance := by
  cases h : s.commit.provisional with
  | none => exact Or.inr ⟨rfl, by unfold State.takeCommitted; simp only [h]⟩
  | some p => exact Or.inl ⟨p, rfl, by unfold State.takeCommitted; simp only [h]⟩

/-- A commit in order (R42, R48): the position is settled at once, and a stored notice is delivered. -/
theorem State.takeCommitted_inOrder {s : State} {n : LineNo} (hn : n = s.rx.count + 1)
    (hset : s.rx.settled = s.rx.count) (hpb : s.pool.pendingBase = none) (hh : s.rx.holdSet = [])
    (hkn : s.rx.known = 0) (hg : s.gaps = []) (hp : ∀ own, s.commit.provisional = some own → own.number = n) :
    ∃ b, s.takeCommitted n = { s.horizonTaken n with
      rx := { s.rx with
        count := n, settled := n, known := 0, holdSet := []
        queue := s.rx.queue ++ s.commit.provisional.toList.map .notice, backlog := b }
      gaps := [] } := by
  have hne : ¬ n = s.rx.settled := by rw [hn, hset]; simp
  have hsub : (n - s.rx.settled).toNat = 1 := by rw [hn, hset]; simp
  have hmk : markKnown s.rx.settled 0#256 n = 1#256 := by unfold markKnown; rw [if_neg hne, hsub]; decide
  have hsucc : s.rx.settled + 1 = n := by rw [hn, hset]
  have hsh : (1#256) >>> 1 = 0#256 := by decide
  cases hpr : s.commit.provisional with
  | none =>
    let u : State := { s.horizonTaken n with rx := { s.rx with count := n, known := 1#256 } }
    have e : s.takeCommitted n = u.advance := by
      unfold State.takeCommitted; simp only [hpr]
      rw [State.raiseCount_one (s := s) (by simpa using hn) (by simp) (by simp) (by simp) (by simp) (by simp)]
      simp [State.makeKnown, u, hkn, hmk, hg, hpr]
    have hs : u.advanceStep = some (u.settle n) := by
      rw [State.advanceStep_of_known (s := u) hpb (by simp [u, hh]) (by simp [State.knownAt, knownIn, u])]
      simp only [u, hsucc]
    have h2 : (u.settle n).advanceStep = none := by
      apply State.advanceStep_of_empty
      · simp [u, hh]
      · simp [u, hsub, hsh]
      · simp [u, hg]
    refine ⟨s.rx.backlog, ?_⟩
    rw [e, State.advance_of_one hs h2]
    simp [State.settle, u, hsub, hg, hh, hsh]
  | some own =>
    have hon := hp own hpr
    let u : State := { s.horizonTaken n with rx := { s.rx with count := n, known := 1#256, holdSet := [own] } }
    let v : State := ({ u with rx := { u.rx with holdSet := [] } }.appendRecord (.notice own))
    have e : s.takeCommitted n = u.advance := by
      unfold State.takeCommitted; simp only [hpr]
      rw [State.raiseCount_one (s := s) (by simpa using hn) (by simp) (by simp) (by simp) (by simp) (by simp)]
      simp [State.hold, State.makeKnown, u, hkn, hmk, hg, hh, insertHeld, hon]
    have hs : u.advanceStep = some (v.settle n) := by
      rw [State.advanceStep_of_held (s := u) (n := own) hpb (by simp [u, hon, ← hsucc])]
      simp [u, v]; simp [← hsucc, hon]
    have h2 : (v.settle n).advanceStep = none := by
      apply State.advanceStep_of_empty
      · simp [u, v]
      · simp [u, v, hsub, hsh]
      · simp [u, v, hg]
    refine ⟨v.rx.backlog, ?_⟩
    rw [e, State.advance_of_one hs h2]
    simp [State.settle, u, v, hsub, hg, hsh, State.appendRecord]

/-- A commit behind a gap, or while a BASE record waits (R42, R48, R68, R94): the count rises and the position is known; a
stored notice waits in the hold set, and nothing is delivered. -/
theorem State.takeCommitted_behindGap {s : State} {n : LineNo} (hn : n = s.rx.count + 1)
    (hos : OrderSound s) (hne : s.rx.settled ≠ s.rx.count ∨ s.pool.pendingBase ≠ none) (hsp : s.ahead n ≤ 256)
    (hnt : AdvanceRests s)
    (hp : ∀ own, s.commit.provisional = some own → own.number = n) :
    ∃ hold, s.takeCommitted n = { s.horizonTaken n with
        rx := { s.rx with count := n, known := markKnown s.rx.settled s.rx.known n, holdSet := hold } }
      ∧ (∀ x, x ∈ hold ↔ x ∈ s.rx.holdSet ∨ s.commit.provisional = some x) ∧ (s.takeCommitted n).knownAt n = true := by
  have hna : s.ahead n = s.ahead s.rx.count + 1 := by rw [hn]; apply ahead_succ; have := hos.1; omega
  have hgf : (s.gaps.filter fun e =>
      !e.covers n || !(missingIn s.rx.settled (markKnown s.rx.settled s.rx.known n) e).isEmpty) = s.gaps := by
    rw [List.filter_eq_self]
    intro e hee
    have h1 := hos.2.2.2.2.1 e hee
    have h2 : e.covers n = false := by rw [← Bool.not_eq_true, GapEntry.covers_iff h1.2.1]; omega
    simp [h2]
  have hns1 : s.pool.pendingBase = none → n ≠ s.rx.settled + 1 := by
    intro hb hc
    rw [hc, ahead_next] at hna
    refine hne.resolve_right (fun h => h hb) (ahead_inj (s := s) ?_).symm
    rw [ahead_settled]; omega
  have key : ∀ v : State, s.takeCommitted n = v.advance → ∀ hold, v = { s.horizonTaken n with
      rx := { s.rx with count := n, known := markKnown s.rx.settled s.rx.known n, holdSet := hold } } →
      (∀ x, x ∈ hold ↔ x ∈ s.rx.holdSet ∨ s.commit.provisional = some x) →
      s.takeCommitted n = v ∧ v.knownAt n = true := by
    intro v hv hold he hh
    have hkv : ∀ m, v.knownAt m = (s.knownAt m || decide (m = n)) := by
      intro m
      rw [← State.knownAt_makeKnown (s := s) (n := n) (by omega) (by omega)]
      apply knownAt_congr <;> rw [he] <;> simp
    have hnv : AdvanceRests v := by
      have hst : v.rx.settled = s.rx.settled := by rw [he]
      have hpo : v.pool = s.pool := by rw [he]
      by_cases hb : s.pool.pendingBase = none
      · obtain ⟨h1, h2, h3⟩ := hnt.resolve_left (fun h => h hb)
        refine Or.inr ⟨?_, ?_, ?_⟩
        · intro x hx
          rw [hst]
          rcases (hh x).mp (by rw [he] at hx; exact hx) with hx | hx
          · exact h1 x hx
          · rw [hp x hx]; exact hns1 hb
        · rw [hkv, hst, h2]; simpa using Ne.symm (hns1 hb)
        · rw [hst, lostAt_congr (s := s) (by rw [he]), hpo]; exact h3
      · exact Or.inl (by rw [hpo]; exact hb)
    exact ⟨by rw [hv, State.advance_of_rests hnv], by rw [hkv]; simp⟩
  rcases s.takeCommitted_cases n with ⟨own, hpr, e⟩ | ⟨hpr, e⟩
  · have hon := hp own hpr
    rw [State.raiseCount_one (s := s) (by simpa using hn) (by simp) (by simp) (by simp) (by simp) (by simp)] at e
    have hm : ∀ x, x ∈ insertHeld s.rx.settled own s.rx.holdSet ↔ x ∈ s.rx.holdSet ∨ s.commit.provisional = some x := by
      intro x; simp [mem_insertHeld, hpr]; tauto
    obtain ⟨k1, k2⟩ := key _ e (insertHeld s.rx.settled own s.rx.holdSet)
      (by simp [State.hold, State.makeKnown, hgf, hon]) hm
    exact ⟨_, by rw [k1]; simp [State.hold, State.makeKnown, hgf, hon], hm, by rw [k1]; exact k2⟩
  · rw [State.raiseCount_one (s := s) (by simpa using hn) (by simp) (by simp) (by simp) (by simp) (by simp)] at e
    have hm : ∀ x, x ∈ s.rx.holdSet ↔ x ∈ s.rx.holdSet ∨ s.commit.provisional = some x := by intro x; simp [hpr]
    obtain ⟨k1, k2⟩ := key _ e s.rx.holdSet (by simp [State.makeKnown, hgf, hpr]) hm
    exact ⟨_, by rw [k1]; simp [State.makeKnown, hgf, hpr], hm, by rw [k1]; exact k2⟩

/-- The send queue's effects of a clean window at the sender (R48, R51, R75): the head is retained under its number, and
released at once with all that is retained when the member table is empty. -/
theorem State.senderCommits_send {s : State} {head : SendNotice} {rest : List SendNotice} (n : LineNo)
    (ho : s.send.outbound = head :: rest) (hf : s.line.ownFrame = none) :
    let committed : SendBlock := { s.send with
      outbound := rest
      retained := s.send.retained ++ [{ head with number := some n }]
      transmitPoint := s.send.transmitPoint.past s.cfg.sendSize (cellsFor head.length)
      lastCommitted := head.tag }
    let released : SendBlock := { committed with
      retained := [], lastReleased := head.tag
      releasePoint := (s.send.retained ++ [head]).foldl
        (fun p m => p.past s.cfg.sendSize (cellsFor m.length)) s.send.releasePoint
      room := s.send.room || crosses s.cfg.roomLimit s.freeSendCells (s.cfg.sendSize - sendCellsOf rest) }
    ∃ send, ((s.retainHead n).clearObjections).releaseIfAlone = { s with
        commit := { s.commit with objections := 0, congestedArmed := true, congested := false }
        send := send }
      ∧ (s.members ≠ [] → send = committed)
      ∧ (s.members = [] → send = released) := by
  intro committed released
  have e : (s.retainHead n).clearObjections = { s with
      commit := { s.commit with objections := 0, congestedArmed := true, congested := false }, send := committed } := by
    unfold State.clearObjections State.retainHead; simp only [ho]; rfl
  by_cases hm : s.members = []
  · obtain ⟨u, hu⟩ : ∃ u : State, u = { s with
        commit := { s.commit with objections := 0, congestedArmed := true, congested := false }, send := committed } :=
      ⟨_, rfl⟩
    have hall : u.released? = fun _ => true := by
      funext m; unfold State.released? State.releaseDue State.memberMinimum State.replayOnLine; simp [hu, hm, hf]
    have hfc : u.freeSendCells = s.freeSendCells := by
      simp only [hu, State.freeSendCells, State.cfg, committed, ho, sendCellsOf, List.map_append, List.sum_append,
        List.map_cons, List.sum_cons, List.map_nil, List.sum_nil]
      omega
    refine ⟨released, ?_, fun h => absurd hm h, fun _ => rfl⟩
    have he : u.members.isEmpty = true := by rw [hu]; simp [hm]
    unfold State.releaseIfAlone
    rw [e, ← hu, if_pos he, State.evaluateRelease_eq, hall, hfc, hu]
    simp [State.freeWith, committed, released, State.cfg, sendCellsOf, List.foldl_append]
  · refine ⟨committed, ?_, fun _ => rfl, fun h => absurd h hm⟩
    unfold State.releaseIfAlone
    rw [e]
    have h1 : s.members.isEmpty = false := by simpa using hm
    simp [h1]

end Sys2Proof.Machine
end

