-- ==== Sys2Proof/Laws/Advance.lean ====
section
/-!
SUPPORT. The delivery advance (R101, R102): what moving the settled point does to the receive order, step by step, and that a
run ends.
-/

namespace Sys2Proof.Machine

/-! ### Distances from a settled point that has moved -/

/-- A position at or after the new settled point, by distances. -/
theorem ahead_shift {s t : State} {m : LineNo} (h : s.ahead t.rx.settled ≤ s.ahead m) :
    t.ahead m = s.ahead m - s.ahead t.rx.settled := sub_toNat_of_ahead_le h

/-- A distance from the new settled point, counted from the old one. -/
theorem ahead_unshift {s t : State} {m : LineNo} (h : s.ahead t.rx.settled + t.ahead m < 65536) :
    s.ahead m = s.ahead t.rx.settled + t.ahead m := by
  have h1 : m = t.rx.settled + BitVec.ofNat 16 (t.ahead m) := by
    unfold State.ahead; rw [BitVec.ofNat_toNat, BitVec.setWidth_eq]; ring
  have h2 := ahead_add s t.rx.settled (t.ahead m) h
  rw [← h1] at h2; exact h2

/-- At or before, for positions within the span of the settled point. -/
theorem atOrBefore_iff {s : State} {a b : LineNo} (ha : s.ahead a ≤ 32767) (hb : s.ahead b ≤ 32767) :
    atOrBefore a b = true ↔ s.ahead a ≤ s.ahead b := by
  unfold atOrBefore
  rw [decide_eq_true_iff]
  rcases Nat.lt_or_ge (s.ahead b) (s.ahead a) with h | h
  · rw [sub_toNat_of_ahead_lt h]; omega
  · rw [sub_toNat_of_ahead_le h]; omega

/-! ### The settled point moves -/

@[simp] theorem State.settle_settled (s : State) (n : LineNo) : (s.settle n).rx.settled = n := rfl

/-- A position after the new settled point is known as it was (R92). -/
theorem State.knownAt_settle {s : State} {n m : LineNo} (h : s.ahead n < s.ahead m) :
    (s.settle n).knownAt m = s.knownAt m := by
  have h1 : (s.settle n).ahead m = s.ahead m - s.ahead n := ahead_shift (Nat.le_of_lt h)
  rw [Bool.eq_iff_iff, State.knownAt_iff, State.knownAt_iff, h1]
  have h2 : (s.settle n).rx.known = s.rx.known >>> s.ahead n := rfl
  rw [h2, BitVec.getLsbD_ushiftRight, show s.ahead n + (s.ahead m - s.ahead n - 1) = s.ahead m - 1 by omega]
  constructor
  · rintro ⟨-, h3⟩; exact ⟨by omega, h3⟩
  · rintro ⟨-, h3⟩; exact ⟨by omega, h3⟩

/-- What trimming leaves of an entry when the settled point moves to `n` (R118). -/
theorem trimGap_some {s : State} {n : LineNo} {e e' : GapEntry} (hn : s.ahead n ≤ 256)
    (he : 1 ≤ s.ahead e.first ∧ s.ahead e.first ≤ s.ahead e.last ∧ s.ahead e.last ≤ 256)
    (h : trimGap n (s.settle n).rx.known e = some e') :
    s.ahead n < s.ahead e'.first ∧ s.ahead e'.first ≤ s.ahead e'.last ∧ s.ahead e.first ≤ s.ahead e'.first
      ∧ e'.last = e.last ∧ e'.id = e.id ∧ e'.state = e.state ∧ e'.attempts = e.attempts ∧ e'.timer = e.timer := by
  unfold trimGap at h
  split at h
  · simp at h
  · rename_i h1
    rw [atOrBefore_iff (s := s) (by omega) (by omega)] at h1
    split at h
    · rename_i h2
      rw [atOrBefore_iff (s := s) (by omega) (by omega)] at h2
      dsimp only at h
      split at h
      · simp at h
      · obtain rfl := Option.some.inj h
        have := ahead_succ s n (by omega)
        refine ⟨?_, ?_, ?_, rfl, rfl, rfl, rfl, rfl⟩ <;> simp only [this] <;> omega
    · rename_i h2
      rw [atOrBefore_iff (s := s) (by omega) (by omega)] at h2
      obtain rfl := Option.some.inj h
      exact ⟨by omega, he.2.1, Nat.le_refl _, rfl, rfl, rfl, rfl, rfl⟩

/-- Trimming keeps every entry that still covers an unknown position, and what it covers after the new settled point. -/
theorem trimGap_keeps {s : State} {n m : LineNo} {e : GapEntry} (hn : s.ahead n ≤ 256)
    (he : 1 ≤ s.ahead e.first ∧ s.ahead e.first ≤ s.ahead e.last ∧ s.ahead e.last ≤ 256)
    (hm : s.ahead n < s.ahead m) (hk : s.knownAt m = false)
    (hc : s.ahead e.first ≤ s.ahead m ∧ s.ahead m ≤ s.ahead e.last) :
    ∃ e', trimGap n (s.settle n).rx.known e = some e' ∧ s.ahead e'.first ≤ s.ahead m
      ∧ s.ahead m ≤ s.ahead e'.last ∧ e'.state = e.state := by
  unfold trimGap
  rw [if_neg (by rw [atOrBefore_iff (s := s) (by omega) (by omega)]; omega)]
  by_cases h2 : atOrBefore e.first n = true
  · rw [if_pos h2]
    rw [atOrBefore_iff (s := s) (by omega) (by omega)] at h2
    have h3 : s.ahead (n + 1) = s.ahead n + 1 := ahead_succ s n (by omega)
    have hmem : m ∈ missingIn n (s.settle n).rx.known { e with first := n + 1 } := by
      have e1 : (s.settle n).ahead (n + 1) = 1 := by have := ahead_next (s.settle n); exact this
      have e2 : (s.settle n).ahead e.last = s.ahead e.last - s.ahead n := ahead_shift (show s.ahead n ≤ _ by omega)
      have e3 : (s.settle n).ahead m = s.ahead m - s.ahead n := ahead_shift (show s.ahead n ≤ _ by omega)
      have h4 : m ∈ (s.settle n).missing { e with first := n + 1 } := by
        rw [State.mem_missing (by rw [e1]) (by rw [e1, e2]; omega) (by rw [e2]; omega)]
        rw [e1, e2, e3, State.knownAt_settle hm]
        exact ⟨by omega, by omega, hk⟩
      exact h4
    dsimp only
    rw [if_neg (by simp only [List.isEmpty_iff]; intro hz; rw [hz] at hmem; simp at hmem)]
    exact ⟨_, rfl, by simp only [h3]; omega, hc.2, rfl⟩
  · rw [if_neg h2]
    exact ⟨e, rfl, hc.1, hc.2, rfl⟩

/-- The receive order is kept when the settled point moves forward, every held notice lying after it (R92, R118). -/
theorem OrderSound_settle {s : State} {n : LineNo} (h : OrderSound s) (hn : s.ahead n ≤ s.ahead s.rx.count)
    (hh : ∀ x ∈ s.rx.holdSet, s.ahead n < s.ahead x.number) : OrderSound (s.settle n) := by
  obtain ⟨h1, h2, h3, h4, h5, h6, h7, h8⟩ := h
  have hsh : ∀ m, s.ahead n ≤ s.ahead m → (s.settle n).ahead m = s.ahead m - s.ahead n := fun m hm => ahead_shift hm
  have hc := hsh s.rx.count hn
  have hg : ∀ e ∈ s.gaps, 1 ≤ s.ahead e.first ∧ s.ahead e.first ≤ s.ahead e.last ∧ s.ahead e.last ≤ 256 :=
    fun e he => ⟨(h5 e he).1, (h5 e he).2.1, by have := (h5 e he).2.2; omega⟩
  have htr : ∀ e' ∈ (s.settle n).gaps, ∃ e ∈ s.gaps, trimGap n (s.settle n).rx.known e = some e' := by
    intro e' he'
    obtain ⟨e, he, h9⟩ := List.mem_filterMap.mp he'
    exact ⟨e, he, h9⟩
  refine ⟨?_, ?_, ?_, ?_, ?_, ?_, ?_, ?_⟩
  · show (s.settle n).ahead s.rx.count ≤ 256
    omega
  · intro i hi
    change (s.settle n).ahead s.rx.count ≤ i at hi
    show (s.rx.known >>> s.ahead n).getLsbD i = false
    rw [BitVec.getLsbD_ushiftRight]; exact h2 _ (by omega)
  · intro x hx
    rw [State.knownAt_settle (hh x hx)]; exact h3 x hx
  · refine List.Pairwise.imp_of_mem ?_ h4
    intro a b ha hb hab
    have := hh a ha; have := hh b hb
    rw [hsh a.number (by omega), hsh b.number (by omega)]; omega
  · intro e' he'
    obtain ⟨e, he, h9⟩ := htr e' he'
    obtain ⟨k1, k2, k3, k4, -⟩ := trimGap_some (by omega) (hg e he) h9
    have := (h5 e he).2.2
    show 1 ≤ (s.settle n).ahead e'.first ∧ (s.settle n).ahead e'.first ≤ (s.settle n).ahead e'.last
      ∧ (s.settle n).ahead e'.last ≤ (s.settle n).ahead s.rx.count
    rw [k4] at k2 ⊢
    rw [hsh e'.first (by omega), hsh e.last (by omega)]; omega
  · show (s.gaps.filterMap (trimGap n (s.settle n).rx.known)).Pairwise _
    rw [List.pairwise_filterMap]
    refine List.Pairwise.imp_of_mem ?_ h6
    intro a b ha hb hab a' ha' b' hb'
    obtain ⟨k1, k2, k3, k4, k5, -⟩ := trimGap_some (by omega) (hg a ha) ha'
    obtain ⟨l1, l2, l3, l4, l5, -⟩ := trimGap_some (by omega) (hg b hb) hb'
    rw [k4] at k2 ⊢
    rw [k5, l5, hsh a.last (by omega), hsh b'.first (by omega)]
    exact ⟨by omega, hab.2⟩
  · intro e' he'
    obtain ⟨e, he, h9⟩ := htr e' he'
    obtain ⟨-, -, -, -, k5, -⟩ := trimGap_some (by omega) (hg e he) h9
    rw [k5]; exact h7 e he
  · exact Nat.le_trans (List.length_filterMap_le _ _) h8

/-! ### The LOST run -/

/-- A LOST run goes over unknown positions of LOST entries only, and ends before one that is not (R102). -/
theorem State.lostRunEnd_spec {s : State} (h : OrderSound s) (fuel : Nat) (n : LineNo) (h1 : s.ahead n ≤ s.ahead s.rx.count)
    (hf : s.ahead s.rx.count - s.ahead n ≤ fuel) :
    s.ahead n ≤ s.ahead (s.lostRunEnd fuel n) ∧ s.ahead (s.lostRunEnd fuel n) ≤ s.ahead s.rx.count
      ∧ (∀ m, s.ahead n < s.ahead m → s.ahead m ≤ s.ahead (s.lostRunEnd fuel n) →
          s.knownAt m = false ∧ s.lostAt m = true)
      ∧ (s.knownAt (s.lostRunEnd fuel n + 1) = true ∨ s.lostAt (s.lostRunEnd fuel n + 1) = false) := by
  have hlost : ∀ m, s.lostAt m = true → 1 ≤ s.ahead m ∧ s.ahead m ≤ s.ahead s.rx.count := by
    intro m hm
    unfold State.lostAt at hm
    obtain ⟨e, he, h2⟩ := List.any_eq_true.mp hm
    have h3 := h.2.2.2.2.1 e he
    rw [Bool.and_eq_true, GapEntry.covers_iff (s := s) h3.2.1] at h2
    omega
  have h256 := h.1
  induction fuel generalizing n with
  | zero =>
    unfold State.lostRunEnd
    refine ⟨Nat.le_refl _, h1, by intro m h2 h3; omega, Or.inr ?_⟩
    rw [← Bool.not_eq_true]; intro h2
    have h3 := hlost _ h2
    rw [ahead_succ s n (by omega)] at h3; omega
  | succ fuel ih =>
    unfold State.lostRunEnd
    split
    · rename_i h2
      rw [Bool.and_eq_true, Bool.not_eq_true'] at h2
      have h3 := hlost _ h2.2
      have h4 := ahead_succ s n (by omega)
      obtain ⟨k1, k2, k3, k4⟩ := ih (n + 1) h3.2 (by omega)
      refine ⟨by omega, k2, ?_, k4⟩
      intro m h5 h6
      by_cases h7 : s.ahead m = s.ahead (n + 1)
      · rw [ahead_inj h7]; exact h2
      · exact k3 m (by omega) h6
    · rename_i h2
      refine ⟨Nat.le_refl _, h1, by intro m h3 h4; omega, ?_⟩
      rw [Bool.and_eq_true, Bool.not_eq_true', not_and_or] at h2
      rcases h2 with h2 | h2
      · exact Or.inl (by simpa using h2)
      · exact Or.inr (by simpa using h2)

/-! ### Steps and runs of the advance -/

/-- What any number of steps of the advance does to the receive order: the settled point moves, at most to the count;
what lies after it is known, or covered by an entry, as it was; notices leave the hold set for the queue only. -/
def MovedOn (s t : State) : Prop :=
  t.rx.count = s.rx.count ∧ s.ahead t.rx.settled ≤ s.ahead s.rx.count
    ∧ (∀ m, s.ahead t.rx.settled < s.ahead m → t.knownAt m = s.knownAt m)
    ∧ (∀ m, s.ahead t.rx.settled < s.ahead m → s.knownAt m = false →
        (∃ e ∈ s.gaps, s.ahead e.first ≤ s.ahead m ∧ s.ahead m ≤ s.ahead e.last) →
          ∃ e ∈ t.gaps, t.ahead e.first ≤ t.ahead m ∧ t.ahead m ≤ t.ahead e.last)
    ∧ (∀ x ∈ s.rx.holdSet, x ∈ t.rx.holdSet ∨ .notice x ∈ t.rx.queue)
    ∧ (∀ x ∈ t.rx.holdSet, x ∈ s.rx.holdSet)
    ∧ ∃ more, t.rx.queue = s.rx.queue ++ more

theorem MovedOn.refl (s : State) : MovedOn s s :=
  ⟨rfl, by simp, fun _ _ => rfl, fun _ _ _ h => h, fun _ h => Or.inl h, fun _ h => h, [], by simp⟩

theorem MovedOn.trans {s t u : State} (hs : OrderSound s) (h : MovedOn s t) (k : MovedOn t u) : MovedOn s u := by
  obtain ⟨h1, h2, h3, h4, h5, h6, q, h7⟩ := h
  obtain ⟨k1, k2, k3, k4, k5, k6, r, k7⟩ := k
  have h256 := hs.1
  have hcnt : t.ahead s.rx.count = s.ahead s.rx.count - s.ahead t.rx.settled := ahead_shift h2
  rw [h1] at k2
  have hu : s.ahead u.rx.settled = s.ahead t.rx.settled + t.ahead u.rx.settled := ahead_unshift (by omega)
  have hsh : ∀ m, s.ahead u.rx.settled < s.ahead m → s.ahead t.rx.settled < s.ahead m
      ∧ t.ahead u.rx.settled < t.ahead m := by
    intro m hm
    have : t.ahead m = s.ahead m - s.ahead t.rx.settled := ahead_shift (by omega)
    omega
  refine ⟨by rw [k1, h1], by omega, ?_, ?_, ?_, fun x hx => h6 x (k6 x hx), q ++ r, ?_⟩
  · intro m hm
    rw [k3 m (hsh m hm).2, h3 m (hsh m hm).1]
  · intro m hm hk hc
    exact k4 m (hsh m hm).2 (by rw [h3 m (hsh m hm).1]; exact hk) (h4 m (hsh m hm).1 hk hc)
  · intro x hx
    rcases h5 x hx with h8 | h8
    · exact k5 x h8
    · exact Or.inr (by rw [k7]; simp [h8])
  · rw [k7, h7, List.append_assoc]

/-- Moving the settled point over an unchanged map and gap table. -/
theorem MovedOn_settle {s u : State} {n : LineNo} (h : OrderSound s) (hr : u.rx.settled = s.rx.settled)
    (hk : u.rx.known = s.rx.known) (hc : u.rx.count = s.rx.count) (hg : u.gaps = s.gaps)
    (hn : s.ahead n ≤ s.ahead s.rx.count)
    (h1 : ∀ x ∈ s.rx.holdSet, x ∈ u.rx.holdSet ∨ .notice x ∈ u.rx.queue)
    (h2 : ∀ x ∈ u.rx.holdSet, x ∈ s.rx.holdSet) (h3 : ∃ more, u.rx.queue = s.rx.queue ++ more) :
    MovedOn s (u.settle n) := by
  have ha : ∀ m, u.ahead m = s.ahead m := fun m => ahead_congr hr m
  have h256 := h.1
  refine ⟨hc, hn, ?_, ?_, h1, h2, h3⟩
  · intro m hm
    change s.ahead n < s.ahead m at hm
    rw [State.knownAt_settle (by rw [ha, ha]; exact hm), knownAt_congr hr hk]
  · intro m hm hkm hcv
    change s.ahead n < s.ahead m at hm
    obtain ⟨e, he, h4⟩ := hcv
    have h5 := h.2.2.2.2.1 e he
    obtain ⟨e', h6, h7, h8, -⟩ := trimGap_keeps (s := u) (n := n) (m := m) (e := e) (by rw [ha]; omega)
      (by simp only [ha]; omega) (by simp only [ha]; exact hm) (by rw [knownAt_congr hr hk]; exact hkm)
      (by simp only [ha]; exact h4)
    obtain ⟨k1, k2, -⟩ := trimGap_some (s := u) (n := n) (by rw [ha]; omega) (by simp only [ha]; omega) h6
    refine ⟨e', ?_, ?_⟩
    · show e' ∈ u.gaps.filterMap _
      rw [List.mem_filterMap]
      exact ⟨e, by rw [hg]; exact he, h6⟩
    · have hsh : ∀ x, u.ahead n ≤ u.ahead x → (u.settle n).ahead x = u.ahead x - u.ahead n := fun x hx => ahead_shift hx
      rw [hsh e'.first (by omega), hsh m (by simp only [ha]; omega), hsh e'.last (by omega)]
      omega

/-- The held notice that stands next is the first of the hold set. -/
theorem holdSet_next {s : State} (h : OrderSound s) {n : RxNotice}
    (hf : s.rx.holdSet.find? (·.number == s.rx.settled + 1) = some n) :
    ∃ rest, s.rx.holdSet = n :: rest ∧ s.rx.holdSet.eraseP (·.number == s.rx.settled + 1) = rest
      ∧ n.number = s.rx.settled + 1 := by
  have hn : n.number = s.rx.settled + 1 := by simpa using List.find?_some hf
  have hm := List.mem_of_find?_eq_some hf
  have hp := h.2.2.2.1
  have hk := h.2.2.1
  cases hl : s.rx.holdSet with
  | nil => rw [hl] at hm; simp at hm
  | cons a l =>
    rw [hl] at hm hp hf
    have h1 := (State.knownAt_iff s _).mp (hk a (by rw [hl]; simp))
    have ha : a = n := by
      rcases List.mem_cons.mp hm with h2 | h2
      · exact h2.symm
      · have h3 := (List.pairwise_cons.mp hp).1 n h2
        rw [hn, ahead_next] at h3; omega
    subst ha
    exact ⟨l, rfl, by rw [List.eraseP_cons_of_pos (by simpa using hn)], hn⟩

/-- One step of the advance (R101, R102): the receive order is kept, and the settled point moves on. -/
theorem State.advanceStep_spec {s t : State} (h : OrderSound s) (ht : s.advanceStep = some t) :
    OrderSound t ∧ MovedOn s t ∧ 1 ≤ s.ahead t.rx.settled := by
  have h256 := h.1
  have hnx : s.ahead (s.rx.settled + 1) = 1 := ahead_next s
  have hkc : ∀ m, s.knownAt m = true → s.ahead m ≤ s.ahead s.rx.count := by
    intro m hm
    obtain ⟨h1, h2⟩ := (State.knownAt_iff s m).mp hm
    by_contra hc
    rw [h.2.1 _ (by omega)] at h2; simp at h2
  obtain ⟨hp, hcase | hcase | hcase⟩ := State.advanceStep_cases ht
  · obtain ⟨n, hn, rfl⟩ := hcase
    obtain ⟨rest, e1, e2, e3⟩ := holdSet_next h hn
    rw [e2]
    have hpw := h.2.2.2.1
    rw [e1] at hpw
    have h1 := hkc n.number (h.2.2.1 n (by rw [e1]; simp))
    rw [e3, hnx] at h1
    have hu : OrderSound ({ s with rx := { s.rx with holdSet := rest } }.appendRecord (.notice n)) := by
      obtain ⟨o1, o2, o3, o4, o5, o6, o7, o8⟩ := h
      refine ⟨o1, o2, ?_, ?_, o5, o6, o7, o8⟩
      · intro x hx; exact o3 x (by rw [e1]; simp at hx ⊢; exact Or.inr hx)
      · exact (List.pairwise_cons.mp hpw).2
    refine ⟨OrderSound_settle hu (by simpa [State.ahead] using h1) ?_, ?_, ?_⟩
    · intro x hx
      have h2 := (List.pairwise_cons.mp hpw).1 x (by simpa using hx)
      rw [e3] at h2
      exact h2
    · refine MovedOn_settle h (by simp) (by simp) (by simp) (by simp) (by rw [hnx]; exact h1) ?_ ?_ ⟨[.notice n], by simp⟩
      · intro x hx
        rw [e1] at hx
        rcases List.mem_cons.mp hx with rfl | hx
        · exact Or.inr (by simp)
        · exact Or.inl (by simpa using hx)
      · intro x hx
        rw [e1]
        exact List.mem_cons_of_mem _ (by simpa using hx)
    · show 1 ≤ s.ahead (s.rx.settled + 1)
      omega
  · obtain ⟨hn, hk, rfl⟩ := hcase
    have h1 := hkc _ hk
    rw [hnx] at h1
    refine ⟨OrderSound_settle h (by rw [hnx]; exact h1) ?_, ?_, ?_⟩
    · intro x hx
      have h2 := ((State.knownAt_iff s _).mp (h.2.2.1 x hx)).1
      have h3 : x.number ≠ s.rx.settled + 1 := by
        rw [List.find?_eq_none] at hn; simpa using hn x hx
      have h4 : s.ahead x.number ≠ 1 := by
        intro hc; exact h3 (ahead_inj (by rw [hc, hnx]))
      omega
    · exact MovedOn_settle h rfl rfl rfl rfl (by rw [hnx]; exact h1) (fun x hx => Or.inl hx) (fun x hx => hx) ⟨[], by simp⟩
    · show 1 ≤ s.ahead (s.rx.settled + 1)
      omega
  · obtain ⟨hn, hk, hl, d, ds, hd, rfl⟩ := hcase
    have h1 : s.ahead (s.rx.settled + 1) ≤ s.ahead s.rx.count := by
      unfold State.lostAt at hl
      obtain ⟨e, he, h2⟩ := List.any_eq_true.mp hl
      have h3 := h.2.2.2.2.1 e he
      rw [Bool.and_eq_true, GapEntry.covers_iff (s := s) h3.2.1] at h2
      omega
    obtain ⟨l1, l2, l3, l4⟩ := State.lostRunEnd_spec h Config.spanLimit (s.rx.settled + 1) h1
      (by unfold Config.spanLimit; omega)
    generalize s.lostRunEnd Config.spanLimit (s.rx.settled + 1) = z at *
    have hu : OrderSound ({ s with pool := { s.pool with freeDescs := ds } }.appendRecord (.lost (s.rx.settled + 1) z d)) := h
    refine ⟨OrderSound_settle hu l2 ?_, ?_, ?_⟩
    · intro x hx
      have h2 := h.2.2.1 x hx
      have h3 := ((State.knownAt_iff s _).mp h2).1
      have h5 : s.ahead x.number ≠ 1 := by
        intro hc
        have h6 : x.number = s.rx.settled + 1 := ahead_inj (by rw [hc, hnx])
        rw [h6, hk] at h2; simp at h2
      show s.ahead z < s.ahead x.number
      by_contra hc
      have h6 := (l3 x.number (by omega) (by omega)).1
      rw [h6] at h2; simp at h2
    · exact MovedOn_settle h rfl rfl rfl rfl l2 (fun x hx => Or.inl hx) (fun x hx => hx) ⟨[_], rfl⟩
    · show 1 ≤ s.ahead z
      omega

/-- A run of the advance (R101): order kept, settled point moved on, and at an end when the fuel covers the span. -/
theorem State.advanceRun_spec {s : State} (h : OrderSound s) (fuel : Nat) :
    OrderSound (State.advanceRun fuel s) ∧ MovedOn s (State.advanceRun fuel s)
      ∧ (s.ahead s.rx.count ≤ fuel → (State.advanceRun fuel s).advanceStep = none) := by
  induction fuel generalizing s with
  | zero =>
    refine ⟨h, MovedOn.refl s, fun h1 => ?_⟩
    show s.advanceStep = none
    by_contra hc
    obtain ⟨t, ht⟩ := Option.ne_none_iff_exists'.mp hc
    obtain ⟨-, h2, h3⟩ := State.advanceStep_spec h ht
    have := h2.2.1; omega
  | succ fuel ih =>
    unfold State.advanceRun
    cases hs : s.advanceStep with
    | none => exact ⟨h, MovedOn.refl s, fun _ => hs⟩
    | some t =>
      obtain ⟨k1, k2, k3⟩ := State.advanceStep_spec h hs
      obtain ⟨i1, i2, i3⟩ := ih k1
      refine ⟨i1, MovedOn.trans h k2 i2, fun h1 => i3 ?_⟩
      have h2 : t.ahead s.rx.count = s.ahead s.rx.count - s.ahead t.rx.settled := ahead_shift k2.2.1
      rw [k2.1]; omega

/-- The advance (R101): order kept, settled point moved on, nothing left to deliver. -/
theorem State.advance_spec {s : State} (h : OrderSound s) :
    OrderSound s.advance ∧ MovedOn s s.advance ∧ s.advance.advanceStep = none := by
  obtain ⟨h1, h2, h3⟩ := State.advanceRun_spec h Config.spanLimit
  exact ⟨h1, h2, h3 h.1⟩

/-- With no descriptor free the advance claims none. -/
theorem State.advanceRun_noDesc {s : State} (h : s.pool.freeDescs = []) (fuel : Nat) :
    (State.advanceRun fuel s).pool.freeDescs = [] := by
  induction fuel generalizing s with
  | zero => exact h
  | succ fuel ih =>
    unfold State.advanceRun
    cases hs : s.advanceStep with
    | none => exact h
    | some t =>
      refine ih ?_
      obtain ⟨-, ⟨n, -, rfl⟩ | ⟨-, -, rfl⟩ | ⟨-, -, -, d, ds, hd, -⟩⟩ := State.advanceStep_cases hs
      · simpa using h
      · simpa using h
      · rw [h] at hd; cases hd

/-- The advance where the next position is LOST and a descriptor is free (R102): one LOST record over the run leads, and with
it the only free descriptor goes. -/
theorem State.advance_of_lost {s : State} {d : Nat} {ds : List Nat} (h : OrderSound s) (hb : s.pool.pendingBase = none)
    (hf : ∀ x ∈ s.rx.holdSet, x.number ≠ s.rx.settled + 1) (hk : s.knownAt (s.rx.settled + 1) = false)
    (hl : s.lostAt (s.rx.settled + 1) = true) (hd : s.pool.freeDescs = d :: ds) :
    ∃ last more, s.advance.rx.queue = s.rx.queue ++ .lost (s.rx.settled + 1) last d :: more
      ∧ LostRun s (fun n => s.lostAt n = true) last ∧ s.ahead last ≤ s.ahead s.advance.rx.settled
      ∧ (ds = [] → s.advance.pool.freeDescs = []) := by
  have hfind : s.rx.holdSet.find? (·.number == s.rx.settled + 1) = none := by
    rw [List.find?_eq_none]; intro x hx; simpa using hf x hx
  have hstep := State.advanceStep_of_lost hb hfind hk hl hd
  obtain ⟨k1, k2, k3⟩ := State.advanceStep_spec h hstep
  have h256 := h.1
  have ha1 : s.ahead (s.rx.settled + 1) = 1 := ahead_next s
  have hle : s.ahead (s.rx.settled + 1) ≤ s.ahead s.rx.count := by have := k2.2.1; omega
  obtain ⟨l1, l2, l3, l4⟩ := State.lostRunEnd_spec h Config.spanLimit (s.rx.settled + 1) hle
    (by rw [Config.spanLimit]; omega)
  generalize s.lostRunEnd Config.spanLimit (s.rx.settled + 1) = z at *
  generalize hv : (({ s with pool := { s.pool with freeDescs := ds } } : State).appendRecord
    (.lost (s.rx.settled + 1) z d)).settle z = v at *
  have hadv : s.advance = State.advanceRun 255 v := by
    unfold State.advance Config.spanLimit
    rw [show (256 : Nat) = 255 + 1 from rfl, State.advanceRun, hstep]
  obtain ⟨-, i2, -⟩ := State.advanceRun_spec k1 255
  rw [← hadv] at i2
  have hvs : v.rx.settled = z := by rw [← hv]; rfl
  obtain ⟨more, hm⟩ := i2.2.2.2.2.2.2
  refine ⟨z, more, ?_, ⟨by omega, ?_, ?_⟩, ?_, ?_⟩
  · rw [hm, ← hv]; simp
  · intro n h1 h2
    by_cases hq : s.ahead n = s.ahead (s.rx.settled + 1)
    · rw [ahead_inj hq]; exact ⟨hk, hl⟩
    · exact l3 n (by omega) h2
  · rcases l4 with l4 | l4
    · exact Or.inl l4
    · exact Or.inr (by show ¬s.lostAt (z + 1) = true; rw [l4]; exact Bool.false_ne_true)
  · have h1 := i2.2.1
    have h2 : v.ahead v.rx.count = s.ahead s.rx.count - s.ahead v.rx.settled := by
      rw [k2.1]; exact ahead_shift k2.2.1
    have h3 := ahead_unshift (s := s) (t := v) (m := s.advance.rx.settled) (by rw [hvs] at h2 ⊢; omega)
    rw [hvs] at h3
    omega
  · intro hn
    rw [hadv]
    apply State.advanceRun_noDesc
    rw [← hv]; simpa using hn

/-! ### Positions become known, notices are held -/

/-- The receive order is kept when a position between the settled point and the count becomes known (R93, R117). -/
theorem OrderSound_makeKnown {s : State} {n : LineNo} (h : OrderSound s) (h1 : 1 ≤ s.ahead n)
    (h2 : s.ahead n ≤ s.ahead s.rx.count) : OrderSound (s.makeKnown n) := by
  obtain ⟨o1, o2, o3, o4, o5, o6, o7, o8⟩ := h
  refine ⟨o1, ?_, ?_, o4, ?_, ?_, ?_, ?_⟩
  · intro i hi
    change s.ahead s.rx.count ≤ i at hi
    show (markKnown s.rx.settled s.rx.known n).getLsbD i = false
    rw [markKnown_getLsbD, o2 i hi, ← State.ahead_eq]
    simp only [Bool.false_or, Bool.and_eq_false_iff, decide_eq_false_iff_not]
    omega
  · intro x hx
    rw [State.knownAt_makeKnown h1 (by omega), o3 x hx]; rfl
  · intro e he; exact o5 e (List.mem_filter.mp he).1
  · exact o6.sublist List.filter_sublist
  · intro e he; exact o7 e (List.mem_filter.mp he).1
  · exact Nat.le_trans (List.length_filter_le _ _) o8

/-- An entry put at its place keeps the hold set in serial order (R94). -/
theorem pairwise_insertHeld (st : LineNo) (n : RxNotice) (l : List RxNotice)
    (h : l.Pairwise (fun a b => (a.number - st).toNat < (b.number - st).toNat))
    (hn : ∀ x ∈ l, x.number ≠ n.number) :
    (insertHeld st n l).Pairwise (fun a b => (a.number - st).toNat < (b.number - st).toNat) := by
  induction l with
  | nil => simp [insertHeld]
  | cons a l ih =>
    have hp := List.pairwise_cons.mp h
    unfold insertHeld
    split
    · rename_i hlt
      refine List.pairwise_cons.mpr ⟨?_, h⟩
      intro x hx
      rcases List.mem_cons.mp hx with rfl | hx
      · exact hlt
      · exact Nat.lt_trans hlt (hp.1 x hx)
    · rename_i hge
      refine List.pairwise_cons.mpr ⟨?_, ih hp.2 (fun x hx => hn x (List.mem_cons_of_mem _ hx))⟩
      intro x hx
      rcases (mem_insertHeld st n l x).mp hx with rfl | hx
      · have h1 : (a.number - st).toNat ≠ (x.number - st).toNat := by
          intro hc
          have h2 := BitVec.eq_of_toNat_eq hc
          have h3 : a.number - st + st = x.number - st + st := by rw [h2]
          exact hn a (by simp) (by simpa using h3)
        omega
      · exact hp.1 x hx

/-- The receive order is kept when a notice of an unknown position, at or before the count, is held (R42, R94). -/
theorem OrderSound_hold {s : State} {n : RxNotice} (h : OrderSound s) (h1 : 1 ≤ s.ahead n.number)
    (h2 : s.ahead n.number ≤ s.ahead s.rx.count) (h3 : s.knownAt n.number = false) : OrderSound (s.hold n) := by
  have hx : ∀ x ∈ s.rx.holdSet, x.number ≠ n.number := by
    intro x hx hc
    have h4 := h.2.2.1 x hx
    rw [hc, h3] at h4; simp at h4
  obtain ⟨k1, k2, k3, k4, k5, k6, k7, k8⟩ := OrderSound_makeKnown h h1 h2
  have h256 := h.1
  refine ⟨k1, k2, ?_, pairwise_insertHeld _ _ _ h.2.2.2.1 hx, k5, k6, k7, k8⟩
  intro x hx2
  have h4 : (s.hold n).knownAt x.number = (s.makeKnown n.number).knownAt x.number := knownAt_congr rfl rfl _
  rw [h4, State.knownAt_makeKnown h1 (by omega)]
  rcases (mem_insertHeld _ _ _ _).mp hx2 with rfl | hx2
  · simp
  · rw [h.2.2.1 x hx2]; rfl

end Sys2Proof.Machine
end

