-- ==== Sys2Proof/Laws/Bounds.lean ====
section
/-!
SUPPORT. The bounds of the report queue, of the overflow count and of the saturating counts, operation by operation (R29,
R51, R141, R175).
-/

namespace Sys2Proof.Machine

theorem saturate_le (n : Nat) : saturate n ≤ 255 := Nat.min_le_right _ _

/-- The report queue and its overflow count within their bounds (R175). -/
def PortBounded (s : State) : Prop := s.port.reports.length ≤ 16 ∧ s.port.overflow ≤ 255

theorem PortBounded.congr {s t : State} (h : t.port = s.port) (hs : PortBounded s) : PortBounded t := by
  unfold PortBounded; rw [h]; exact hs

theorem PortBounded.postReport {s : State} (h : PortBounded s) (r : Report) : PortBounded (s.postReport r) := by
  unfold State.postReport Config.reportRecords
  split
  · refine ⟨?_, h.2⟩
    simp only [List.length_append, List.length_singleton]; omega
  · exact ⟨h.1, saturate_le _⟩

theorem PortBounded.evaluateRelease {s : State} (h : PortBounded s) : PortBounded s.evaluateRelease := h.congr (by simp)

theorem PortBounded.advance {s : State} (h : PortBounded s) : PortBounded s.advance := h.congr (by simp)

theorem PortBounded.postReports {s : State} (h : PortBounded s) (rs : List Report) : PortBounded (s.postReports rs) := by
  unfold State.postReports
  induction rs generalizing s with
  | nil => exact h
  | cons r rs ih => exact ih (h.postReport r)

theorem PortBounded.enterState {s : State} (h : PortBounded s) (st : StationState) (c : StateCause) :
    PortBounded (s.enterState st c) := (show PortBounded { s with stn := { s.stn with state := st } } from h).postReport _

theorem PortBounded.discardSend {s : State} (h : PortBounded s) : PortBounded s.discardSend := by
  have hp := State.discardSend_port s
  split at hp
  · exact h.congr hp
  · exact (h.postReport _).congr hp

theorem PortBounded.applyHorizon {s : State} (h : PortBounded s) : PortBounded s.applyHorizon := by
  unfold State.applyHorizon
  split
  · exact h
  · refine PortBounded.evaluateRelease (PortBounded.postReports ?_ _)
    exact h

theorem PortBounded.headerMember {s : State} (h : PortBounded s) (hd : Header) (l : Bool) :
    PortBounded (s.headerMember hd l) := by
  have hr : PortBounded (s.removeMember hd.sender) := h
  unfold State.headerMember
  split
  · split
    · exact (hr.postReport _).evaluateRelease
    · exact h
  · split
    · split
      · exact (hr.postReport _).evaluateRelease
      · exact h
    · split
      · dsimp only
        split
        · exact h
        · exact h.congr (by simp)
      · dsimp only
        refine PortBounded.postReport ?_ _
        exact h

theorem PortBounded.takeWord {s : State} (h : PortBounded s) (n : StationNo) (w : Word16) :
    PortBounded (s.takeWord n w) := by
  unfold State.takeWord
  split
  · split
    · exact h
    · exact PortBounded.postReport (s := s.updateMember n _) h _
  · exact h

theorem PortBounded.handRange {s : State} (h : PortBounded s) (a z : LineNo) : PortBounded (s.handRange a z) := by
  unfold State.handRange
  split
  · exact h
  · split
    · refine PortBounded.advance (PortBounded.postReport ?_ _)
      exact h
    · exact h

theorem PortBounded.raiseCount {s : State} (h : PortBounded s) (n l : LineNo) : PortBounded (s.raiseCount n l) := by
  unfold State.raiseCount
  have h1 : ∀ k, PortBounded { ({ s with rx := { s.rx with count := n } } : State).clearCatchingUp with freeReads := k } :=
    fun k => h
  dsimp only
  split
  · exact (h1 s.freeReads).applyHorizon
  · split
    · split
      · exact ((h1 _).handRange _ _).applyHorizon
      · exact (h1 _).applyHorizon.handRange _ _
    · exact (h1 s.freeReads).applyHorizon.handRange _ _

theorem PortBounded.setCount {s : State} (h : PortBounded s) (n : LineNo) : PortBounded (s.setCount n) :=
  PortBounded.applyHorizon (s := { s with rx := _ }) h

theorem PortBounded.resync {s : State} (h : PortBounded s) (r : BaseReason) (c : StateCause) (n : LineNo) :
    PortBounded (s.resync r c n) := by
  obtain ⟨-, -, -, -, -, -, -, -, -, -, hp⟩ := State.resync_spec s r c n
  refine PortBounded.congr hp (PortBounded.postReport (PortBounded.setCount ?_ n) _)
  exact h.congr (by simp)

theorem PortBounded.spanResync {s : State} (h : PortBounded s) (n : LineNo) : PortBounded (s.spanResync n) := by
  unfold State.spanResync; split
  · exact h.resync _ _ _
  · exact h

theorem PortBounded.adopt {s : State} (h : PortBounded s) (n : LineNo) : PortBounded (s.adopt n) := by
  unfold State.adopt
  refine PortBounded.enterState (PortBounded.congr (s := s.setCount n) ?_ (h.setCount n)) _ _
  simp

theorem PortBounded.found {s : State} (h : PortBounded s) : PortBounded s.found := by
  unfold State.found
  refine PortBounded.enterState (PortBounded.congr (s := s.setCount 0) ?_ (h.setCount 0)) _ _
  simp

theorem PortBounded.include {s : State} (h : PortBounded s) : PortBounded s.include := by
  unfold State.include
  refine PortBounded.enterState ?_ _ _
  exact h

theorem PortBounded.joinFailure {s : State} (h : PortBounded s) : PortBounded s.joinFailure := by
  unfold State.joinFailure
  dsimp only
  refine PortBounded.enterState (PortBounded.congr (s := s.postReport (.joinUnanswered s.stn.joinBeacons)) ?_
    (h.postReport _)) _ _
  simp

theorem PortBounded.enterLeaving {s : State} (h : PortBounded s) : PortBounded s.enterLeaving := by
  unfold State.enterLeaving
  refine PortBounded.enterState ?_ _ _
  exact h

theorem PortBounded.takeHeld {s : State} (h : PortBounded s) : PortBounded s.takeHeld := by
  unfold State.takeHeld
  split
  · exact h.enterLeaving
  · split
    · exact h.joinFailure
    · exact h

theorem PortBounded.quit {s : State} (h : PortBounded s) : PortBounded s.quit :=
  h.discardSend.congr (State.quit_spec s).2.2.2.2.2.2.2.1

theorem PortBounded.enterIdle {s : State} (h : PortBounded s) (c : StateCause) : PortBounded (s.enterIdle c) :=
  h.quit.enterState _ _

theorem PortBounded.halt {s : State} (h : PortBounded s) : PortBounded s.halt := (h.postReport _).quit.enterState _ _

theorem PortBounded.headerProcess {s : State} (h : PortBounded s) (hd : Header) (l : Bool) :
    PortBounded (s.headerProcess hd l).1 := by
  unfold State.headerProcess
  have h1 := h.headerMember hd l
  dsimp only
  split
  · exact h1.spanResync _
  · split
    · exact h1.raiseCount _ _
    · exact h1

/-- The other counts, and with them the whole of the bounds. -/
theorem CountsBounded_of {s t : State} (hs : CountsBounded s) (hp : PortBounded t)
    (hl : t.line.collisionCount = s.line.collisionCount) (hc : t.commit.objections = s.commit.objections)
    (hj : t.stn.joinBeacons = s.stn.joinBeacons) : CountsBounded t := by
  obtain ⟨-, -, h3, h4, h5⟩ := hs
  exact ⟨hp.1, hp.2, by rw [hl]; exact h3, by rw [hc]; exact h4, by rw [hj]; exact h5⟩

theorem CountsBounded.port {s : State} (h : CountsBounded s) : PortBounded s := ⟨h.1, h.2.1⟩

end Sys2Proof.Machine
end

