-- ==== Sys2Proof/Laws/Bytes.lean ====
section
/-!
SUPPORT. The byte layouts read back what was written: 16-bit fields, 32-position sets, numbers and codes in a byte.
-/

namespace Sys2Proof.Machine

@[simp] theorem of16_be16 (w : BitVec 16) : of16 (w.extractLsb' 8 8) (w.extractLsb' 0 8) = w := by
  apply BitVec.eq_of_getLsbD_eq
  intro i hi
  simp only [of16, BitVec.getLsbD_append, BitVec.getLsbD_extractLsb']
  by_cases h : i < 8
  · simp [h]
  · simp [h, show i - 8 < 8 by omega, show 8 + (i - 8) = i by omega]

@[simp] theorem of32_be32 (w : BitVec 32) : of32 (w.extractLsb' 24 8) (w.extractLsb' 16 8) (w.extractLsb' 8 8)
    (w.extractLsb' 0 8) = w := by
  apply BitVec.eq_of_getLsbD_eq
  intro i hi
  simp only [of32, BitVec.getLsbD_append, BitVec.getLsbD_extractLsb']
  by_cases h : i < 8
  · simp [h, show i < 16 by omega]
  · by_cases h2 : i < 16
    · simp [h, h2, show i - 8 < 8 by omega, show 8 + (i - 8) = i by omega]
    · by_cases h3 : i < 24
      · simp [h2, show i - 16 < 8 by omega, show 16 + (i - 16) = i by omega]
      · simp [h2, show ¬ i - 16 < 8 by omega, show i - 16 - 8 < 8 by omega, show 24 + (i - 16 - 8) = i by omega]

@[simp] theorem setWidth_byteOf5 (n : BitVec 5) : (byteOf5 n).setWidth 5 = n := by
  simp [byteOf5]

@[simp] theorem byteOf5_toNat (n : BitVec 5) : (byteOf5 n).toNat = n.toNat := by
  have := n.isLt
  simp only [byteOf5, BitVec.toNat_setWidth]; omega

@[simp] theorem beaconKindOf_code (k : BeaconKind) : beaconKindOf (BeaconKind.code k) = some k := by
  cases k <;> rfl

/-- The state bits of a header's second byte. -/
theorem extract_state (st : StationState) (n : StationNo) :
    (StationState.code st ++ n : BitVec 8).extractLsb' 5 3 = StationState.code st := by
  apply BitVec.eq_of_getLsbD_eq
  intro i hi
  rw [BitVec.getLsbD_extractLsb']
  have h := BitVec.getLsbD_append (x := StationState.code st) (y := n) (i := 5 + i)
  simpa [hi] using h

/-- The number bits of a header's second byte. -/
theorem extract_sender (st : StationState) (n : StationNo) :
    (StationState.code st ++ n : BitVec 8).extractLsb' 0 5 = n := by
  apply BitVec.eq_of_getLsbD_eq
  intro i hi
  rw [BitVec.getLsbD_extractLsb']
  have h := BitVec.getLsbD_append (x := StationState.code st) (y := n) (i := i)
  simpa [hi] using h

/-- A sender state that a frame may carry is read back from its code. -/
theorem senderStateOf_code {st : StationState} (h : st = .joining ∨ st = .active ∨ st = .leaving) :
    senderStateOf (StationState.code st) = some st := by
  rcases h with rfl | rfl | rfl <;> rfl

@[simp] theorem be16_length (w : BitVec 16) : (be16 w).length = 2 := rfl

end Sys2Proof.Machine
end

