-- ==== Sys2Proof/Laws/Members.lean ====
section
/-!
SUPPORT. The member table: finding, inserting, changing and removing entries.
-/

namespace Sys2Proof.Machine

/-- A member is found where its entry stands alone. -/
theorem State.member_eq_some {s : State} {before after : List Member} {m : Member} {n : StationNo}
    (h : s.members = before ++ m :: after) (hm : m.station = n) (hb : ∀ e ∈ before, e.station ≠ n) :
    s.member n = some m := by
  unfold State.member
  rw [h, List.find?_append, List.find?_eq_none.mpr (by intro x hx; simpa using hb x hx),
    List.find?_cons_of_pos (by simpa using hm)]; rfl

theorem State.member_eq_none {s : State} {n : StationNo} (h : ∀ e ∈ s.members, e.station ≠ n) : s.member n = none := by
  unfold State.member
  rw [List.find?_eq_none]; intro x hx; simpa using h x hx

/-- Taking one station's entry out. -/
theorem filter_station {l before after : List Member} {m : Member} {n : StationNo} (h : l = before ++ m :: after)
    (hm : m.station = n) (ho : ∀ e ∈ before ++ after, e.station ≠ n) :
    (l.filter fun e => !(e.station == n)) = before ++ after := by
  rw [h, List.filter_append, List.filter_cons_of_neg (by simp [hm]), ← List.filter_append, List.filter_eq_self]
  intro e he; simpa using ho e he

/-- Changing one station's entry. -/
theorem map_station {l before after : List Member} {m : Member} {n : StationNo} (f : Member → Member)
    (h : l = before ++ m :: after) (hm : m.station = n) (ho : ∀ e ∈ before ++ after, e.station ≠ n) :
    (l.map fun e => if e.station == n then f e else e) = before ++ f m :: after := by
  have hid : ∀ k : List Member, (∀ e ∈ k, e.station ≠ n) → (k.map fun e => if e.station == n then f e else e) = k := by
    intro k hk
    rw [List.map_congr_left (g := id) (by intro e he; simp [hk e he])]; simp
  rw [h, List.map_append, List.map_cons, hid before (fun e he => ho e (by simp [he])),
    hid after (fun e he => ho e (by simp [he]))]
  simp [hm]

/-- An entry inserted: where it stands (R148). -/
theorem insertMember_split (m : Member) (l : List Member) : ∃ before after, l = before ++ after
    ∧ insertMember m l = before ++ m :: after ∧ (∀ e ∈ before, e.station.toNat ≤ m.station.toNat)
    ∧ (l.Pairwise (fun a b => a.station.toNat < b.station.toNat) → ∀ e ∈ after, m.station.toNat < e.station.toNat) := by
  induction l with
  | nil => exact ⟨[], [], rfl, rfl, by simp, by simp⟩
  | cons x xs ih =>
    unfold insertMember
    split
    · rename_i hlt
      refine ⟨[], x :: xs, rfl, rfl, by simp, ?_⟩
      intro hp e he
      rcases List.mem_cons.mp he with rfl | he
      · exact hlt
      · exact Nat.lt_trans hlt ((List.pairwise_cons.mp hp).1 e he)
    · rename_i hge
      obtain ⟨b, a, h1, h2, h3, h4⟩ := ih
      refine ⟨x :: b, a, by rw [h1]; rfl, by rw [h2]; rfl, ?_, ?_⟩
      · intro e he
        rcases List.mem_cons.mp he with rfl | he
        · omega
        · exact h3 e he
      · intro hp; exact h4 (List.pairwise_cons.mp hp).2

/-- What the header leaves in the member table comes from an entry that stood there, or is the sender's new one; the
included-me flag and the status word of an entry stay (R149, R150). -/
theorem State.headerMember_mem {s : State} {h : Header} {leaving : Bool} {e : Member}
    (he : e ∈ (s.headerMember h leaving).members) :
    e ∈ s.members
      ∨ (∃ m ∈ s.members, m.station = h.sender ∧ e = { m with
          state := h.senderState, settled := h.settled, presence := .running s.presenceInterval }
          ∧ beyondHorizon h.settled s.rx.count = false ∧ leaving = false)
      ∨ (e = { station := h.sender, state := h.senderState, settled := h.settled
               presence := .running s.presenceInterval, includedMe := false, word := none }
          ∧ s.member h.sender = none ∧ beyondHorizon h.settled s.rx.count = false ∧ leaving = false) := by
  unfold State.headerMember at he
  split at he
  · split at he
    · simp at he; exact Or.inl he.1
    · exact Or.inl he
  · rename_i hb
    split at he
    · split at he
      · simp at he; exact Or.inl he.1
      · exact Or.inl he
    · rename_i hl
      split at he
      · have h1 : ∀ t : State, e ∈ t.members → t.members = (s.members.map fun m => if m.station == h.sender then
            { m with state := h.senderState, settled := h.settled, presence := .running s.presenceInterval } else m) →
            e ∈ s.members ∨ ∃ m ∈ s.members, m.station = h.sender ∧ e = { m with
              state := h.senderState, settled := h.settled, presence := .running s.presenceInterval } := by
          intro t ht hte
          rw [hte] at ht
          obtain ⟨m, hm, rfl⟩ := List.mem_map.mp ht
          split
          · rename_i hs; exact Or.inr ⟨m, hm, by simpa using hs, rfl⟩
          · exact Or.inl hm
        have h2 : e ∈ s.members ∨ ∃ m ∈ s.members, m.station = h.sender ∧ e = { m with
              state := h.senderState, settled := h.settled, presence := .running s.presenceInterval } := by
          split at he
          · exact h1 _ he (by simp)
          · exact h1 _ he (by simp)
        rcases h2 with h2 | ⟨m, hm, hs, rfl⟩
        · exact Or.inl h2
        · exact Or.inr (Or.inl ⟨m, hm, hs, rfl, by simpa using hb, by simpa using hl⟩)
      · rename_i hn
        simp only [State.postReport_frame] at he
        obtain ⟨b, a, h1, h2, -, -⟩ := insertMember_split
          { station := h.sender, state := h.senderState, settled := h.settled
            presence := .running s.presenceInterval, includedMe := false, word := none } s.members
        rw [h2] at he
        rw [h1]
        simp only [List.mem_append, List.mem_cons] at he ⊢
        rcases he with he | rfl | he
        · exact Or.inl (Or.inl he)
        · exact Or.inr (Or.inr ⟨rfl, hn, by simpa using hb, by simpa using hl⟩)
        · exact Or.inl (Or.inr he)

end Sys2Proof.Machine
end

