-- ==== Sys2Proof/Laws/LineSound.lean ====
section
/-!
SUPPORT. The line interface, the states off the line and the pending-BASE register (R16, R31, R68, R132, R145), operation by
operation.
-/

namespace Sys2Proof.Machine

/-! ### The line interface -/

/-- Neither an own frame nor a window: the line interface is sound when line timing agrees with the state. -/
theorem LineSound_quiet {s : State} (h1 : s.line.ownFrame = none) (h2 : s.line.window = none) (h3 : s.line.driving = false)
    (h4 : s.line.timing = .off ↔ s.stn.hearsLine = false) : LineSound s := by
  refine ⟨by simp [h1], by simp [h2], h4, by simp [h3]⟩

/-- What the line interface's invariant looks at. -/
theorem LineSound.congr {s t : State} (h : LineSound s) (h1 : t.line.ownFrame = s.line.ownFrame)
    (h2 : t.line.window = s.line.window) (h3 : t.line.timing = s.line.timing) (h4 : t.line.driving = s.line.driving)
    (h5 : t.line.id = s.line.id) (h6 : t.stn.state = s.stn.state) (h7 : t.stn.listenTimer = s.stn.listenTimer) :
    LineSound t := by
  unfold LineSound OwnFrameSound WindowSound StationBlock.onLine StationBlock.hearsLine at *
  rw [h1, h2, h3, h4, h5, h6, h7]; exact h

/-- Giving up the slots of an idle line leaves the line interface sound (R24, R144). -/
theorem LineSound.waitForIdle {s : State} (h : LineSound s) : LineSound s.waitForIdle := by
  unfold LineSound OwnFrameSound WindowSound at *
  simpa only [State.waitForIdle_frame, State.waitForIdle_timing_off] using h

/-- A passage between states on the line changes nothing for an own frame or a full receiver's window. -/
theorem LineSound.onLine {s t : State} (h : LineSound s) (hl : t.line = s.line) (hs : s.stn.onLine = true)
    (ht : t.stn.onLine = true) : LineSound t := by
  have hx : ∀ b : StationBlock, b.onLine = true → b.hearsLine = true := by
    intro b hb
    rw [StationBlock.onLine_iff] at hb; rw [StationBlock.hearsLine_iff]
    rcases hb with hb | hb | hb <;> simp [hb]
  obtain ⟨h1, h2, h3, h4⟩ := h
  refine ⟨?_, ?_, ?_, ?_⟩
  · intro f hf
    rw [hl] at hf
    obtain ⟨-, k2, k3, k4⟩ := h1 f hf
    refine ⟨ht, k2, ?_, ?_⟩ <;> rw [hl]
    · exact k3
    · exact k4
  · intro w hw
    rw [hl] at hw
    have k := h2 w hw
    unfold WindowSound at k ⊢
    rw [hl]
    cases hr : w.role with
    | sender => rw [hr] at k; exact k
    | receiver => rw [hr] at k; exact ⟨k.1, ht⟩
    | adopting =>
      rw [hr] at k
      rw [StationBlock.onLine_iff] at hs
      obtain ⟨-, k2, -⟩ := k
      rw [k2] at hs; simp at hs
  · rw [hl, h3, hx _ hs, hx _ ht]
  · rw [hl]; exact h4

/-- A station that can receive has a quiet line interface (R16, R30, R31). -/
theorem LineSound.quiet_of_receiving {s : State} (h : LineSound s) (hr : s.receiving = true) :
    s.line.ownFrame = none ∧ s.line.window = none ∧ s.line.driving = false ∧ s.stn.hearsLine = true := by
  unfold State.receiving at hr
  simp only [Bool.and_eq_true, Option.isNone_iff_eq_none] at hr
  obtain ⟨⟨⟨h1, -⟩, h2⟩, h3⟩ := hr
  refine ⟨h2, h3, ?_, h1⟩
  by_contra hc
  rcases h.2.2.2 (by simpa using hc) with ⟨f, hf, -⟩ | ⟨w, hw, -⟩
  · rw [h2] at hf; simp at hf
  · rw [h3] at hw; simp at hw

/-- A station that has left the line (R145). -/
theorem LineSound_of_quit {s t : State} (h : t.line = s.quit.line)
    (hs : t.stn.state = .idle ∨ t.stn.state = .halted) : LineSound t := by
  obtain ⟨-, -, -, -, -, -, -, -, -, hl, -⟩ := State.quit_spec s
  rw [hl] at h
  refine LineSound_quiet ?_ ?_ ?_ ?_ <;> rw [h]
  have : t.stn.hearsLine = false := by
    rw [← Bool.not_eq_true, StationBlock.hearsLine_iff]; rcases hs with hs | hs <;> simp [hs]
  simp [this]

/-! ### Off the line -/

/-- On the line the invariant of the states off it says nothing. -/
theorem OffLineEmpty_of_onLine {s : State} (h : s.stn.onLine = true) : OffLineEmpty s := by
  refine ⟨by simp [h], ?_⟩
  intro hs
  rw [StationBlock.onLine_iff] at h
  rcases hs with hs | hs <;> rw [hs] at h <;> simp at h

/-- In LISTEN nothing is stored, and no frame is the station's own. -/
theorem OffLineEmpty_of_listen {s : State} (hs : s.stn.state = .listen) (h1 : s.rx.holdSet = []) (h2 : s.rx.known = 0)
    (h3 : s.gaps = []) (h4 : s.commit.provisional = none) (h5 : s.line.ownFrame = none) : OffLineEmpty s := by
  exact ⟨fun _ => ⟨h1, h2, h3, h4, h5⟩, by simp [hs]⟩

/-- What the invariant of the states off the line looks at. -/
theorem OffLineEmpty.congr {s t : State} (h : OffLineEmpty s) (h1 : t.rx.holdSet = s.rx.holdSet)
    (h2 : t.rx.known = s.rx.known) (h3 : t.gaps = s.gaps) (h4 : t.commit = s.commit) (h5 : t.line = s.line)
    (h6 : t.send.retained = s.send.retained) (h7 : t.send.outbound = s.send.outbound)
    (h8 : t.send.catchUp = s.send.catchUp) (h9 : t.members = s.members)
    (h10 : t.stn = { s.stn with config := t.stn.config, word := t.stn.word }) : OffLineEmpty t := by
  unfold OffLineEmpty StationBlock.onLine at *
  rw [h10, h1, h2, h3, h4, h5, h6, h7, h8, h9]; exact h

theorem OffLineEmpty.listen {s : State} (h : OffLineEmpty s) (hs : s.stn.state = .listen) :
    s.rx.holdSet = [] ∧ s.rx.known = 0 ∧ s.gaps = [] ∧ s.commit.provisional = none ∧ s.line.ownFrame = none :=
  h.1 (by simp [StationBlock.onLine, hs])

/-! ### The pending-BASE register -/

theorem PendingBaseSound.congr {s t : State} (h : PendingBaseSound s) (h1 : t.pool.pendingBase = s.pool.pendingBase)
    (h2 : t.pool.freeDescs = s.pool.freeDescs) (h3 : t.rx.holdSet = s.rx.holdSet)
    (h4 : t.commit.provisional = s.commit.provisional) : PendingBaseSound t := by
  unfold PendingBaseSound at *; rw [h1, h2, h3, h4]; exact h

/-- No BASE record waits. -/
theorem PendingBaseSound_of_none {s : State} (h : s.pool.pendingBase = none) : PendingBaseSound s := by
  simp [PendingBaseSound, h]

/-- A free descriptor leaves no BASE record waiting (R68). -/
theorem PendingBaseSound.none_of_desc {s : State} (h : PendingBaseSound s) (hd : s.pool.freeDescs ≠ []) :
    s.pool.pendingBase = none := by
  by_contra hc; exact hd (h hc).1

theorem PendingBaseSound.none_of_provisional {s : State} (h : PendingBaseSound s) (hd : s.commit.provisional ≠ none) :
    s.pool.pendingBase = none := by
  by_contra hc; exact hd (h hc).2.2

theorem PendingBaseSound.advance {s : State} (h : PendingBaseSound s) : PendingBaseSound s.advance := by
  by_cases hp : s.pool.pendingBase = none
  · exact PendingBaseSound_of_none (by simpa using hp)
  · rw [State.advance_of_none (State.advanceStep_of_pendingBase hp)]; exact h

/-- A hand-on serves the register, unless no descriptor is free (R67, R68). -/
theorem PendingBaseSound_handOn {s : State}
    (h : s.pool.pendingBase ≠ none → s.rx.holdSet = [] ∧ s.commit.provisional = none) : PendingBaseSound s.handOn := by
  unfold State.handOn
  apply PendingBaseSound.advance
  cases hd : s.pool.freeDescs with
  | nil =>
    rw [State.servePendingBase_of_noDesc hd]
    intro hp; exact ⟨hd, h hp⟩
  | cons d ds =>
    apply PendingBaseSound_of_none
    unfold State.servePendingBase
    cases hp : s.pool.pendingBase with
    | none => simp [hp]
    | some b => simp [hd]

theorem PendingBaseSound_emitBase {s : State} (h1 : s.rx.holdSet = []) (h2 : s.commit.provisional = none)
    (h3 : s.pool.pendingBase ≠ none → s.pool.freeDescs = []) (r : BaseReason) (n : LineNo) :
    PendingBaseSound (s.emitBase r n) := by
  unfold State.emitBase
  split
  · rename_i d ds hd
    have hp : s.pool.pendingBase = none := by
      by_contra hc; rw [h3 hc] at hd; simp at hd
    exact PendingBaseSound_of_none (by simp [hp])
  · rename_i hd
    intro _; exact ⟨hd, h1, h2⟩

theorem PendingBaseSound.freeProvisional {s : State} (h : PendingBaseSound s) : PendingBaseSound s.freeProvisional := by
  cases hp : s.commit.provisional with
  | none => rw [(State.freeProvisional_spec s).1 hp]; exact h
  | some p =>
    have hn := h.none_of_provisional (by simp [hp])
    have e : s.freeProvisional = s.dropProvisional.handOn := by unfold State.freeProvisional; simp [hp]
    rw [e]
    apply PendingBaseSound_handOn
    simp [hn]

theorem PendingBaseSound.handRange {s : State} (h : PendingBaseSound s) (a z : LineNo) :
    PendingBaseSound (s.handRange a z) := by
  unfold State.handRange
  split
  · exact h
  · split
    · apply PendingBaseSound.advance; exact h.congr (by simp) (by simp) (by simp) (by simp)
    · exact h

theorem PendingBaseSound.raiseCount {s : State} (h : PendingBaseSound s) (n l : LineNo) :
    PendingBaseSound (s.raiseCount n l) := by
  have ha : ∀ u : State, PendingBaseSound u → PendingBaseSound u.applyHorizon :=
    fun u hu => hu.congr (by simp) (by simp) (by simp) (by simp)
  have h1 : ∀ k, PendingBaseSound { ({ s with rx := { s.rx with count := n } } : State).clearCatchingUp with freeReads := k } :=
    fun k => h
  unfold State.raiseCount
  dsimp only
  split
  · exact ha _ (h1 s.freeReads)
  · split
    · split
      · exact ha _ ((h1 _).handRange _ _)
      · exact (ha _ (h1 _)).handRange _ _
    · exact (ha _ (h1 s.freeReads)).handRange _ _

theorem PendingBaseSound_resync {s : State} (h : PendingBaseSound s) (r : BaseReason) (c : StateCause) (n : LineNo) :
    PendingBaseSound (s.resync r c n) := by
  have d1 : (s.discardReceive.setCount n).rx.holdSet = [] := by simp [State.discardReceive_eq]
  have d2 : (s.discardReceive.setCount n).commit.provisional = none := by simp [State.discardReceive_eq]
  have d3 : (s.discardReceive.setCount n).pool.pendingBase ≠ none →
      (s.discardReceive.setCount n).pool.freeDescs = [] := by
    simp only [State.setCount_frame, State.discardReceive_eq]
    intro hp
    obtain ⟨h1, h2, h3⟩ := h hp
    simp [h1, h2, h3, State.storedNotices]
  have h1 := PendingBaseSound_emitBase d1 d2 d3 r n
  have h2 := PendingBaseSound_handOn (s := (s.discardReceive.setCount n).emitBase r n) (fun hp => (h1 hp).2)
  exact h2.congr (by simp [State.resync]) (by simp [State.resync]) (by simp [State.resync]) (by simp [State.resync])

theorem PendingBaseSound.headerMember {s : State} (h : PendingBaseSound s) (hd : Header) (l : Bool) :
    PendingBaseSound (s.headerMember hd l) := h.congr (by simp) (by simp) (by simp) (by simp)

theorem PendingBaseSound.spanResync {s : State} (h : PendingBaseSound s) (n : LineNo) :
    PendingBaseSound (s.spanResync n) := by
  unfold State.spanResync; split
  · exact PendingBaseSound_resync h _ _ _
  · exact h

theorem PendingBaseSound.headerProcess {s : State} (h : PendingBaseSound s) (hd : Header) (l : Bool) :
    PendingBaseSound (s.headerProcess hd l).1 := by
  unfold State.headerProcess
  have h1 := h.headerMember hd l
  dsimp only
  split
  · exact h1.spanResync _
  · split
    · exact h1.raiseCount _ _
    · exact h1

theorem PendingBaseSound.adopt {s : State} (h : PendingBaseSound s) (h1 : s.rx.holdSet = [])
    (h2 : s.commit.provisional = none) (n : LineNo) : PendingBaseSound (s.adopt n) := by
  have k := PendingBaseSound_emitBase (s := s.setCount n) (by simp [h1]) (by simp [h2])
    (by simpa using fun hp => (h hp).1) .joined n
  exact k.congr (by simp [State.adopt]) (by simp [State.adopt]) (by simp [State.adopt]) (by simp [State.adopt])

theorem PendingBaseSound.found {s : State} (h : PendingBaseSound s) (h1 : s.rx.holdSet = [])
    (h2 : s.commit.provisional = none) : PendingBaseSound s.found := by
  have k := PendingBaseSound_emitBase (s := s.setCount 0) (by simp [h1]) (by simp [h2])
    (by simpa using fun hp => (h hp).1) .founded 0
  exact k.congr (by simp [State.found]) (by simp [State.found]) (by simp [State.found]) (by simp [State.found])

theorem PendingBaseSound_joinFailure (s : State) : PendingBaseSound s.joinFailure := by
  have k := PendingBaseSound_handOn (s := (s.postReport (.joinUnanswered s.stn.joinBeacons)).discardReceive)
    (by simp [State.discardReceive_eq])
  exact k.congr (by simp [State.joinFailure]) (by simp [State.joinFailure]) (by simp [State.joinFailure])
    (by simp [State.joinFailure])

theorem PendingBaseSound_quit (s : State) : PendingBaseSound s.quit := by
  have k := PendingBaseSound_handOn (s := s.discardSend.discardReceive) (by simp [State.discardReceive_eq])
  exact k.congr (by simp [State.quit]) (by simp [State.quit]) (by simp [State.quit]) (by simp [State.quit])

theorem PendingBaseSound.takeHeld {s : State} (h : PendingBaseSound s) : PendingBaseSound s.takeHeld := by
  unfold State.takeHeld
  split
  · exact h.congr (by simp) (by simp) (by simp) (by simp)
  · split
    · exact PendingBaseSound_joinFailure s
    · exact h

/-- A claim of storage: a descriptor was free, so no BASE record waits (R64, R68). -/
theorem PendingBaseSound.claim {s t : State} (h : PendingBaseSound s) (hd : s.pool.freeDescs ≠ [])
    (ht : t.pool.pendingBase = s.pool.pendingBase) : PendingBaseSound t :=
  PendingBaseSound_of_none (by rw [ht]; exact h.none_of_desc hd)

theorem PendingBaseSound.takeCommitted {s : State} (h : PendingBaseSound s) (n : LineNo) :
    PendingBaseSound (s.takeCommitted n) := by
  rcases State.takeCommitted_cases s n with ⟨p, hp, e⟩ | ⟨-, e⟩ <;> rw [e]
  · have hn := h.none_of_provisional (by simp [hp])
    exact PendingBaseSound_of_none (by simpa using hn)
  · apply PendingBaseSound.advance
    apply PendingBaseSound.raiseCount
    exact h

theorem PendingBaseSound.riseAndAdvance {s : State} (h : PendingBaseSound s) (n : LineNo) :
    PendingBaseSound (s.riseAndAdvance n) := by
  unfold State.riseAndAdvance
  apply PendingBaseSound.advance
  split
  · exact h.raiseCount _ _
  · exact h

theorem PendingBaseSound.removeHead {s : State} (h : PendingBaseSound s) : PendingBaseSound s.removeHead := by
  unfold State.removeHead
  split
  · exact h
  · apply PendingBaseSound_handOn
    intro hp
    have hp' : s.pool.pendingBase ≠ none := by
      revert hp; split <;> simp
    have := h hp'
    split <;> exact ⟨this.2.1, this.2.2⟩

end Sys2Proof.Machine
end

