-- ==== Sys2Proof/Laws/Steps.lean ====
section
/-!
SUPPORT. How an invariant is carried over a step: from the queue to one command, from the command to its effect.
-/

namespace Sys2Proof.Machine

/-- What is kept by every command is kept by every step, if it does not look at the queue. -/
theorem kept_step {I : State → Prop} (hp : ∀ (s : State) (q : List Instr), I s → I { s with pending := q })
    (he : ∀ c s t, I s → exec c s = .next t → I t) {s t : State} (hs : I s) (h : step s = .next t) : I t := by
  unfold step at h
  split at h
  · cases h; exact hs
  · exact he _ _ _ (hp s _ hs) h

/-- What an event keeps. -/
theorem kept_event {I : State → Prop} {f : State → State} {s t : State} (ha : ∀ u, I u → I u.settleAttn) (hs : I s)
    (hf : s.pins.resetLow = false → I (f s)) (h : event f s = .next t) : I t := by
  unfold event at h
  split at h
  · cases h; exact hs
  · rename_i hr
    cases h; exact ha _ (hf (by simpa using hr))

/-- What a command keeps. -/
theorem kept_command {I : State → Prop} {f : State → State} {s t : State} (ha : ∀ u, I u → I u.settleAttn) (hs : I s)
    (hf : s.pins.resetLow = false → s.awaiting = true → I (f s)) (h : command f s = .next t) : I t := by
  unfold command at h
  refine kept_event ha hs (fun hr => ?_) h
  split
  · rename_i hw; exact hf hr hw
  · exact hs

/-- What the receiver keeps: the frame goes to a halt, to the adopting branch or to the processing branch. -/
theorem kept_receiveFrame {I : State → Prop} {s : State} {h : Header} {a p : State → State} (hs : I s)
    (hl : s.receiving = true → h.sender = s.line.id → s.stn.state = .leaving → I (s.arrival h))
    (hh : s.receiving = true → h.sender = s.line.id → s.stn.state ≠ .leaving → I (s.arrival h).halt)
    (ha : s.receiving = true → h.sender ≠ s.line.id → s.stn.state = .listen →
      I (a { s.arrival h with stn := { s.stn with listenTimer := .stopped } }))
    (hp : s.receiving = true → h.sender ≠ s.line.id → s.stn.onLine = true → I (p (s.arrival h))) :
    I (s.receiveFrame h a p) := by
  unfold State.receiveFrame
  split
  · exact hs
  · rename_i hr
    rw [Bool.not_eq_true', Bool.not_eq_false] at hr
    dsimp only
    split
    · rename_i hid
      have hid' : h.sender = s.line.id := hid
      split
      · rename_i hst; exact hl hr hid' hst
      · rename_i hst; exact hh hr hid' hst
    · rename_i hid
      have hid' : h.sender ≠ s.line.id := hid
      split
      · rename_i hst; exact ha hr hid' hst
      · rename_i hst
        refine hp hr hid' ?_
        have h1 : s.stn.hearsLine = true := by
          unfold State.receiving at hr
          simp only [Bool.and_eq_true] at hr; exact hr.1.1.1
        have h2 : s.stn.state ≠ .listen := hst
        rw [StationBlock.hearsLine_iff] at h1
        rw [StationBlock.onLine_iff]
        cases hc : s.stn.state <;> simp_all

end Sys2Proof.Machine
end

