-- ==== Sys2Proof/Laws/Memory.lean ====
section
/-!
SUPPORT. Cell memory: every write keeps the canonical form, and a read after a write.
-/

namespace Sys2Proof.Machine

theorem Memory.wfFrom_mono {lo lo' : Nat} {m : List Host.Cell} (h : lo' ≤ lo) (hm : Memory.wfFrom lo m = true) :
    Memory.wfFrom lo' m = true := by
  cases m with
  | nil => rfl
  | cons c m =>
    simp only [Memory.wfFrom, Bool.and_eq_true, decide_eq_true_eq] at hm ⊢
    exact ⟨⟨by omega, hm.1.2⟩, hm.2⟩

/-- Below a canonical list's bound every address reads as the blank byte. -/
theorem Memory.read_of_lt {lo k : Nat} {m : List Host.Cell} (hm : Memory.wfFrom lo m = true) (hk : k < lo) :
    Memory.read m k = Config.blankByte := by
  induction m generalizing lo with
  | nil => rfl
  | cons c m ih =>
    simp only [Memory.wfFrom, Bool.and_eq_true, decide_eq_true_eq] at hm
    have h1 : k ≠ c.1 := by omega
    simp only [Memory.read, h1, if_false]
    exact ih hm.2 (by omega)

theorem Memory.write_wfFrom {lo k : Nat} {v : Byte} {m : List Host.Cell} (hm : Memory.wfFrom lo m = true)
    (hk : lo ≤ k) : Memory.wfFrom lo (Memory.write m k v) = true := by
  induction m generalizing lo with
  | nil => simp only [Memory.write]; split <;> simp [Memory.wfFrom, *]
  | cons c m ih =>
    have hm' := hm
    simp only [Memory.wfFrom, Bool.and_eq_true, decide_eq_true_eq] at hm
    obtain ⟨⟨h1, h2⟩, h3⟩ := hm
    simp only [Memory.write]
    split
    · rename_i hlt
      split
      · exact hm'
      · rename_i hv
        simp only [Memory.wfFrom, Bool.and_eq_true, decide_eq_true_eq]
        exact ⟨⟨hk, by simpa using hv⟩, ⟨by omega, h2⟩, h3⟩
    · split
      · rename_i heq
        split
        · exact Memory.wfFrom_mono (by omega) h3
        · rename_i hv
          simp only [Memory.wfFrom, Bool.and_eq_true, decide_eq_true_eq]
          exact ⟨⟨hk, by simpa using hv⟩, by rw [heq]; exact h3⟩
      · simp only [Memory.wfFrom, Bool.and_eq_true, decide_eq_true_eq]
        exact ⟨⟨h1, h2⟩, ih h3 (by omega)⟩

/-- A write keeps the canonical form. -/
theorem Memory.write_wf {m : List Host.Cell} (hm : Memory.wf m = true) (k : Nat) (v : Byte) :
    Memory.wf (Memory.write m k v) = true := Memory.write_wfFrom hm (Nat.zero_le k)

theorem Memory.read_write_from {lo k j : Nat} {v : Byte} {m : List Host.Cell} (hm : Memory.wfFrom lo m = true) :
    Memory.read (Memory.write m k v) j = if j = k then v else Memory.read m j := by
  induction m generalizing lo with
  | nil => by_cases hv : v = Config.blankByte <;> by_cases hj : j = k <;> simp [Memory.write, Memory.read, hv, hj]
  | cons c m ih =>
    simp only [Memory.wfFrom, Bool.and_eq_true, decide_eq_true_eq] at hm
    obtain ⟨⟨h1, h2⟩, h3⟩ := hm
    have hlow : ∀ i, i < c.1 + 1 → Memory.read m i = Config.blankByte := fun i hi => Memory.read_of_lt h3 hi
    simp only [Memory.write]
    split
    · rename_i hlt
      split
      · rename_i hv
        by_cases hj : j = k
        · subst hj
          simp [Memory.read, show j ≠ c.1 by omega, hlow j (by omega), hv]
        · simp [hj]
      · by_cases hj : j = k <;> simp [Memory.read, hj]
    · split
      · rename_i heq
        split
        · rename_i hv
          by_cases hj : j = k
          · subst hj; simp [hlow j (by omega), hv]
          · simp [Memory.read, hj, show j ≠ c.1 by omega]
        · by_cases hj : j = k
          · simp [Memory.read, hj]
          · simp [Memory.read, hj, show j ≠ c.1 by omega]
      · rename_i hne
        by_cases hj : j = c.1
        · simp [Memory.read, hj, show ¬c.1 = k by omega]
        · simp [Memory.read, hj, ih h3]

/-- A byte written is read back, and every other address reads as before. -/
theorem Memory.read_write {m : List Host.Cell} (hm : Memory.wf m = true) (k j : Nat) (v : Byte) :
    Memory.read (Memory.write m k v) j = if j = k then v else Memory.read m j := Memory.read_write_from hm

theorem Memory.writeBytes_wf {m : List Host.Cell} (hm : Memory.wf m = true) (a : Nat) (bs : List Byte) :
    Memory.wf (Memory.writeBytes m a bs) = true := by
  induction bs generalizing m a with
  | nil => exact hm
  | cons b bs ih => exact ih (Memory.write_wf hm a b) (a + 1)

/-- Bytes written at rising addresses are read back, and every other address reads as before. -/
theorem Memory.read_writeBytes {m : List Host.Cell} (hm : Memory.wf m = true) (a j : Nat) (bs : List Byte) :
    Memory.read (Memory.writeBytes m a bs) j
      = if a ≤ j ∧ j < a + bs.length then bs.getD (j - a) 0 else Memory.read m j := by
  induction bs generalizing m a with
  | nil => simp [Memory.writeBytes]
  | cons b bs ih =>
    simp only [Memory.writeBytes]
    rw [ih (Memory.write_wf hm a b), Memory.read_write hm]
    by_cases h1 : j = a
    · simp [h1]
    · by_cases h2 : a + 1 ≤ j ∧ j < a + 1 + bs.length
      · have h3 : a ≤ j ∧ j < a + (b :: bs).length := by simp; omega
        have h4 : j - a = (j - (a + 1)) + 1 := by omega
        rw [if_pos h2, if_pos h3, h4, List.getD_cons_succ]
      · have h3 : ¬(a ≤ j ∧ j < a + (b :: bs).length) := by simp; omega
        rw [if_neg h2, if_neg h3, if_neg h1]

theorem Memory.writeChain_wf {m : List Host.Cell} (hm : Memory.wf m = true) (chain : List Nat) (p : List Byte) :
    Memory.wf (Memory.writeChain m chain p) = true := by
  induction chain generalizing m p with
  | nil => exact hm
  | cons c cs ih => exact ih (Memory.writeBytes_wf hm _ _) _

/-- Outside the cells of a chain every address reads as before. -/
theorem Memory.read_writeChain_of_notMem {m : List Host.Cell} (hm : Memory.wf m = true) (chain : List Nat)
    (p : List Byte) (a : Nat) (ha : a / 16 ∉ chain) :
    Memory.read (Memory.writeChain m chain p) a = Memory.read m a := by
  induction chain generalizing m p with
  | nil => rfl
  | cons c cs ih =>
    simp only [List.mem_cons, not_or] at ha
    simp only [Memory.writeChain]
    rw [ih (Memory.writeBytes_wf hm _ _) _ ha.2, Memory.read_writeBytes hm]
    have hlen : (p.take Config.cellBytes).length ≤ 16 := by simp [Config.cellBytes]
    have : ¬(Config.cellBytes * c ≤ a ∧ a < Config.cellBytes * c + (p.take Config.cellBytes).length) := by
      intro h
      apply ha.1
      simp only [Config.cellBytes] at h hlen ⊢
      omega
    rw [if_neg this]

/-- Byte i of the k-th cell of a chain holds payload byte 16k + i (R57). -/
theorem Memory.read_writeChain {m : List Host.Cell} (hm : Memory.wf m = true) (chain : List Nat) (p : List Byte)
    (hc : chain.Nodup) {k c i : Nat} (hk : chain[k]? = some c) (hi : i < 16) (hp : 16 * k + i < p.length) :
    Memory.read (Memory.writeChain m chain p) (16 * c + i) = p.getD (16 * k + i) 0 := by
  induction chain generalizing m p k with
  | nil => simp at hk
  | cons d cs ih =>
    simp only [List.nodup_cons] at hc
    simp only [Memory.writeChain]
    cases k with
    | zero =>
      simp only [List.getElem?_cons_zero, Option.some.injEq] at hk
      subst hk
      rw [Memory.read_writeChain_of_notMem (Memory.writeBytes_wf hm _ _) cs _ _
        (by rw [show (16 * d + i) / 16 = d by omega]; exact hc.1), Memory.read_writeBytes hm, if_pos]
      · rw [show 16 * d + i - Config.cellBytes * d = i by simp only [Config.cellBytes]; omega]
        simp [List.getD_eq_getElem?_getD, Config.cellBytes, hi]
      · simp only [Config.cellBytes, List.length_take]; omega
    | succ k =>
      simp only [List.getElem?_cons_succ] at hk
      rw [ih (Memory.writeBytes_wf hm _ _) _ hc.2 hk (by simp [Config.cellBytes]; omega)]
      simp only [List.getD_eq_getElem?_getD, List.getElem?_drop, Config.cellBytes]
      rw [show 16 + (16 * k + i) = 16 * (k + 1) + i by omega]

/-- A payload copied into a chain long enough for it is read back whole (R57). -/
theorem Memory.readChain_writeChain {m : List Host.Cell} (hm : Memory.wf m = true) (chain : List Nat)
    (p : List Byte) (hc : chain.Nodup) (hp : p.length ≤ 16 * chain.length) :
    Memory.readChain (Memory.writeChain m chain p) chain p.length = p := by
  induction chain generalizing m p with
  | nil => simp at hp; simp [hp, Memory.readChain]
  | cons c cs ih =>
    simp only [List.nodup_cons] at hc
    simp only [List.length_cons] at hp
    have hrest := ih (Memory.writeBytes_wf hm (Config.cellBytes * c) (p.take Config.cellBytes))
      (p.drop Config.cellBytes) hc.2 (by simp [Config.cellBytes]; omega)
    simp only [Memory.readChain, List.flatMap_cons, Memory.writeChain] at hrest ⊢
    have hhead : (List.range Config.cellBytes).map (fun i => Memory.read (Memory.writeChain
          (Memory.writeBytes m (Config.cellBytes * c) (p.take Config.cellBytes)) cs (p.drop Config.cellBytes))
          (Config.cellBytes * c + i))
        = (List.range Config.cellBytes).map (fun i => if i < (p.take Config.cellBytes).length then
            (p.take Config.cellBytes).getD i 0 else Memory.read m (Config.cellBytes * c + i)) := by
      apply List.map_congr_left
      intro i hi
      simp only [List.mem_range, Config.cellBytes] at hi
      rw [Memory.read_writeChain_of_notMem (Memory.writeBytes_wf hm _ _) cs _ _
        (by rw [show (Config.cellBytes * c + i) / 16 = c by simp only [Config.cellBytes]; omega]; exact hc.1),
        Memory.read_writeBytes hm]
      simp only [Config.cellBytes, Nat.le_add_right, true_and, Nat.add_sub_cancel_left, Nat.add_lt_add_iff_left]
      rfl
    rw [hhead, List.take_append]
    by_cases hlong : Config.cellBytes ≤ p.length
    · have h1 : (p.take Config.cellBytes).length = Config.cellBytes := by simp [hlong]
      have h2 : (List.range Config.cellBytes).map (fun i => if i < (p.take Config.cellBytes).length then
            (p.take Config.cellBytes).getD i 0 else Memory.read m (Config.cellBytes * c + i))
          = p.take Config.cellBytes := by
        apply List.ext_getElem
        · simp [hlong]
        · intro i h3 h4
          simp only [List.length_map, List.length_range] at h3
          simp [h1, h3, List.getD_eq_getElem?_getD]
      rw [h2, h1]
      have h3 : (p.drop Config.cellBytes).length = p.length - Config.cellBytes := by simp
      rw [h3] at hrest
      rw [hrest, List.take_take, min_eq_right hlong, List.take_append_drop]
    · have h1 : p.length < Config.cellBytes := by omega
      have h2 : p.take Config.cellBytes = p := List.take_of_length_le (by omega)
      have h3 : p.length - ((List.range Config.cellBytes).map (fun i => if i < (p.take Config.cellBytes).length then
            (p.take Config.cellBytes).getD i 0 else Memory.read m (Config.cellBytes * c + i))).length = 0 := by
        simp; omega
      rw [h3, List.take_zero, List.append_nil, h2]
      apply List.ext_getElem
      · simp; omega
      · intro i h4 h5
        simp [h5]

end Sys2Proof.Machine
end

