-- ==== Sys2Proof/Laws/Storage.lean ====
section
/-!
SUPPORT. Receive storage and send storage: the two tests, what a claim takes, and that a payload stored is read back.
-/

namespace Sys2Proof.Machine

/-- The room rule (R64). -/
theorem State.roomRule_iff (s : State) (c : Nat) :
    s.roomRule c = true ↔ c + 4 ≤ s.pool.freeCells.length ∧ 2 ≤ s.pool.freeDescs.length := by
  unfold State.roomRule
  rw [Bool.and_eq_true, decide_eq_true_iff, decide_eq_true_iff]; exact Iff.rfl

/-- The reserve test (R64). -/
theorem State.reserveTest_iff (s : State) (c : Nat) :
    s.reserveTest c = true ↔ c ≤ s.pool.freeCells.length ∧ 1 ≤ s.pool.freeDescs.length := by
  unfold State.reserveTest
  rw [Bool.and_eq_true, decide_eq_true_iff, decide_eq_true_iff]

/-- A payload's cells hold it. -/
theorem length_le_cells (n : Nat) : n ≤ 16 * cellsFor n := by unfold cellsFor; omega

theorem one_le_cellsFor (n : Nat) : 1 ≤ cellsFor n := by unfold cellsFor; omega

@[simp] theorem ringCells_length (size first count : Nat) : (ringCells size first count).length = count := by
  simp [ringCells]

/-- A run on the ring no longer than the ring has no cell twice. -/
theorem ringCells_nodup {size count : Nat} (first : Nat) (h : count ≤ size) : (ringCells size first count).Nodup := by
  unfold ringCells
  refine List.Nodup.map_on ?_ List.nodup_range
  intro i hi j hj e
  rw [List.mem_range] at hi hj
  have h1 := Nat.ModEq.add_left_cancel' first e
  rwa [Nat.ModEq, Nat.mod_eq_of_lt (by omega), Nat.mod_eq_of_lt (by omega)] at h1

theorem Memory.readChain_length (m : List Host.Cell) (chain : List Nat) (n : Nat) (h : n ≤ 16 * chain.length) :
    (Memory.readChain m chain n).length = n := by
  unfold Memory.readChain
  have h1 : ∀ l : List Nat, (l.map fun _ => 16).sum = 16 * l.length := by intro l; simp; omega
  simp only [List.length_take, List.length_flatMap, List.length_map, List.length_range, Config.cellBytes, h1]
  omega

@[simp] theorem State.sendPayload_length (s : State) (n : SendNotice) : (s.sendPayload n).length = n.length := by
  unfold State.sendPayload
  apply Memory.readChain_length
  rw [ringCells_length]; exact length_le_cells _

/-- The payload of a notice just stored is read back whole (R40, R57, R97). -/
theorem State.rxPayload_storeNotice {s : State} (hm : Memory.wf s.pool.cells = true) (hf : s.pool.freeCells.Nodup)
    (number : LineNo) (originator : StationNo) (topic : Topic) (payload : List Byte) (own : Bool) (tag : Option Tag)
    (replay : Bool) (hc : cellsFor payload.length ≤ s.pool.freeCells.length) :
    (s.storeNotice number originator topic payload own tag replay).2.rxPayload
      (s.storeNotice number originator topic payload own tag replay).1 = payload := by
  simp only [State.rxPayload, State.storeNotice]
  apply Memory.readChain_writeChain hm
  · exact hf.sublist (List.take_sublist _ _)
  · have := length_le_cells payload.length
    simp only [List.length_take]; omega

/-- Storing a notice touches only the cells it claims (R57, R65). -/
theorem State.read_storeNotice_of_notMem {s : State} (hm : Memory.wf s.pool.cells = true) (number : LineNo)
    (originator : StationNo) (topic : Topic) (payload : List Byte) (own : Bool) (tag : Option Tag) (replay : Bool)
    {a : Nat} (ha : a / 16 ∉ s.pool.freeCells.take (cellsFor payload.length)) :
    Memory.read (s.storeNotice number originator topic payload own tag replay).2.pool.cells a
      = Memory.read s.pool.cells a :=
  Memory.read_writeChain_of_notMem hm _ _ _ ha

/-- A chain's payload depends on the cells of the chain alone. -/
theorem State.rxPayload_congr {s t : State} (h : t.pool.cells = s.pool.cells) (n : RxNotice) :
    t.rxPayload n = s.rxPayload n := by
  unfold State.rxPayload; rw [h]

end Sys2Proof.Machine
end

