-- ==== Sys2Proof/Laws/Receipts.lean ====
section
/-!
SUPPORT. The outcomes of a received NOTICE or REPLAY frame and of the start of an own one, case by case (R39 to R41, R46, R96
to R98).
-/

namespace Sys2Proof.Machine

/-- A frame that passes its check is valid (R20). -/
theorem readFrame_valid {chars : List LineChar} {f : Frame} (h : readFrame chars = some f) : Frame.valid f = true := by
  unfold readFrame readFrameBytes at h
  split at h
  · cases h
  · dsimp only at h; split at h
    · exact (Option.filter_eq_some_iff.mp h).2
    · cases h

/-- What a valid NOTICE frame says of its fields (R4, R8, R20). -/
theorem notice_valid {h : Header} {b : NoticeBody} (hv : Frame.valid (.notice h b) = true) :
    h.senderState = .active ∧ b.number = h.count + 1 ∧ b.payload.length ≤ 64 := by
  simp only [Frame.valid, Bool.and_eq_true, beq_iff_eq, decide_eq_true_eq] at hv
  exact ⟨hv.1.1, hv.1.2, hv.2⟩

/-- The outcomes of an accepted REPLAY (R12, R97, R98). -/
theorem State.acceptReplay_cases (s : State) (h : Header) (b : NoticeBody) :
    (follows s.rx.count b.number = true ∧ s.spanRefuses b.number = true
        ∧ s.acceptReplay h b = s.spanResync h.count)
      ∨ (follows s.rx.count b.number = true → s.spanRefuses b.number = false)
        ∧ (s.acceptReplay h b = (s.makeKnown b.number).riseAndAdvance b.number
          ∨ (∃ n t, s.storeNotice b.number h.sender b.topic b.payload false none true = (n, t)
            ∧ cellsFor b.payload.length ≤ s.pool.freeCells.length ∧ s.pool.freeDescs ≠ []
            ∧ s.acceptReplay h b = (t.hold n).riseAndAdvance b.number)
          ∨ ∃ c, s.acceptReplay h b = { s with counters := c }) := by
  unfold State.acceptReplay
  split
  · rename_i h1
    rw [Bool.and_eq_true] at h1
    exact Or.inl ⟨h1.1, h1.2, rfl⟩
  · rename_i h1
    refine Or.inr ⟨by simpa using h1, ?_⟩
    split
    · exact Or.inl rfl
    · right
      dsimp only
      by_cases hr : (if b.number = s.rx.settled + 1 then s.reserveTest (cellsFor b.payload.length)
          else s.roomRule (cellsFor b.payload.length)) = true
      · rw [if_pos hr]
        refine Or.inl ⟨_, _, rfl, ?_, ?_, rfl⟩
        · split at hr
          · exact (s.reserveTest_iff _).mp hr |>.1
          · have := (s.roomRule_iff _).mp hr |>.1; omega
        · intro hd
          split at hr
          · have := (s.reserveTest_iff _).mp hr |>.2; rw [hd] at this; simp at this
          · have := (s.roomRule_iff _).mp hr |>.2; rw [hd] at this; simp at this
      · rw [if_neg hr]; exact Or.inr ⟨_, rfl⟩

/-- The outcomes of a REPLAY (R96). -/
theorem State.classifyReplay_cases (s : State) (h : Header) (b : NoticeBody) :
    (∃ c, s.classifyReplay h b = { s with counters := c })
      ∨ (∃ c r, s.classifyReplay h b = State.postReport { s with counters := c } r)
      ∨ frameAtOrBefore b.number s.rx.settled = false ∧ s.knownAt b.number = false
        ∧ s.classifyReplay h b = s.acceptReplay h b := by
  unfold State.classifyReplay
  split
  · exact Or.inl ⟨_, rfl⟩
  · rename_i h1
    split
    · split
      · split
        · exact Or.inl ⟨_, rfl⟩
        · exact Or.inr (Or.inl ⟨_, _, rfl⟩)
      · exact Or.inl ⟨_, rfl⟩
    · rename_i h2
      exact Or.inr (Or.inr ⟨by simpa using h1, by simpa using h2, rfl⟩)

/-- The outcomes of a NOTICE frame's decision (R39 to R41). -/
theorem State.decideNotice_cases (s : State) (h : Header) (b : NoticeBody) :
    (∃ c, s.decideNotice h b = State.openWindow { s with counters := c } .receiver h b.number false true)
      ∨ frameAtOrBefore b.number s.rx.count = false
        ∧ ((∃ n t, s.storeNotice b.number h.sender b.topic b.payload false none false = (n, t)
            ∧ cellsFor b.payload.length ≤ s.pool.freeCells.length ∧ s.pool.freeDescs ≠ []
            ∧ s.decideNotice h b = State.openWindow { t with commit := { t.commit with provisional := some n } }
                .receiver h b.number false false)
          ∨ ∃ c full, s.decideNotice h b = State.openWindow { s with counters := c } .receiver h b.number full false) := by
  unfold State.decideNotice
  split
  · refine Or.inl ?_
    dsimp only
    split <;> exact ⟨_, rfl⟩
  · rename_i h1
    refine Or.inr ⟨by simpa using h1, ?_⟩
    split
    · split
      · rename_i hr
        refine Or.inl ⟨_, _, rfl, ?_, ?_, rfl⟩
        · have := (s.roomRule_iff _).mp hr |>.1; omega
        · intro hd; have := (s.roomRule_iff _).mp hr |>.2; rw [hd] at this; simp at this
      · exact Or.inr ⟨_, true, rfl⟩
    · exact Or.inr ⟨_, false, rfl⟩

/-- A NOTICE candidate is the outbound head of an ACTIVE station, with room for its own copy (R34, R46, R76). -/
theorem State.candidate_notice {s : State} {tag : Tag} (h : s.candidate = some (.notice tag)) :
    s.stn.state = .active ∧ ∃ head rest, s.send.outbound = head :: rest ∧ head.tag = tag
      ∧ (s.subscribed head.topic = true → s.roomRule (cellsFor head.length) = true) := by
  have hrc : s.repairCandidate ≠ some (.notice tag) := by
    unfold State.repairCandidate
    split
    · simp
    · split
      · simp
      · cases s.replayCandidate <;> simp
  unfold State.candidate at h
  split at h
  · simp at h
  · split at h
    · rename_i c hc; rw [hc] at hrc; exact absurd h hrc
    · split at h <;> simp at h
  · rename_i hst
    refine ⟨hst, ?_⟩
    split at h
    · rename_i c hc; rw [hc] at hrc; exact absurd h hrc
    · split at h
      · rename_i n hn
        simp only [Option.some.injEq, Candidate.notice.injEq] at h
        unfold State.noticeCandidate at hn
        split at hn
        · simp at hn
        · rename_i head rest ho
          split at hn
          · rename_i hc
            obtain rfl := Option.some.inj hn
            refine ⟨head, rest, ho, h, fun hs => ?_⟩
            simp only [Bool.and_eq_true, Bool.or_eq_true, Bool.not_eq_true', hs] at hc
            simpa using hc.2
          · simp at hn
      · split at h <;> simp at h
  all_goals simp at h

/-- The frame of a NOTICE candidate (R4, R46). -/
theorem State.frameFor_notice {s : State} {tag : Tag} {f : Frame} (h : s.frameFor (.notice tag) = some f) :
    ∃ n, s.send.outbound.find? (·.tag == tag) = some n
      ∧ f = .notice s.ownHeader { number := s.rx.count + 1, topic := n.topic, payload := s.sendPayload n } := by
  unfold State.frameFor at h
  obtain ⟨n, h1, h2⟩ := Option.map_eq_some_iff.mp h
  exact ⟨n, h1, h2.symm⟩

/-- The reservation at the start of a frame: none, or one for a NOTICE frame with room for it (R37, R46). -/
theorem State.reserveOwnRoom_cases {s : State} {c : Candidate} {f : Frame} (hc : s.candidate = some c)
    (hf : s.frameFor c = some f) : s.reserveOwnRoom c f = s
      ∨ ∃ tag h b n t, c = .notice tag ∧ f = .notice h b ∧ b.number = s.rx.count + 1
        ∧ s.storeNotice b.number h.sender b.topic b.payload true (some tag) false = (n, t)
        ∧ cellsFor b.payload.length ≤ s.pool.freeCells.length ∧ s.pool.freeDescs ≠ []
        ∧ s.reserveOwnRoom c f = { t with commit := { t.commit with provisional := some n } } := by
  unfold State.reserveOwnRoom
  split
  · rename_i tag h b
    split
    · rename_i hs
      right
      obtain ⟨-, head, rest, ho, ht, hr⟩ := State.candidate_notice hc
      obtain ⟨n, hn, hb⟩ := State.frameFor_notice hf
      have hn' : n = head := by
        rw [ho, List.find?_cons_of_pos (by simpa using ht)] at hn
        exact (Option.some.inj hn).symm
      subst hn'
      cases hb
      have hroom := (s.roomRule_iff _).mp (hr hs)
      refine ⟨tag, _, _, _, _, rfl, rfl, rfl, rfl, ?_, ?_, rfl⟩
      · simp only [State.sendPayload_length]; omega
      · intro hd; rw [hd] at hroom; simp at hroom
    · exact Or.inl rfl
  · exact Or.inl rfl

/-- What a claim of storage leaves: the pool alone changes (R62). -/
theorem State.storeNotice_eq {s t : State} {n : RxNotice} {number : LineNo} {originator : StationNo} {topic : Topic}
    {payload : List Byte} {own : Bool} {tag : Option Tag} {replay : Bool}
    (h : s.storeNotice number originator topic payload own tag replay = (n, t)) :
    n = { number := number, originator := originator, topic := topic, length := payload.length, own := own, tag := tag
          replay := replay, desc := s.pool.freeDescs.headD 0, chain := s.pool.freeCells.take (cellsFor payload.length) }
      ∧ t = { s with pool := { s.pool with
          cells := Memory.writeChain s.pool.cells (s.pool.freeCells.take (cellsFor payload.length)) payload
          freeCells := s.pool.freeCells.drop (cellsFor payload.length)
          freeDescs := s.pool.freeDescs.tail } } := by
  unfold State.storeNotice at h
  cases h; exact ⟨rfl, rfl⟩

end Sys2Proof.Machine
end

