-- ==== Sys2Proof/Laws/OrderSound.lean ====
section
/-!
SUPPORT. What every shared operation does to the receive order and to the gap table's cover of the missing positions (R92, R101,
R112 to R119).
-/

namespace Sys2Proof.Machine

/-- Every unknown position after the settled point and at or before the count lies in a gap entry (R112). -/
def Covered (s : State) : Prop :=
  ∀ n, 1 ≤ s.ahead n → s.ahead n ≤ s.ahead s.rx.count → s.knownAt n = false →
    ∃ e ∈ s.gaps, s.ahead e.first ≤ s.ahead n ∧ s.ahead n ≤ s.ahead e.last

/-- The receive order holds, and the cover is kept. -/
def Ordered (s t : State) : Prop := OrderSound t ∧ (Covered s → Covered t)

theorem Ordered.refl {s : State} (h : OrderSound s) : Ordered s s := ⟨h, id⟩

theorem Ordered.trans {s t u : State} (h : Ordered s t) (k : Ordered t u) : Ordered s u := ⟨k.1, fun c => k.2 (h.2 c)⟩

/-- What the receive order looks at. -/
def SameOrder (s t : State) : Prop :=
  t.rx.count = s.rx.count ∧ t.rx.settled = s.rx.settled ∧ t.rx.known = s.rx.known ∧ t.rx.holdSet = s.rx.holdSet
    ∧ t.gaps = s.gaps ∧ t.nextGapId = s.nextGapId

theorem OrderSound.congr {s t : State} (h : OrderSound s) (k : SameOrder s t) : OrderSound t := by
  obtain ⟨h1, h2, h3, h4, h5, h6⟩ := k
  unfold OrderSound State.knownAt State.ahead at *
  rw [h1, h2, h3, h4, h5, h6]; exact h

theorem Covered.congr {s t : State} (h : Covered s) (k : SameOrder s t) : Covered t := by
  obtain ⟨h1, h2, h3, -, h5, -⟩ := k
  unfold Covered State.knownAt State.ahead at *
  rw [h1, h2, h3, h5]; exact h

theorem Ordered_of_same {s t : State} (h : OrderSound s) (k : SameOrder s t) : Ordered s t :=
  ⟨h.congr k, fun c => c.congr k⟩

/-- An empty receive side is in order, the count within the span of the settled point (R12). -/
theorem OrderSound_of_empty {s : State} (h1 : s.ahead s.rx.count ≤ 256) (h2 : s.rx.known = 0) (h3 : s.rx.holdSet = [])
    (h4 : s.gaps = []) : OrderSound s := by
  unfold OrderSound
  rw [h2, h3, h4]
  exact ⟨h1, by simp, by simp, by simp, by simp, by simp, by simp, by simp⟩

/-- Where the settled point is the count nothing is missing. -/
theorem Covered_of_set {s : State} (h : s.rx.count = s.rx.settled) : Covered s := by
  intro n hn hc _
  rw [h, ahead_settled] at hc; omega

/-- After an outright setting of the count: in order, nothing missing (R6, R9 to R11). -/
theorem Ordered_of_set {s t : State} (h1 : t.rx.count = t.rx.settled) (h2 : t.rx.known = 0) (h3 : t.rx.holdSet = [])
    (h4 : t.gaps = []) : Ordered s t := by
  exact ⟨OrderSound_of_empty (by rw [h1]; simp) h2 h3 h4, fun _ => Covered_of_set h1⟩

/-! ### The advance and the hand-on -/

theorem Ordered_advance {s : State} (h : OrderSound s) : Ordered s s.advance := by
  obtain ⟨h1, h2, -⟩ := State.advance_spec h
  obtain ⟨m1, m2, m3, m4, -⟩ := h2
  have h256 := h.1
  refine ⟨h1, fun hc n hn hl hk => ?_⟩
  rw [m1, ahead_shift (s := s) (t := s.advance) m2] at hl
  have e1 : s.ahead n = s.ahead s.advance.rx.settled + s.advance.ahead n := ahead_unshift (by omega)
  have hlt : s.ahead s.advance.rx.settled < s.ahead n := by omega
  rw [m3 n hlt] at hk
  exact m4 n hlt hk (hc n (by omega) (by omega) hk)

theorem Ordered_handOn {s : State} (h : OrderSound s) : Ordered s s.handOn := by
  have h1 : SameOrder s s.servePendingBase := by
    unfold State.servePendingBase; split
    · exact ⟨rfl, rfl, rfl, rfl, rfl, rfl⟩
    · exact ⟨rfl, rfl, rfl, rfl, rfl, rfl⟩
  exact (Ordered_of_same h h1).trans (Ordered_advance (h.congr h1))

theorem Ordered_freeProvisional {s : State} (h : OrderSound s) : Ordered s s.freeProvisional := by
  unfold State.freeProvisional
  split
  · have h1 : SameOrder s s.dropProvisional := ⟨by simp, by simp, by simp, by simp, by simp, by simp⟩
    exact (Ordered_of_same h h1).trans (Ordered_handOn (h.congr h1))
  · exact Ordered.refl h

theorem Ordered_removeHead {s : State} (h : OrderSound s) : Ordered s s.removeHead := by
  unfold State.removeHead
  split
  · exact Ordered.refl h
  · rename_i r rest _
    dsimp only
    cases r <;>
    · refine Ordered.trans (Ordered_of_same h ?_) (Ordered_handOn (h.congr ?_)) <;> exact ⟨rfl, rfl, rfl, rfl, rfl, rfl⟩

/-! ### Positions become known, notices are held -/

theorem Ordered_makeKnown {s : State} {n : LineNo} (h : OrderSound s) (h1 : 1 ≤ s.ahead n)
    (h2 : s.ahead n ≤ s.ahead s.rx.count) : Ordered s (s.makeKnown n) := by
  refine ⟨OrderSound_makeKnown h h1 h2, fun hc m hm hl hk => ?_⟩
  have h256 := h.1
  have hk' := hk
  rw [State.knownAt_makeKnown h1 (by omega), Bool.or_eq_false_iff] at hk'
  obtain ⟨e, he, c1, c2⟩ := hc m hm hl hk'.1
  refine ⟨e, List.mem_filter.mpr ⟨he, ?_⟩, c1, c2⟩
  have he5 := h.2.2.2.2.1 e he
  have hmem : m ∈ (s.makeKnown n).missing e := by
    refine (State.mem_missing (s := s.makeKnown n) he5.1 he5.2.1 ?_ m).mpr ⟨c1, c2, hk⟩
    show s.ahead e.last ≤ 256
    omega
  have hne : (missingIn s.rx.settled (markKnown s.rx.settled s.rx.known n) e).isEmpty = false := by
    rw [← Bool.not_eq_true, List.isEmpty_iff]
    intro hz
    have : m ∈ missingIn s.rx.settled (markKnown s.rx.settled s.rx.known n) e := hmem
    rw [hz] at this; simp at this
  simp [hne]

theorem Ordered_hold {s : State} {n : RxNotice} (h : OrderSound s) (h1 : 1 ≤ s.ahead n.number)
    (h2 : s.ahead n.number ≤ s.ahead s.rx.count) (h3 : s.knownAt n.number = false) : Ordered s (s.hold n) :=
  ⟨OrderSound_hold h h1 h2 h3, fun hc => ((Ordered_makeKnown h h1 h2).2 hc)⟩

/-- Entries changed, but for their numbers (R112, R121, R124, R126). -/
theorem Ordered_mapGaps {s t : State} (h : OrderSound s) (f : GapEntry → GapEntry)
    (hf : ∀ e, (f e).first = e.first ∧ (f e).last = e.last ∧ (f e).id = e.id) (hg : t.gaps = s.gaps.map f)
    (hr : t.rx = s.rx) (hn : t.nextGapId = s.nextGapId) : Ordered s t := by
  have ha : ∀ n, t.ahead n = s.ahead n := ahead_congr (by rw [hr])
  have hk : ∀ n, t.knownAt n = s.knownAt n := knownAt_congr (by rw [hr]) (by rw [hr])
  obtain ⟨o1, o2, o3, o4, o5, o6, o7, o8⟩ := h
  refine ⟨⟨?_, ?_, ?_, ?_, ?_, ?_, ?_, ?_⟩, fun hc n h1 h2 h3 => ?_⟩
  · rw [ha, hr]; exact o1
  · rw [ha, hr]; exact o2
  · intro x hx; rw [hk]; rw [hr] at hx; exact o3 x hx
  · rw [hr]; simp only [ha]; exact o4
  · intro e he
    rw [hg] at he
    obtain ⟨e', he', rfl⟩ := List.mem_map.mp he
    rw [(hf e').1, (hf e').2.1, ha, ha, ha, hr]; exact o5 e' he'
  · rw [hg, List.pairwise_map]
    refine o6.imp ?_
    intro a b hab
    rw [(hf a).2.1, (hf a).2.2, (hf b).1, (hf b).2.2, ha, ha]; exact hab
  · intro e he
    rw [hg] at he
    obtain ⟨e', he', rfl⟩ := List.mem_map.mp he
    rw [(hf e').2.2, hn]; exact o7 e' he'
  · rw [hg, List.length_map]; exact o8
  · rw [ha] at h1 h2; rw [hr, ha] at h2; rw [hk] at h3
    obtain ⟨e, he, c1, c2⟩ := hc n h1 h2 h3
    exact ⟨f e, by rw [hg]; exact List.mem_map_of_mem he, by rw [(hf e).1, (hf e).2.1, ha, ha, ha]; exact ⟨c1, c2⟩⟩

/-! ### Missing ranges and rises of the count -/

theorem changeLast_append (f : GapEntry → GapEntry) (b : List GapEntry) (e : GapEntry) :
    changeLast f (b ++ [e]) = b ++ [f e] := by
  induction b with
  | nil => rfl
  | cons a b ih =>
    cases b with
    | nil => rfl
    | cons c b => simp only [List.cons_append, changeLast] at *; rw [ih]

/-- The highest entry of a table reaches on to `last` (R115, R116). -/
theorem Ordered_reach {s t : State} {old last : LineNo} {before : List GapEntry} {e g : GapEntry} (h : OrderSound s)
    (hs : s.gaps = before ++ [e]) (ht : t.gaps = before ++ [g])
    (hg : g.first = e.first ∧ g.last = last ∧ g.id = e.id) (hr : t.rx = s.rx) (hn : t.nextGapId = s.nextGapId)
    (h1 : s.ahead e.last ≤ s.ahead old) (h2 : s.ahead old < s.ahead last) (h3 : s.ahead last ≤ s.ahead s.rx.count) :
    OrderSound t ∧ ((∀ n, 1 ≤ s.ahead n → s.ahead n ≤ s.ahead s.rx.count → s.knownAt n = false →
      (∃ e ∈ s.gaps, s.ahead e.first ≤ s.ahead n ∧ s.ahead n ≤ s.ahead e.last)
        ∨ (s.ahead old < s.ahead n ∧ s.ahead n ≤ s.ahead last)) → Covered t) := by
  have ha : ∀ n, t.ahead n = s.ahead n := ahead_congr (by rw [hr])
  have hk : ∀ n, t.knownAt n = s.knownAt n := knownAt_congr (by rw [hr]) (by rw [hr])
  obtain ⟨o1, o2, o3, o4, o5, o6, o7, o8⟩ := h
  have he5 := o5 e (by rw [hs]; simp)
  rw [hs, List.pairwise_append] at o6
  refine ⟨⟨?_, ?_, ?_, ?_, ?_, ?_, ?_, ?_⟩, fun hc n n1 n2 n3 => ?_⟩
  · rw [ha, hr]; exact o1
  · rw [ha, hr]; exact o2
  · intro x hx; rw [hk]; rw [hr] at hx; exact o3 x hx
  · rw [hr]; simp only [ha]; exact o4
  · intro x hx
    rw [ht] at hx
    rw [ha, ha, ha, hr]
    rcases List.mem_append.mp hx with hx | hx
    · exact o5 x (by rw [hs]; simp [hx])
    · rw [List.mem_singleton] at hx; subst hx; rw [hg.1, hg.2.1]; omega
  · rw [ht, List.pairwise_append]
    refine ⟨by simp only [ha]; exact o6.1, by simp, fun a haa b hbb => ?_⟩
    rw [List.mem_singleton] at hbb; subst hbb
    rw [ha, ha, hg.1, hg.2.2]
    exact o6.2.2 a haa e (by simp)
  · intro x hx
    rw [ht] at hx; rw [hn]
    rcases List.mem_append.mp hx with hx | hx
    · exact o7 x (by rw [hs]; simp [hx])
    · rw [List.mem_singleton] at hx; subst hx; rw [hg.2.2]; exact o7 e (by rw [hs]; simp)
  · rw [ht]; rw [hs] at o8; simpa using o8
  · rw [ha] at n1 n2; rw [hr, ha] at n2; rw [hk] at n3
    have hlast : s.ahead g.first ≤ s.ahead n → s.ahead n ≤ s.ahead g.last →
        ∃ x ∈ t.gaps, t.ahead x.first ≤ t.ahead n ∧ t.ahead n ≤ t.ahead x.last := fun a b =>
      ⟨g, by rw [ht]; simp, by rw [ha, ha]; exact a, by rw [ha, ha]; exact b⟩
    rcases hc n n1 n2 n3 with ⟨x, hx, c1, c2⟩ | ⟨c1, c2⟩
    · rw [hs] at hx
      rcases List.mem_append.mp hx with hx | hx
      · exact ⟨x, by rw [ht]; simp [hx], by rw [ha, ha]; exact c1, by rw [ha, ha]; exact c2⟩
      · rw [List.mem_singleton] at hx; subst hx
        exact hlast (by rw [hg.1]; exact c1) (by rw [hg.2.1]; omega)
    · exact hlast (by rw [hg.1]; omega) (by rw [hg.2.1]; exact c2)

/-- A missing range handed to the repair unit, at a count already raised (R114 to R116). -/
theorem Ordered_handRange {s : State} {old last : LineNo} (h : OrderSound s)
    (hg : ∀ e ∈ s.gaps, s.ahead e.last ≤ s.ahead old) (h2 : s.ahead old < s.ahead last)
    (h3 : s.ahead last ≤ s.ahead s.rx.count) :
    OrderSound (s.handRange (old + 1) last)
      ∧ ((∀ n, 1 ≤ s.ahead n → s.ahead n ≤ s.ahead s.rx.count → s.knownAt n = false →
        (∃ e ∈ s.gaps, s.ahead e.first ≤ s.ahead n ∧ s.ahead n ≤ s.ahead e.last)
          ∨ (s.ahead old < s.ahead n ∧ s.ahead n ≤ s.ahead last)) → Covered (s.handRange (old + 1) last)) := by
  have h256 := h.1
  have hnext : s.ahead (old + 1) = s.ahead old + 1 := ahead_succ s old (by omega)
  have split : ¬ s.gaps.length < Config.gapEntries → ∃ b e, s.gaps = b ++ [e] := by
    intro hl
    rcases List.eq_nil_or_concat s.gaps with hz | ⟨b, e, hz⟩
    · rw [hz] at hl; simp [Config.gapEntries] at hl
    · exact ⟨b, e, by simpa using hz⟩
  unfold State.handRange
  split
  · rename_i hl
    obtain ⟨o1, o2, o3, o4, o5, o6, o7, o8⟩ := h
    refine ⟨⟨o1, o2, o3, o4, ?_, ?_, ?_, ?_⟩, fun hc n n1 n2 n3 => ?_⟩
    · intro x hx
      rcases List.mem_append.mp hx with hx | hx
      · exact o5 x hx
      · rw [List.mem_singleton] at hx; subst hx
        show 1 ≤ s.ahead (old + 1) ∧ s.ahead (old + 1) ≤ s.ahead last ∧ s.ahead last ≤ s.ahead s.rx.count
        omega
    · rw [List.pairwise_append]
      refine ⟨o6, by simp, fun a haa b hbb => ?_⟩
      rw [List.mem_singleton] at hbb; subst hbb
      have := hg a haa
      exact ⟨show s.ahead a.last < s.ahead (old + 1) by omega, o7 a haa⟩
    · intro x hx
      rcases List.mem_append.mp hx with hx | hx
      · exact Nat.lt_succ_of_lt (o7 x hx)
      · rw [List.mem_singleton] at hx; subst hx; exact Nat.lt_succ_self _
    · simp only [Config.gapEntries] at hl
      simp only [List.length_append, List.length_singleton]; omega
    · rcases hc n n1 n2 n3 with ⟨x, hx, c⟩ | ⟨c1, c2⟩
      · exact ⟨x, List.mem_append_left _ hx, c⟩
      · refine ⟨_, List.mem_append_right _ (List.mem_singleton.mpr rfl), ?_, c2⟩
        show s.ahead (old + 1) ≤ s.ahead n
        omega
  · rename_i hl
    obtain ⟨b, e, hbe⟩ := split hl
    have he : s.ahead e.last ≤ s.ahead old := hg e (by rw [hbe]; simp)
    split
    · obtain ⟨k1, k2⟩ := Ordered_reach (g := { e with last := last }) (t := State.postReport
        { s with gaps := changeLast (fun e => { e with last := last }) s.gaps } (.gapOverflow (old + 1) last))
        h hbe (by simp only [State.postReport_frame]; rw [hbe, changeLast_append]) ⟨rfl, rfl, rfl⟩ (by simp) (by simp)
        he h2 h3
      have k3 := Ordered_advance k1
      exact ⟨k3.1, fun hc => k3.2 (k2 hc)⟩
    · refine Ordered_reach h hbe (g := { e with
        last := last, attempts := 0, state := .waiting, timer := .running s.cfg.repairInterval }) ?_ ⟨rfl, rfl, rfl⟩ rfl
        rfl he h2 h3
      dsimp only
      rw [hbe, changeLast_append]

/-- A rise of the count to `n` with the missing range up to `last` (R5, R12, R114). `s` may already know `n`. -/
theorem OrderSound_raiseCount {s : State} {n last : LineNo} (h : OrderSound { s with rx := { s.rx with count := n } })
    (hg : ∀ e ∈ s.gaps, s.ahead e.last ≤ s.ahead s.rx.count) (h1 : s.ahead s.rx.count ≤ s.ahead last)
    (h2 : s.ahead last ≤ s.ahead n) :
    OrderSound (s.raiseCount n last)
      ∧ ((∀ m, 1 ≤ s.ahead m → s.ahead m ≤ s.ahead n → s.knownAt m = false →
        (∃ e ∈ s.gaps, s.ahead e.first ≤ s.ahead m ∧ s.ahead m ≤ s.ahead e.last)
          ∨ (s.ahead s.rx.count < s.ahead m ∧ s.ahead m ≤ s.ahead last)) → Covered (s.raiseCount n last)) := by
  have hand : ∀ u : State, last ≠ s.rx.count → SameOrder { s with rx := { s.rx with count := n } } u →
      OrderSound (u.handRange (s.rx.count + 1) last)
      ∧ ((∀ m, 1 ≤ s.ahead m → s.ahead m ≤ s.ahead n → s.knownAt m = false →
        (∃ e ∈ s.gaps, s.ahead e.first ≤ s.ahead m ∧ s.ahead m ≤ s.ahead e.last)
          ∨ (s.ahead s.rx.count < s.ahead m ∧ s.ahead m ≤ s.ahead last)) →
            Covered (u.handRange (s.rx.count + 1) last)) := by
    intro u hne hu
    have ha : ∀ m, u.ahead m = s.ahead m := ahead_congr hu.2.1
    have hk : ∀ m, u.knownAt m = s.knownAt m := knownAt_congr hu.2.1 hu.2.2.1
    have hlt : s.ahead s.rx.count < s.ahead last := by
      rcases Nat.lt_or_ge (s.ahead s.rx.count) (s.ahead last) with h3 | h3
      · exact h3
      · exact absurd (ahead_inj (Nat.le_antisymm h3 h1)) hne
    have k := Ordered_handRange (s := u) (old := s.rx.count) (last := last) (h.congr hu)
      (by intro e he; rw [ha, ha]; exact hg e (by rw [hu.2.2.2.2.1] at he; exact he)) (by rw [ha, ha]; exact hlt)
      (by rw [ha, ha, hu.1]; exact h2)
    refine ⟨k.1, fun hc => k.2 ?_⟩
    intro m m1 m2 m3
    rw [ha] at m1 m2; rw [ha, hu.1] at m2; rw [hk] at m3
    simp only [ha, hu.2.2.2.2.1]
    exact hc m m1 m2 m3
  unfold State.raiseCount
  dsimp only
  split
  · rename_i hl
    have hu : SameOrder { s with rx := { s.rx with count := n } }
        (State.clearCatchingUp { s with rx := { s.rx with count := n } }).applyHorizon :=
      ⟨by simp, by simp, by simp, by simp, by simp, by simp⟩
    refine ⟨h.congr hu, fun hc => Covered.congr (s := { s with rx := { s.rx with count := n } }) ?_ hu⟩
    intro m m1 m2 m3
    rcases hc m m1 m2 m3 with c | ⟨c1, c2⟩
    · exact c
    · rw [hl] at c2; omega
  · rename_i hl
    split
    · split
      · have k := hand (State.clearCatchingUp { s with rx := { s.rx with count := n } } |> fun u =>
          { u with freeReads := u.freeReads + 1 }) hl ⟨rfl, rfl, rfl, rfl, rfl, rfl⟩
        have hu : ∀ u : State, SameOrder u u.applyHorizon := fun u => ⟨by simp, by simp, by simp, by simp, by simp, by simp⟩
        exact ⟨k.1.congr (hu _), fun hc => (k.2 hc).congr (hu _)⟩
      · exact hand _ hl ⟨by simp, by simp, by simp, by simp, by simp, by simp⟩
    · exact hand _ hl ⟨by simp, by simp, by simp, by simp, by simp, by simp⟩

theorem State.raiseCount_count (s : State) (n last : LineNo) : (s.raiseCount n last).rx.count = n := by
  unfold State.raiseCount
  dsimp only
  split_ifs <;> simp

/-- The receive order allows a higher count within the span (R12). -/
theorem OrderSound_count {s : State} {n : LineNo} (h : OrderSound s) (h1 : s.ahead s.rx.count ≤ s.ahead n)
    (h2 : s.ahead n ≤ 256) : OrderSound { s with rx := { s.rx with count := n } } := by
  obtain ⟨o1, o2, o3, o4, o5, o6, o7, o8⟩ := h
  refine ⟨h2, fun i hi => o2 i (Nat.le_trans h1 hi), o3, o4, fun e he => ?_, o6, o7, o8⟩
  have := o5 e he
  exact ⟨this.1, this.2.1, Nat.le_trans this.2.2 h1⟩

/-- A number that follows the count and that the span limit allows (R1, R12). -/
theorem ahead_of_follows {s : State} {n : LineNo} (h : OrderSound s) (hf : follows s.rx.count n = true)
    (hn : s.spanRefuses n = false) : s.ahead s.rx.count < s.ahead n ∧ s.ahead n ≤ 256 := by
  have h256 := h.1
  have hn' : s.ahead n ≤ 256 := by
    unfold State.spanRefuses at hn
    rw [decide_eq_false_iff_not] at hn
    simp only [Config.spanLimit, Nat.not_lt] at hn; exact hn
  refine ⟨?_, hn'⟩
  unfold follows at hf
  rw [Bool.and_eq_true, decide_eq_true_iff, decide_eq_true_iff] at hf
  by_contra hc
  rcases Nat.eq_or_lt_of_le (Nat.not_lt.mp hc) with h3 | h3
  · rw [ahead_inj h3] at hf; simp at hf
  · rw [sub_toNat_of_ahead_lt h3] at hf; omega

/-- A number that neither follows the count nor lies at or before the settled point lies between them (R1, R96). -/
theorem ahead_of_between {s : State} {n : LineNo} (h : OrderSound s) (h1 : follows s.rx.settled n = true)
    (h2 : follows s.rx.count n = false) : 1 ≤ s.ahead n ∧ s.ahead n ≤ s.ahead s.rx.count := by
  have h256 := h.1
  unfold follows at h1 h2
  rw [Bool.and_eq_true, decide_eq_true_iff, decide_eq_true_iff, ← State.ahead_eq] at h1
  refine ⟨h1.1, ?_⟩
  by_contra hc
  rw [sub_toNat_of_ahead_le (s := s) (by omega)] at h2
  simp only [Bool.and_eq_false_iff, decide_eq_false_iff_not] at h2
  omega

/-- A position after the count is unknown (R92). -/
theorem OrderSound.unknown_after {s : State} (h : OrderSound s) {n : LineNo} (hn : s.ahead s.rx.count < s.ahead n) :
    s.knownAt n = false := by
  rw [← Bool.not_eq_true, State.knownAt_iff]
  rintro ⟨-, h2⟩
  rw [h.2.1 _ (by omega)] at h2; simp at h2

/-- A rise of the count to a header's count (R3, R5). -/
theorem Ordered_raiseToHeader {s : State} {n : LineNo} (h : OrderSound s) (hf : follows s.rx.count n = true)
    (hn : s.spanRefuses n = false) : Ordered s (s.raiseCount n n) := by
  obtain ⟨h1, h2⟩ := ahead_of_follows h hf hn
  obtain ⟨k1, k2⟩ := OrderSound_raiseCount (last := n) (OrderSound_count h (by omega) h2)
    (fun e he => (h.2.2.2.2.1 e he).2.2) (by omega) (Nat.le_refl _)
  refine ⟨k1, fun hc => k2 fun m m1 m2 m3 => ?_⟩
  rcases Nat.lt_or_ge (s.ahead s.rx.count) (s.ahead m) with h3 | h3
  · exact Or.inr ⟨h3, m2⟩
  · exact Or.inl (hc m m1 h3 m3)

/-- The state after the position of a rise has become known or held, whose count is still to rise (R4, R42, R97). -/
theorem Ordered_settleAndRise {s u : State} {n : LineNo} (h : OrderSound s)
    (h1 : s.ahead s.rx.count < s.ahead n) (h2 : s.ahead n ≤ 256) (hs : u.rx.settled = s.rx.settled)
    (hc : u.rx.count = s.rx.count)
    (hu : Ordered { s with rx := { s.rx with count := n } } { u with rx := { u.rx with count := n } })
    (hg : ∀ e ∈ u.gaps, e ∈ s.gaps)
    (hgc : ∀ m, u.knownAt m = false → ∀ e ∈ s.gaps, s.ahead e.first ≤ s.ahead m → s.ahead m ≤ s.ahead e.last → e ∈ u.gaps)
    (hk : ∀ m, u.knownAt m = (s.knownAt m || decide (m = n))) : Ordered s (u.raiseCount n (n - 1)) := by
  have ha : ∀ m, u.ahead m = s.ahead m := ahead_congr hs
  have hpred : s.ahead (n - 1) = s.ahead n - 1 := by
    have := ahead_succ s (n - 1) (by
      by_contra hx
      have h3 := ahead_lt s (n - 1)
      have h4 : s.ahead (n - 1) = 65535 := by omega
      have h5 : n - 1 - s.rx.settled = BitVec.ofNat 16 65535 := by
        apply BitVec.eq_of_toNat_eq; rw [← State.ahead_eq, h4]; rfl
      have h6 : n - s.rx.settled = (n - 1 - s.rx.settled) + 1 := by ring
      have h7 : s.ahead n = 0 := by rw [State.ahead_eq, h6, h5]; rfl
      omega)
    rw [show n - 1 + 1 = n by ring] at this
    omega
  obtain ⟨k1, k2⟩ := OrderSound_raiseCount (s := u) (n := n) (last := n - 1) hu.1
    (fun e he => by rw [ha, ha, hc]; exact (h.2.2.2.2.1 e (hg e he)).2.2) (by rw [ha, ha, hc, hpred]; omega)
    (by rw [ha, ha, hpred]; omega)
  refine ⟨k1, fun hcov => k2 fun m m1 m2 m3 => ?_⟩
  rw [ha] at m1; rw [ha, ha] at m2
  have m3' := m3
  rw [hk, Bool.or_eq_false_iff, decide_eq_false_iff_not] at m3'
  simp only [ha, hc]
  rcases Nat.lt_or_ge (s.ahead s.rx.count) (s.ahead m) with h3 | h3
  · refine Or.inr ⟨h3, ?_⟩
    rcases Nat.lt_or_ge (s.ahead m) (s.ahead n) with h4 | h4
    · omega
    · exact absurd (ahead_inj (Nat.le_antisymm m2 h4)) m3'.2
  · obtain ⟨e, he, c1, c2⟩ := hcov m m1 h3 m3'.1
    exact Or.inl ⟨e, hgc m m3 e he c1 c2, c1, c2⟩

/-- What `makeKnown` leaves in the gap table. -/
theorem makeKnown_gaps {s : State} {n : LineNo} (h : OrderSound s) :
    (∀ e ∈ (s.makeKnown n).gaps, e ∈ s.gaps)
      ∧ ∀ m, (s.makeKnown n).knownAt m = false → ∀ e ∈ s.gaps, s.ahead e.first ≤ s.ahead m →
          s.ahead m ≤ s.ahead e.last → e ∈ (s.makeKnown n).gaps := by
  refine ⟨fun e he => (List.mem_filter.mp he).1, fun m hk e he c1 c2 => ?_⟩
  refine List.mem_filter.mpr ⟨he, ?_⟩
  have he5 := h.2.2.2.2.1 e he
  have h256 := h.1
  have hmem : m ∈ (s.makeKnown n).missing e := by
    refine (State.mem_missing (s := s.makeKnown n) he5.1 he5.2.1 ?_ m).mpr ⟨c1, c2, hk⟩
    show s.ahead e.last ≤ 256
    omega
  have hne : (missingIn s.rx.settled (markKnown s.rx.settled s.rx.known n) e).isEmpty = false := by
    rw [← Bool.not_eq_true, List.isEmpty_iff]
    intro hz
    have : m ∈ missingIn s.rx.settled (markKnown s.rx.settled s.rx.known n) e := hmem
    rw [hz] at this; simp at this
  simp [hne]

/-- A position above the count becomes known and the count rises to it (R4, R42, R97). -/
theorem Ordered_makeKnownAndRise {s : State} {n : LineNo} (h : OrderSound s) (h1 : s.ahead s.rx.count < s.ahead n)
    (h2 : s.ahead n ≤ 256) : Ordered s ((s.makeKnown n).raiseCount n (n - 1)) := by
  obtain ⟨g1, g2⟩ := makeKnown_gaps (n := n) h
  exact Ordered_settleAndRise h h1 h2 rfl rfl
    (Ordered_makeKnown (s := { s with rx := { s.rx with count := n } }) (OrderSound_count h (by omega) h2)
      (show 1 ≤ s.ahead n by omega) (Nat.le_refl _)) g1 g2 (State.knownAt_makeKnown (by omega) h2)

/-- A notice above the count is held and the count rises to it (R4, R42, R97). -/
theorem Ordered_holdAndRise {s : State} {p : RxNotice} (h : OrderSound s)
    (h1 : s.ahead s.rx.count < s.ahead p.number) (h2 : s.ahead p.number ≤ 256) :
    Ordered s ((s.hold p).raiseCount p.number (p.number - 1)) := by
  obtain ⟨g1, g2⟩ := makeKnown_gaps (n := p.number) h
  exact Ordered_settleAndRise (u := s.hold p) h h1 h2 rfl rfl
    (Ordered_hold (s := { s with rx := { s.rx with count := p.number } }) (OrderSound_count h (by omega) h2)
      (show 1 ≤ s.ahead p.number by omega) (Nat.le_refl _) (h.unknown_after h1)) g1 g2
    (State.knownAt_makeKnown (s := s) (n := p.number) (by omega) h2)

/-! ### Header processing, commits, replays -/

theorem Ordered_resync {s : State} (r : BaseReason) (c : StateCause) (n : LineNo) : Ordered s (s.resync r c n) := by
  obtain ⟨h1, h2, h3, h4, h5, -⟩ := State.resync_spec s r c n
  exact Ordered_of_set (by rw [h1, h2]) h3 h4 h5

theorem Ordered_spanResync {s : State} (h : OrderSound s) (n : LineNo) : Ordered s (s.spanResync n) := by
  unfold State.spanResync
  split
  · exact Ordered_resync _ _ _
  · exact Ordered.refl h

theorem SameOrder_headerMember (s : State) (h : Header) (l : Bool) : SameOrder s (s.headerMember h l) :=
  ⟨by simp, by simp, by simp, by simp, by simp, by simp⟩

theorem Ordered_headerProcess {s : State} (h : OrderSound s) (hd : Header) (l : Bool) :
    Ordered s (s.headerProcess hd l).1 := by
  have hm := SameOrder_headerMember s hd l
  refine (Ordered_of_same h hm).trans ?_
  have h' := h.congr hm
  unfold State.headerProcess
  dsimp only
  split
  · exact Ordered_spanResync h' _
  · rename_i h1
    split
    · rename_i h2
      simp only [h2, Bool.or_eq_true, Bool.true_and, not_or, Bool.not_eq_true] at h1
      exact Ordered_raiseToHeader h' h2 h1.2
    · exact Ordered.refl h'

theorem Ordered_adopt {s : State} (h1 : s.rx.holdSet = []) (h3 : s.gaps = []) (n : LineNo) : Ordered s (s.adopt n) := by
  obtain ⟨a1, a2, a3, a4, a5, -⟩ := State.adopt_spec h1 h3 n
  exact Ordered_of_set (by rw [a1, a2]) a3 a4 a5

theorem Ordered_found {s : State} (h1 : s.rx.holdSet = []) (h3 : s.gaps = []) : Ordered s s.found := by
  obtain ⟨a1, a2, a3, a4, a5, -⟩ := State.found_spec h1 h3
  exact Ordered_of_set (by rw [a1, a2]) a3 a4 a5

/-- The commit of the position after the count (R42, R48). -/
theorem Ordered_takeCommitted {s : State} {n : LineNo} (h : OrderSound s) (hn : n = s.rx.count + 1)
    (hr : s.spanRefuses n = false) (hp : ∀ p, s.commit.provisional = some p → p.number = n) :
    Ordered s (s.takeCommitted n) := by
  have h256 := h.1
  have h1 : s.ahead n = s.ahead s.rx.count + 1 := by rw [hn]; exact ahead_succ s _ (by omega)
  have h2 : s.ahead n ≤ 256 := by
    unfold State.spanRefuses at hr
    rw [decide_eq_false_iff_not] at hr
    simp only [Config.spanLimit, Nat.not_lt] at hr; exact hr
  obtain ⟨p, hpp, e⟩ | ⟨-, e⟩ := s.takeCommitted_cases n <;> rw [e]
  · have hpn := hp p hpp
    have hs : SameOrder s { s with commit := { s.commit with provisional := none } } := ⟨rfl, rfl, rfl, rfl, rfl, rfl⟩
    have k := Ordered_holdAndRise (p := p) (h.congr hs) (by rw [hpn]; show s.ahead s.rx.count < s.ahead n; omega)
      (by rw [hpn]; exact h2)
    rw [hpn] at k
    exact (Ordered_of_same h hs).trans (k.trans (Ordered_advance k.1))
  · have k := Ordered_makeKnownAndRise h (by omega) h2
    exact k.trans (Ordered_advance k.1)

theorem Ordered_refuseCommitted {s : State} (h : OrderSound s) (n : LineNo) : Ordered s (s.refuseCommitted n) := by
  unfold State.refuseCommitted
  split
  · exact Ordered_spanResync h n
  · exact Ordered_freeProvisional h

/-- An accepted REPLAY (R12, R97). -/
theorem Ordered_acceptReplay {s : State} {h : Header} {b : NoticeBody} (ho : OrderSound s)
    (h1 : frameAtOrBefore b.number s.rx.settled = false) (h2 : s.knownAt b.number = false) :
    Ordered s (s.acceptReplay h b) := by
  have h1' : follows s.rx.settled b.number = true := by unfold frameAtOrBefore at h1; simpa using h1
  have ad : ∀ u : State, Ordered s u → Ordered s u.advance := fun u hu => hu.trans (Ordered_advance hu.1)
  rcases s.acceptReplay_cases h b with ⟨-, -, e⟩ | ⟨hsp, e | ⟨n, v, e1, _, _, e⟩ | ⟨c, e⟩⟩ <;> rw [e]
  · exact Ordered_spanResync ho _
  · unfold State.riseAndAdvance
    apply ad
    cases hf : follows s.rx.count b.number with
    | true =>
      obtain ⟨a1, a2⟩ := ahead_of_follows ho hf (hsp hf)
      rw [if_pos (by exact hf)]
      exact Ordered_makeKnownAndRise ho a1 a2
    | false =>
      obtain ⟨a1, a2⟩ := ahead_of_between ho h1' hf
      rw [if_neg (by show ¬ follows s.rx.count b.number = true; simp [hf])]
      exact Ordered_makeKnown ho a1 a2
  · obtain ⟨rfl, rfl⟩ := State.storeNotice_eq e1
    unfold State.riseAndAdvance
    apply ad
    generalize hv : ({ s with pool := _ } : State) = v
    have hs : SameOrder s v := by rw [← hv]; exact ⟨rfl, rfl, rfl, rfl, rfl, rfl⟩
    generalize hnn : ({ number := b.number, originator := h.sender, topic := b.topic, length := b.payload.length
                        own := false, tag := none, replay := true, desc := _, chain := _ } : RxNotice) = n
    have hnb : n.number = b.number := by rw [← hnn]
    have hov := ho.congr hs
    refine (Ordered_of_same ho hs).trans ?_
    have hcn : (v.hold n).rx.count = s.rx.count := hs.1
    cases hf : follows s.rx.count b.number with
    | true =>
      obtain ⟨a1, a2⟩ := ahead_of_follows ho hf (hsp hf)
      rw [if_pos (by rw [hcn]; exact hf)]
      have := Ordered_holdAndRise (p := n) hov (by rw [ahead_congr hs.2.1, ahead_congr hs.2.1, hnb, hs.1]; exact a1)
        (by rw [ahead_congr hs.2.1, hnb]; exact a2)
      rw [hnb] at this; exact this
    | false =>
      obtain ⟨a1, a2⟩ := ahead_of_between ho h1' hf
      rw [if_neg (by rw [hcn, hf]; simp)]
      exact Ordered_hold hov (by rw [ahead_congr hs.2.1, hnb]; exact a1)
        (by rw [ahead_congr hs.2.1, ahead_congr hs.2.1, hnb, hs.1]; exact a2)
        (by rw [knownAt_congr hs.2.1 hs.2.2.1, hnb]; exact h2)
  · exact Ordered_of_same ho ⟨rfl, rfl, rfl, rfl, rfl, rfl⟩

theorem Ordered_classifyReplay {s : State} {h : Header} {b : NoticeBody} (ho : OrderSound s) :
    Ordered s (s.classifyReplay h b) := by
  rcases s.classifyReplay_cases h b with ⟨c, e⟩ | ⟨c, r, e⟩ | ⟨h1, h2, e⟩ <;> rw [e]
  · exact Ordered_of_same ho ⟨rfl, rfl, rfl, rfl, rfl, rfl⟩
  · exact Ordered_of_same ho ⟨by simp, by simp, by simp, by simp, by simp, by simp⟩
  · exact Ordered_acceptReplay ho h1 h2

/-! ### Leaving the line -/

theorem OrderSound_quit {s : State} (h : OrderSound s) : OrderSound s.quit := by
  obtain ⟨q1, q2, q3, q4, -⟩ := State.quit_spec s
  refine OrderSound_of_empty ?_ q2 q1 q3
  rw [ahead_congr q4]
  simpa using h.1

theorem OrderSound_joinFailure {s : State} (h : OrderSound s) : OrderSound s.joinFailure := by
  obtain ⟨x, y, z, w⟩ := State.handOn_rx_of_empty (s := (s.postReport (.joinUnanswered s.stn.joinBeacons)).discardReceive)
    (by simp [State.discardReceive_eq]) (by simp [State.discardReceive_eq]) (by simp [State.discardReceive_eq])
  have hc : s.joinFailure.rx.count = s.rx.count := by simp
  have hs : s.joinFailure.rx.settled = s.rx.settled := by
    simp only [State.joinFailure, State.enterState_frame]; rw [w]; simp
  refine OrderSound_of_empty ?_ (by simpa [State.joinFailure] using y) (by simpa [State.joinFailure] using x)
    (by simpa [State.joinFailure] using z)
  rw [ahead_congr hs, hc]; exact h.1

theorem OrderSound_takeHeld {s : State} (h : OrderSound s) :
    OrderSound s.takeHeld ∧ (s.takeHeld.stn.onLine = true → Covered s → Covered s.takeHeld) := by
  unfold State.takeHeld
  split
  · have k := Ordered_of_same (t := s.enterLeaving) h ⟨by simp, by simp, by simp, by simp, by simp, by simp⟩
    exact ⟨k.1, fun _ => k.2⟩
  · split
    · refine ⟨OrderSound_joinFailure h, fun hl => ?_⟩
      simp [State.joinFailure, StationBlock.onLine] at hl
    · exact ⟨h, fun _ => id⟩

end Sys2Proof.Machine
end

