-- ==== Sys2Proof/Laws/DeliveryOrder.lean ====
section
/-!
SUPPORT. The order of delivery (R14): records that stand in it, the advance's records and positions, and what every shared
operation appends to the delivery queue.
-/

namespace Sys2Proof.Machine

/-! ### Records in order -/

/-- A wider span. -/
theorem InOrder.mono {k k' d e : Nat} {b b' : LineNo} {l : List DeliveryRecord} (h : InOrder k b d l b' e) (hk : k ≤ k') :
    InOrder k' b d l b' e := by
  induction l generalizing b d with
  | nil => exact ⟨h.1, h.2.1, Nat.le_trans h.2.2 hk⟩
  | cons r l ih =>
    cases r with
    | notice n => exact ⟨h.1, Nat.le_trans h.2.1 hk, ih h.2.2⟩
    | lost f z x => exact ⟨h.1, h.2.1, Nat.le_trans h.2.2.1 hk, ih h.2.2.2⟩
    | base r x => exact ih (b := r.number) h

/-- Less has been passed before. -/
theorem InOrder.earlier {k d d' e : Nat} {b b' : LineNo} {l : List DeliveryRecord} (h : InOrder k b d l b' e) (hd : d' ≤ d) :
    InOrder k b d' l b' e := by
  cases l with
  | nil => exact ⟨h.1, Nat.le_trans hd h.2.1, h.2.2⟩
  | cons r l =>
    cases r with
    | notice n => exact ⟨Nat.lt_of_le_of_lt hd h.1, h.2⟩
    | lost f z x => exact ⟨Nat.lt_of_le_of_lt hd h.1, h.2⟩
    | base r x => exact h

/-- The records end within the span of their base. -/
theorem InOrder.stop_le {k d e : Nat} {b b' : LineNo} {l : List DeliveryRecord} (h : InOrder k b d l b' e) : e ≤ k := by
  induction l generalizing b d with
  | nil => exact h.2.2
  | cons r l ih =>
    cases r with
    | notice n => exact ih h.2.2
    | lost f z x => exact ih h.2.2.2
    | base r x => exact ih (b := r.number) h

theorem InOrder.append {k d e f : Nat} {b c z : LineNo} {l m : List DeliveryRecord} (h : InOrder k b d l c e)
    (hm : InOrder k c e m z f) : InOrder k b d (l ++ m) z f := by
  induction l generalizing b d with
  | nil => obtain ⟨rfl, hd, -⟩ := h; exact hm.earlier hd
  | cons r l ih =>
    cases r with
    | notice n => exact ⟨h.1, h.2.1, ih h.2.2⟩
    | lost x y w => exact ⟨h.1, h.2.1, h.2.2.1, ih h.2.2.2⟩
    | base r w => exact ih (b := r.number) h

/-- Distances add. -/
theorem sub_toNat_add {b c n : LineNo} (h : (c - b).toNat + (n - c).toNat < 65536) :
    (n - b).toNat = (c - b).toNat + (n - c).toNat := by
  rw [show n - b = (c - b) + (n - c) by ring, BitVec.toNat_add]; omega

/-- Records counted from a place `c`, counted from a base before it. -/
theorem InOrder.shift {k d e : Nat} {b c z : LineNo} {l : List DeliveryRecord} (h : InOrder k c d l z e)
    (hk : (c - b).toNat + k < 65536) :
    ∃ z' e', InOrder ((c - b).toNat + k) b ((c - b).toNat + d) l z' e'
      ∧ (∀ x : LineNo, (x - z).toNat = e → (x - z').toNat = e')
      ∧ ((∀ r w, .base r w ∉ l) → z' = b ∧ e' = (c - b).toNat + e) := by
  induction l generalizing d with
  | nil =>
    obtain ⟨hz, h1, h2⟩ := h
    subst hz
    refine ⟨b, (z - b).toNat + e, ⟨rfl, by omega, by omega⟩, fun x hx => ?_, fun _ => ⟨rfl, rfl⟩⟩
    rw [sub_toNat_add (c := z) (by omega), hx]
  | cons r l ih =>
    cases r with
    | notice n =>
      obtain ⟨h1, h2, h3⟩ := h
      obtain ⟨z', e', k1, k2, k3⟩ := ih h3
      have hn := sub_toNat_add (b := b) (c := c) (n := n.number) (by omega)
      exact ⟨z', e', ⟨by omega, by omega, by rw [hn]; exact k1⟩, k2,
        fun hb => k3 fun r w hr => hb r w (List.mem_cons_of_mem _ hr)⟩
    | lost f y w =>
      obtain ⟨h1, h2, h3, h4⟩ := h
      obtain ⟨z', e', k1, k2, k3⟩ := ih h4
      have hf := sub_toNat_add (b := b) (c := c) (n := f) (by omega)
      have hy := sub_toNat_add (b := b) (c := c) (n := y) (by omega)
      exact ⟨z', e', ⟨by omega, by omega, by omega, by rw [hy]; exact k1⟩, k2,
        fun hb => k3 fun r w hr => hb r w (List.mem_cons_of_mem _ hr)⟩
    | base r w =>
      exact ⟨z, e, InOrder.mono (b := r.number) (d := 0) h (by omega), fun x hx => hx,
        fun hb => absurd (by simp) (hb r w)⟩

/-- Where the records of one period lie. -/
theorem InOrder.within {k d e : Nat} {b z : LineNo} {l : List DeliveryRecord} (h : InOrder k b d l z e)
    (hb : ∀ r w, .base r w ∉ l) :
    d ≤ e ∧ (∀ x, .notice x ∈ l → (x.number - b).toNat ≤ e)
      ∧ ∀ f y w, .lost f y w ∈ l → d < (f - b).toNat ∧ (f - b).toNat ≤ (y - b).toNat ∧ (y - b).toNat ≤ k := by
  induction l generalizing d with
  | nil => exact ⟨h.2.1, by simp, by simp⟩
  | cons r l ih =>
    have hb' : ∀ r w, DeliveryRecord.base r w ∉ l := fun r w hr => hb r w (List.mem_cons_of_mem _ hr)
    cases r with
    | notice n =>
      obtain ⟨j1, j2, j3⟩ := ih h.2.2 hb'
      have h1 := h.1
      refine ⟨by omega, fun x hx => ?_, fun f y w hw => ?_⟩
      · rcases List.mem_cons.mp hx with hx | hx
        · cases hx; exact j1
        · exact j2 x hx
      · have := j3 f y w (by simpa using hw); omega
    | lost a c u =>
      obtain ⟨j1, j2, j3⟩ := ih h.2.2.2 hb'
      obtain ⟨h1, h2, h3, -⟩ := h
      refine ⟨by omega, fun x hx => j2 x (by simpa using hx), fun f y w hw => ?_⟩
      rcases List.mem_cons.mp hw with hw | hw
      · cases hw; exact ⟨h1, h2, h3⟩
      · have := j3 f y w hw; omega
    | base r w => exact absurd (by simp) (hb r w)

/-! ### The advance -/

/-- What the advance appends, and what it says of the positions it settles (R101, R102). -/
def AdvancedBy (s t : State) (more : List DeliveryRecord) : Prop :=
  t.rx.queue = s.rx.queue ++ more ∧ (∀ r w, .base r w ∉ more)
    ∧ InOrder (s.ahead s.rx.count) s.rx.settled 0 more s.rx.settled (s.ahead t.rx.settled)
    ∧ (∀ x, .notice x ∈ more → x ∈ s.rx.holdSet)
    ∧ (∀ first last d n, .lost first last d ∈ more → s.ahead first ≤ s.ahead n → s.ahead n ≤ s.ahead last →
        s.knownAt n = false ∧ s.lostAt n = true)
    ∧ (∀ n, 1 ≤ s.ahead n → s.ahead n ≤ s.ahead t.rx.settled →
        (∃ x ∈ s.rx.holdSet, x.number = n ∧ .notice x ∈ more)
          ∨ (∃ first last d, .lost first last d ∈ more ∧ s.ahead first ≤ s.ahead n ∧ s.ahead n ≤ s.ahead last)
          ∨ (s.knownAt n = true ∧ ∀ x ∈ s.rx.holdSet, x.number ≠ n))
    ∧ (∀ n, s.ahead t.rx.settled < s.ahead n → s.ahead n ≤ s.ahead s.rx.count → t.lostAt n = true → s.lostAt n = true)
    ∧ ∀ x ∈ s.rx.holdSet, x ∈ t.rx.holdSet ∨ .notice x ∈ more

/-- What trimming leaves LOST was LOST (R118). -/
theorem State.lostAt_settle {s : State} (h : OrderSound s) {n m : LineNo} (hn : s.ahead n ≤ 256)
    (hl : (s.settle n).lostAt m = true) : s.lostAt m = true := by
  unfold State.lostAt at *
  obtain ⟨e', he', h2⟩ := List.any_eq_true.mp hl
  obtain ⟨e, he, h3⟩ := List.mem_filterMap.mp he'
  have h5 := h.2.2.2.2.1 e he
  have h256 := h.1
  obtain ⟨k1, k2, k3, k4, k5, k6, -⟩ := trimGap_some (s := s) hn (by omega) h3
  rw [Bool.and_eq_true, GapEntry.covers_iff (s := s) k2, k4, k6] at h2
  exact List.any_eq_true.mpr ⟨e, he, by
    rw [Bool.and_eq_true, GapEntry.covers_iff (s := s) h5.2.1]; exact ⟨h2.1, by omega, h2.2.2⟩⟩

/-- A held notice is delivered. -/
theorem AdvancedBy_held {s u : State} {n : RxNotice} (h : OrderSound s) (hr : u.rx.settled = s.rx.settled)
    (hu : OrderSound u) (hg : ∀ m, u.lostAt m = s.lostAt m)
    (hn : n.number = s.rx.settled + 1) (hh : s.rx.holdSet = n :: u.rx.holdSet) (hq : u.rx.queue = s.rx.queue ++ [.notice n])
    (hc : 1 ≤ s.ahead s.rx.count) : AdvancedBy s (u.settle (s.rx.settled + 1)) [.notice n] := by
  have h256 := h.1
  have hnx : s.ahead (s.rx.settled + 1) = 1 := ahead_next s
  unfold AdvancedBy
  rw [State.settle_settled, hnx]
  refine ⟨hq, by simp, ?_, by simp [hh], by simp, fun m m1 m2 => Or.inl ⟨n, by simp [hh], ?_, by simp⟩,
    fun m _ _ hl => ?_, fun x hx => ?_⟩
  · have h1 : (n.number - s.rx.settled).toNat = 1 := by rw [hn, ← State.ahead_eq, hnx]
    exact ⟨by omega, by omega, rfl, by omega, hc⟩
  · exact hn.trans (ahead_inj (s := s) (by omega))
  · rw [← hg]; exact State.lostAt_settle hu (by rw [ahead_congr hr, hnx]; omega) hl
  · rw [hh] at hx
    rcases List.mem_cons.mp hx with rfl | hx
    · exact Or.inr (by simp)
    · exact Or.inl hx

theorem State.advanceStep_by {s t : State} (h : OrderSound s) (ht : s.advanceStep = some t) : ∃ more, AdvancedBy s t more := by
  have h256 := h.1
  have hnx : s.ahead (s.rx.settled + 1) = 1 := ahead_next s
  obtain ⟨-, hmv, -⟩ := State.advanceStep_spec h ht
  have hcnt := hmv.2.1
  clear hmv
  obtain ⟨-, hcase | hcase | hcase⟩ := State.advanceStep_cases ht
  · obtain ⟨n, hn, rfl⟩ := hcase
    obtain ⟨rest, e1, e2, e3⟩ := holdSet_next h hn
    rw [State.settle_settled, hnx] at hcnt
    refine ⟨[.notice n], AdvancedBy_held h rfl ?_ (fun _ => rfl) e3 (e1.trans (by rw [← e2]; rfl)) rfl hcnt⟩
    obtain ⟨o1, o2, o3, o4, o5, o6, o7, o8⟩ := h
    rw [e2]
    refine ⟨o1, o2, fun x hx => o3 x (by rw [e1]; exact List.mem_cons_of_mem _ hx), ?_, o5, o6, o7, o8⟩
    rw [e1] at o4; exact (List.pairwise_cons.mp o4).2
  · obtain ⟨hn, hk, rfl⟩ := hcase
    rw [State.settle_settled, hnx] at hcnt
    refine ⟨[], by simp, by simp, ⟨rfl, by omega, by rw [State.settle_settled, hnx]; exact hcnt⟩, by simp, by simp,
      fun m m1 m2 => Or.inr (Or.inr ?_), fun m _ _ hl => State.lostAt_settle h (by omega) hl, fun x hx => Or.inl hx⟩
    rw [State.settle_settled, hnx] at m2
    have hm : m = s.rx.settled + 1 := ahead_inj (s := s) (by omega)
    subst hm
    refine ⟨hk, fun x hx => ?_⟩
    rw [List.find?_eq_none] at hn; simpa using hn x hx
  · obtain ⟨-, hk, hl, d, ds, -, rfl⟩ := hcase
    have h1 : s.ahead (s.rx.settled + 1) ≤ s.ahead s.rx.count := by
      unfold State.lostAt at hl
      obtain ⟨e, he, h2⟩ := List.any_eq_true.mp hl
      have h3 := h.2.2.2.2.1 e he
      rw [Bool.and_eq_true, GapEntry.covers_iff (s := s) h3.2.1] at h2
      omega
    obtain ⟨l1, l2, l3, -⟩ := State.lostRunEnd_spec h Config.spanLimit (s.rx.settled + 1) h1
      (by unfold Config.spanLimit; omega)
    clear hcnt ht
    generalize s.lostRunEnd Config.spanLimit (s.rx.settled + 1) = z at *
    refine ⟨[.lost (s.rx.settled + 1) z d], rfl, by simp, ?_, by simp, ?_,
      fun m m1 m2 => Or.inr (Or.inl ⟨s.rx.settled + 1, z, d, List.mem_singleton.mpr rfl, by omega, m2⟩),
      fun m _ _ hl => State.lostAt_settle (s := s) (n := z) h (Nat.le_trans l2 h256) hl, fun x hx => Or.inl hx⟩
    · have h2 : (s.rx.settled + 1 - s.rx.settled).toNat = 1 := by rw [← State.ahead_eq, hnx]
      have h3 : (z - s.rx.settled).toNat = s.ahead z := rfl
      exact ⟨by omega, by omega, by omega, rfl, Nat.le_refl _, l2⟩
    · intro f y w n hm n1 n2
      simp only [List.mem_singleton, DeliveryRecord.lost.injEq] at hm
      obtain ⟨rfl, rfl, -⟩ := hm
      rcases Nat.eq_or_lt_of_le n1 with n3 | n3
      · rw [← ahead_inj n3]; exact ⟨hk, hl⟩
      · exact l3 n n3 n2

theorem AdvancedBy.refl (s : State) : AdvancedBy s s [] :=
  ⟨by simp, by simp, ⟨rfl, by omega, by simp⟩, by simp, by simp, fun n h1 h2 => by simp at h2; omega,
    fun _ _ _ h => h, fun _ h => Or.inl h⟩

theorem AdvancedBy.trans {s t u : State} {m l : List DeliveryRecord} (hs : OrderSound s) (hst : MovedOn s t)
    (htu : MovedOn t u) (h : AdvancedBy s t m) (k : AdvancedBy t u l) : AdvancedBy s u (m ++ l) := by
  obtain ⟨h1, hb, h2, h3, h4, h5, h6, h7⟩ := h
  obtain ⟨k1, kb, k2, k3, k4, k5, k6, k7⟩ := k
  have h256 := hs.1
  have hc : s.ahead t.rx.settled ≤ s.ahead s.rx.count := hst.2.1
  have htc : t.ahead t.rx.count = s.ahead s.rx.count - s.ahead t.rx.settled := by rw [hst.1]; exact ahead_shift hc
  have hku : t.ahead u.rx.settled ≤ t.ahead t.rx.count := htu.2.1
  have hus : s.ahead u.rx.settled = s.ahead t.rx.settled + t.ahead u.rx.settled := ahead_unshift (by omega)
  -- the distance of a position after the first run
  have hsh : ∀ n, s.ahead t.rx.settled ≤ s.ahead n → t.ahead n = s.ahead n - s.ahead t.rx.settled := fun n hn => ahead_shift hn
  -- the records of the second run lie after the first
  have hafter : ∀ f z d, .lost f z d ∈ l → 1 ≤ t.ahead f ∧ t.ahead f ≤ t.ahead z ∧ t.ahead z ≤ t.ahead t.rx.count := by
    intro f z d hm
    have := (k2.within kb).2.2 f z d hm
    simp only [← State.ahead_eq] at this
    omega
  have hun : ∀ n, t.ahead n ≤ t.ahead t.rx.count → s.ahead n = s.ahead t.rx.settled + t.ahead n :=
    fun n hn => ahead_unshift (by omega)
  refine ⟨by rw [k1, h1, List.append_assoc], ?_, ?_, ?_, ?_, ?_, ?_, ?_⟩
  · intro r w hr
    rcases List.mem_append.mp hr with hr | hr
    · exact hb r w hr
    · exact kb r w hr
  · obtain ⟨z', e', i1, -, i3⟩ := InOrder.shift (b := s.rx.settled) k2 (by rw [← State.ahead_eq]; omega)
    obtain ⟨rfl, rfl⟩ := i3 kb
    rw [← State.ahead_eq] at i1
    rw [hus]
    refine h2.append (i1.mono (by omega) |>.earlier (by omega))
  · intro x hx
    rcases List.mem_append.mp hx with hx | hx
    · exact h3 x hx
    · exact hst.2.2.2.2.2.1 x (k3 x hx)
  · intro f z d n hm n1 n2
    rcases List.mem_append.mp hm with hm | hm
    · exact h4 f z d n hm n1 n2
    · obtain ⟨a1, a2, a3⟩ := hafter f z d hm
      have b1 := hun f (by omega)
      have b2 := hun z a3
      have b3 := hsh n (by omega)
      obtain ⟨c1, c2⟩ := k4 f z d n hm (by omega) (by omega)
      exact ⟨by rw [← hst.2.2.1 n (by omega)]; exact c1, h6 n (by omega) (by omega) c2⟩
  · intro n n1 n2
    rcases Nat.lt_or_ge (s.ahead t.rx.settled) (s.ahead n) with n3 | n3
    · have b3 := hsh n (by omega)
      rcases k5 n (by omega) (by omega) with ⟨x, hx, c1, c2⟩ | ⟨f, z, d, c1, c2, c3⟩ | ⟨c1, c2⟩
      · exact Or.inl ⟨x, hst.2.2.2.2.2.1 x hx, c1, List.mem_append_right _ c2⟩
      · obtain ⟨a1, a2, a3⟩ := hafter f z d c1
        have b1 := hun f (by omega)
        have b2 := hun z a3
        exact Or.inr (Or.inl ⟨f, z, d, List.mem_append_right _ c1, by omega, by omega⟩)
      · refine Or.inr (Or.inr ⟨by rw [← hst.2.2.1 n n3]; exact c1, fun x hx hxn => ?_⟩)
        rcases h7 x hx with h8 | h8
        · exact c2 x h8 hxn
        · -- a record of the first run lies at or before where it ended
          have := (h2.within hb).2.1 x h8
          rw [← State.ahead_eq] at this
          rw [hxn] at this; omega
    · rcases h5 n n1 n3 with ⟨x, hx, c1, c2⟩ | ⟨f, z, d, c1, c2, c3⟩ | c
      · exact Or.inl ⟨x, hx, c1, List.mem_append_left _ c2⟩
      · exact Or.inr (Or.inl ⟨f, z, d, List.mem_append_left _ c1, c2, c3⟩)
      · exact Or.inr (Or.inr c)
  · intro n n1 n2 hl
    have b3 := hsh n (by omega)
    exact h6 n (by omega) n2 (k6 n (by omega) (by omega) hl)
  · intro x hx
    rcases h7 x hx with h8 | h8
    · rcases k7 x h8 with h9 | h9
      · exact Or.inl h9
      · exact Or.inr (List.mem_append_right _ h9)
    · exact Or.inr (List.mem_append_left _ h8)

/-- What a run of the advance delivers (R14, R101, R102). -/
theorem State.advanceRun_by {s : State} (h : OrderSound s) (fuel : Nat) : ∃ more, AdvancedBy s (State.advanceRun fuel s) more := by
  induction fuel generalizing s with
  | zero => exact ⟨[], AdvancedBy.refl s⟩
  | succ fuel ih =>
    unfold State.advanceRun
    cases hs : s.advanceStep with
    | none => exact ⟨[], AdvancedBy.refl s⟩
    | some t =>
      obtain ⟨k1, k2, -⟩ := State.advanceStep_spec h hs
      obtain ⟨m, hm⟩ := State.advanceStep_by h hs
      obtain ⟨l, hl⟩ := ih k1
      exact ⟨m ++ l, hm.trans h k2 (State.advanceRun_spec k1 fuel).2.1 hl⟩

theorem State.advance_by {s : State} (h : OrderSound s) : ∃ more, AdvancedBy s s.advance more := State.advanceRun_by h _

/-! ### What an operation delivers -/

/-- What an operation appends to the delivery queue, `k` positions wide at most: records that stand in order from the settled
point on, up to the settled point it leaves. While a BASE record waits nothing else is appended (R68). -/
def Delivers (k : Nat) (s t : State) : Prop :=
  (BaseWaitsAtSettled s → BaseWaitsAtSettled t)
    ∧ ∃ more base stop, t.rx.queue = s.rx.queue ++ more ∧ InOrder k s.rx.settled 0 more base stop
      ∧ (t.pool.pendingBase = none → (t.rx.settled - base).toNat = stop)
      ∧ (s.pool.pendingBase ≠ none → (more = [] ∧ t.pool.pendingBase ≠ none) ∨ ∃ b d rest, more = .base b d :: rest)

theorem Delivers.mono {k k' : Nat} {s t : State} (h : Delivers k s t) (hk : k ≤ k') : Delivers k' s t := by
  obtain ⟨hb, more, base, stop, h1, h2, h3, h4⟩ := h
  exact ⟨hb, more, base, stop, h1, h2.mono hk, h3, h4⟩

theorem Delivers.trans {k l : Nat} {s t u : State} (h : Delivers k s t) (g : Delivers l t u) (hk : k + l < 65536) :
    Delivers (k + l) s u := by
  obtain ⟨hb, m, b, e, h1, h2, h3, h4⟩ := h
  obtain ⟨gb, n, c, f, g1, g2, g3, g4⟩ := g
  have hq : u.rx.queue = s.rx.queue ++ (m ++ n) := by rw [g1, h1, List.append_assoc]
  have he := h2.stop_le
  refine ⟨fun x => gb (hb x), m ++ n, ?_⟩
  by_cases hp : t.pool.pendingBase = none
  · have h5 := h3 hp
    obtain ⟨c', f', i1, i2, -⟩ := g2.shift (b := b) (by omega)
    rw [h5] at i1
    refine ⟨c', f', hq, (h2.mono (by omega)).append ((i1.mono (by omega)).earlier (by omega)), fun hu => i2 _ (g3 hu), fun hs => ?_⟩
    rcases h4 hs with ⟨-, h6⟩ | ⟨x, d, rest, rfl⟩
    · exact absurd hp h6
    · exact Or.inr ⟨x, d, rest ++ n, rfl⟩
  · rcases g4 hp with ⟨rfl, g5⟩ | ⟨x, d, rest, rfl⟩
    · refine ⟨b, e, by rw [hq], by rw [List.append_nil]; exact h2.mono (by omega), fun hu => absurd hu g5, fun hs => ?_⟩
      rcases h4 hs with ⟨rfl, -⟩ | ⟨x, d, rest, rfl⟩
      · exact Or.inl ⟨rfl, g5⟩
      · exact Or.inr ⟨x, d, rest ++ [], rfl⟩
    · refine ⟨c, f, hq, (h2.mono (by omega)).append (m := .base x d :: rest) ?_, g3, fun hs => ?_⟩
      · exact InOrder.mono (b := x.number) (d := 0) g2 (by omega)
      · rcases h4 hs with ⟨rfl, -⟩ | ⟨y, w, r, rfl⟩
        · exact Or.inr ⟨x, d, rest, rfl⟩
        · exact Or.inr ⟨y, w, r ++ .base x d :: rest, rfl⟩

/-- Where queue, settled point and register stay. -/
theorem Delivers_of_same {s t : State} (h1 : t.rx.queue = s.rx.queue) (h2 : t.rx.settled = s.rx.settled)
    (h3 : t.pool.pendingBase = s.pool.pendingBase) : Delivers 0 s t := by
  refine ⟨fun h b hb => ?_, [], s.rx.settled, 0, by simp [h1], ⟨rfl, Nat.le_refl _, Nat.le_refl _⟩, fun _ => by simp [h2],
    fun h => Or.inl ⟨rfl, by rw [h3]; exact h⟩⟩
  rw [h2]; rw [h3] at hb; exact h b hb

theorem Delivers.refl (s : State) : Delivers 0 s s := Delivers_of_same rfl rfl rfl

/-- A change before an operation that queue, settled point and register do not see. -/
theorem Delivers.after {k : Nat} {s t u : State} (g : Delivers k t u) (h1 : t.rx.queue = s.rx.queue)
    (h2 : t.rx.settled = s.rx.settled) (h3 : t.pool.pendingBase = s.pool.pendingBase) : Delivers k s u := by
  obtain ⟨gb, n, c, f, g1, g2, g3, g4⟩ := g
  exact ⟨fun h => gb ((Delivers_of_same h1 h2 h3).1 h), n, c, f, by rw [g1, h1], by rw [← h2]; exact g2, g3,
    by rw [← h3]; exact g4⟩

/-- A change after it. -/
theorem Delivers.before {k : Nat} {s t u : State} (g : Delivers k s t) (h1 : u.rx.queue = t.rx.queue)
    (h2 : u.rx.settled = t.rx.settled) (h3 : u.pool.pendingBase = t.pool.pendingBase) : Delivers k s u := by
  obtain ⟨gb, n, c, f, g1, g2, g3, g4⟩ := g
  exact ⟨fun h => (Delivers_of_same h1 h2 h3).1 (gb h), n, c, f, by rw [h1, g1], g2, by rw [h2, h3]; exact g3,
    by rw [h3]; exact g4⟩

/-- The advance (R14, R101). -/
theorem Delivers_advance {s : State} (h : OrderSound s) : Delivers 256 s s.advance := by
  by_cases hp : s.pool.pendingBase = none
  · obtain ⟨more, h1, -, h2, -⟩ := State.advance_by h
    refine ⟨fun _ b hb => ?_, more, _, _, h1, h2.mono h.1, fun _ => rfl, fun hc => absurd hp hc⟩
    have h3 : s.advance.pool.pendingBase = s.pool.pendingBase := by simp
    rw [h3, hp] at hb; cases hb
  · rw [State.advance_of_none (State.advanceStep_of_pendingBase hp)]
    exact (Delivers.refl s).mono (by omega)

/-- The pending-BASE register is served (R67, R68). -/
theorem Delivers_servePendingBase {s : State} (h : BaseWaitsAtSettled s) : Delivers 0 s s.servePendingBase := by
  unfold State.servePendingBase
  split
  · rename_i b d ds hb hd
    refine ⟨fun _ x hx => by simp at hx, [.base b d], b.number, 0, rfl, ⟨rfl, Nat.le_refl _, Nat.le_refl _⟩, fun _ => ?_,
      fun _ => Or.inr ⟨b, d, [], rfl⟩⟩
    rw [h b hb]; simp
  · exact Delivers.refl s

/-- Freed storage handed on (R67). -/
theorem Delivers_handOn {s : State} (h : OrderSound s) (hb : BaseWaitsAtSettled s) : Delivers 256 s s.handOn := by
  have h1 : SameOrder s s.servePendingBase := by
    unfold State.servePendingBase; split <;> exact ⟨rfl, rfl, rfl, rfl, rfl, rfl⟩
  have := (Delivers_servePendingBase hb).trans (Delivers_advance (h.congr h1)) (by omega)
  rwa [Nat.zero_add] at this

/-- A BASE record emitted over an empty receive side, at the settled point it sets (R68, R104). -/
theorem Delivers_of_base {s t : State} {free : List Nat} {r : BaseReason} {n : LineNo} (h : BaseEmitted s t free r n)
    (hs : t.rx.settled = n) : Delivers 0 s t := by
  replace h := h.2
  split at h
  · obtain ⟨h1, -, h3⟩ := h
    refine ⟨fun _ b hb => ?_, _, n, 0, h1, ⟨rfl, Nat.le_refl _, Nat.le_refl _⟩, fun _ => by simp [hs],
      fun _ => Or.inr ⟨_, _, [], rfl⟩⟩
    rw [h3] at hb; cases hb
  · obtain ⟨h1, -, h3⟩ := h
    refine ⟨fun _ b hb => ?_, [], s.rx.settled, 0, by simp [h1], ⟨rfl, Nat.le_refl _, Nat.le_refl _⟩,
      fun hc => absurd hc (by simp [h3]), fun _ => Or.inl ⟨rfl, by simp [h3]⟩⟩
    rw [h3] at hb; cases hb; exact hs.symm

theorem Delivers_resync {s : State} (hp : PendingBaseSound s) (r : BaseReason) (c : StateCause) (n : LineNo) :
    Delivers 0 s (s.resync r c n) :=
  Delivers_of_base (State.resync_storage hp r c n).2 (State.resync_spec s r c n).2.1

theorem Delivers_spanResync {s : State} (hp : PendingBaseSound s) (n : LineNo) : Delivers 0 s (s.spanResync n) := by
  unfold State.spanResync; split
  · exact Delivers_resync hp _ _ _
  · exact Delivers.refl s

theorem Delivers_adopt {s : State} (hp : PendingBaseSound s) (h1 : s.rx.holdSet = []) (h3 : s.gaps = []) (n : LineNo) :
    Delivers 0 s (s.adopt n) := by
  obtain ⟨-, a2, -, -, -, -, -, -, -, -, a11⟩ := State.adopt_spec h1 h3 n
  exact Delivers_of_base (a11 hp) a2

theorem Delivers_found {s : State} (hp : PendingBaseSound s) (h1 : s.rx.holdSet = []) (h3 : s.gaps = []) :
    Delivers 0 s s.found := by
  obtain ⟨-, a2, -, -, -, -, -, -, -, -, a11⟩ := State.found_spec h1 h3
  exact Delivers_of_base (a11 hp) a2

theorem Delivers_quit {s : State} (hp : PendingBaseSound s) : Delivers 0 s s.quit := by
  obtain ⟨h1, -, h3⟩ := State.quit_freed hp
  exact Delivers_of_same h1 (State.quit_spec s).2.2.2.1 (by rw [h3])

theorem Delivers_joinFailure {s : State} (hp : PendingBaseSound s) : Delivers 0 s s.joinFailure := by
  have h := State.discardReceive_handOn (s := s.postReport (.joinUnanswered s.stn.joinBeacons))
    (hp.congr (by simp) (by simp) (by simp) (by simp))
  unfold State.joinFailure
  rw [h]
  refine Delivers_of_same ?_ ?_ ?_ <;> simp [State.discardReceive_eq]

theorem Delivers_takeHeld {s : State} (hp : PendingBaseSound s) : Delivers 0 s s.takeHeld := by
  unfold State.takeHeld; split
  · exact Delivers_of_same (by simp) (by simp) (by simp)
  · split
    · exact Delivers_joinFailure hp
    · exact Delivers.refl s

/-- The provisional notice freed and its storage handed on (R43, R47, R67). -/
theorem Delivers_freeProvisional {s : State} (h : OrderSound s) (hb : BaseWaitsAtSettled s) :
    Delivers 256 s s.freeProvisional := by
  unfold State.freeProvisional; split
  · have hs : SameOrder s s.dropProvisional := ⟨by simp, by simp, by simp, by simp, by simp, by simp⟩
    refine (Delivers_handOn (h.congr hs) ?_).after (by simp) (by simp) (by simp)
    exact (Delivers_of_same (by simp) (by simp) (by simp) : Delivers 0 s s.dropProvisional).1 hb
  · exact (Delivers.refl s).mono (by omega)

/-! ### Rises of the count -/

/-- A missing range handed over may start the advance (R116). -/
theorem Delivers_handRange {s : State} {old last : LineNo} (h : OrderSound s)
    (hg : ∀ e ∈ s.gaps, s.ahead e.last ≤ s.ahead old) (h2 : s.ahead old < s.ahead last)
    (h3 : s.ahead last ≤ s.ahead s.rx.count) : Delivers 256 s (s.handRange (old + 1) last) := by
  unfold State.handRange
  split
  · exact (Delivers_of_same rfl rfl rfl).mono (by omega)
  · rename_i hl
    split
    · obtain ⟨b, e, hbe⟩ : ∃ b e, s.gaps = b ++ [e] := by
        rcases List.eq_nil_or_concat s.gaps with hz | ⟨b, e, hz⟩
        · rw [hz] at hl; simp [Config.gapEntries] at hl
        · exact ⟨b, e, by simpa using hz⟩
      obtain ⟨k1, -⟩ := Ordered_reach (g := { e with last := last }) (t := State.postReport
        { s with gaps := changeLast (fun e => { e with last := last }) s.gaps } (.gapOverflow (old + 1) last))
        h hbe (by simp only [State.postReport_frame]; rw [hbe, changeLast_append]) ⟨rfl, rfl, rfl⟩ (by simp) (by simp)
        (hg e (by rw [hbe]; simp)) h2 h3
      exact (Delivers_advance k1).after (by simp) (by simp) (by simp)
    · exact (Delivers_of_same rfl rfl rfl).mono (by omega)

/-- A rise of the count (R5, R114, R116). -/
theorem Delivers_raiseCount {s : State} {n last : LineNo} (h : OrderSound { s with rx := { s.rx with count := n } })
    (hg : ∀ e ∈ s.gaps, s.ahead e.last ≤ s.ahead s.rx.count) (h1 : s.ahead s.rx.count ≤ s.ahead last)
    (h2 : s.ahead last ≤ s.ahead n) : Delivers 256 s (s.raiseCount n last) := by
  have hand : ∀ u : State, last ≠ s.rx.count → SameOrder { s with rx := { s.rx with count := n } } u →
      u.rx.queue = s.rx.queue → u.pool.pendingBase = s.pool.pendingBase →
      Delivers 256 s (u.handRange (s.rx.count + 1) last) := by
    intro u hne hu hq hp
    have ha : ∀ m, u.ahead m = s.ahead m := ahead_congr hu.2.1
    have hlt : s.ahead s.rx.count < s.ahead last := by
      rcases Nat.lt_or_ge (s.ahead s.rx.count) (s.ahead last) with h3 | h3
      · exact h3
      · exact absurd (ahead_inj (Nat.le_antisymm h3 h1)) hne
    refine (Delivers_handRange (h.congr hu) ?_ ?_ ?_).after hq hu.2.1 hp
    · intro e he; rw [ha, ha]; exact hg e (by rw [hu.2.2.2.2.1] at he; exact he)
    · rw [ha, ha]; exact hlt
    · rw [ha, ha, hu.1]; exact h2
  unfold State.raiseCount
  dsimp only
  split
  · exact (Delivers_of_same (by simp) (by simp) (by simp)).mono (by omega)
  · rename_i hl
    split
    · split
      · exact (hand (State.clearCatchingUp { s with rx := { s.rx with count := n } } |> fun u =>
          { u with freeReads := u.freeReads + 1 }) hl ⟨rfl, rfl, rfl, rfl, rfl, rfl⟩ rfl rfl).before (by simp) (by simp)
            (by simp)
      · exact hand _ hl ⟨by simp, by simp, by simp, by simp, by simp, by simp⟩ (by simp) (by simp)
    · exact hand _ hl ⟨by simp, by simp, by simp, by simp, by simp, by simp⟩ (by simp) (by simp)

/-- A rise to a header's count (R3, R5). -/
theorem Delivers_raiseToHeader {s : State} {n : LineNo} (h : OrderSound s) (hf : follows s.rx.count n = true)
    (hn : s.spanRefuses n = false) : Delivers 256 s (s.raiseCount n n) := by
  obtain ⟨h1, h2⟩ := ahead_of_follows h hf hn
  exact Delivers_raiseCount (OrderSound_count h (by omega) h2) (fun e he => (h.2.2.2.2.1 e he).2.2) (by omega) (Nat.le_refl _)

theorem Delivers_headerProcess {s : State} (h : OrderSound s) (hp : PendingBaseSound s) (hd : Header) (l : Bool) :
    Delivers 256 s (s.headerProcess hd l).1 := by
  have h' := h.congr (SameOrder_headerMember s hd l)
  have hp' := hp.headerMember hd l
  suffices Delivers 256 (s.headerMember hd l) (s.headerProcess hd l).1 from this.after (by simp) (by simp) (by simp)
  unfold State.headerProcess
  dsimp only
  split
  · exact (Delivers_spanResync hp' _).mono (by omega)
  · rename_i h1
    split
    · rename_i h2
      simp only [h2, Bool.or_eq_true, Bool.true_and, not_or, Bool.not_eq_true] at h1
      exact Delivers_raiseToHeader h' h2 h1.2
    · exact (Delivers.refl _).mono (by omega)

/-- The distance of the position before. -/
theorem ahead_pred {s : State} {n : LineNo} (h : 1 ≤ s.ahead n) : s.ahead (n - 1) = s.ahead n - 1 := by
  unfold State.ahead at *
  have h1 : n - 1 - s.rx.settled = (n - s.rx.settled) - 1 := by ring
  rw [h1, BitVec.toNat_sub_of_le (by rw [BitVec.le_def]; simpa using h)]; rfl

/-- The rise to a position that has become known, and the advance after it (R4, R42, R97). -/
theorem Delivers_rise {s u : State} {n : LineNo} (h : OrderSound s) (h1 : s.ahead s.rx.count < s.ahead n)
    (hs : u.rx.settled = s.rx.settled) (hc : u.rx.count = s.rx.count)
    (hu : OrderSound { u with rx := { u.rx with count := n } }) (hg : ∀ e ∈ u.gaps, e ∈ s.gaps)
    (hr : OrderSound (u.raiseCount n (n - 1))) : Delivers 512 u (u.raiseCount n (n - 1)).advance := by
  have ha : ∀ m, u.ahead m = s.ahead m := ahead_congr hs
  have hpred := ahead_pred (s := s) (n := n) (by omega)
  refine (Delivers_raiseCount hu ?_ ?_ ?_).trans (Delivers_advance hr) (by omega)
  · intro e he; rw [ha, ha, hc]; exact (h.2.2.2.2.1 e (hg e he)).2.2
  · rw [ha, ha, hc, hpred]; omega
  · rw [ha, ha, hpred]; omega

/-- The commit of the position after the count (R42, R48). -/
theorem Delivers_takeCommitted {s : State} {n : LineNo} (h : OrderSound s) (hn : n = s.rx.count + 1)
    (hr : s.spanRefuses n = false) (hp : ∀ p, s.commit.provisional = some p → p.number = n) :
    Delivers 512 s (s.takeCommitted n) := by
  have h256 := h.1
  have h1 : s.ahead n = s.ahead s.rx.count + 1 := by rw [hn]; exact ahead_succ s _ (by omega)
  have h2 : s.ahead n ≤ 256 := by
    unfold State.spanRefuses at hr
    rw [decide_eq_false_iff_not] at hr
    simp only [Config.spanLimit, Nat.not_lt] at hr; exact hr
  obtain ⟨p, hpp, e⟩ | ⟨-, e⟩ := s.takeCommitted_cases n <;> rw [e]
  · have hpn := hp p hpp
    subst hpn
    have k := Ordered_holdAndRise (s := { s with commit := { s.commit with provisional := none } }) (p := p) h
      (show s.ahead s.rx.count < s.ahead p.number by omega) h2
    have g := Delivers_rise (s := s) (u := State.hold { s with commit := { s.commit with provisional := none } } p) h
      (by omega) rfl rfl ?_ (fun e he => (List.mem_filter.mp he).1) k.1
    · exact g.after rfl rfl rfl
    exact OrderSound_hold (s := { s with rx := { s.rx with count := p.number } }) (OrderSound_count h (by omega) h2)
      (show 1 ≤ s.ahead p.number by omega) (Nat.le_refl _) (h.unknown_after (by omega))
  · have k := Ordered_makeKnownAndRise (n := n) h (by omega) h2
    have g := Delivers_rise (s := s) (u := s.makeKnown n) h (by omega) rfl rfl ?_ (fun e he => (List.mem_filter.mp he).1) k.1
    · exact g.after rfl rfl rfl
    exact OrderSound_makeKnown (s := { s with rx := { s.rx with count := n } }) (OrderSound_count h (by omega) h2)
      (show 1 ≤ s.ahead n by omega) (Nat.le_refl _)

theorem Delivers_refuseCommitted {s : State} (h : OrderSound s) (hp : PendingBaseSound s) (hb : BaseWaitsAtSettled s)
    (n : LineNo) : Delivers 256 s (s.refuseCommitted n) := by
  unfold State.refuseCommitted; split
  · exact (Delivers_spanResync hp _).mono (by omega)
  · exact Delivers_freeProvisional h hb

/-- A position of a REPLAY that has become known or held (R97): the rise and the advance. -/
theorem Delivers_riseAndAdvance {s u : State} {n : LineNo} (h : OrderSound s) (hs : u.rx.settled = s.rx.settled)
    (hc : u.rx.count = s.rx.count) (hg : ∀ e ∈ u.gaps, e ∈ s.gaps)
    (h1 : follows s.rx.count n = true → s.ahead s.rx.count < s.ahead n
      ∧ OrderSound { u with rx := { u.rx with count := n } } ∧ OrderSound (u.raiseCount n (n - 1)))
    (h2 : follows s.rx.count n = false → OrderSound u) : Delivers 512 u (u.riseAndAdvance n) := by
  unfold State.riseAndAdvance
  cases hf : follows s.rx.count n with
  | true =>
    obtain ⟨a1, a2, a3⟩ := h1 hf
    rw [if_pos (by rw [hc]; exact hf)]
    exact Delivers_rise h a1 hs hc a2 hg a3
  | false =>
    rw [if_neg (by rw [hc, hf]; simp)]
    exact (Delivers_advance (h2 hf)).mono (by omega)

/-- An accepted REPLAY (R12, R97). -/
theorem Delivers_acceptReplay {s : State} {h : Header} {b : NoticeBody} (ho : OrderSound s) (hp : PendingBaseSound s)
    (h1 : frameAtOrBefore b.number s.rx.settled = false) (h2 : s.knownAt b.number = false) :
    Delivers 512 s (s.acceptReplay h b) := by
  have h1' : follows s.rx.settled b.number = true := by unfold frameAtOrBefore at h1; simpa using h1
  rcases s.acceptReplay_cases h b with ⟨-, -, e⟩ | ⟨hsp, e | ⟨n, v, e1, _, _, e⟩ | ⟨c, e⟩⟩ <;> rw [e]
  · exact (Delivers_spanResync hp _).mono (by omega)
  · refine (Delivers_riseAndAdvance (s := s) (u := s.makeKnown b.number) ho rfl rfl (fun e he => (List.mem_filter.mp he).1) (fun hf => ?_)
      (fun hf => ?_)).after rfl rfl rfl
    · obtain ⟨a1, a2⟩ := ahead_of_follows ho hf (hsp hf)
      exact ⟨a1, OrderSound_makeKnown (s := { s with rx := { s.rx with count := b.number } })
        (OrderSound_count ho (by omega) a2) (show 1 ≤ s.ahead b.number by omega) (Nat.le_refl _),
        (Ordered_makeKnownAndRise ho a1 a2).1⟩
    · obtain ⟨a1, a2⟩ := ahead_of_between ho h1' hf
      exact OrderSound_makeKnown ho a1 a2
  · obtain ⟨rfl, rfl⟩ := State.storeNotice_eq e1
    generalize hv : ({ s with pool := _ } : State) = v
    have hs : SameOrder s v := by rw [← hv]; exact ⟨rfl, rfl, rfl, rfl, rfl, rfl⟩
    have hvq : v.rx.queue = s.rx.queue ∧ v.pool.pendingBase = s.pool.pendingBase := by rw [← hv]; exact ⟨rfl, rfl⟩
    generalize hnn : ({ number := b.number, originator := h.sender, topic := b.topic, length := b.payload.length
                        own := false, tag := none, replay := true, desc := _, chain := _ } : RxNotice) = n
    have hnb : n.number = b.number := by rw [← hnn]
    have hov := ho.congr hs
    have ha : ∀ m, v.ahead m = s.ahead m := ahead_congr hs.2.1
    rw [← hnb]
    rw [← hnb] at h1' h2 hsp
    refine (Delivers_riseAndAdvance (s := v) (u := v.hold n) hov rfl rfl (fun e he => (List.mem_filter.mp he).1)
      (fun hf => ?_) (fun hf => ?_)).after hvq.1 hs.2.1 hvq.2
    · rw [hs.1] at hf
      obtain ⟨a1, a2⟩ := ahead_of_follows ho hf (hsp hf)
      rw [← ha, ← ha, ← hs.1] at a1
      rw [← ha] at a2
      exact ⟨a1, OrderSound_hold (s := { v with rx := { v.rx with count := n.number } })
        (OrderSound_count hov (by omega) a2) (show 1 ≤ v.ahead n.number by omega) (Nat.le_refl _) (hov.unknown_after a1),
        (Ordered_holdAndRise hov a1 a2).1⟩
    · rw [hs.1] at hf
      obtain ⟨a1, a2⟩ := ahead_of_between ho h1' hf
      exact OrderSound_hold hov (by rw [ha]; exact a1) (by rw [ha, ha, hs.1]; exact a2)
        (by rw [knownAt_congr hs.2.1 hs.2.2.1]; exact h2)
  · exact (Delivers_of_same rfl rfl rfl).mono (by omega)

theorem Delivers_classifyReplay {s : State} {h : Header} {b : NoticeBody} (ho : OrderSound s) (hp : PendingBaseSound s) :
    Delivers 512 s (s.classifyReplay h b) := by
  rcases s.classifyReplay_cases h b with ⟨c, e⟩ | ⟨c, r, e⟩ | ⟨h1, h2, e⟩ <;> rw [e]
  · exact (Delivers_of_same rfl rfl rfl).mono (by omega)
  · exact (Delivers_of_same (by simp) (by simp) (by simp)).mono (by omega)
  · exact Delivers_acceptReplay ho hp h1 h2

/-- A TAKE's removal (R106, R67): the head leaves, and what its storage lets the station deliver is appended. -/
theorem Delivers_removeHead {s : State} (h : OrderSound s) (hb : BaseWaitsAtSettled s) :
    Delivers 256 { s with rx := { s.rx with queue := s.rx.queue.drop 1 } } s.removeHead := by
  have key : ∀ v : State, SameOrder s v → v.rx.queue = s.rx.queue.drop 1 → v.pool.pendingBase = s.pool.pendingBase →
      Delivers 256 { s with rx := { s.rx with queue := s.rx.queue.drop 1 } } v.handOn := fun v hs hq hp =>
    (Delivers_handOn (h.congr hs) (fun b hb' => by rw [hp] at hb'; rw [hs.2.1]; exact hb b hb')).after hq hs.2.1 hp
  unfold State.removeHead
  split
  · rename_i hq
    exact (Delivers_of_same (s := { s with rx := { s.rx with queue := s.rx.queue.drop 1 } }) (t := s) (by simp [hq]) rfl rfl).mono
      (by omega)
  · rename_i r rest hq
    dsimp only
    apply key <;> cases r <;> first | exact ⟨rfl, rfl, rfl, rfl, rfl, rfl⟩ | (rw [hq]; rfl) | rfl

end Sys2Proof.Machine
end

