-- ==== Sys2Proof/Laws/MembersSound.lean ====
section
/-!
SUPPORT. What every shared operation does to the order of the member table and to the horizon (R15, R148 to R150).
-/

namespace Sys2Proof.Machine

/-- The member table less the horizon (R148): increasing station numbers, none of this station's own, in JOINING or ACTIVE. -/
def MembersOrdered (s : State) : Prop :=
  s.members.Pairwise (fun a b => a.station.toNat < b.station.toNat)
    ∧ ∀ m ∈ s.members, m.station ≠ s.line.id ∧ (m.state = .joining ∨ m.state = .active)

theorem MembersSound.ordered {s : State} (h : MembersSound s) : MembersOrdered s :=
  ⟨h.1, fun m hm => ⟨(h.2 m hm).1, (h.2 m hm).2.1⟩⟩

theorem MembersOrdered.congr {s t : State} (h : MembersOrdered s) (h1 : t.members = s.members)
    (h2 : t.line.id = s.line.id) : MembersOrdered t := by
  unfold MembersOrdered at *; rw [h1, h2]; exact h

theorem MembersSound.congr {s t : State} (h : MembersSound s) (h1 : t.members = s.members)
    (h2 : t.line.id = s.line.id) (h3 : t.rx.count = s.rx.count) : MembersSound t := by
  unfold MembersSound at *; rw [h1, h2, h3]; exact h

theorem MembersSound_of_empty {s : State} (h : s.members = []) : MembersSound s := by
  unfold MembersSound; simp [h]

/-- Entries taken out. -/
theorem MembersSound.filter {s t : State} (h : MembersSound s) (p : Member → Bool) (h1 : t.members = s.members.filter p)
    (h2 : t.line.id = s.line.id) (h3 : t.rx.count = s.rx.count) : MembersSound t := by
  unfold MembersSound at *; rw [h1, h2, h3]
  exact ⟨h.1.filter p, fun m hm => h.2 m (List.mem_of_mem_filter hm)⟩

/-- Entries changed, but for their station numbers. -/
theorem MembersSound.map {s t : State} (h : MembersSound s) (f : Member → Member) (hf : ∀ m, (f m).station = m.station)
    (h1 : t.members = s.members.map f) (h2 : t.line.id = s.line.id) (h3 : t.rx.count = s.rx.count)
    (hk : ∀ m ∈ s.members, ((f m).state = .joining ∨ (f m).state = .active)
      ∧ distance (f m).settled s.rx.count ≤ 16384) : MembersSound t := by
  unfold MembersSound at *; rw [h1, h2, h3]
  refine ⟨?_, fun m hm => ?_⟩
  · rw [List.pairwise_map]; simpa only [hf] using h.1
  · obtain ⟨m', hm', rfl⟩ := List.mem_map.mp hm
    exact ⟨by rw [hf]; exact (h.2 m' hm').1, (hk m' hm').1, (hk m' hm').2⟩

/-- Flags and words of entries changed. -/
theorem MembersSound.mapFlags {s t : State} (h : MembersSound s) (f : Member → Member)
    (hf : ∀ m, (f m).station = m.station ∧ (f m).state = m.state ∧ (f m).settled = m.settled)
    (h1 : t.members = s.members.map f) (h2 : t.line.id = s.line.id) (h3 : t.rx.count = s.rx.count) : MembersSound t :=
  h.map f (fun m => (hf m).1) h1 h2 h3 fun m hm => by
    rw [(hf m).2.1, (hf m).2.2]; exact (h.2 m hm).2

/-- The horizon makes an ordered table sound (R15). -/
theorem MembersSound_applyHorizon {s : State} (h : MembersOrdered s) : MembersSound s.applyHorizon := by
  unfold MembersSound
  rw [State.applyHorizon_members]
  refine ⟨h.1.filter _, fun m hm => ?_⟩
  obtain ⟨hm, hb⟩ := List.mem_filter.mp hm
  refine ⟨by simpa using (h.2 m hm).1, (h.2 m hm).2, ?_⟩
  simpa using hb

theorem MembersSound_setCount {s : State} (h : MembersOrdered s) (n : LineNo) : MembersSound (s.setCount n) :=
  MembersSound_applyHorizon (h.congr rfl rfl)

theorem MembersSound.handRange {s : State} (h : MembersSound s) (a z : LineNo) : MembersSound (s.handRange a z) :=
  h.congr (by simp) (by simp) (by simp)

theorem MembersSound_raiseCount {s : State} (h : MembersOrdered s) (n l : LineNo) : MembersSound (s.raiseCount n l) := by
  have h1 : ∀ u : State, u.members = s.members → u.line.id = s.line.id → MembersSound u.applyHorizon :=
    fun u a b => MembersSound_applyHorizon (h.congr a b)
  unfold State.raiseCount
  dsimp only
  split
  · exact h1 _ rfl rfl
  · split
    · split
      · exact h1 _ (by simp) (by simp)
      · apply MembersSound.handRange; exact h1 _ rfl rfl
    · apply MembersSound.handRange; exact h1 _ rfl rfl

theorem MembersSound_resync {s : State} (h : MembersOrdered s) (r : BaseReason) (c : StateCause) (n : LineNo) :
    MembersSound (s.resync r c n) := by
  have h1 : MembersSound (s.discardReceive.setCount n) := MembersSound_setCount (h.congr (by simp) (by simp)) n
  refine h1.mapFlags (fun m => { m with includedMe := false }) (fun m => ⟨rfl, rfl, rfl⟩)
    (State.resync_spec s r c n).2.2.2.2.2.2.2.1 (by simp) ?_
  rw [(State.resync_spec s r c n).1]; simp

theorem MembersSound.spanResync {s : State} (h : MembersSound s) (n : LineNo) : MembersSound (s.spanResync n) := by
  unfold State.spanResync
  split
  · exact MembersSound_resync h.ordered _ _ _
  · exact h

theorem MembersSound_adopt {s : State} (h : MembersOrdered s) (n : LineNo) : MembersSound (s.adopt n) :=
  (MembersSound_setCount h n).mapFlags (fun m => { m with includedMe := false }) (fun _ => ⟨rfl, rfl, rfl⟩)
    (by simp [State.adopt]) (by simp [State.adopt]) (by simp [State.adopt])

theorem MembersSound_found {s : State} (h : MembersOrdered s) : MembersSound s.found :=
  (MembersSound_setCount h 0).congr (by simp [State.found]) (by simp [State.found]) (by simp [State.found])

/-- The header's part: a sender that is another station, in JOINING or ACTIVE unless it leaves (R20, R149 to R151). -/
theorem MembersSound.headerMember {s : State} (h : MembersSound s) (hd : Header) (l : Bool) (hid : hd.sender ≠ s.line.id)
    (hst : l = false → hd.senderState = .joining ∨ hd.senderState = .active) : MembersSound (s.headerMember hd l) := by
  unfold State.headerMember
  split
  · split
    · exact h.filter (fun m => !(m.station == hd.sender)) (by simp) (by simp) (by simp)
    · exact h
  · rename_i hb
    have hb' : distance hd.settled s.rx.count ≤ 16384 := by
      rw [beyondHorizon_iff] at hb; omega
    split
    · split
      · exact h.filter (fun m => !(m.station == hd.sender)) (by simp) (by simp) (by simp)
      · exact h
    · rename_i hl
      have hs := hst (by simpa using hl)
      split
      · have hm : MembersSound (s.updateMember hd.sender fun e =>
            { e with state := hd.senderState, settled := hd.settled, presence := .running s.presenceInterval }) := by
          refine h.map (fun m => if m.station == hd.sender then { m with
            state := hd.senderState, settled := hd.settled, presence := .running s.presenceInterval } else m)
            (fun m => by split <;> rfl) (by simp [State.updateMember]) (by simp [State.updateMember])
            (by simp [State.updateMember]) (fun m hm => ?_)
          split
          · exact ⟨hs, hb'⟩
          · exact (h.2 m hm).2
        dsimp only
        split
        · exact hm
        · exact hm.congr (by simp) (by simp) (by simp)
      · rename_i hn
        obtain ⟨b, a, e1, e2, e3, e4⟩ := insertMember_split
          { station := hd.sender, state := hd.senderState, settled := hd.settled
            presence := .running s.presenceInterval, includedMe := false, word := none } s.members
        have hne : ∀ e ∈ s.members, e.station ≠ hd.sender := by
          intro e he hc
          have := List.find?_eq_none.mp hn e he
          simp [hc] at this
        unfold MembersSound
        simp only [State.postReport_frame]
        rw [e2]
        have hp := h.1
        rw [e1, List.pairwise_append] at hp
        refine ⟨?_, fun m hm => ?_⟩
        · rw [List.pairwise_append, List.pairwise_cons]
          refine ⟨hp.1, ⟨e4 h.1, hp.2.1⟩, fun x hx y hy => ?_⟩
          rcases List.mem_cons.mp hy with rfl | hy
          · have h1 := e3 x hx
            have h2 := hne x (by rw [e1]; simp [hx])
            have h3 : x.station.toNat ≠ hd.sender.toNat := fun hc => h2 (BitVec.eq_of_toNat_eq hc)
            exact Nat.lt_of_le_of_ne h1 h3
          · exact hp.2.2 x hx y hy
        · simp only [List.mem_append, List.mem_cons] at hm
          rcases hm with hm | rfl | hm
          · exact h.2 m (by rw [e1]; simp [hm])
          · exact ⟨hid, hs, hb'⟩
          · exact h.2 m (by rw [e1]; simp [hm])

theorem MembersSound.headerProcess {s : State} (h : MembersSound s) (hd : Header) (l : Bool) (hid : hd.sender ≠ s.line.id)
    (hst : l = false → hd.senderState = .joining ∨ hd.senderState = .active) :
    MembersSound (s.headerProcess hd l).1 := by
  have h1 := h.headerMember hd l hid hst
  unfold State.headerProcess
  dsimp only
  split
  · exact h1.spanResync _
  · split
    · exact MembersSound_raiseCount h1.ordered _ _
    · exact h1

theorem MembersSound.joinFailure {s : State} (h : MembersSound s) : MembersSound s.joinFailure :=
  h.congr (by simp) (by simp) (by simp)

theorem MembersSound.takeHeld {s : State} (h : MembersSound s) : MembersSound s.takeHeld :=
  h.congr (by simp) (by simp) (by simp)

theorem MembersSound_quit (s : State) : MembersSound s.quit := MembersSound_of_empty rfl

theorem MembersSound.takeCommitted {s : State} (h : MembersSound s) (n : LineNo) : MembersSound (s.takeCommitted n) := by
  have h1 : ∀ u : State, u.members = s.members → u.line.id = s.line.id → u.rx.count = s.rx.count →
      MembersSound (u.raiseCount n (n - 1)).advance := fun u a b c =>
    MembersSound.congr (MembersSound_raiseCount (h.congr a b c).ordered n (n - 1)) (by simp) (by simp) (by simp)
  obtain ⟨p, -, e⟩ | ⟨-, e⟩ := s.takeCommitted_cases n <;> rw [e]
  · exact h1 _ rfl rfl rfl
  · exact h1 _ rfl rfl rfl

theorem MembersSound.riseAndAdvance {s : State} (h : MembersSound s) (n : LineNo) : MembersSound (s.riseAndAdvance n) := by
  unfold State.riseAndAdvance
  have : MembersSound (if follows s.rx.count n then s.raiseCount n (n - 1) else s) := by
    split
    · exact MembersSound_raiseCount h.ordered _ _
    · exact h
  exact this.congr (by simp) (by simp) (by simp)

theorem MembersSound.refuseCommitted {s : State} (h : MembersSound s) (n : LineNo) : MembersSound (s.refuseCommitted n) := by
  unfold State.refuseCommitted
  split
  · exact h.spanResync n
  · exact h.congr (by simp) (by simp) (by simp)

end Sys2Proof.Machine
end

