-- ==== Sys2Proof/Laws/Pins.lean ====
section
/-!
SUPPORT. DE and TXD, bit by bit (R16): what a frame's characters put on the line, and where the station releases it.
-/

namespace Sys2Proof.Machine

theorem charLevels_eq (b : Byte) : charLevels b = [true, !b.getLsbD 0, !b.getLsbD 1, !b.getLsbD 2, !b.getLsbD 3,
    !b.getLsbD 4, !b.getLsbD 5, !b.getLsbD 6, !b.getLsbD 7, false] := rfl

theorem charLevels_length (b : Byte) : (charLevels b).length = 10 := rfl

theorem charLevels_flatMap_length (l : List Byte) : (l.flatMap charLevels).length = 10 * l.length := by
  induction l with
  | nil => rfl
  | cons b l ih => rw [List.flatMap_cons, List.length_append, ih, charLevels_length, List.length_cons]; omega

/-- A bit time of a run of characters lies in one of them. -/
theorem charLevels_flatMap_getD {l : List Byte} {k bit : Nat} {b : Byte} (h : l[k]? = some b) (h1 : 10 * k ≤ bit)
    (h2 : bit < 10 * k + 10) : (l.flatMap charLevels).getD bit false = (charLevels b).getD (bit - 10 * k) false := by
  induction l generalizing k bit with
  | nil => simp at h
  | cons c l ih =>
    rw [List.flatMap_cons]
    cases k with
    | zero =>
      obtain rfl : c = b := by simpa using h
      rw [List.getD_append _ _ _ _ (by rw [charLevels_length]; omega)]; rfl
    | succ k =>
      rw [List.getD_append_right _ _ _ _ (by rw [charLevels_length]; omega), charLevels_length,
        ih (k := k) (by simpa using h) (by omega) (by omega)]
      congr 1; omega

/-- What is not driven is released (R16). -/
theorem State.linePins_of_released {s : State} {bit : Nat} (h : s.drivenLevel bit = false) :
    s.linePins bit = { de := false, txd := true } := by
  unfold State.linePins; rw [h]; rfl

theorem State.linePins_of_idle {s : State} (h : s.line.driving = false) (bit : Nat) :
    s.linePins bit = { de := false, txd := true } :=
  State.linePins_of_released (by unfold State.drivenLevel; rw [h]; rfl)

/-- A position that the station marks, or leaves, over the whole of it (R16, R32). -/
theorem State.linePins_of_mark {s : State} (h : s.line.ownFrame = none) (bit : Nat) :
    s.linePins bit = { de := s.line.driving, txd := !s.line.driving } := by
  unfold State.linePins State.drivenLevel; rw [h]; cases s.line.driving <;> rfl

/-- The bit time of an own frame (R16). -/
theorem State.linePins_of_frame {s : State} {f : OwnFrame} (h : s.line.driving = true) (hf : s.line.ownFrame = some f)
    (hs : f.sent = false) (bit : Nat) : s.linePins bit = .ofLevel ((frameLevels f.frame).getD bit false) := by
  unfold State.linePins State.drivenLevel; simp [h, hf, hs]

end Sys2Proof.Machine
end

