-- ==== Sys2Proof/WellFormed.lean ====
section
/-!
DEFINITION. Which commands are well formed: the operands an event can have by its own row.
-/

namespace Sys2Proof

/-- An event's operands are such as its row can have: argument bytes only up to the deciding byte (R167), a code that
names no command (R169), and characters that are (or, for a check failure, are not) the valid frame the row names. -/
def Instr.wf : Instr → Bool
  | .start args => decide (args.length ≤ 16)
  | .word args => decide (args.length ≤ 2)
  | .post args =>
    match args with
    | _ :: len :: payload => decide (2 + payload.length ≤ postArgBytes len)
    | _ => true
  | .unknownCode code => commandOf code [] == .unknownCode code
  | .checkFailure chars => !chars.isEmpty && (Machine.readFrame chars).isNone
  | .noticeFrameReceived chars => (Machine.readFrame chars).any fun f => Machine.Frame.kind f == .notice
  | .replayReceived chars => (Machine.readFrame chars).any fun f => Machine.Frame.kind f == .replay
  | .resendReceived chars => (Machine.readFrame chars).any fun f => Machine.Frame.kind f == .resend
  | .beaconReceived chars => (Machine.readFrame chars).any fun f => Machine.Frame.kind f == .beacon
  | .powerOnReset _ _ | .resetAsserted | .resetReleased _ _ | .csFall | .csRise _ | .take | .peek | .report
  | .status | .members | .leave | .lineIdle | .slotBegins _ _ | .frameSent | .collision | .windowPosition _ _
  | .windowEndReceiver | .windowEndSender | .listenTimerExpiry | .joinTimerExpiry | .beaconTimerExpiry
  | .repairTimerExpiry _ | .presenceTimerExpiry _ | .lineActivity _ => true

end Sys2Proof
end

