-- ==== Sys2Proof/Laws/Port.lean ====
section
/-!
SUPPORT. From the bits on MOSI to the events of a transaction (R165, R167, R169): the bytes are read back from their bits,
a command byte selects one command, and every event of a transaction is well-formed.
-/

namespace Sys2Proof

/-- The bits of a byte, as an index from the most significant bit. -/
theorem portBits_eq (b : Byte) : portBits b = (List.range 8).map fun i => b.getLsbD (7 - i) := rfl

/-- A byte is read back from its bits. -/
@[simp] theorem byteOfPortBits_portBits (b : Byte) : byteOfPortBits (portBits b) = b := by
  have h : ∀ b : Byte, byteOfPortBits (portBits b) = b := by decide
  exact h b

/-- The whole bytes clocked are read back, and the bits of an incomplete byte are dropped. -/
theorem portBytes_bits (bytes : List Byte) (cut : List Bool) (h : cut.length < 8) :
    portBytes (bytes.flatMap portBits ++ cut) = bytes := by
  induction bytes with
  | nil =>
    match cut, h with
    | [], _ | [_], _ | [_, _], _ | [_, _, _], _ | [_, _, _, _], _ | [_, _, _, _, _], _ | [_, _, _, _, _, _], _
    | [_, _, _, _, _, _, _], _ => rfl
  | cons b bytes ih => rw [List.flatMap_cons, List.append_assoc]; simp [portBits, portBytes, ih]; exact byteOfPortBits_portBits b

/-- Every code but the nine of R185 is an unknown code, whatever follows it. -/
theorem commandOf_unknown {code : Byte} (h : code ∉ ([0x10, 0x20, 0x30, 0x31, 0x40, 0x50, 0x51, 0x60, 0x70] : List Byte))
    (args : List Byte) : commandOf code args = .unknownCode code := by
  have key : ∀ c : Byte, commandOf c [] = .unknownCode c
      ∨ c ∈ ([0x10, 0x20, 0x30, 0x31, 0x40, 0x50, 0x51, 0x60, 0x70] : List Byte) := by decide
  have e := (key code).resolve_right h
  unfold commandOf at e ⊢
  split at e <;> simp_all

/-- A transaction whose bytes are given. -/
theorem transactionEvents_bytes (first code : Byte) (rest : List Byte) (cut : List Bool) (h : cut.length < 8) :
    transactionEvents ((first :: code :: rest).flatMap portBits ++ cut)
      = [.csFall, commandOf code (rest.take (commandOf code rest).argBytes),
          .csRise (rest.length - (commandOf code rest).argBytes)] := by
  unfold transactionEvents; rw [portBytes_bits _ cut h]

/-- A transaction of no byte, or of the one filler byte, sends no command. -/
theorem transactionEvents_short (bytes : List Byte) (cut : List Bool) (hb : bytes.length < 2) (h : cut.length < 8) :
    transactionEvents (bytes.flatMap portBits ++ cut) = [.csFall, .csRise 0] := by
  unfold transactionEvents; rw [portBytes_bits bytes cut h]
  match bytes, hb with
  | [], _ | [_], _ => rfl

/-- A command with the arguments its transaction gives it is well-formed. -/
theorem commandOf_wf (code : Byte) (rest : List Byte) :
    (commandOf code (rest.take (commandOf code rest).argBytes)).wf = true := by
  by_cases hc : code ∈ ([0x10, 0x20, 0x30, 0x31, 0x40, 0x50, 0x51, 0x60, 0x70] : List Byte)
  · simp only [List.mem_cons, List.not_mem_nil, or_false] at hc
    rcases hc with rfl | rfl | rfl | rfl | rfl | rfl | rfl | rfl | rfl
    · simp [commandOf, Instr.argBytes, Instr.wf]
    · match rest with
      | [] | [_] => rfl
      | topic :: len :: payload =>
        by_cases hl : len.toNat ≤ 64 <;>
        simp [commandOf, Instr.argBytes, Instr.wf, postArgBytes, Config.maxPayload, hl, Nat.add_comm 2]
    all_goals simp [commandOf, Instr.argBytes, Instr.wf]
  · simp [commandOf_unknown hc, Instr.wf]

/-- Every event of a transaction is well-formed. -/
theorem transactionEvents_wf (mosi : List Bool) : ∀ c ∈ transactionEvents mosi, c.wf = true := by
  unfold transactionEvents
  split
  · intro c hc
    simp only [List.mem_cons, List.not_mem_nil, or_false] at hc
    rcases hc with rfl | rfl | rfl
    · rfl
    · exact commandOf_wf _ _
    · rfl
  · intro c hc
    simp only [List.mem_cons, List.not_mem_nil, or_false] at hc
    rcases hc with rfl | rfl <;> rfl

end Sys2Proof
end

