-- ==== Sys2Proof/Laws/Trim.lean ====
section
/-!
SUPPORT. What the delivery advance makes of the backlog event flag (R107) and of the gap table (R118, R119).
-/

namespace Sys2Proof.Machine

/-! ### The backlog event flag -/

/-- One step of the advance appends at most one record (R105, R107). -/
theorem State.advanceStep_backlog {s t : State} (h : s.advanceStep = some t) :
    BacklogFollows s t s.rx.queue.length ∧ t.cfg = s.cfg ∧ s.rx.queue.length ≤ t.rx.queue.length := by
  obtain ⟨-, ⟨n, -, rfl⟩ | ⟨-, -, rfl⟩ | ⟨-, -, -, d, ds, -, rfl⟩⟩ := State.advanceStep_cases h
  · refine ⟨?_, rfl, by simp⟩
    exact (BacklogFollows_append { s with rx := { s.rx with
      holdSet := s.rx.holdSet.eraseP (·.number == s.rx.settled + 1) } } (.notice n)).congr rfl rfl rfl rfl
  · exact ⟨BacklogFollows_of_same rfl rfl, by simp, by simp⟩
  · refine ⟨?_, rfl, by simp⟩
    exact (BacklogFollows_append { s with pool := { s.pool with freeDescs := ds } } _).congr rfl rfl rfl rfl

/-- The advance raises the flag by a crossing of its appends, taken together (R107). -/
theorem State.advanceRun_backlog (fuel : Nat) (s : State) :
    BacklogFollows s (State.advanceRun fuel s) s.rx.queue.length := by
  induction fuel generalizing s with
  | zero => exact BacklogFollows_of_same rfl rfl
  | succ fuel ih =>
    unfold State.advanceRun
    split
    · rename_i t ht
      obtain ⟨h1, h2, h3⟩ := State.advanceStep_backlog ht
      obtain ⟨more, hm⟩ := State.advanceRun_queue fuel t
      exact h1.trans (ih t) h2 h3 (by rw [hm]; simp)
    · exact BacklogFollows_of_same rfl rfl

theorem State.advance_backlog (s : State) : BacklogFollows s s.advance s.rx.queue.length := State.advanceRun_backlog _ s

/-- Handing on appends the waiting BASE record, then what the advance appends (R67, R107). -/
theorem State.handOn_backlog (s : State) : BacklogFollows s s.handOn s.rx.queue.length := by
  unfold State.handOn
  obtain ⟨more, hm⟩ := State.advance_queue s.servePendingBase
  obtain ⟨first, hf⟩ := State.servePendingBase_queue s
  refine BacklogFollows.trans ?_ (State.advance_backlog _) (by unfold State.servePendingBase; split <;> rfl)
    (by rw [hf]; simp) (by rw [hm]; simp)
  unfold State.servePendingBase
  split
  · rename_i b d ds _ _
    exact (BacklogFollows_append { s with pool := { s.pool with pendingBase := none, freeDescs := ds } } (.base b d)).congr
      rfl rfl rfl rfl
  · exact BacklogFollows_of_same rfl rfl

/-! ### The gap table -/

/-- Entries that lie after the settled point and within 256 positions of it. -/
def GapsWithin (s : State) (gaps : List GapEntry) : Prop :=
  ∀ e ∈ gaps, 1 ≤ s.ahead e.first ∧ s.ahead e.first ≤ s.ahead e.last ∧ s.ahead e.last ≤ 256

theorem OrderSound.gapsWithin {s : State} (h : OrderSound s) : GapsWithin s s.gaps := fun e he => by
  have h1 := h.2.2.2.2.1 e he
  have h2 := h.1
  omega

/-- Where the settled point stands, nothing is trimmed. -/
theorem GapsTrimmed.refl {s t : State} {gaps : List GapEntry} (h : GapsWithin s gaps) (hs : t.rx.settled = s.rx.settled)
    (hg : t.gaps = gaps) : GapsTrimmed s gaps t := by
  unfold GapsTrimmed
  rw [hs, ahead_settled, hg]
  refine Eq.symm (Eq.trans (List.filterMap_congr (g := some) ?_) List.filterMap_some)
  intro e he
  have h1 := h e he
  rw [if_neg (by omega), if_pos (by omega)]

/-- The trim of the model, over the gap table (R118). -/
theorem GapsTrimmed_settle {s u : State} {n : LineNo} (h : GapsWithin s u.gaps) (hn : s.ahead n ≤ 256) : GapsTrimmed s u.gaps (u.settle n) := by
  unfold GapsTrimmed
  refine List.filterMap_congr fun e he => ?_
  have h1 := h e he
  have e1 : (u.settle n).rx.settled = n := rfl
  have e2 : ∀ g, missingIn n (u.rx.known >>> (n - u.rx.settled).toNat) g = (u.settle n).missing g := fun _ => rfl
  unfold trimGap
  rw [e1]
  simp only [e2, atOrBefore_iff (s := s) (show s.ahead e.last ≤ 32767 by omega) (show s.ahead n ≤ 32767 by omega),
    atOrBefore_iff (s := s) (show s.ahead e.first ≤ 32767 by omega) (show s.ahead n ≤ 32767 by omega)]
  split
  · rfl
  · by_cases h3 : s.ahead e.first ≤ s.ahead n
    · rw [if_pos h3, if_neg (show ¬s.ahead n < s.ahead e.first by omega)]
      simp only [List.isEmpty_iff]
    · rw [if_neg h3, if_pos (by omega)]

/-- What trimming twice leaves is what trimming to the later settled point leaves. -/
theorem GapsTrimmed.trans {s t u : State} {gaps : List GapEntry} (hw : GapsWithin s gaps)
    (ht : s.ahead t.rx.settled ≤ 256) (hu : s.ahead t.rx.settled + t.ahead u.rx.settled ≤ 256)
    (hk : ∀ m, t.ahead u.rx.settled < t.ahead m → t.ahead m ≤ 256 → u.knownAt m = t.knownAt m)
    (h1 : GapsTrimmed s gaps t) (h2 : GapsTrimmed t t.gaps u) : GapsTrimmed s gaps u := by
  have hU : s.ahead u.rx.settled = s.ahead t.rx.settled + t.ahead u.rx.settled := ahead_unshift (by omega)
  have hsh : ∀ m, s.ahead t.rx.settled ≤ s.ahead m → t.ahead m = s.ahead m - s.ahead t.rx.settled := fun m hm => ahead_shift hm
  have hush : ∀ m, s.ahead u.rx.settled ≤ s.ahead m → u.ahead m = s.ahead m - s.ahead u.rx.settled := fun m hm => ahead_shift hm
  have hts : s.ahead (t.rx.settled + 1) = s.ahead t.rx.settled + 1 := ahead_succ s _ (by omega)
  have hus : s.ahead (u.rx.settled + 1) = s.ahead u.rx.settled + 1 := ahead_succ s _ (by omega)
  unfold GapsTrimmed at h1 h2 ⊢
  rw [h2, h1, List.filterMap_filterMap]
  refine List.filterMap_congr fun e he => ?_
  obtain ⟨k1, k2, k3⟩ := hw e he
  -- the missing positions of what is left at the later settled point
  have hmu : s.ahead u.rx.settled < s.ahead e.last → ∀ m, m ∈ u.missing { e with first := u.rx.settled + 1 } ↔
      s.ahead u.rx.settled < s.ahead m ∧ s.ahead m ≤ s.ahead e.last ∧ u.knownAt m = false := by
    intro hlt m
    have el := hush e.last (by omega)
    rw [State.mem_missing (by rw [ahead_next]) (by rw [ahead_next, el]; omega) (by rw [el]; omega), ahead_next, el]
    by_cases hm : s.ahead u.rx.settled ≤ s.ahead m
    · rw [hush m hm]
      constructor
      · rintro ⟨a, b, c⟩; exact ⟨by omega, by omega, c⟩
      · rintro ⟨a, b, c⟩; exact ⟨by omega, by omega, c⟩
    · have hb : u.ahead m = 65536 - (s.ahead u.rx.settled - s.ahead m) := sub_toNat_of_ahead_lt (by omega)
      constructor
      · rintro ⟨a, b, c⟩; omega
      · rintro ⟨a, b, c⟩; omega
  have hmt : s.ahead t.rx.settled < s.ahead e.last → ∀ m, m ∈ t.missing { e with first := t.rx.settled + 1 } ↔
      s.ahead t.rx.settled < s.ahead m ∧ s.ahead m ≤ s.ahead e.last ∧ t.knownAt m = false := by
    intro hlt m
    have el := hsh e.last (by omega)
    rw [State.mem_missing (by rw [ahead_next]) (by rw [ahead_next, el]; omega) (by rw [el]; omega), ahead_next, el]
    by_cases hm : s.ahead t.rx.settled ≤ s.ahead m
    · rw [hsh m hm]
      constructor
      · rintro ⟨a, b, c⟩; exact ⟨by omega, by omega, c⟩
      · rintro ⟨a, b, c⟩; exact ⟨by omega, by omega, c⟩
    · have hb : t.ahead m = 65536 - (s.ahead t.rx.settled - s.ahead m) := sub_toNat_of_ahead_lt (by omega)
      constructor
      · rintro ⟨a, b, c⟩; omega
      · rintro ⟨a, b, c⟩; omega
  have hku : ∀ m, s.ahead u.rx.settled < s.ahead m → s.ahead m ≤ s.ahead e.last → u.knownAt m = t.knownAt m := by
    intro m a b
    have := hsh m (by omega)
    exact hk m (by omega) (by omega)
  by_cases c1 : s.ahead e.last ≤ s.ahead t.rx.settled
  · rw [if_pos c1, if_pos (by omega), Option.bind_none]
  · rw [if_neg c1]
    have el := hsh e.last (by omega)
    by_cases c2 : s.ahead t.rx.settled < s.ahead e.first
    · rw [if_pos c2, Option.bind_some]
      have ef := hsh e.first (by omega)
      by_cases c3 : s.ahead e.last ≤ s.ahead u.rx.settled
      · rw [if_pos c3, if_pos (by omega)]
      · rw [if_neg c3, if_neg (by omega)]
        by_cases c4 : s.ahead u.rx.settled < s.ahead e.first
        · rw [if_pos c4, if_pos (by omega)]
        · rw [if_neg c4, if_neg (by omega)]
    · rw [if_neg c2]
      by_cases c5 : t.missing { e with first := t.rx.settled + 1 } = []
      · rw [if_pos c5, Option.bind_none]
        by_cases c3 : s.ahead e.last ≤ s.ahead u.rx.settled
        · rw [if_pos c3]
        · rw [if_neg c3, if_neg (by omega), if_pos]
          rw [List.eq_nil_iff_forall_not_mem]
          intro m hm
          obtain ⟨a, b, c⟩ := (hmu (by omega) m).mp hm
          rw [hku m a b] at c
          have := (hmt (by omega) m).mpr ⟨by omega, b, c⟩
          rw [c5] at this; simp at this
      · rw [if_neg c5, Option.bind_some]
        dsimp only
        by_cases c3 : s.ahead e.last ≤ s.ahead u.rx.settled
        · rw [if_pos c3, if_pos (by omega)]
        · rw [if_neg c3, if_neg (show ¬t.ahead e.last ≤ t.ahead u.rx.settled by omega), ahead_next,
            if_neg (show ¬s.ahead u.rx.settled < s.ahead e.first by omega)]
          by_cases c6 : t.ahead u.rx.settled < 1
          · rw [if_pos c6, if_neg]
            · have : u.rx.settled = t.rx.settled := ahead_inj (s := s) (by omega)
              rw [this]
            · intro hz
              apply c5
              rw [List.eq_nil_iff_forall_not_mem]
              intro m hm
              obtain ⟨a, b, c⟩ := (hmt (by omega) m).mp hm
              have := (hmu (by omega) m).mpr ⟨by omega, b, by rw [hku m (by omega) b]; exact c⟩
              rw [hz] at this; simp at this
          · rw [if_neg c6]

/-- The next gap's number stands. -/
theorem State.advanceRun_nextGapId (fuel : Nat) (s : State) : (State.advanceRun fuel s).nextGapId = s.nextGapId := by
  induction fuel generalizing s with
  | zero => rfl
  | succ fuel ih =>
    unfold State.advanceRun
    split
    · rename_i t ht
      rw [ih]
      obtain ⟨-, ⟨n, -, rfl⟩ | ⟨-, -, rfl⟩ | ⟨-, -, -, d, ds, -, rfl⟩⟩ := State.advanceStep_cases ht <;> rfl
    · rfl

theorem State.advance_nextGapId (s : State) : s.advance.nextGapId = s.nextGapId := State.advanceRun_nextGapId _ s

/-- One step of the advance trims the gap table to its settled point. -/
theorem State.advanceStep_gaps {s t : State} (h : OrderSound s) (ht : s.advanceStep = some t) : GapsTrimmed s s.gaps t := by
  have h1 := (State.advanceStep_spec h ht).2.1.2.1
  have h256 := h.1
  have hw := h.gapsWithin
  obtain ⟨-, ⟨n, -, rfl⟩ | ⟨-, -, rfl⟩ | ⟨-, -, -, d, ds, -, rfl⟩⟩ := State.advanceStep_cases ht
  all_goals
    rw [State.settle_settled] at h1
    exact GapsTrimmed_settle (s := s) hw (by omega)

/-- The advance trims the gap table to the settled point it reaches (R118, R119). -/
theorem State.advanceRun_gaps (fuel : Nat) {s : State} (h : OrderSound s) :
    GapsTrimmed s s.gaps (State.advanceRun fuel s) := by
  induction fuel generalizing s with
  | zero => exact GapsTrimmed.refl h.gapsWithin rfl rfl
  | succ fuel ih =>
    unfold State.advanceRun
    split
    · rename_i t ht
      obtain ⟨k1, k2, -⟩ := State.advanceStep_spec h ht
      obtain ⟨-, i2, -⟩ := State.advanceRun_spec k1 fuel
      have h256 := h.1
      have h2 : t.ahead s.rx.count = s.ahead s.rx.count - s.ahead t.rx.settled := ahead_shift k2.2.1
      have h3 := i2.2.1
      rw [k2.1] at h3
      have h4 := k2.2.1
      exact GapsTrimmed.trans h.gapsWithin (by omega) (by omega) (fun m hm _ => i2.2.2.1 m hm)
        (State.advanceStep_gaps h ht) (ih k1)
    · exact GapsTrimmed.refl h.gapsWithin rfl rfl

theorem State.advance_gaps {s : State} (h : OrderSound s) : GapsTrimmed s s.gaps s.advance := State.advanceRun_gaps _ h

/-- A position becomes known, and the settled point moves past it: the table is the one before, trimmed (R117 to R119). -/
theorem GapsTrimmed_makeKnown {s t : State} {n : LineNo} (hw : GapsWithin s s.gaps)
    (hs : s.ahead n ≤ s.ahead t.rx.settled) (ht : s.ahead t.rx.settled ≤ 256)
    (hk : ∀ m, s.ahead t.rx.settled < s.ahead m → s.ahead m ≤ 256 → t.knownAt m = (s.makeKnown n).knownAt m)
    (h : GapsTrimmed (s.makeKnown n) (s.makeKnown n).gaps t) :
    GapsTrimmed s s.gaps t := by
  have ha : ∀ m, (s.makeKnown n).ahead m = s.ahead m := fun m => ahead_congr (by simp) m
  have hg : (s.makeKnown n).gaps = s.gaps.filter fun e => !e.covers n || !((s.makeKnown n).missing e).isEmpty := rfl
  unfold GapsTrimmed at h ⊢
  rw [h, hg, List.filterMap_filter]
  refine List.filterMap_congr fun e he => ?_
  obtain ⟨k1, k2, k3⟩ := hw e he
  simp only [ha]
  split
  · rfl
  · rename_i hc
    rw [Bool.or_eq_true, Bool.not_eq_true', Bool.not_eq_true', not_or, Bool.not_eq_false, Bool.not_eq_false] at hc
    obtain ⟨c1, c2⟩ := hc
    rw [List.isEmpty_iff] at c2
    have c3 := (GapEntry.covers_iff (s := s) k2 n).mp c1
    have hf : s.ahead e.first ≤ s.ahead t.rx.settled := by omega
    by_cases hl : s.ahead e.last ≤ s.ahead t.rx.settled
    · rw [if_pos hl]
    · rw [if_neg hl, if_neg (by omega), if_pos]
      rw [List.eq_nil_iff_forall_not_mem]
      intro m hm
      have hts : s.ahead (t.rx.settled + 1) = s.ahead t.rx.settled + 1 := ahead_succ s _ (by omega)
      have el : t.ahead e.last = s.ahead e.last - s.ahead t.rx.settled := ahead_shift (by omega)
      rw [State.mem_missing (by rw [ahead_next]) (by rw [ahead_next, el]; omega) (by rw [el]; omega), ahead_next, el] at hm
      obtain ⟨a, b, c⟩ := hm
      have em : s.ahead m = s.ahead t.rx.settled + t.ahead m := ahead_unshift (by omega)
      have hx : m ∈ (s.makeKnown n).missing e := by
        rw [State.mem_missing (by rw [ha]; omega) (by simp only [ha]; omega) (by rw [ha]; omega)]
        simp only [ha]
        exact ⟨by omega, by omega, by rw [← hk m (by omega) (by omega)]; exact c⟩
      rw [c2] at hx; simp at hx

end Sys2Proof.Machine
end

