-- ==== Sys2Proof/Laws/Rise.lean ====
section
/-!
SUPPORT. What a rise of the count does (R2, R5, R12, R15, R114 to R116), and the backlog event flag over every operation that
may append to the delivery queue (R107).
-/

namespace Sys2Proof.Machine

/-! ### A missing range handed over -/

theorem State.handRange_new {s : State} (a z : LineNo) (h : s.gaps.length < 8) : s.handRange a z = { s with
      gaps := s.gaps ++
        [{ id := s.nextGapId, first := a, last := z, attempts := 0, state := .waiting
           timer := .running s.cfg.repairInterval }]
      nextGapId := s.nextGapId + 1 } := by
  unfold State.handRange; rw [if_pos (by simpa [Config.gapEntries] using h)]

theorem State.handRange_merged {s : State} {before : List GapEntry} {e : GapEntry} (a z : LineNo) (hg : s.gaps = before ++ [e])
    (h : s.gaps.length = 8) (hl : e.state ≠ .lost) : s.handRange a z = { s with
      gaps := before ++ [{ e with last := z, attempts := 0, state := .waiting, timer := .running s.cfg.repairInterval }] } := by
  unfold State.handRange State.gapOverflows
  rw [if_neg (by simp [Config.gapEntries]; omega), hg]
  simp [hl, changeLast_append]

theorem State.gapOverflows_of_lost {s : State} {before : List GapEntry} {e : GapEntry} (hg : s.gaps = before ++ [e])
    (h : s.gaps.length = 8) (hl : e.state = .lost) : s.gapOverflows = true := by
  unfold State.gapOverflows
  rw [h, hg]; simp [hl, Config.gapEntries]

theorem State.handRange_lost {s : State} {before : List GapEntry} {e : GapEntry} (a z : LineNo) (hg : s.gaps = before ++ [e])
    (h : s.gaps.length = 8) (hl : e.state = .lost) : s.handRange a z
      = (({ s with gaps := before ++ [{ e with last := z }] } : State).postReport (.gapOverflow a z)).advance := by
  unfold State.handRange
  rw [if_neg (by simp [Config.gapEntries]; omega), if_pos (State.gapOverflows_of_lost hg h hl), hg, changeLast_append]

/-- Every entry lies after the settled point, and ends at or before the count (R112). -/
def GapsBefore (s : State) : Prop :=
  ∀ e ∈ s.gaps, 1 ≤ s.ahead e.first ∧ s.ahead e.first ≤ s.ahead e.last ∧ s.ahead e.last ≤ s.ahead s.rx.count

theorem OrderSound.gapsBefore {s : State} (h : OrderSound s) : GapsBefore s := h.2.2.2.2.1

/-- A LOST entry that reaches on over positions past the count gives the advance nothing to do. -/
theorem AdvanceRests_reach {s t : State} {before : List GapEntry} {e : GapEntry} {z : LineNo} (hO : GapsBefore s)
    (hN : AdvanceRests s) (hg : s.gaps = before ++ [e]) (hlo : e.state = .lost)
    (h1 : t.gaps = before ++ [{ e with last := z }]) (h2 : t.rx = { s.rx with count := t.rx.count }) (h3 : t.pool = s.pool)
    (h4 : s.ahead s.rx.count ≤ s.ahead z) : AdvanceRests t := by
  have hse : t.rx.settled = s.rx.settled := by rw [h2]
  have hkn : t.rx.known = s.rx.known := by rw [h2]
  rcases hN with hN | ⟨n2, n3, n4⟩
  · exact Or.inl (by rw [h3]; exact hN)
  refine Or.inr ⟨by rw [h2]; exact n2, by rw [hse, knownAt_congr hse hkn]; exact n3, ?_⟩
  rcases n4 with n4 | n4
  swap
  · exact Or.inr (by rw [h3]; exact n4)
  left
  rw [hse]
  unfold State.lostAt at *
  rw [h1]; rw [hg] at n4
  simp only [List.any_append, Bool.or_eq_false_iff] at *
  refine ⟨n4.1, ?_⟩
  have n5 := n4.2
  simp [hlo] at n5 ⊢
  have he := hO e (by rw [hg]; simp)
  have hle : s.ahead e.first ≤ s.ahead z := by omega
  rw [← Bool.not_eq_true] at n5 ⊢
  rw [GapEntry.covers_iff (s := s) (by exact hle)]
  rw [GapEntry.covers_iff (s := s) he.2.1, show s.ahead (s.rx.settled + 1#16) = 1 from ahead_next s] at n5
  simp only [show s.ahead (s.rx.settled + 1#16) = 1 from ahead_next s]
  omega

/-- With no LOST entry at the end of a full table the range goes in without report and without the advance (R114, R115). -/
theorem State.handRange_quiet {s : State} (a z : LineNo) (h : s.gapOverflows = false) :
    (s.handRange a z).port = s.port ∧ (s.handRange a z).rx = s.rx ∧ (s.handRange a z).pool = s.pool := by
  unfold State.handRange; rw [h]; split <;> simp

theorem State.handRange_overflow_port {s : State} (a z : LineNo) (h : s.gapOverflows = true) :
    (s.handRange a z).port = (s.postReport (.gapOverflow a z)).port := by
  have hn : ¬s.gaps.length < Config.gapEntries := by
    unfold State.gapOverflows at h; simp at h; omega
  unfold State.handRange; rw [if_neg hn, if_pos h, (State.advance_frame _).2.2.2.2.2.2.1]
  apply State.postReport_port_congr; rfl

/-! ### Rises of the count -/

/-- The state whose count has risen, before the horizon and the missing range (R5, R53). -/
abbrev State.risen (m : State) (n : LineNo) (reads : Nat) : State :=
  { m with
    rx := { m.rx with count := n }, commit := { m.commit with catchingUp := false }
    send := { m.send with catchUp := none }, freeReads := reads }

/-- A rise applies the horizon and hands the range over, in the one order or the other (log 11). -/
theorem State.raiseCount_cases (m : State) (n last : LineNo) :
    (last = m.rx.count ∧ m.raiseCount n last = (m.risen n m.freeReads).applyHorizon)
      ∨ last ≠ m.rx.count ∧ ((∃ k, m.raiseCount n last = (m.risen n k).applyHorizon.handRange (m.rx.count + 1) last)
        ∨ m.gapOverflows = true
          ∧ ∃ k, m.raiseCount n last = ((m.risen n k).handRange (m.rx.count + 1) last).applyHorizon) := by
  unfold State.raiseCount
  have hs1 : ({ m with rx := { m.rx with count := n } } : State).clearCatchingUp = m.risen n m.freeReads := rfl
  dsimp only
  rw [hs1]
  split
  · rename_i h; exact Or.inl ⟨h, rfl⟩
  · rename_i h
    refine Or.inr ⟨h, ?_⟩
    split
    · rename_i hc
      rw [Bool.and_eq_true] at hc
      split
      · exact Or.inr ⟨hc.1, _, rfl⟩
      · exact Or.inl ⟨_, rfl⟩
    · exact Or.inl ⟨_, rfl⟩

/-- The horizon of a state whose count has risen, in the words of the state before (R15): whom it keeps, what is released and,
after the reports of any state `Z` with the same port, what is reported. -/
theorem State.applyHorizon_risen {m Y : State} {n : LineNo} (h1 : Y.members = m.members) (h2 : Y.rx.count = n)
    (h3 : Y.send = { m.send with catchUp := none }) (h4 : Y.line = m.line) (h5 : Y.cfg = m.cfg) :
    Y.applyHorizon.members = m.keptAtHorizon n ∧ Y.applyHorizon.send = { m.releasedAtHorizon n with catchUp := none }
      ∧ ∀ Z : State, Y.port = Z.port → Y.applyHorizon.port = (Z.postReports (m.horizonReports n)).port := by
  have hr := State.releasedAtHorizon_congr (s := { m with send := { m.send with catchUp := none } }) (t := Y) h3 h1
    (by rw [h4]) h5 n
  rw [State.releasedAtHorizon_catchUp] at hr
  have hk := State.horizon_congr h1 n
  rw [State.applyHorizon_eq, h2]
  dsimp only
  rw [hr, hk.1, hk.2]
  exact ⟨rfl, rfl, fun Z hz => State.postReports_port_congr hz _⟩

/-- Where the range overflows no table, or the advance rests, only the count of the receive side rises. -/
theorem State.raiseCount_rx {m : State} {n last : LineNo}
    (h : last = m.rx.count ∨ m.gapOverflows = false
      ∨ GapsBefore m ∧ AdvanceRests m ∧ m.gaps.length = 8 ∧ m.ahead m.rx.count ≤ m.ahead last) :
    (m.raiseCount n last).rx = { m.rx with count := n } ∧ (m.raiseCount n last).pool = m.pool
      ∧ (last = m.rx.count → (m.raiseCount n last).gaps = m.gaps)
      ∧ (last ≠ m.rx.count →
        (m.gaps.length < 8 → (m.raiseCount n last).gaps = m.gaps ++
            [{ id := m.nextGapId, first := m.rx.count + 1, last := last, attempts := 0, state := .waiting
               timer := .running m.cfg.repairInterval }])
        ∧ ∀ before e, m.gaps = before ++ [e] → m.gaps.length = 8 →
          (e.state ≠ .lost → (m.raiseCount n last).gaps = before ++ [{ e with
              last := last, attempts := 0, state := .waiting, timer := .running m.cfg.repairInterval }])
          ∧ (e.state = .lost → (m.raiseCount n last).gaps = before ++ [{ e with last := last }])) := by
  have hand : ∀ X : State, last ≠ m.rx.count → X.gaps = m.gaps → X.rx = { m.rx with count := n } → X.pool = m.pool →
      X.nextGapId = m.nextGapId → X.cfg = m.cfg →
      (X.handRange (m.rx.count + 1) last).rx = { m.rx with count := n }
      ∧ (X.handRange (m.rx.count + 1) last).pool = m.pool
      ∧ (m.gaps.length < 8 → (X.handRange (m.rx.count + 1) last).gaps = m.gaps ++
            [{ id := m.nextGapId, first := m.rx.count + 1, last := last, attempts := 0, state := .waiting
               timer := .running m.cfg.repairInterval }])
        ∧ ∀ before e, m.gaps = before ++ [e] → m.gaps.length = 8 →
          (e.state ≠ .lost → (X.handRange (m.rx.count + 1) last).gaps = before ++ [{ e with
              last := last, attempts := 0, state := .waiting, timer := .running m.cfg.repairInterval }])
          ∧ (e.state = .lost → (X.handRange (m.rx.count + 1) last).gaps = before ++ [{ e with last := last }]) := by
    intro X hne x1 x2 x3 x4 x5
    have hov : X.gapOverflows = m.gapOverflows := by unfold State.gapOverflows; rw [x1]
    have hq : m.gapOverflows = true → ∀ before e, m.gaps = before ++ [e] → e.state = .lost →
        X.handRange (m.rx.count + 1) last = (({ X with gaps := before ++ [{ e with last := last }] } : State).postReport
          (.gapOverflow (m.rx.count + 1) last)) := by
      intro ho before e hg hl
      rcases h with h | h | ⟨h1, h2, h3, h4⟩
      · exact absurd h hne
      · rw [h] at ho; exact absurd ho (by simp)
      · rw [State.handRange_lost (before := before) (e := e) _ _ (by rw [x1, hg]) (by rw [x1]; exact h3) hl]
        apply State.advance_of_rests
        apply AdvanceRests_reach h1 h2 hg hl (z := last) <;> simp [x2, x3, h4]
    cases ho : m.gapOverflows with
    | false =>
      obtain ⟨-, q2, q3⟩ := State.handRange_quiet (s := X) (m.rx.count + 1) last (by rw [hov, ho])
      refine ⟨by rw [q2, x2], by rw [q3, x3], fun hl => ?_, fun before e hg hlen => ⟨fun hl => ?_, fun hl => ?_⟩⟩
      · rw [State.handRange_new _ _ (by rw [x1]; exact hl)]; simp [x1, x4, x5]
      · rw [State.handRange_merged (before := before) (e := e) _ _ (by rw [x1, hg]) (by rw [x1]; exact hlen) hl]; simp [x5]
      · rw [State.gapOverflows_of_lost hg hlen hl] at ho; exact absurd ho (by simp)
    | true =>
      obtain ⟨before, e, hg, hl⟩ : ∃ before e, m.gaps = before ++ [e] ∧ e.state = .lost := by
        unfold State.gapOverflows at ho
        rw [Bool.and_eq_true, Option.any_eq_true] at ho
        obtain ⟨e, he, hl⟩ := ho.2
        obtain ⟨before, hb⟩ := List.getLast?_eq_some_iff.mp he
        exact ⟨before, e, hb, by simpa using hl⟩
      have h8 : ¬m.gaps.length < 8 := by
        unfold State.gapOverflows at ho
        have := of_decide_eq_true (Bool.and_eq_true .. ▸ ho).1
        simp only [Config.gapEntries] at this; omega
      have e1 := hq ho before e hg hl
      refine ⟨by rw [e1]; simp [x2], by rw [e1]; simp [x3], fun h => absurd h h8, fun b f hb hlen => ?_⟩
      have : b = before ∧ f = e := by
        rw [hg] at hb
        have := List.append_inj' hb rfl
        exact ⟨this.1.symm, by simpa using this.2.symm⟩
      obtain ⟨rfl, rfl⟩ := this
      exact ⟨fun h => absurd hl h, fun _ => by rw [e1]; simp⟩
  rcases m.raiseCount_cases n last with ⟨h1, e⟩ | ⟨hne, ⟨k, e⟩ | ⟨-, k, e⟩⟩ <;> rw [e]
  · exact ⟨by simp, by simp, fun _ => by simp, fun h => absurd h1 h⟩
  · obtain ⟨a1, a2, a3, a4⟩ := hand ((m.risen n k).applyHorizon) hne (by simp) (by simp) (by simp) (by simp) (by simp [State.cfg])
    exact ⟨a1, a2, fun h => absurd h hne, fun _ => ⟨a3, a4⟩⟩
  · obtain ⟨a1, a2, a3, a4⟩ := hand (m.risen n k) hne rfl rfl rfl rfl rfl
    simp only [State.applyHorizon_frame]
    exact ⟨a1, a2, fun h => absurd h hne, fun _ => ⟨a3, a4⟩⟩

/-- What a rise of the count does, in the words of the statements. -/
theorem State.raiseCount_spec {m : State} {n last : LineNo} (hle : OrderSound m → m.ahead m.rx.count ≤ m.ahead last) :
    CountRaised m (m.raiseCount n last) n last := by
  have hcm : (m.raiseCount n last).rx.count = n
      ∧ (m.raiseCount n last).commit = { m.commit with catchingUp := false } := by
    rcases m.raiseCount_cases n last with ⟨-, e⟩ | ⟨-, ⟨k, e⟩ | ⟨-, k, e⟩⟩ <;> rw [e] <;> simp
  have hse : (m.raiseCount n last).members = m.keptAtHorizon n
      ∧ (m.raiseCount n last).send = { m.releasedAtHorizon n with catchUp := none } := by
    have h0 : ∀ k, (m.risen n k).applyHorizon.members = m.keptAtHorizon n
        ∧ (m.risen n k).applyHorizon.send = { m.releasedAtHorizon n with catchUp := none } := fun k =>
      have h := State.applyHorizon_risen (m := m) (Y := m.risen n k) rfl rfl rfl rfl rfl
      ⟨h.1, h.2.1⟩
    rcases m.raiseCount_cases n last with ⟨-, e⟩ | ⟨-, ⟨k, e⟩ | ⟨-, k, e⟩⟩ <;> rw [e]
    · exact h0 _
    · rw [(State.handRange_frame _ _ _).2.2.1, (State.handRange_frame _ _ _).2.2.2.1]; exact h0 k
    · have h := State.applyHorizon_risen (m := m) (n := n) (Y := (m.risen n k).handRange (m.rx.count + 1) last) (by simp)
        (by simp) (by simp) (by simp) (by simp [State.cfg])
      exact ⟨h.1, h.2.1⟩
  have hgc : ∀ X : State, X.gaps = m.gaps → X.gapOverflows = m.gapOverflows := by
    intro X x; unfold State.gapOverflows; rw [x]
  have hpo : (last = m.rx.count ∨ m.gapOverflows = false) → (m.raiseCount n last).port
      = (m.postReports (m.horizonReports n)).port := by
    intro hg
    rcases m.raiseCount_cases n last with ⟨-, e⟩ | ⟨hne, ⟨k, e⟩ | ⟨h1, -⟩⟩
    · rw [e]; exact (State.applyHorizon_risen (m := m) (Y := m.risen n m.freeReads) rfl rfl rfl rfl rfl).2.2 m rfl
    · rw [e, (State.handRange_quiet _ _ (by rw [hgc _ (by simp), hg.resolve_left hne])).1]
      exact (State.applyHorizon_risen (m := m) (Y := m.risen n k) rfl rfl rfl rfl rfl).2.2 m rfl
    · rw [hg.resolve_left hne] at h1; exact absurd h1 (by simp)
  refine ⟨hcm.1, hcm.2, hse.1, hse.2, fun h => ⟨hpo (Or.inl h), (State.raiseCount_rx (Or.inl h)).2.2.1 h⟩,
    fun hne => ⟨fun hl => ?_, fun before e hg hlen => ⟨fun hl => ?_, fun hl => ⟨?_, fun hO hN => ?_⟩⟩⟩⟩
  · have hno : m.gapOverflows = false := by
      unfold State.gapOverflows; rw [decide_eq_false (by simp [Config.gapEntries]; omega)]; rfl
    exact ⟨hpo (Or.inr hno), ((State.raiseCount_rx (Or.inr (Or.inl hno))).2.2.2 hne).1 hl⟩
  · have hno : m.gapOverflows = false := by unfold State.gapOverflows; simp [hg, hl]
    exact ⟨hpo (Or.inr hno), (((State.raiseCount_rx (Or.inr (Or.inl hno))).2.2.2 hne).2 before e hg hlen).1 hl⟩
  · have hov := State.gapOverflows_of_lost hg hlen hl
    rcases m.raiseCount_cases n last with ⟨h, -⟩ | ⟨-, ⟨k, e1⟩ | ⟨-, k, e1⟩⟩
    · exact absurd h hne
    · left
      rw [e1, State.handRange_overflow_port _ _ (by rw [hgc _ (by simp), hov])]
      apply State.postReport_port_congr
      exact (State.applyHorizon_risen (m := m) (Y := m.risen n k) rfl rfl rfl rfl rfl).2.2 m rfl
    · right
      rw [e1]
      refine (State.applyHorizon_risen (m := m) (n := n) (Y := (m.risen n k).handRange (m.rx.count + 1) last) (by simp) (by simp)
        (by simp) (by simp) (by simp [State.cfg])).2.2 _ ?_
      rw [State.handRange_overflow_port _ _ (by rw [hgc _ (by simp), hov])]
      apply State.postReport_port_congr; rfl
  · exact (((State.raiseCount_rx (Or.inr (Or.inr ⟨hO.gapsBefore, hN, hlen, hle hO⟩))).2.2.2 hne).2 before e hg hlen).2 hl

/-- What a rise does, said of a state with the same count, members, send queue, line, configuration, reports and gap table, and of
a result with the same. -/
theorem CountRaised.congr {m X t u : State} {n last : LineNo} (h : CountRaised X t n last) (x1 : X.rx.count = m.rx.count)
    (x2 : X.commit = m.commit) (x3 : X.members = m.members) (x4 : X.send = m.send) (x5 : X.line = m.line)
    (x6 : X.cfg = m.cfg) (x7 : X.port = m.port) (x8 : X.gaps = m.gaps) (x9 : X.nextGapId = m.nextGapId)
    (u1 : u.rx.count = t.rx.count) (u2 : u.commit = t.commit) (u3 : u.members = t.members) (u4 : u.send = t.send)
    (u5 : u.port = t.port) (u6 : u.gaps = t.gaps)
    (hg : OrderSound m → AdvanceRests m → last ≠ m.rx.count → ∀ before e, m.gaps = before ++ [e] → m.gaps.length = 8 →
      e.state = .lost → t.gaps = before ++ [{ e with last := last }]) : CountRaised m u n last := by
  obtain ⟨h1, h2, h3, h4, h7, h8⟩ := h
  have hk := State.horizon_congr (s := m) (t := X) x3 n
  have hr := State.releasedAtHorizon_congr (s := m) (t := X) x4 x3 (by rw [x5]) x6 n
  have hp : ∀ l, (X.postReports l).port = (m.postReports l).port := fun l => State.postReports_port_congr x7 l
  have hpr : ∀ l r, ((X.postReports l).postReport r).port = ((m.postReports l).postReport r).port :=
    fun l r => State.postReport_port_congr (hp l) r
  have hrp : ∀ l r, ((X.postReport r).postReports l).port = ((m.postReport r).postReports l).port :=
    fun l r => State.postReports_port_congr (State.postReport_port_congr x7 r) l
  rw [hk.1] at h3
  rw [hr] at h4
  simp only [x1, x6, x8, x9, hk.2, hp, hpr, hrp] at h7 h8
  refine ⟨by rw [u1, h1], by rw [u2, h2, x2], by rw [u3, h3], by rw [u4, h4], fun hq => by rw [u5, u6]; exact h7 hq,
    fun hq => ?_⟩
  obtain ⟨k1, k2⟩ := h8 hq
  rw [u5, u6]
  exact ⟨k1, fun before e hb hl => ⟨(k2 before e hb hl).1, fun hs => ⟨((k2 before e hb hl).2 hs).1, fun hO hN =>
    hg hO hN hq before e hb hl hs⟩⟩⟩

/-- Over a receive side at rest a rise leaves the receive side at rest, with only the count changed (R101, R114 to R116). -/
theorem AdvanceRests_raiseCount {m : State} {n last : LineNo} (hO : GapsBefore m) (h8 : m.gaps.length ≤ 8)
    (hN : AdvanceRests m) (hle : m.ahead m.rx.count ≤ m.ahead last) : AdvanceRests (m.raiseCount n last)
      ∧ (m.raiseCount n last).rx = { m.rx with count := n } ∧ (m.raiseCount n last).pool = m.pool := by
  obtain ⟨r1, r2, r3, r4⟩ := State.raiseCount_rx (m := m) (n := n) (last := last) (by
    by_cases hl : m.gaps.length < 8
    · right; left; unfold State.gapOverflows; rw [decide_eq_false (by simp [Config.gapEntries]; omega)]; rfl
    · exact Or.inr (Or.inr ⟨hO, hN, by omega, hle⟩))
  refine ⟨?_, r1, r2⟩
  have same : ((m.raiseCount n last).lostAt (m.rx.settled + 1) = m.lostAt (m.rx.settled + 1)) →
      AdvanceRests (m.raiseCount n last) := by
    intro h
    rcases hN with hN | ⟨q1, q2, q3⟩
    · exact Or.inl (by rw [r2]; exact hN)
    · exact Or.inr ⟨by rw [r1]; exact q1, by rw [knownAt_congr (s := m) (by rw [r1]) (by rw [r1]), r1]; exact q2,
        by rw [show (m.raiseCount n last).rx.settled = m.rx.settled by rw [r1], h, r2]; exact q3⟩
  by_cases hlast : last = m.rx.count
  · exact same (lostAt_congr (r3 hlast) _)
  obtain ⟨g1, g2⟩ := r4 hlast
  by_cases hl : m.gaps.length < 8
  · apply same; unfold State.lostAt; rw [g1 hl]; simp
  · obtain ⟨b, e, hb⟩ : ∃ b e, m.gaps = b ++ [e] := by
      rcases List.eq_nil_or_concat m.gaps with hz | ⟨b, e, hz⟩
      · rw [hz] at hl; simp at hl
      · exact ⟨b, e, by simpa using hz⟩
    obtain ⟨k1, k2⟩ := g2 b e hb (by omega)
    by_cases hes : e.state = .lost
    · exact AdvanceRests_reach hO hN hb hes (k2 hes) (by rw [r1]) r2 hle
    · apply same; unfold State.lostAt; rw [k1 hes, hb]; simp [beq_eq_false_iff_ne.mpr hes, beq_eq_false_iff_ne.mpr (show GapState.waiting ≠ .lost by decide)]

/-! ### The backlog event flag -/

/-- What is appended from `s` to `t`, and what it does to the backlog event flag (R107). -/
def Appends (s t : State) : Prop :=
  t.cfg = s.cfg ∧ (∃ more, t.rx.queue = s.rx.queue ++ more) ∧ BacklogFollows s t s.rx.queue.length

theorem Appends.trans {s t u : State} (h : Appends s t) (g : Appends t u) : Appends s u := by
  obtain ⟨h1, ⟨a, h2⟩, h3⟩ := h
  obtain ⟨g1, ⟨b, g2⟩, g3⟩ := g
  exact ⟨by rw [g1, h1], ⟨a ++ b, by rw [g2, h2, List.append_assoc]⟩, h3.trans g3 h1 (by rw [h2]; simp) (by rw [g2]; simp)⟩

theorem Appends_of_same {s t : State} (h1 : t.cfg = s.cfg) (h2 : t.rx.queue = s.rx.queue)
    (h3 : t.rx.backlog = s.rx.backlog) : Appends s t :=
  ⟨h1, ⟨[], by rw [h2, List.append_nil]⟩, BacklogFollows_of_same h2 h3⟩

theorem Appends_advance (s : State) : Appends s s.advance :=
  ⟨by simp [State.cfg], s.advance_queue, s.advance_backlog⟩

theorem Appends_handRange (s : State) (a z : LineNo) : Appends s (s.handRange a z) := by
  unfold State.handRange
  split
  · exact Appends_of_same rfl rfl rfl
  · split
    · refine Appends.trans (t := State.postReport _ _) ?_ (Appends_advance _)
      exact Appends_of_same (by simp [State.cfg]) (by simp) (by simp)
    · exact Appends_of_same rfl rfl rfl

theorem Appends_applyHorizon (s : State) : Appends s s.applyHorizon :=
  Appends_of_same (by simp [State.cfg]) (by simp) (by simp)

theorem Appends_raiseCount (s : State) (n last : LineNo) : Appends s (s.raiseCount n last) := by
  have h0 : ∀ k, Appends s (s.risen n k) := fun k => Appends_of_same rfl rfl rfl
  rcases s.raiseCount_cases n last with ⟨-, e⟩ | ⟨-, ⟨k, e⟩ | ⟨-, k, e⟩⟩ <;> rw [e]
  · exact (h0 _).trans (Appends_applyHorizon _)
  · exact ((h0 k).trans (Appends_applyHorizon _)).trans (Appends_handRange _ _ _)
  · exact ((h0 k).trans (Appends_handRange _ _ _)).trans (Appends_applyHorizon _)

/-- A commit appends what the advance after it delivers (R42, R48, R107). -/
theorem Appends_takeCommitted (s : State) (n : LineNo) : Appends s (s.takeCommitted n) := by
  rcases s.takeCommitted_cases n with ⟨p, -, e⟩ | ⟨-, e⟩ <;> rw [e]
  · refine Appends.trans (t := State.hold { s with commit := { s.commit with provisional := none } } p) ?_
      ((Appends_raiseCount _ _ _).trans (Appends_advance _))
    exact Appends_of_same rfl rfl rfl
  · refine Appends.trans (t := s.makeKnown n) ?_ ((Appends_raiseCount _ _ _).trans (Appends_advance _))
    exact Appends_of_same rfl rfl rfl

/-- A position settled by a REPLAY (R97, R107). -/
theorem Appends_riseAndAdvance (s : State) (n : LineNo) : Appends s (s.riseAndAdvance n) := by
  unfold State.riseAndAdvance
  split
  · exact (Appends_raiseCount _ _ _).trans (Appends_advance _)
  · exact Appends_advance _

/-! ### Handing on -/

theorem HandedOn_of_same {s t : State} (h1 : t.rx = s.rx) (h2 : t.gaps = s.gaps) : HandedOn s t :=
  ⟨⟨[], by rw [h1, List.append_nil]⟩, BacklogFollows_of_same (by rw [h1]) (by rw [h1]),
    fun h => GapsTrimmed.refl h.gapsWithin (by rw [h1]) h2⟩

/-- What handing on may leave depends on the receive side, the gap table and the backlog limit. -/
theorem HandedOn.congr {s s' t t' : State} (h : HandedOn s t) (h1 : s'.rx = s.rx) (h2 : s'.gaps = s.gaps)
    (h3 : s'.nextGapId = s.nextGapId) (h4 : s'.cfg = s.cfg) (h5 : t'.rx = t.rx) (h6 : t'.gaps = t.gaps) : HandedOn s' t' := by
  obtain ⟨a, b, c⟩ := h
  refine ⟨by rw [h1, h5]; exact a, ?_, fun ho => ?_⟩
  · unfold BacklogFollows at *; rw [h1, h4, h5]; exact b
  · have k := c (ho.congr ⟨by rw [h1], by rw [h1], by rw [h1], by rw [h1], h2.symm, h3.symm⟩)
    unfold GapsTrimmed State.ahead State.missing at *
    rw [h1, h2, h5, h6]; exact k

/-- Handing on, with the receive side and the gap table as they stood before (R67). -/
theorem HandedOn_handOn {s u : State} (h1 : u.rx = s.rx) (h2 : u.gaps = s.gaps) (h3 : u.nextGapId = s.nextGapId)
    (h4 : u.cfg = s.cfg) : HandedOn s u.handOn := by
  obtain ⟨more, hm⟩ := u.handOn_queue
  have hb := u.handOn_backlog
  unfold BacklogFollows at hb
  rw [h1, h4] at hb
  refine ⟨⟨more, by rw [hm, h1]⟩, hb, fun h => ?_⟩
  have hv : u.servePendingBase.rx.settled = s.rx.settled ∧ u.servePendingBase.gaps = s.gaps
      ∧ SameOrder s u.servePendingBase := by
    unfold SameOrder State.servePendingBase
    split <;> simp [h1, h2, h3]
  have hg := State.advance_gaps (h.congr hv.2.2)
  unfold GapsTrimmed State.ahead at *
  rw [hv.2.1, hv.1] at hg
  exact hg

/-- The provisional notice given up, and its descriptor handed on (R43, R47, R50, R67). -/
theorem HandedOn_freeProvisional (s : State) : HandedOn s s.freeProvisional := by
  unfold State.freeProvisional
  split
  · exact HandedOn_handOn (by simp) (by simp) (by simp) (by simp [State.cfg])
  · exact HandedOn_of_same rfl rfl

end Sys2Proof.Machine
end

