-- ==== Sys2Proof/Laws/SendSound.lean ====
section
/-!
SUPPORT. The send ring (R58, R59, R72, R76 to R82), operation by operation: notices stay laid on it, with consecutive tags.
-/

namespace Sys2Proof.Machine

/-! ### Runs on the ring -/

theorem RingLaid_append (size : Nat) (p q : RingPoint) (a b : List SendNotice) :
    RingLaid size p (a ++ b) q ↔ ∃ r, RingLaid size p a r ∧ RingLaid size r b q := by
  induction a generalizing p with
  | nil => simp [RingLaid]
  | cons n a ih => simp [RingLaid, ih, and_assoc]

theorem TagsRun_append (t u : Tag) (a b : List SendNotice) :
    TagsRun t (a ++ b) u ↔ ∃ v, TagsRun t a v ∧ TagsRun v b u := by
  induction a generalizing t with
  | nil => simp [TagsRun]
  | cons n a ih => simp [TagsRun, ih, and_assoc]

/-- Where a run on the ring ends. -/
theorem RingLaid_end {size : Nat} {p q : RingPoint} {l : List SendNotice} (h : RingLaid size p l q) :
    q = l.foldl (fun p n => p.past size (cellsFor n.length)) p := by
  induction l generalizing p with
  | nil => exact h.symm
  | cons n l ih => exact ih h.2.2

/-- A change that leaves what lies on the ring. -/
theorem RingLaid_map {size : Nat} {p q : RingPoint} {l : List SendNotice} {f : SendNotice → SendNotice}
    (hf : ∀ n, (f n).firstCell = n.firstCell ∧ (f n).desc = n.desc ∧ (f n).length = n.length)
    (h : RingLaid size p l q) : RingLaid size p (l.map f) q := by
  induction l generalizing p with
  | nil => exact h
  | cons n l ih =>
    obtain ⟨h1, h2, h3⟩ := h
    obtain ⟨f1, f2, f3⟩ := hf n
    exact ⟨f1.trans h1, f2.trans h2, by rw [f3]; exact ih h3⟩

theorem TagsRun_map {t u : Tag} {l : List SendNotice} {f : SendNotice → SendNotice} (hf : ∀ n, (f n).tag = n.tag)
    (h : TagsRun t l u) : TagsRun t (l.map f) u := by
  induction l generalizing t with
  | nil => exact h
  | cons n l ih => exact ⟨(hf n).trans h.1, ih h.2⟩

theorem sendCellsOf_append (a b : List SendNotice) : sendCellsOf (a ++ b) = sendCellsOf a + sendCellsOf b := by
  simp [sendCellsOf]

theorem sendCellsOf_map {l : List SendNotice} {f : SendNotice → SendNotice} (hf : ∀ n, (f n).length = n.length) :
    sendCellsOf (l.map f) = sendCellsOf l := by
  simp [sendCellsOf, Function.comp_def, hf]

/-! ### The send queue, operation by operation -/

/-- What the send queue's invariant looks at. -/
theorem SendSound.congr {s t : State} (h : SendSound s) (hc : t.cfg.sendSize = s.cfg.sendSize)
    (h1 : t.send.retained = s.send.retained) (h2 : t.send.outbound = s.send.outbound)
    (h3 : t.send.releasePoint = s.send.releasePoint) (h4 : t.send.transmitPoint = s.send.transmitPoint)
    (h5 : t.send.postEnd = s.send.postEnd) (h6 : t.send.tagCounter = s.send.tagCounter) : SendSound t := by
  unfold SendSound; rw [hc, h1, h2, h3, h4, h5, h6]; exact h

theorem SendSound.of_send {s t : State} (h : SendSound s) (hs : t.send = s.send) (hc : t.cfg = s.cfg) : SendSound t :=
  h.congr (by rw [hc]) (by rw [hs]) (by rw [hs]) (by rw [hs]) (by rw [hs]) (by rw [hs]) (by rw [hs])

/-- An empty send side. -/
theorem SendSound_of_empty {s : State} (h1 : s.send.retained = []) (h2 : s.send.outbound = [])
    (h3 : s.send.releasePoint = s.send.transmitPoint) (h4 : s.send.transmitPoint = s.send.postEnd) : SendSound s := by
  refine ⟨?_, ?_, ?_, ?_, ⟨s.send.tagCounter, ?_⟩, ?_, ?_, ?_⟩ <;> simp [h1, h2, h3, h4, RingLaid, TagsRun, sendCellsOf]

/-- Releases along the retained span (R80). -/
theorem SendSound.evaluateRelease {s : State} (h : SendSound s) : SendSound s.evaluateRelease := by
  obtain ⟨h1, h2, h3, h4, ⟨t, h5⟩, h6, h7, h8⟩ := h
  rw [State.evaluateRelease_eq]
  have hsplit := List.takeWhile_append_dropWhile (p := s.released?) (l := s.send.retained)
  rw [← hsplit, RingLaid_append] at h1
  obtain ⟨r, k1, k2⟩ := h1
  have hr := RingLaid_end k1
  rw [← hsplit, sendCellsOf_append] at h3
  have h4' : (s.send.retained.dropWhile s.released?).length ≤ s.send.retained.length :=
    (List.dropWhile_sublist _).length_le
  rw [← hsplit, List.append_assoc, TagsRun_append] at h5
  obtain ⟨v, -, k5⟩ := h5
  refine ⟨?_, h2, ?_, ?_, ⟨v, k5⟩, ?_, h7, ?_⟩
  · show RingLaid s.cfg.sendSize _ _ _
    rw [← hr]; exact k2
  · show sendCellsOf (s.send.retained.dropWhile s.released?) + sendCellsOf s.send.outbound ≤ s.cfg.sendSize
    omega
  · show (s.send.retained.dropWhile s.released?).length + s.send.outbound.length ≤ 32
    omega
  · intro n hn
    exact h6 n ((List.dropWhile_sublist _).subset hn)
  · intro n hn
    exact h8 n ((List.Sublist.append_right (List.dropWhile_sublist _) _).subset hn)

theorem SendSound.releaseAfterReplay {s : State} (h : SendSound s) : SendSound s.releaseAfterReplay := by
  unfold State.releaseAfterReplay; split
  · exact SendSound.evaluateRelease (SendSound.congr h rfl rfl rfl rfl rfl rfl rfl)
  · exact h

/-- Marks set or cleared on retained notices (R84, R87). -/
theorem SendSound_map {s t : State} {f : SendNotice → SendNotice} (h : SendSound s)
    (hf : ∀ n, (f n).firstCell = n.firstCell ∧ (f n).desc = n.desc ∧ (f n).length = n.length ∧ (f n).tag = n.tag
      ∧ (f n).number = n.number) (hc : t.cfg = s.cfg) (hs : t.send = { s.send with retained := s.send.retained.map f }) :
    SendSound t := by
  obtain ⟨h1, h2, h3, h4, ⟨u, h5⟩, h6, h7, h8⟩ := h
  unfold SendSound
  rw [hc, hs]
  refine ⟨RingLaid_map (fun n => ⟨(hf n).1, (hf n).2.1, (hf n).2.2.1⟩) h1, h2, ?_, ?_, ⟨u, ?_⟩, ?_, h7, ?_⟩
  · simp only [sendCellsOf_map (fun n => (hf n).2.2.1)]; exact h3
  · simpa using h4
  · rw [TagsRun_append] at h5 ⊢
    obtain ⟨v, k1, k2⟩ := h5
    exact ⟨v, TagsRun_map (fun n => (hf n).2.2.2.1) k1, k2⟩
  · intro n hn
    obtain ⟨m, hm, rfl⟩ := List.mem_map.mp hn
    rw [(hf m).2.2.2.2]; exact h6 m hm
  · intro n hn
    rcases List.mem_append.mp hn with hn | hn
    · obtain ⟨m, hm, rfl⟩ := List.mem_map.mp hn
      rw [(hf m).2.2.1]; exact h8 m (List.mem_append_left _ hm)
    · exact h8 n (List.mem_append_right _ hn)

theorem SendSound.clearMark {s : State} (h : SendSound s) (tag : Tag) : SendSound (s.clearMark tag) := by
  refine SendSound_map (f := fun n => if n.tag == tag then { n with marked := false } else n) h ?_ rfl rfl
  intro n; split <;> exact ⟨rfl, rfl, rfl, rfl, rfl⟩

theorem SendSound.markReplays {s : State} (h : SendSound s) (r : ResendRange) : SendSound (s.markReplays r) := by
  refine SendSound_map (f := fun n => if ResendRange.holds r n.lineNo && atOrBefore n.lineNo s.rx.count then
    { n with marked := true } else n) h ?_ rfl rfl
  intro n; split <;> exact ⟨rfl, rfl, rfl, rfl, rfl⟩

/-- The outbound head becomes the newest retained notice (R75). -/
theorem SendSound.retainHead {s : State} (h : SendSound s) (n : LineNo) : SendSound (s.retainHead n) := by
  unfold State.retainHead
  split
  · exact h
  · rename_i head rest hs
    obtain ⟨h1, h2, h3, h4, ⟨u, h5⟩, h6, h7, h8⟩ := h
    rw [hs] at h2 h3 h4 h5 h7 h8
    obtain ⟨k1, k2, k3⟩ := h2
    refine ⟨?_, k3, ?_, ?_, ⟨u, ?_⟩, ?_, fun m hm => h7 m (List.mem_cons_of_mem _ hm), ?_⟩
    · show RingLaid s.cfg.sendSize _ (s.send.retained ++ [_]) _
      rw [RingLaid_append]
      exact ⟨_, h1, k1, k2, rfl⟩
    · have hh : sendCellsOf (s.send.retained ++ [{ head with number := some n }]) + sendCellsOf rest
          = sendCellsOf s.send.retained + sendCellsOf (head :: rest) := by
        rw [sendCellsOf_append, sendCellsOf_cons, sendCellsOf_cons]; simp [sendCellsOf]; omega
      show sendCellsOf (s.send.retained ++ [{ head with number := some n }]) + sendCellsOf rest ≤ s.cfg.sendSize
      rw [hh]; exact h3
    · show (s.send.retained ++ [{ head with number := some n }]).length + rest.length ≤ 32
      simp at h4 ⊢; omega
    · show TagsRun u ((s.send.retained ++ [{ head with number := some n }]) ++ rest) s.send.tagCounter
      rw [List.append_assoc, TagsRun_append]
      rw [TagsRun_append] at h5
      obtain ⟨v, l1, l2, l3⟩ := h5
      exact ⟨v, l1, l2, l3⟩
    · intro m hm
      rcases List.mem_append.mp hm with hm | hm
      · exact h6 m hm
      · simp at hm; rw [hm]; simp
    · intro m hm
      replace hm : m ∈ (s.send.retained ++ [{ head with number := some n }]) ++ rest := hm
      simp only [List.mem_append, List.mem_singleton] at hm
      rcases hm with (hm | rfl) | hm
      · exact h8 m (by simp [hm])
      · exact h8 head (by simp)
      · exact h8 m (by simp [hm])

/-- An accepted post (R58, R72, R73), with room for it. -/
theorem SendSound.storePost {s : State} (h : SendSound s) (topic : Topic) (payload : List Byte)
    (hl : payload.length ≤ 64) (hc : cellsFor payload.length ≤ s.freeSendCells) (hd : 1 ≤ s.freeSendDescs) :
    SendSound (s.storePost topic payload) := by
  obtain ⟨h1, h2, h3, h4, ⟨u, h5⟩, h6, h7, h8⟩ := h
  have hc1 : 1 ≤ cellsFor payload.length := by unfold cellsFor; omega
  unfold State.freeSendCells at hc
  unfold State.freeSendDescs Config.sendDescs at hd
  refine ⟨h1, ?_, ?_, ?_, ⟨u, ?_⟩, h6, ?_, ?_⟩
  · show RingLaid s.cfg.sendSize _ (s.send.outbound ++ [_]) (s.send.postEnd.past s.cfg.sendSize (cellsFor payload.length))
    rw [RingLaid_append]
    exact ⟨_, h2, rfl, rfl, rfl⟩
  · show sendCellsOf s.send.retained + sendCellsOf (s.send.outbound ++ [_]) ≤ s.cfg.sendSize
    rw [sendCellsOf_append]
    simp only [sendCellsOf, List.map_cons, List.map_nil, List.sum_cons, List.sum_nil] at *
    omega
  · show s.send.retained.length + (s.send.outbound ++ [_]).length ≤ 32
    simp; omega
  · show TagsRun u (s.send.retained ++ (s.send.outbound ++ [_])) (s.send.tagCounter + 1)
    rw [← List.append_assoc, TagsRun_append]
    exact ⟨_, h5, rfl, rfl⟩
  · intro n hn
    rcases List.mem_append.mp hn with hn | hn
    · exact h7 n hn
    · simp at hn; rw [hn]; simp
  · intro n hn
    replace hn : n ∈ s.send.retained ++ (s.send.outbound ++ [_]) := hn
    rw [← List.append_assoc] at hn
    rcases List.mem_append.mp hn with hn | hn
    · exact h8 n hn
    · simp at hn; rw [hn]; exact hl

/-! ### Operations that evaluate release -/

theorem SendSound.applyHorizon {s : State} (h : SendSound s) : SendSound s.applyHorizon := by
  unfold State.applyHorizon; split
  · exact h
  · refine SendSound.evaluateRelease (SendSound.of_send h ?_ ?_) <;> simp [State.cfg]

theorem SendSound.headerMember {s : State} (h : SendSound s) (hd : Header) (l : Bool) :
    SendSound (s.headerMember hd l) := by
  unfold State.headerMember
  split
  · split
    · refine SendSound.evaluateRelease (SendSound.of_send h ?_ ?_) <;> simp
    · exact h
  · split
    · split
      · refine SendSound.evaluateRelease (SendSound.of_send h ?_ ?_) <;> simp
      · exact h
    · split
      · dsimp only
        split
        · exact h
        · refine SendSound.evaluateRelease (SendSound.of_send h ?_ ?_) <;> simp
      · refine SendSound.of_send h ?_ ?_ <;> simp [State.cfg]

theorem SendSound.raiseCount {s : State} (h : SendSound s) (n l : LineNo) : SendSound (s.raiseCount n l) := by
  have hh : ∀ {u : State} (a z), SendSound u → SendSound (u.handRange a z) :=
    fun a z hu => hu.of_send (by simp) (by simp)
  have h1 : ∀ k, SendSound { ({ s with rx := { s.rx with count := n } } : State).clearCatchingUp with freeReads := k } :=
    fun k => h.congr rfl rfl rfl rfl rfl rfl rfl
  unfold State.raiseCount
  dsimp only
  split
  · exact (h1 s.freeReads).applyHorizon
  · split
    · split
      · exact (hh _ _ (h1 _)).applyHorizon
      · exact hh _ _ (h1 _).applyHorizon
    · exact hh _ _ (h1 s.freeReads).applyHorizon

theorem SendSound.setCount {s : State} (h : SendSound s) (n : LineNo) : SendSound (s.setCount n) := by
  unfold State.setCount; exact SendSound.applyHorizon (h.congr rfl rfl rfl rfl rfl rfl rfl)

theorem SendSound.resync {s : State} (h : SendSound s) (r : BaseReason) (c : StateCause) (n : LineNo) :
    SendSound (s.resync r c n) := by
  have h1 : SendSound (s.discardReceive.setCount n) := SendSound.setCount (h.of_send (by simp) (by simp)) n
  obtain ⟨-, -, -, -, -, -, hs, -, -, hstn, -⟩ := State.resync_spec s r c n
  refine h1.congr ?_ ?_ ?_ ?_ ?_ ?_ ?_ <;> simp [hs, hstn, State.cfg]

theorem SendSound.spanResync {s : State} (h : SendSound s) (n : LineNo) : SendSound (s.spanResync n) := by
  unfold State.spanResync; split
  · exact h.resync _ _ _
  · exact h

theorem SendSound.adopt {s : State} (h : SendSound s) (n : LineNo) : SendSound (s.adopt n) := by
  refine (h.setCount n).of_send ?_ ?_ <;> simp [State.adopt, State.cfg]

theorem SendSound.found {s : State} (h : SendSound s) : SendSound s.found := by
  refine (h.setCount 0).of_send ?_ ?_ <;> simp [State.found, State.cfg]

theorem SendSound.headerProcess {s : State} (h : SendSound s) (hd : Header) (l : Bool) :
    SendSound (s.headerProcess hd l).1 := by
  unfold State.headerProcess
  have h1 := h.headerMember hd l
  dsimp only
  split
  · exact h1.spanResync _
  · split
    · exact h1.raiseCount _ _
    · exact h1

/-- The send side discarded (R90). -/
theorem SendSound_quit (s : State) : SendSound s.quit := by
  obtain ⟨-, -, -, -, -, -, h, -⟩ := State.quit_spec s
  apply SendSound_of_empty <;> simp [h]

/-! ### Retained numbers rise (R76), operation by operation -/

/-- The own NOTICE frame's number, on the line or in its window, is one that it had already. -/
def SameNumbering (l l' : LineBlock) : Prop :=
  (∀ f, l'.ownFrame = some f → l.ownFrame = some f)
    ∧ ∀ w, l'.window = some w → w.role = .sender → ∃ v, l.window = some v ∧ v.role = .sender ∧ v.number = w.number

theorem SameNumbering_of_eq {l l' : LineBlock} (h1 : l'.ownFrame = l.ownFrame ∨ l'.ownFrame = none)
    (h2 : l'.window = l.window ∨ l'.window = none) : SameNumbering l l' := by
  refine ⟨fun f hf => ?_, fun w hw hr => ?_⟩
  · rcases h1 with h1 | h1 <;> simp_all
  · rcases h2 with h2 | h2
    · exact ⟨w, h2 ▸ hw, hr, rfl⟩
    · rw [h2] at hw; cases hw

/-- Retained notices that leave at the release point, and marks: what is left rises as before. -/
theorem RetainedRise.suffix {s t : State} (h : RetainedRise s)
    (hs : t.send.retained.map SendNotice.lineNo <:+ s.send.retained.map SendNotice.lineNo)
    (hl : SameNumbering s.line t.line) : RetainedRise t := by
  obtain ⟨h1, h2⟩ := h
  have hm : ∀ l : List SendNotice, l.IsChain (fun a b => follows a.lineNo b.lineNo = true)
      ↔ (l.map SendNotice.lineNo).IsChain fun a b => follows a b = true := fun l =>
    (List.isChain_map (R := fun a b => follows a b = true) SendNotice.lineNo).symm
  refine ⟨(hm _).mpr (((hm _).mp h1).suffix hs), fun m hmm => ?_⟩
  have hne : t.send.retained.map SendNotice.lineNo ≠ [] := by intro e; simp at e; simp [e] at hmm
  obtain ⟨pre, hpre⟩ := hs
  have hlast : (s.send.retained.map SendNotice.lineNo).getLast? = some m.lineNo := by
    rw [← hpre, List.getLast?_append_of_ne_nil _ hne, List.getLast?_map, hmm]; rfl
  rw [List.getLast?_map, Option.map_eq_some_iff] at hlast
  obtain ⟨k, hk, hkm⟩ := hlast
  obtain ⟨k1, k2⟩ := h2 k hk
  rw [← hkm]
  refine ⟨fun f hd b hf hfr => k1 f hd b (hl.1 f hf) hfr, fun w hw hr => ?_⟩
  obtain ⟨v, hv, hvr, hvn⟩ := hl.2 w hw hr
  rw [← hvn]; exact k2 v hv hvr

/-- What the invariant looks at. -/
theorem RetainedRise.congr {s t : State} (h : RetainedRise s) (hs : t.send.retained = s.send.retained)
    (h1 : t.line.ownFrame = s.line.ownFrame ∨ t.line.ownFrame = none)
    (h2 : t.line.window = s.line.window ∨ t.line.window = none) : RetainedRise t :=
  h.suffix (by rw [hs]) (SameNumbering_of_eq h1 h2)

theorem RetainedRise_of_empty {s : State} (h : s.send.retained = []) : RetainedRise s := by simp [RetainedRise, h]

theorem RetainedRise.evaluateRelease {s : State} (h : RetainedRise s) : RetainedRise s.evaluateRelease := by
  rw [State.evaluateRelease_eq]
  exact h.suffix ((List.dropWhile_suffix _).map _) (SameNumbering_of_eq (Or.inl rfl) (Or.inl rfl))

theorem RetainedRise.releaseAfterReplay {s : State} (h : RetainedRise s) : RetainedRise s.releaseAfterReplay := by
  unfold State.releaseAfterReplay; split
  · exact RetainedRise.evaluateRelease (RetainedRise.congr h rfl (Or.inl rfl) (Or.inl rfl))
  · exact h

theorem RetainedRise_map {s t : State} {f : SendNotice → SendNotice} (h : RetainedRise s)
    (hf : ∀ n, (f n).lineNo = n.lineNo) (hs : t.send.retained = s.send.retained.map f) (hl : t.line = s.line) :
    RetainedRise t := by
  refine h.suffix ?_ (SameNumbering_of_eq (by rw [hl]; exact Or.inl rfl) (by rw [hl]; exact Or.inl rfl))
  rw [hs, List.map_map, show SendNotice.lineNo ∘ f = SendNotice.lineNo from funext hf]

theorem RetainedRise.clearMark {s : State} (h : RetainedRise s) (tag : Tag) : RetainedRise (s.clearMark tag) := by
  refine RetainedRise_map (f := fun n => if n.tag == tag then { n with marked := false } else n) h ?_ rfl rfl
  intro n; split <;> rfl

theorem RetainedRise.markReplays {s : State} (h : RetainedRise s) (r : ResendRange) : RetainedRise (s.markReplays r) := by
  refine RetainedRise_map (f := fun n => if ResendRange.holds r n.lineNo && atOrBefore n.lineNo s.rx.count then
    { n with marked := true } else n) h ?_ rfl rfl
  intro n; split <;> rfl

/-- The outbound head becomes the newest retained notice, with a number that follows the others (R75, R76). -/
theorem RetainedRise.retainHead {s : State} (h : RetainedRise s) {n : LineNo}
    (hn : ∀ m, s.send.retained.getLast? = some m → follows m.lineNo n = true) (h1 : s.line.ownFrame = none)
    (h2 : s.line.window = none) : RetainedRise (s.retainHead n) := by
  unfold State.retainHead
  split
  · exact h
  · refine ⟨?_, fun m _ => ⟨fun f hd b hf => ?_, fun w hw => ?_⟩⟩
    · refine List.IsChain.append h.1 (by simp) ?_
      intro a ha b hb
      simp only [List.head?_cons, Option.mem_def, Option.some.injEq] at hb
      rw [← hb]; exact hn a ha
    · rw [show s.line.ownFrame = some f from hf] at h1; cases h1
    · rw [show s.line.window = some w from hw] at h2; cases h2

/-- An own frame starts: a NOTICE frame is built only when its number follows the newest retained one (R46, R76). -/
theorem RetainedRise.startFrame {s : State} (h : RetainedRise s) {c : Candidate} {f : Frame}
    (hc : s.candidate = some c) (hf : s.frameFor c = some f) (hw : s.line.window = none) :
    RetainedRise (s.startFrame c f) := by
  have hr : (s.startFrame c f).send = s.send := by simp
  refine ⟨by rw [hr]; exact h.1, fun m hm => ⟨fun g hd b hg hgf => ?_, fun w hw' => ?_⟩⟩
  · rw [hr] at hm
    rw [show (s.startFrame c f).line.ownFrame = some { candidate := c, frame := f, sent := false } from rfl] at hg
    cases Option.some.inj hg
    dsimp only at hgf; subst hgf
    obtain ⟨tag, rfl, hb⟩ : ∃ tag, c = .notice tag ∧ b.number = s.rx.count + 1 := by
      cases c <;> simp only [State.frameFor, Option.map_eq_some_iff] at hf <;> obtain ⟨x, -, hx⟩ := hf <;> cases hx
      exact ⟨_, rfl, rfl⟩
    have hp : s.headPresented = true := by
      have hn : ∃ n, s.noticeCandidate = some n := by
        unfold State.candidate State.repairCandidate at hc
        repeat' split at hc
        all_goals first
          | (cases hc; done)
          | exact ⟨_, by assumption⟩
          | (rename_i hrc; repeat' split at hrc
             all_goals simp_all)
      obtain ⟨n, hn⟩ := hn
      unfold State.noticeCandidate at hn
      split at hn
      · cases hn
      · split at hn
        · rename_i hh; simp only [Bool.and_eq_true] at hh; exact hh.1.2
        · cases hn
    unfold State.headPresented at hp
    rw [hm] at hp
    rw [hb]; exact hp
  · have : (s.startFrame c f).line.window = s.line.window := by simp [State.startFrame]
    rw [this, hw] at hw'; cases hw'

theorem RetainedRise.applyHorizon {s : State} (h : RetainedRise s) : RetainedRise s.applyHorizon := by
  unfold State.applyHorizon; split
  · exact h
  · refine RetainedRise.evaluateRelease (RetainedRise.congr h ?_ (Or.inl ?_) (Or.inl ?_)) <;> simp

theorem RetainedRise.headerMember {s : State} (h : RetainedRise s) (hd : Header) (l : Bool) :
    RetainedRise (s.headerMember hd l) := by
  unfold State.headerMember
  split
  · split
    · refine RetainedRise.evaluateRelease (RetainedRise.congr h ?_ (Or.inl ?_) (Or.inl ?_)) <;> simp
    · exact h
  · split
    · split
      · refine RetainedRise.evaluateRelease (RetainedRise.congr h ?_ (Or.inl ?_) (Or.inl ?_)) <;> simp
      · exact h
    · split
      · dsimp only
        split
        · exact h
        · refine RetainedRise.evaluateRelease (RetainedRise.congr h ?_ (Or.inl ?_) (Or.inl ?_)) <;> simp
      · refine RetainedRise.congr h ?_ (Or.inl ?_) (Or.inl ?_) <;> simp

theorem RetainedRise.raiseCount {s : State} (h : RetainedRise s) (n l : LineNo) : RetainedRise (s.raiseCount n l) := by
  have hh : ∀ {u : State} (a z), RetainedRise u → RetainedRise (u.handRange a z) :=
    fun a z hu => hu.congr (by simp) (Or.inl (by simp)) (Or.inl (by simp))
  have h1 : ∀ k, RetainedRise { ({ s with rx := { s.rx with count := n } } : State).clearCatchingUp with freeReads := k } :=
    fun k => h.congr rfl (Or.inl rfl) (Or.inl rfl)
  unfold State.raiseCount
  dsimp only
  split
  · exact (h1 s.freeReads).applyHorizon
  · split
    · split
      · exact (hh _ _ (h1 _)).applyHorizon
      · exact hh _ _ (h1 _).applyHorizon
    · exact hh _ _ (h1 s.freeReads).applyHorizon

theorem RetainedRise.setCount {s : State} (h : RetainedRise s) (n : LineNo) : RetainedRise (s.setCount n) := by
  unfold State.setCount; exact RetainedRise.applyHorizon (h.congr rfl (Or.inl rfl) (Or.inl rfl))

theorem RetainedRise.resync {s : State} (h : RetainedRise s) (r : BaseReason) (c : StateCause) (n : LineNo) :
    RetainedRise (s.resync r c n) := by
  have h1 : RetainedRise (s.discardReceive.setCount n) :=
    RetainedRise.setCount (h.congr (by simp) (Or.inl (by simp)) (Or.inl (by simp))) n
  refine h1.congr ?_ ?_ ?_ <;> simp [State.resync, LineBlock.standBack]

theorem RetainedRise.spanResync {s : State} (h : RetainedRise s) (n : LineNo) : RetainedRise (s.spanResync n) := by
  unfold State.spanResync; split
  · exact h.resync _ _ _
  · exact h

theorem RetainedRise.adopt {s : State} (h : RetainedRise s) (n : LineNo) : RetainedRise (s.adopt n) := by
  refine (h.setCount n).congr ?_ (Or.inl ?_) (Or.inl ?_) <;> simp [State.adopt, LineBlock.standBack]

theorem RetainedRise.found {s : State} (h : RetainedRise s) : RetainedRise s.found := by
  refine (h.setCount 0).congr ?_ (Or.inl ?_) (Or.inl ?_) <;> simp [State.found, LineBlock.standBack]

theorem RetainedRise.headerProcess {s : State} (h : RetainedRise s) (hd : Header) (l : Bool) :
    RetainedRise (s.headerProcess hd l).1 := by
  unfold State.headerProcess
  have h1 := h.headerMember hd l
  dsimp only
  split
  · exact h1.spanResync _
  · split
    · exact h1.raiseCount _ _
    · exact h1

end Sys2Proof.Machine
end

