-- ==== Sys2Proof/Laws/StorageSound.lean ====
section
/-!
SUPPORT. What every shared operation does to receive storage: each cell and each descriptor stays in as many places as
before (R62, R67, R70), and a notice newly stored has the cells of its length (R57, R63).
-/

namespace Sys2Proof.Machine

/-- In how many places a cell stands: the free list, stored notices, delivery records. -/
def State.cellUses (s : State) (c : Nat) : Nat :=
  s.pool.freeCells.count c + (s.rx.holdSet.flatMap (·.chain)).count c
    + (s.commit.provisional.toList.flatMap (·.chain)).count c + (s.rx.queue.flatMap DeliveryRecord.cells).count c

/-- In how many places a descriptor stands. -/
def State.descUses (s : State) (d : Nat) : Nat :=
  s.pool.freeDescs.count d + (s.rx.holdSet.map (·.desc)).count d
    + (s.commit.provisional.toList.map (·.desc)).count d + (s.rx.queue.map DeliveryRecord.descriptor).count d

/-- Every cell and every descriptor stands in as many places, and the region is the same. -/
def SameUses (s t : State) : Prop :=
  (∀ c, t.cellUses c = s.cellUses c) ∧ (∀ d, t.descUses d = s.descUses d) ∧ t.stn.config = s.stn.config

/-- A notice is in receive storage: held, provisional, or in a NOTICE record. -/
def State.stores (s : State) (n : RxNotice) : Prop := n ∈ s.storedNotices ∨ .notice n ∈ s.rx.queue

/-- The cells of a notice are those of its length, and a payload can have that length (R57, R63). -/
def RxNotice.sized (n : RxNotice) : Prop := n.chain.length = cellsFor n.length ∧ n.length ≤ 64

/-- Every cell and every descriptor stands in as many places, the region is the same, and a notice newly stored has the
cells of its length. -/
def SameStorage (s t : State) : Prop := SameUses s t ∧ ∀ n, t.stores n → s.stores n ∨ n.sized

theorem SameUses.trans {s t u : State} (h : SameUses s t) (k : SameUses t u) : SameUses s u :=
  ⟨fun c => (k.1 c).trans (h.1 c), fun d => (k.2.1 d).trans (h.2.1 d), k.2.2.trans h.2.2⟩

theorem SameStorage.refl (s : State) : SameStorage s s := ⟨⟨fun _ => rfl, fun _ => rfl, rfl⟩, fun _ => Or.inl⟩

theorem SameStorage.trans {s t u : State} (h : SameStorage s t) (k : SameStorage t u) : SameStorage s u :=
  ⟨h.1.trans k.1, fun n hn => (k.2 n hn).elim (h.2 n) Or.inr⟩

/-- Stored notices keep their sizes (R57, R63). -/
theorem ChainsSized.of_same {s t : State} (h : ChainsSized s) (k : SameStorage s t) : ChainsSized t :=
  fun n hn => (k.2 n hn).elim (h n) id

/-- The payload of a notice in storage has exactly its length (R57). -/
theorem ChainsSized.rxPayload_length {s : State} (h : ChainsSized s) {n : RxNotice} (hn : s.stores n) :
    (s.rxPayload n).length = n.length := by
  obtain ⟨h1, h2⟩ := h n hn
  have hc : n.length ≤ 16 * cellsFor n.length := by unfold cellsFor; omega
  have hf : ∀ l : List Nat,
      (l.flatMap fun c => (List.range Config.cellBytes).map fun i => Memory.read s.pool.cells (Config.cellBytes * c + i)).length
        = 16 * l.length := by
    intro l
    induction l with
    | nil => rfl
    | cons a l ih => rw [List.flatMap_cons, List.length_append, ih]; simp [Config.cellBytes]; omega
  unfold State.rxPayload Memory.readChain
  rw [List.length_take, hf, h1]; omega

/-- What the storage looks at. -/
theorem SameStorage_of_eq {s t : State} (h1 : t.pool.freeCells = s.pool.freeCells)
    (h2 : t.pool.freeDescs = s.pool.freeDescs) (h3 : t.rx.holdSet = s.rx.holdSet) (h4 : t.rx.queue = s.rx.queue)
    (h5 : t.commit.provisional = s.commit.provisional) (h6 : t.stn.config = s.stn.config) : SameStorage s t := by
  refine ⟨⟨fun c => ?_, fun d => ?_, h6⟩, fun n hn => ?_⟩
  · unfold State.cellUses; rw [h1, h3, h4, h5]
  · unfold State.descUses; rw [h2, h3, h4, h5]
  · unfold State.stores State.storedNotices at hn; rw [h3, h4, h5] at hn; exact Or.inl hn

/-- Storage stays conserved where it stays the same (R70). -/
theorem StorageConserved.of_uses {s t : State} (h : StorageConserved s) (k : SameUses s t) : StorageConserved t := by
  unfold StorageConserved at *
  simp only [State.receiveSize, State.cfg, State.storedNotices] at *
  rw [k.2.2]
  rw [List.perm_iff_count, List.perm_iff_count] at *
  refine ⟨fun c => ?_, fun d => ?_⟩
  · rw [← h.1 c]; have := k.1 c
    simp only [State.cellUses] at this
    simp only [List.count_append, List.flatMap_append]; omega
  · rw [← h.2 d]; have := k.2.1 d
    simp only [State.descUses] at this
    simp only [List.count_append, List.map_append]; omega

theorem StorageConserved.of_same {s t : State} (h : StorageConserved s) (k : SameStorage s t) : StorageConserved t :=
  h.of_uses k.1

/-! ### The delivery advance and the hand-on -/

/-- What leaves the hold set is in it once more than in what stays. -/
theorem perm_eraseP {p : RxNotice → Bool} {l : List RxNotice} {n : RxNotice} (h : l.find? p = some n) :
    l.Perm (n :: l.eraseP p) := by
  induction l with
  | nil => simp at h
  | cons a l ih =>
    cases hp : p a with
    | true =>
      rw [List.find?_cons_of_pos hp] at h
      obtain rfl := Option.some.inj h
      rw [List.eraseP_cons_of_pos hp]
    | false =>
      rw [List.find?_cons_of_neg (by simp [hp])] at h
      rw [List.eraseP_cons_of_neg (by simp [hp])]
      exact ((ih h).cons a).trans (List.Perm.swap n a _)

theorem SameStorage_advanceStep {s t : State} (h : s.advanceStep = some t) : SameStorage s t := by
  obtain ⟨-, h | h | h⟩ := State.advanceStep_cases h
  · obtain ⟨n, hn, rfl⟩ := h
    have hp := perm_eraseP hn
    refine ⟨⟨fun c => ?_, fun d => ?_, by simp⟩, fun m hm => Or.inl ?_⟩
    · have := (hp.flatMap_right (fun m => m.chain)).count_eq c
      simp [State.cellUses, DeliveryRecord.cells] at this ⊢
      omega
    · have := (hp.map (fun m => m.desc)).count_eq d
      simp [State.descUses, DeliveryRecord.descriptor, List.count_cons] at this ⊢
      omega
    · have hh := List.mem_of_find?_eq_some hn
      replace hm : m ∈ s.rx.holdSet.eraseP (·.number == s.rx.settled + 1) ++ s.commit.provisional.toList
        ∨ DeliveryRecord.notice m ∈ s.rx.queue ++ [.notice n] := hm
      simp only [State.stores, State.storedNotices, List.mem_append, List.mem_singleton,
        DeliveryRecord.notice.injEq] at hm ⊢
      rcases hm with (hm | hm) | hm | rfl
      · exact Or.inl (Or.inl (List.mem_of_mem_eraseP hm))
      · exact Or.inl (Or.inr hm)
      · exact Or.inr hm
      · exact Or.inl (Or.inl hh)
  · obtain ⟨-, -, rfl⟩ := h
    exact SameStorage_of_eq (by simp) (by simp) (by simp) (by simp) (by simp) (by simp)
  · obtain ⟨-, -, -, d, ds, hd, rfl⟩ := h
    refine ⟨⟨fun c => ?_, fun e => ?_, by simp⟩, fun m hm => Or.inl ?_⟩
    · simp [State.cellUses, DeliveryRecord.cells]
    · simp [State.descUses, DeliveryRecord.descriptor, hd, List.count_cons]
      omega
    · simpa [State.stores, State.storedNotices] using hm

theorem SameStorage_advanceRun (fuel : Nat) (s : State) : SameStorage s (State.advanceRun fuel s) := by
  induction fuel generalizing s with
  | zero => exact SameStorage.refl s
  | succ f ih =>
    unfold State.advanceRun
    split
    · rename_i t ht; exact (SameStorage_advanceStep ht).trans (ih t)
    · exact SameStorage.refl s

theorem SameStorage_advance (s : State) : SameStorage s s.advance := SameStorage_advanceRun _ s

theorem SameStorage_servePendingBase (s : State) : SameStorage s s.servePendingBase := by
  unfold State.servePendingBase
  split
  · rename_i b d ds hb hd
    refine ⟨⟨fun c => ?_, fun e => ?_, by simp⟩, fun m hm => Or.inl ?_⟩
    · simp [State.cellUses, DeliveryRecord.cells]
    · simp [State.descUses, DeliveryRecord.descriptor, hd, List.count_cons]
      omega
    · simpa [State.stores, State.storedNotices] using hm
  · exact SameStorage.refl s

theorem SameStorage_handOn (s : State) : SameStorage s s.handOn :=
  (SameStorage_servePendingBase s).trans (SameStorage_advance _)

theorem SameStorage_emitBase (s : State) (r : BaseReason) (n : LineNo) : SameStorage s (s.emitBase r n) := by
  unfold State.emitBase
  split
  · rename_i d ds hd
    refine SameStorage.trans ?_ (SameStorage_advance _)
    refine ⟨⟨fun c => ?_, fun e => ?_, by simp⟩, fun m hm => Or.inl ?_⟩
    · simp [State.cellUses, DeliveryRecord.cells]
    · simp [State.descUses, DeliveryRecord.descriptor, hd, List.count_cons]
      omega
    · simpa [State.stores, State.storedNotices] using hm
  · exact SameStorage_of_eq (by simp) (by simp) (by simp) (by simp) (by simp) (by simp)

/-! ### Claims and frees -/

theorem SameStorage_freeProvisional (s : State) : SameStorage s s.freeProvisional := by
  unfold State.freeProvisional
  split
  · rename_i p hp
    refine SameStorage.trans ?_ (SameStorage_handOn _)
    unfold State.dropProvisional
    rw [hp]
    refine ⟨⟨fun c => ?_, fun d => ?_, by simp [State.freeNotice]⟩, fun m hm => Or.inl ?_⟩
    · simp [State.cellUses, State.freeNotice, hp]; omega
    · simp [State.descUses, State.freeNotice, hp]; omega
    · simp only [State.stores, State.storedNotices, State.freeNotice, Option.toList_none, List.append_nil,
        List.mem_append] at hm ⊢
      exact hm.imp_left Or.inl
  · exact SameStorage.refl s

theorem SameStorage_discardReceive (s : State) : SameStorage s s.discardReceive := by
  rw [State.discardReceive_eq]
  refine ⟨⟨fun c => ?_, fun d => ?_, rfl⟩, fun m hm => Or.inl ?_⟩
  · simp [State.cellUses, State.storedNotices]; omega
  · simp [State.descUses, State.storedNotices]; omega
  · exact Or.inr (by simpa [State.stores, State.storedNotices] using hm)

/-- A claim: the cells and the descriptor leave the free lists for the notice (R62). -/
theorem uses_storeNotice {s t : State} {n : RxNotice} {number : LineNo} {originator : StationNo} {topic : Topic}
    {payload : List Byte} {own : Bool} {tag : Option Tag} {replay : Bool}
    (h : s.storeNotice number originator topic payload own tag replay = (n, t)) (hd : s.pool.freeDescs ≠ []) :
    (∀ c, t.cellUses c + n.chain.count c = s.cellUses c)
      ∧ (∀ d, t.descUses d + (if n.desc = d then 1 else 0) = s.descUses d)
      ∧ t.stn.config = s.stn.config ∧ t.commit = s.commit := by
  obtain ⟨rfl, rfl⟩ := State.storeNotice_eq h
  refine ⟨fun c => ?_, fun d => ?_, rfl, rfl⟩
  · have := List.take_append_drop (cellsFor payload.length) s.pool.freeCells
    have h1 : s.pool.freeCells.count c = (s.pool.freeCells.take (cellsFor payload.length)).count c
        + (s.pool.freeCells.drop (cellsFor payload.length)).count c := by
      rw [← List.count_append, this]
    simp only [State.cellUses]; omega
  · cases hf : s.pool.freeDescs with
    | nil => exact absurd hf hd
    | cons x xs => simp [State.descUses, hf, List.count_cons]; omega

/-- A claim that finds its cells makes a chain of the payload's length (R57, R62). -/
theorem storeNotice_sized {s t : State} {n : RxNotice} {number : LineNo} {originator : StationNo} {topic : Topic}
    {payload : List Byte} {own : Bool} {tag : Option Tag} {replay : Bool}
    (h : s.storeNotice number originator topic payload own tag replay = (n, t))
    (hc : cellsFor payload.length ≤ s.pool.freeCells.length) (hl : payload.length ≤ 64) : n.sized := by
  obtain ⟨rfl, -⟩ := State.storeNotice_eq h
  exact ⟨by simpa using hc, hl⟩

/-- A notice claimed from the free lists and made the provisional one, none being there (R37, R41, R46). -/
theorem SameUses_claimProvisional {s t u : State} {n : RxNotice} {number : LineNo} {originator : StationNo}
    {topic : Topic} {payload : List Byte} {own : Bool} {tag : Option Tag} {replay : Bool}
    (h : s.storeNotice number originator topic payload own tag replay = (n, t)) (hd : s.pool.freeDescs ≠ [])
    (hp : s.commit.provisional = none)
    (hu : u.pool = t.pool ∧ u.rx = t.rx ∧ u.commit.provisional = some n ∧ u.stn.config = t.stn.config) : SameUses s u := by
  obtain ⟨h1, h2, h3, h4⟩ := uses_storeNotice h hd
  refine ⟨fun c => ?_, fun d => ?_, by rw [hu.2.2.2, h3]⟩
  · rw [← h1 c]; simp [State.cellUses, hu.1, hu.2.1, hu.2.2.1, h4, hp]; omega
  · rw [← h2 d]; simp [State.descUses, hu.1, hu.2.1, hu.2.2.1, h4, hp, List.count_cons]; omega

theorem SameStorage_claimProvisional {s t u : State} {n : RxNotice} {number : LineNo} {originator : StationNo}
    {topic : Topic} {payload : List Byte} {own : Bool} {tag : Option Tag} {replay : Bool}
    (h : s.storeNotice number originator topic payload own tag replay = (n, t)) (hd : s.pool.freeDescs ≠ [])
    (hc : cellsFor payload.length ≤ s.pool.freeCells.length) (hl : payload.length ≤ 64)
    (hp : s.commit.provisional = none)
    (hu : u.pool = t.pool ∧ u.rx = t.rx ∧ u.commit.provisional = some n ∧ u.stn.config = t.stn.config) :
    SameStorage s u := by
  refine ⟨SameUses_claimProvisional h hd hp hu, fun m hm => ?_⟩
  have ht : t.rx = s.rx := by rw [(State.storeNotice_eq h).2]
  simp only [State.stores, State.storedNotices, hu.2.1, hu.2.2.1, ht, Option.toList_some, List.mem_append,
    List.mem_singleton] at hm ⊢
  rcases hm with (hm | rfl) | hm
  · exact Or.inl (Or.inl (Or.inl hm))
  · exact Or.inr (storeNotice_sized h hc hl)
  · exact Or.inl (Or.inr hm)

theorem perm_insertHeld (st : LineNo) (n : RxNotice) (l : List RxNotice) : (insertHeld st n l).Perm (n :: l) := by
  induction l with
  | nil => simp [insertHeld]
  | cons a l ih =>
    unfold insertHeld
    split
    · exact List.Perm.refl _
    · exact (ih.cons a).trans (List.Perm.swap n a l)

/-- A notice enters the hold set: its cells and its descriptor are in it once more. -/
theorem uses_hold (s : State) (n : RxNotice) :
    (∀ c, (s.hold n).cellUses c = s.cellUses c + n.chain.count c)
      ∧ (∀ d, (s.hold n).descUses d = s.descUses d + (if n.desc = d then 1 else 0))
      ∧ (s.hold n).stn.config = s.stn.config := by
  have hp := perm_insertHeld s.rx.settled n s.rx.holdSet
  refine ⟨fun c => ?_, fun d => ?_, by simp [State.hold]⟩
  · have := (hp.flatMap_right (fun m => m.chain)).count_eq c
    simp [State.cellUses, State.hold] at this ⊢; omega
  · have := (hp.map (fun m => m.desc)).count_eq d
    simp [State.descUses, State.hold, List.count_cons] at this ⊢; omega

theorem State.stores_hold {s : State} {n m : RxNotice} (h : (s.hold n).stores m) : s.stores m ∨ m = n := by
  replace h : m ∈ insertHeld s.rx.settled n s.rx.holdSet ++ s.commit.provisional.toList
    ∨ DeliveryRecord.notice m ∈ s.rx.queue := h
  simp only [State.stores, State.storedNotices, List.mem_append, (perm_insertHeld _ _ _).mem_iff, List.mem_cons] at h ⊢
  rcases h with ((h | h) | h) | h <;> simp [h]

/-- A notice claimed and put into the hold set (R97). -/
theorem SameStorage_claimHold {s t : State} {n : RxNotice} {number : LineNo} {originator : StationNo}
    {topic : Topic} {payload : List Byte} {own : Bool} {tag : Option Tag} {replay : Bool}
    (h : s.storeNotice number originator topic payload own tag replay = (n, t)) (hd : s.pool.freeDescs ≠ [])
    (hc : cellsFor payload.length ≤ s.pool.freeCells.length) (hl : payload.length ≤ 64) :
    SameStorage s (t.hold n) := by
  obtain ⟨h1, h2, h3, h4⟩ := uses_storeNotice h hd
  obtain ⟨k1, k2, k3⟩ := uses_hold t n
  refine ⟨⟨fun c => by rw [k1, h1], fun d => by rw [k2, h2], by rw [k3, h3]⟩, fun m hm => ?_⟩
  rcases State.stores_hold hm with hm | rfl
  · refine Or.inl ?_
    have ht : t.rx = s.rx := by rw [(State.storeNotice_eq h).2]
    unfold State.stores State.storedNotices at hm ⊢
    rwa [ht, h4] at hm
  · exact Or.inr (storeNotice_sized h hc hl)

theorem SameStorage_makeKnown (s : State) (n : LineNo) : SameStorage s (s.makeKnown n) :=
  SameStorage_of_eq rfl rfl rfl rfl rfl rfl

/-! ### The count -/

theorem SameStorage_applyHorizon (s : State) : SameStorage s s.applyHorizon :=
  SameStorage_of_eq (by simp) (by simp) (by simp) (by simp) (by simp) (by simp)

theorem SameStorage_handRange (s : State) (a z : LineNo) : SameStorage s (s.handRange a z) := by
  unfold State.handRange
  split
  · exact SameStorage_of_eq rfl rfl rfl rfl rfl rfl
  · split
    · refine SameStorage.trans ?_ (SameStorage_advance _)
      exact SameStorage_of_eq (by simp) (by simp) (by simp) (by simp) (by simp) (by simp)
    · exact SameStorage_of_eq rfl rfl rfl rfl rfl rfl

theorem SameStorage_raiseCount (s : State) (n l : LineNo) : SameStorage s (s.raiseCount n l) := by
  have h1 : ∀ u : State, u.pool = s.pool → u.rx.holdSet = s.rx.holdSet → u.rx.queue = s.rx.queue →
      u.commit.provisional = s.commit.provisional → u.stn = s.stn → SameStorage s u := fun u a b c d e =>
    SameStorage_of_eq (by rw [a]) (by rw [a]) b c d (by rw [e])
  unfold State.raiseCount
  dsimp only
  split
  · exact (h1 _ rfl rfl rfl rfl rfl).trans (SameStorage_applyHorizon _)
  · split
    · split
      · refine SameStorage.trans ?_ (SameStorage_applyHorizon _)
        refine SameStorage.trans ?_ (SameStorage_handRange _ _ _)
        exact h1 _ rfl rfl rfl rfl rfl
      · refine SameStorage.trans ?_ (SameStorage_handRange _ _ _)
        refine SameStorage.trans ?_ (SameStorage_applyHorizon _)
        exact h1 _ rfl rfl rfl rfl rfl
    · refine SameStorage.trans ?_ (SameStorage_handRange _ _ _)
      refine SameStorage.trans ?_ (SameStorage_applyHorizon _)
      exact h1 _ rfl rfl rfl rfl rfl

theorem SameStorage_setCount (s : State) (n : LineNo) : SameStorage s (s.setCount n) :=
  SameStorage_of_eq (by simp) (by simp) (by simp) (by simp) (by simp) (by simp)

/-! ### Passages between station states -/

theorem SameStorage_resync (s : State) (r : BaseReason) (c : StateCause) (n : LineNo) :
    SameStorage s (s.resync r c n) := by
  refine SameStorage.trans (t := ((s.discardReceive.setCount n).emitBase r n).handOn) ?_ ?_
  · exact (((SameStorage_discardReceive s).trans (SameStorage_setCount _ n)).trans (SameStorage_emitBase _ r n)).trans
      (SameStorage_handOn _)
  · exact SameStorage_of_eq (by simp [State.resync]) (by simp [State.resync]) (by simp [State.resync])
      (by simp [State.resync]) (by simp [State.resync]) (by simp [State.resync])

theorem SameStorage_spanResync (s : State) (n : LineNo) : SameStorage s (s.spanResync n) := by
  unfold State.spanResync
  split
  · exact SameStorage_resync _ _ _ _
  · exact SameStorage.refl s

theorem SameStorage_adopt (s : State) (n : LineNo) : SameStorage s (s.adopt n) := by
  refine SameStorage.trans (t := (s.setCount n).emitBase .joined n) ?_ ?_
  · exact (SameStorage_setCount _ n).trans (SameStorage_emitBase _ _ n)
  · exact SameStorage_of_eq (by simp [State.adopt]) (by simp [State.adopt]) (by simp [State.adopt])
      (by simp [State.adopt]) (by simp [State.adopt]) (by simp [State.adopt])

theorem SameStorage_found (s : State) : SameStorage s s.found := by
  refine SameStorage.trans (t := (s.setCount 0).emitBase .founded 0) ?_ ?_
  · exact (SameStorage_setCount _ 0).trans (SameStorage_emitBase _ _ 0)
  · exact SameStorage_of_eq (by simp [State.found]) (by simp [State.found]) (by simp [State.found])
      (by simp [State.found]) (by simp [State.found]) (by simp [State.found])

theorem SameStorage_joinFailure (s : State) : SameStorage s s.joinFailure := by
  refine SameStorage.trans (t := (s.postReport (.joinUnanswered s.stn.joinBeacons)).discardReceive.handOn) ?_ ?_
  · refine SameStorage.trans ?_ (SameStorage_handOn _)
    refine SameStorage.trans ?_ (SameStorage_discardReceive _)
    exact SameStorage_of_eq (by simp) (by simp) (by simp) (by simp) (by simp) (by simp)
  · exact SameStorage_of_eq (by simp [State.joinFailure]) (by simp [State.joinFailure]) (by simp [State.joinFailure])
      (by simp [State.joinFailure]) (by simp [State.joinFailure]) (by simp [State.joinFailure])

theorem SameStorage_quit (s : State) : SameStorage s s.quit := by
  refine SameStorage.trans (t := s.discardSend.discardReceive.handOn) ?_ ?_
  · refine SameStorage.trans ?_ (SameStorage_handOn _)
    refine SameStorage.trans ?_ (SameStorage_discardReceive _)
    exact SameStorage_of_eq (by simp) (by simp) (by simp) (by simp) (by simp) (by simp)
  · exact SameStorage_of_eq (by simp [State.quit]) (by simp [State.quit]) (by simp [State.quit])
      (by simp [State.quit]) (by simp [State.quit]) (by simp [State.quit])

theorem SameStorage_enterIdle (s : State) (c : StateCause) : SameStorage s (s.enterIdle c) :=
  (SameStorage_quit s).trans (SameStorage_of_eq (by simp [State.enterIdle]) (by simp [State.enterIdle])
    (by simp [State.enterIdle]) (by simp [State.enterIdle]) (by simp [State.enterIdle]) (by simp [State.enterIdle]))

theorem SameStorage_halt (s : State) : SameStorage s s.halt := by
  refine SameStorage.trans (t := (s.postReport (.duplicateId s.line.id)).quit) ?_ ?_
  · refine SameStorage.trans ?_ (SameStorage_quit _)
    exact SameStorage_of_eq (by simp) (by simp) (by simp) (by simp) (by simp) (by simp)
  · exact SameStorage_of_eq (by simp [State.halt]) (by simp [State.halt]) (by simp [State.halt]) (by simp [State.halt])
      (by simp [State.halt]) (by simp [State.halt])

theorem SameStorage_takeHeld (s : State) : SameStorage s s.takeHeld := by
  unfold State.takeHeld
  split
  · exact SameStorage_of_eq (by simp) (by simp) (by simp) (by simp) (by simp) (by simp)
  · split
    · exact SameStorage_joinFailure s
    · exact SameStorage.refl s

theorem SameStorage_headerMember (s : State) (h : Header) (l : Bool) : SameStorage s (s.headerMember h l) :=
  SameStorage_of_eq (by simp) (by simp) (by simp) (by simp) (by simp) (by simp)

theorem SameStorage_headerProcess (s : State) (h : Header) (l : Bool) : SameStorage s (s.headerProcess h l).1 := by
  refine (SameStorage_headerMember s h l).trans ?_
  unfold State.headerProcess
  dsimp only
  split
  · exact SameStorage_spanResync _ _
  · split
    · exact SameStorage_raiseCount _ _ _
    · exact SameStorage.refl _

/-! ### Commits, replays and TAKE -/

theorem SameStorage_takeCommitted (s : State) (n : LineNo) : SameStorage s (s.takeCommitted n) := by
  obtain ⟨p, hp, e⟩ | ⟨-, e⟩ := s.takeCommitted_cases n <;> rw [e]
  · refine SameStorage.trans ?_ (SameStorage_advance _)
    refine SameStorage.trans ?_ (SameStorage_raiseCount _ _ _)
    obtain ⟨k1, k2, k3⟩ := uses_hold { s with commit := { s.commit with provisional := none } } p
    refine ⟨⟨fun c => ?_, fun d => ?_, by rw [k3]⟩, fun m hm => Or.inl ?_⟩
    · rw [k1]; simp [State.cellUses, hp]; omega
    · rw [k2]; simp [State.descUses, hp, List.count_cons]; omega
    · rcases State.stores_hold hm with hm | rfl <;>
        simp only [State.stores, State.storedNotices, hp, Option.toList_none, Option.toList_some, List.append_nil,
          List.mem_append, List.mem_singleton] at *
      · exact hm.imp_left Or.inl
      · exact Or.inl (Or.inr trivial)
  · refine SameStorage.trans ?_ (SameStorage_advance _)
    exact (SameStorage_makeKnown s n).trans (SameStorage_raiseCount _ _ _)

theorem SameStorage_refuseCommitted (s : State) (n : LineNo) : SameStorage s (s.refuseCommitted n) := by
  unfold State.refuseCommitted
  split
  · exact SameStorage_spanResync _ _
  · exact SameStorage_freeProvisional _

theorem SameStorage_riseAndAdvance (s : State) (n : LineNo) : SameStorage s (s.riseAndAdvance n) := by
  unfold State.riseAndAdvance
  refine SameStorage.trans ?_ (SameStorage_advance _)
  split
  · exact SameStorage_raiseCount _ _ _
  · exact SameStorage.refl s

theorem SameStorage_removeHead (s : State) : SameStorage s s.removeHead := by
  unfold State.removeHead
  split
  · exact SameStorage.refl s
  · rename_i r rest hq
    dsimp only
    refine SameStorage.trans ?_ (SameStorage_handOn _)
    refine ⟨⟨fun c => ?_, fun d => ?_, by cases r <;> rfl⟩, fun m hm => Or.inl ?_⟩
    · cases r <;> simp [State.cellUses, State.freeNotice, State.freeDesc, hq, DeliveryRecord.cells]
      omega
    · cases r <;> simp [State.descUses, State.freeNotice, State.freeDesc, hq, DeliveryRecord.descriptor,
        List.count_cons] <;> omega
    · have h1 : m ∈ s.storedNotices ∨ DeliveryRecord.notice m ∈ rest := by cases r <;> exact hm
      exact h1.imp_right fun h2 => by rw [hq]; exact List.mem_cons_of_mem _ h2

/-! ### The provisional notice -/

theorem ProvisionalSound_of_none {s : State} (h : s.commit.provisional = none) : ProvisionalSound s :=
  fun hc => absurd h hc

theorem ProvisionalSound.congr {s t : State} (h : ProvisionalSound s) (h1 : t.commit.provisional = s.commit.provisional)
    (h2 : t.line.ownFrame = s.line.ownFrame) (h3 : t.line.window = s.line.window) (h4 : t.pins = s.pins) :
    ProvisionalSound t := by
  unfold ProvisionalSound at *; rw [h1, h2, h3, h4]; exact h

/-- Without an own NOTICE frame and without a receiver's window there is no provisional notice (R37). -/
theorem ProvisionalSound.none_of {s : State} (h : ProvisionalSound s) (hr : s.pins.resetLow = false)
    (h1 : ∀ f tag, s.line.ownFrame = some f → f.candidate ≠ .notice tag)
    (h2 : ∀ w, s.line.window = some w → w.role ≠ .receiver) : s.commit.provisional = none := by
  by_contra hc
  rcases h hc hr with ⟨f, tag, hf, ht⟩ | ⟨w, hw, hwr⟩
  · exact h1 f tag hf ht
  · exact h2 w hw hwr

/-- At a station that can end a frame no notice is provisional (R37, R38). -/
theorem ProvisionalSound.none_of_receiving {s : State} (h : ProvisionalSound s) (hr : s.pins.resetLow = false)
    (hrec : s.receiving = true) : s.commit.provisional = none := by
  simp only [State.receiving, Bool.and_eq_true, Option.isNone_iff_eq_none] at hrec
  exact h.none_of hr (by simp [hrec.1.2]) (by simp [hrec.2])

theorem State.spanResync_provisional {s : State} (h : s.commit.provisional = none) (n : LineNo) :
    (s.spanResync n).commit.provisional = none := by
  unfold State.spanResync
  split
  · rw [(State.resync_spec _ _ _ _).2.2.2.2.2.1]
  · exact h

/-- Header processing makes no notice provisional. -/
theorem State.headerProcess_provisional {s : State} (h : s.commit.provisional = none) (hd : Header) (l : Bool) :
    (s.headerProcess hd l).1.commit.provisional = none := by
  unfold State.headerProcess
  dsimp only
  split
  · exact State.spanResync_provisional (by simpa using h) _
  · split
    · simpa using h
    · simpa using h

/-- After a commit, refused or not, no notice is provisional (R42, R43, R45). -/
theorem State.takeCommitted_provisional (s : State) (n : LineNo) : (s.takeCommitted n).commit.provisional = none := by
  obtain ⟨p, hp, e⟩ | ⟨hp, e⟩ := s.takeCommitted_cases n <;> rw [e]
  · simp [State.hold]
  · simpa using hp

theorem State.refuseCommitted_provisional (s : State) (n : LineNo) : (s.refuseCommitted n).commit.provisional = none := by
  unfold State.refuseCommitted
  split
  · rename_i h
    unfold State.spanResync
    rw [if_pos h, (State.resync_spec _ _ _ _).2.2.2.2.2.1]
  · rw [(State.freeProvisional_spec s).2.1]

theorem State.takeHeld_provisional {s : State} (h : s.commit.provisional = none) : s.takeHeld.commit.provisional = none := by
  unfold State.takeHeld
  split
  · simpa using h
  · split
    · simp [State.joinFailure, State.discardReceive_eq]
    · exact h

end Sys2Proof.Machine
end

