-- ==== Sys2Proof/Tests/Slice0.lean ====
section
/-!
SUPPORT. The model's own tests: ill-formed commands refused; the line's words of the manual; one step of each command on a
small state; for each statement, states and operands that meet its hypotheses, clause by clause.
-/

namespace Sys2Proof.Tests

open Sys2Proof.Machine

set_option Elab.async false

/-! ### Well-formed commands -/

theorem test_wf_start : Instr.wf (.start (List.replicate 17 0)) = false ∧ Instr.wf (.start (List.replicate 16 0)) = true := by
  decide
theorem test_wf_word : Instr.wf (.word [1, 2, 3]) = false ∧ Instr.wf (.word [1, 2]) = true := by decide
theorem test_wf_post : Instr.wf (.post [0, 1, 9, 9]) = false ∧ Instr.wf (.post [0, 65, 9]) = false
    ∧ Instr.wf (.post [0, 1, 9]) = true := by decide
theorem test_wf_unknown : Instr.wf (.unknownCode 0x10) = false ∧ Instr.wf (.unknownCode 0x11) = true := by decide

/-- Station 1, JOINING, 40 of 40: a RESEND that asks for 38 and on. -/
def resend1 : Frame := .resend { senderState := .joining, sender := 1, count := 40, settled := 40 } (.openFrom 38)

theorem test_wf_frames : Instr.wf (.noticeFrameReceived (frameChars resend1)) = false
    ∧ Instr.wf (.replayReceived (frameChars resend1)) = false ∧ Instr.wf (.beaconReceived (frameChars resend1)) = false
    ∧ Instr.wf (.resendReceived (frameChars resend1)) = true ∧ Instr.wf (.resendReceived []) = false
    ∧ Instr.wf (.checkFailure (frameChars resend1)) = false ∧ Instr.wf (.checkFailure []) = false
    ∧ Instr.wf (.checkFailure ((frameChars resend1).take 12)) = true := by decide +kernel

/-! ### The port's bits and its command byte -/

theorem test_portBits : portBits 0x31 = [false, false, true, true, false, false, false, true]
    ∧ byteOfPortBits [false, false, true, true, false, false, false, true] = 0x31
    ∧ portBytes (portBits 0x31 ++ [true, true]) = [0x31] := by decide

/-- A POST of two bytes on topic 3, then two whole response bytes and one bit; a transaction of the filler byte alone. -/
theorem test_transaction : transactionEvents (([0xFF, 0x20, 3, 2, 8, 9, 0, 0] : List Byte).flatMap portBits ++ [true])
      = [.csFall, .post [3, 2, 8, 9], .csRise 2]
    ∧ transactionEvents (portBits 0xFF) = [.csFall, .csRise 0] := by decide +kernel

/-- The code table of R185. -/
theorem test_commandCodes : ([0x10, 0x20, 0x30, 0x31, 0x40, 0x50, 0x51, 0x60, 0x70, 0x11] : List Byte).map (commandOf · [])
    = [.start [], .post [], .take, .peek, .report, .status, .members, .word [], .leave, .unknownCode 0x11] := by decide

/-! ### The notice line's words -/

/-- The example of R183: station 5, ACTIVE, count and settled point 40, a NOTICE on topic 3 with 20 payload bytes. -/
def exampleNotice : Frame := .notice { senderState := .active, sender := 5, count := 40, settled := 40 }
  { number := 41, topic := 3, payload := List.replicate 20 0xAA }

theorem test_notice_bytes : (frameBytes exampleNotice).take 10
      = [0x11, 0x65, 0x00, 0x28, 0x00, 0x28, 0x00, 0x29, 0x03, 0x14] ∧ (frameBytes exampleNotice).length = 32 := by
  decide +kernel
theorem test_notice_read : readFrame (frameChars exampleNotice) = some exampleNotice := by decide +kernel
theorem test_notice_damaged : readFrame ((frameChars exampleNotice).set 12 { data := 0, framingError := false }) = none
    ∧ readFrame ((frameChars exampleNotice).set 12 { data := 0xAA, framingError := true }) = none := by decide +kernel
/-- The CRC of R20 over the digits 1 to 9. -/
theorem test_crc : crc16 [0x31, 0x32, 0x33, 0x34, 0x35, 0x36, 0x37, 0x38, 0x39] = 0x29B1 := by decide +kernel
/-- A mark of the objection window, read as a character: 00h with a framing error (R184). -/
theorem test_mark_level : readChar (List.replicate 10 true) = some { data := 0, framingError := true } := by decide
theorem test_char_levels : charLevels 0x65 = [true, false, true, false, true, true, false, false, true, false] := by decide
theorem test_rate : characterTimeNs 0 = 40000 ∧ characterTimeNs 3 = 2500 := by decide

/-! ### Small states -/

/-- The least configuration, every topic subscribed, no attention. -/
def config1 : StartConfig :=
  { sendSize := 32, topics := 0xFFFFFFFF, beaconInterval := 10, presenceMultiple := 3, listenMultiple := 2
    repairInterval := 1, repairLimit := 1, backlogLimit := 0, roomLimit := 0
    attention := { delivery := false, backlog := false, room := false, report := false } }

/-- A station in this state, its storage free, between frames on a line that was idle. -/
def station (st : StationState) : State := { State.reset with
  stn := { State.reset.stn with state := st, config := some config1 }
  pool := { State.reset.pool with freeCells := (List.range 224).map (32 + ·) }
  line := { State.reset.line with timing := .busy, ready := true } }

/-- A transaction is open and its command byte has not come. -/
def asked (s : State) : State := { s with port := { s.port with link := .transaction 0 .awaiting } }

/-- A command was decided with this response. -/
def answered (response : List Byte) (e : RiseEffect) (s : State) : State :=
  { s with port := { s.port with link := .transaction 0 (.decided 0 response e) } }

/-- The station's own slot begins on an idle line. -/
def atSlot (s : State) : State := { s with line := { s.line with timing := .idle 0 } }

/-- An outbound notice without payload. -/
def outbound1 : SendNotice :=
  { number := none, topic := 0, length := 0, firstCell := 0, desc := 0, tag := 0, marked := false }

/-- A retained notice at line number 0, marked for a REPLAY. -/
def retained1 : SendNotice :=
  { number := some 0, topic := 0, length := 0, firstCell := 0, desc := 0, tag := 0, marked := true }

/-- One notice to send. -/
def withOutbound (s : State) : State := { s with send := { s.send with outbound := [outbound1] } }

/-- One notice retained. -/
def withRetained (s : State) : State := { s with send := { s.send with retained := [retained1] } }

/-- A member of the table. -/
def member1 : Member :=
  { station := 1, state := .active, settled := 0, presence := .running 30, includedMe := false, word := none }

/-- Station 1 is a member. -/
def withMember (s : State) : State := { s with members := [member1] }

/-- A header of station 1. -/
def header1 (st : StationState) (count : LineNo) : Header :=
  { senderState := st, sender := 1, count := count, settled := 0 }

/-- A notice body without payload. -/
def body1 (n : LineNo) : NoticeBody := { number := n, topic := 0, payload := [] }

/-- A frame of this station is on the line. -/
def driving (c : Candidate) (f : Frame) (s : State) : State :=
  { s with line := { s.line with ownFrame := some { candidate := c, frame := f, sent := false }, driving := true } }

/-- Its own NOTICE frame. -/
def ownNotice : Frame := .notice { senderState := .active, sender := 0, count := 0, settled := 0 } (body1 1)

/-- A notice stored in cell 32 under descriptor 0. -/
def stored1 (n : LineNo) : RxNotice :=
  { number := n, originator := 1, topic := 0, length := 0, own := false, tag := none, replay := false, desc := 0
    chain := [32] }

/-- That storage is not free. -/
def lessOne (s : State) : State := { s with pool := { s.pool with
  freeCells := s.pool.freeCells.tail, freeDescs := s.pool.freeDescs.tail } }

/-- With a provisional notice at line number 1. -/
def withProvisional (s : State) : State :=
  { lessOne s with commit := { s.commit with provisional := some (stored1 1) } }

/-- A window in this role after a NOTICE frame of station 1 with count `c` and number c + 1, FULL sampled as `full`. -/
def window1 (role : WindowRole) (c : LineNo) (full : Bool) : Window :=
  { role := role, header := header1 .active c, number := c + 1, markFull := false, markStale := false, turnGap := false
    full := full, stale := false }

/-- With that window open. -/
def inWindow (w : Window) (s : State) : State := { s with line := { s.line with window := some w } }

/-- One position, 1, is missing and in a gap entry of this state. -/
def gap1 (g : GapState) : GapEntry := { id := 0, first := 1, last := 1, attempts := 1, state := g, timer := .stopped }

/-- That gap, at count 1. -/
def withGap (g : GapState) (s : State) : State :=
  { s with rx := { s.rx with count := 1 }, gaps := [gap1 g], nextGapId := 1 }

/-- The state after a command. -/
def after (c : Instr) (s : State) : State :=
  match exec c s with
  | .next t => t
  | .fault _ => s
  | .refused _ => s

/-! ### The pins -/

/-- DE and TXD over the first character of an own frame; before the frame, and when it is sent, DE is released and TXD high;
FULL marked; and no mark while the turn gap is sampled (R16, R32). -/
theorem test_linePins : (let s := driving (.notice 0) ownNotice (station .active);
      (List.range 10).map (fun b => (s.linePins b).de) = charLevels 0x11
        ∧ s.linePins 0 = { de := true, txd := false } ∧ s.linePins 9 = { de := false, txd := true }
        ∧ (after .frameSent s).linePins 0 = { de := false, txd := true })
    ∧ (let s := inWindow { window1 .receiver 0 false with markFull := true } (station .active);
      (after (.windowPosition .full false) s).linePins 40 = { de := true, txd := false }
        ∧ (after (.windowPosition .turnGap false) s).linePins 40 = { de := false, txd := true }
        ∧ s.linePins 40 = { de := false, txd := true }) := by decide +kernel

/-- Two argument bytes and a response of two bytes: the bytes of MISO from the first on (R165, R185). -/
theorem test_misoBytes : (List.range 7).map (fun k => PortLink.misoByte (.transaction 9 (.decided 2 [7, 8] .nothing)) (k + 1))
    = [some 9, some 0, some 0, some 0, some 7, some 8, some 0] := by decide +kernel

/-! ### One step of each command -/

/-- The START record of `config1` with status word 1234h. -/
def startBytes : List Byte :=
  [32, 0xFF, 0xFF, 0xFF, 0xFF, 0, 10, 3, 2, 1, 1, 0, 0, 0, 0x12, 0x34]

theorem test_powerOnReset : (after (.powerOnReset 7 2) (station .active)).line.id = 7
    ∧ (after (.powerOnReset 7 2) (station .active)).stn.state = .idle := by decide +kernel
theorem test_resetAsserted : (after .resetAsserted (station .active)).pins.resetLow = true
    ∧ after .lineIdle (after .resetAsserted (station .active)) = after .resetAsserted (station .active) := by decide +kernel
theorem test_resetReleased : after (.resetReleased 0 0) (after .resetAsserted (station .active)) = State.reset := by
  decide +kernel
theorem test_csFall : (after .csFall (station .active)).port.link = .transaction 0x03 .awaiting := by decide +kernel
theorem test_csRise : (after (.csRise 0) (asked (station .active))) = station .active := by decide +kernel
theorem test_start : (after (.start startBytes) (asked State.reset)).stn.config = some config1
    ∧ (after (.start startBytes) (asked State.reset)).stn.word = 0x1234 := by decide +kernel
theorem test_start_badConfig : (after (.start (startBytes.set 0 33)) (asked State.reset)).port.result = ⟨.badConfig, none⟩ := by
  decide +kernel
theorem test_post : (after (.post [3, 2, 8, 9]) (asked (station .active))).send.outbound
      = [{ outbound1 with topic := 3, length := 2 }]
    ∧ (after (.post [3, 2, 8, 9]) (asked (station .active))).sendPayload { outbound1 with topic := 3, length := 2 } = [8, 9] := by
  decide +kernel
theorem test_post_badLen : (after (.post [32, 0]) (asked (station .active))).port.result = ⟨.badLen, none⟩ := by decide +kernel
theorem test_take : (after .take (asked { station .active with rx := { State.reset.rx with queue := [.lost 1 2 0] } })).port.link
    = .transaction 0 (.decided 0 [2, 4, 0, 1, 0, 2] .takeHead) := by decide +kernel
theorem test_take_rise : (after (.csRise 6) (answered [2, 4, 0, 1, 0, 2] .takeHead
      { station .active with rx := { State.reset.rx with queue := [.lost 1 2 0] } })).rx.queue = [] := by decide +kernel
theorem test_peek : (after .peek (asked (station .active))).port.link = .transaction 0 (.decided 0 [0, 0] .nothing) := by
  decide +kernel
theorem test_report : (after .report (asked ((station .active).postReport (.congested 16)))).port.link
    = .transaction 0 (.decided 0 [7, 1, 16] .reportHead) := by decide +kernel
theorem test_status : ((station .active).statusRecord).length = 38
    ∧ (after .status (asked { station .active with rx := { State.reset.rx with backlog := true } })).rx.backlog = false := by
  decide +kernel
theorem test_members : (after .members (asked (withMember (station .active)))).port.link
    = .transaction 0 (.decided 0 [1, 1, 3, 0, 0, 0, 0] .nothing) := by decide +kernel
theorem test_word : (after (.word [0x12, 0x34]) (asked (station .listen))).stn.word = 0x1234 := by decide +kernel
theorem test_leave : (after .leave (asked (station .active))).stn.state = .leaving
    ∧ (after .leave (asked (station .listen))).stn.state = .idle := by decide +kernel
/-- On an idle line the LEAVE beacon waits for the next idle moment (R144), past the station's slots till then. -/
theorem test_leave_idleLine : let s := after .leave (asked (atSlot (station .active)));
    s.line.timing = .awaitsIdle ∧ after (.slotBegins 0 false) s = s
      ∧ (after (.slotBegins 0 false) (after .lineIdle (after (.lineActivity true) s))).line.ownFrame.map (·.candidate)
        = some .dueBeacon := by decide +kernel
theorem test_unknownCode : (after (.unknownCode 0xFF) (asked (station .active))).port.result = ⟨.badCommand, none⟩ := by
  decide +kernel
theorem test_lineIdle : (after .lineIdle { station .active with line :=
    { (station .active).line with id := 3, rotationBase := 5 } }).line.timing = .idle 30 := by decide +kernel
theorem test_lineActivity : (after (.lineActivity false) (atSlot (station .active))).line.ready = false := by decide +kernel
/-- Noise after a slot that was dominant: no character begun now starts a frame (R18). -/
theorem test_lineActivity_dominant : (after (.lineActivity false) (after (.slotBegins 0 true) (atSlot (station .active)))
    ).line.ready = false := by decide +kernel
/-- Noise between the characters of a frame, or after a collision, ends no frame (R17, R18). -/
theorem test_lineActivity_busy : (∀ b, after (.lineActivity b) (station .active) = station .active)
    ∧ (let s := after .collision (driving (.notice 0) ownNotice (station .active)); after (.lineActivity false) s = s) := by
  decide +kernel
theorem test_slotBegins : (after (.slotBegins 0 false) (atSlot (withOutbound (station .active)))).line.ownFrame
    = some { candidate := .notice 0, frame := ownNotice, sent := false } := by decide +kernel
theorem test_frameSent : ((after .frameSent (driving (.notice 0) ownNotice (station .active))).line.window).map (·.role)
    = some .sender := by decide +kernel
theorem test_collision : (after .collision (driving (.notice 0) ownNotice (withOutbound (station .active)))).send.outbound
      = [outbound1]
    ∧ (after .collision (driving (.notice 0) ownNotice (withOutbound (station .active)))).line.yield = true := by decide +kernel
theorem test_checkFailure : (after (.checkFailure []) (station .active)).line.displaced = true := by decide +kernel
theorem test_noticeFrame : (after (.noticeFrameReceived (frameChars (.notice (header1 .active 0) (body1 1)))) (station .active)
    ).commit.provisional = some (stored1 1) := by decide +kernel
theorem test_replay : (after (.replayReceived (frameChars (.replay (header1 .active 1) (body1 1)))) (station .active)).rx.queue
    = [.notice { stored1 1 with replay := true }] := by decide +kernel
theorem test_resend : (after (.resendReceived (frameChars (.resend (header1 .active 0) (.closed 0 0))))
    (withRetained (station .active))).send.retained = [retained1] := by decide +kernel
theorem test_beacon : (after (.beaconReceived (frameChars (.beacon (header1 .active 0) .periodic 1 5))) (station .joining)
    ).stn.state = .active := by decide +kernel
theorem test_windowPosition : (after (.windowPosition .full true) (inWindow (window1 .receiver 0 false) (station .active))
    ).line.window = some (window1 .receiver 0 true) := by decide +kernel
theorem test_windowEndReceiver : (after .windowEndReceiver (inWindow (window1 .receiver 0 false)
    (withProvisional (station .active)))).rx.queue = [.notice (stored1 1)] := by decide +kernel
theorem test_windowEndSender : (after .windowEndSender (inWindow (window1 .sender 0 false)
    (withMember (withOutbound (station .active))))).send.retained = [{ outbound1 with number := some 1 }] := by decide +kernel
theorem test_listenTimer : (after .listenTimerExpiry { station .listen with stn :=
    { (station .listen).stn with listenTimer := .running 20 } }).stn.state = .active := by decide +kernel
/-- Founded on an idle line: the first offer is at position 32 + own number (R139). -/
theorem test_found_idle : (after .listenTimerExpiry { station .listen with
    stn := { (station .listen).stn with listenTimer := .running 20 }
    line := { (station .listen).line with id := 7, timing := .idle 3 } }).line.timing = .idle 39 := by decide +kernel
theorem test_joinTimer : (after .joinTimerExpiry { station .joining with stn :=
    { (station .joining).stn with joinTimer := .running 80 } }).stn.state = .listen := by decide +kernel
theorem test_beaconTimer : (after .beaconTimerExpiry { station .active with stn :=
    { (station .active).stn with beaconTimer := .running 10 } }).stn.beaconDue = true := by decide +kernel
theorem test_repairTimer : (after (.repairTimerExpiry 1) (withGap .waiting (station .active))).rx.queue = [.lost 1 1 0] := by
  decide +kernel
theorem test_presenceTimer : (after (.presenceTimerExpiry 1) (withMember (station .active))).members = [] := by decide +kernel

/-! ### What the statements' hypotheses are met by -/

/-- ATTN# released with no cause in the attention set. -/
theorem live_of {s : State} (h : s.pins.resetLow = false ∧ s.pins.attnLow = false ∧ s.attentionWanted = false) : Live s := by
  unfold Live AttnFollows
  rw [h.1, h.2.1, h.2.2]; simp

/-- A receive side of which only the count and the gap table are not empty. -/
theorem order_of {s : State} (h : s.rx.known = 0 ∧ s.rx.holdSet = [] ∧ s.ahead s.rx.count ≤ 256
    ∧ (∀ e ∈ s.gaps, 1 ≤ s.ahead e.first ∧ s.ahead e.first ≤ s.ahead e.last ∧ s.ahead e.last ≤ s.ahead s.rx.count)
    ∧ s.gaps.Pairwise (fun a b => s.ahead a.last < s.ahead b.first ∧ a.id < b.id)
    ∧ (∀ e ∈ s.gaps, e.id < s.nextGapId) ∧ s.gaps.length ≤ 8) : OrderSound s := by
  obtain ⟨h1, h2, h3, h4, h5, h6, h7⟩ := h
  unfold OrderSound
  rw [h1, h2]
  exact ⟨h3, by simp, by simp, by simp, h4, h5, h6, h7⟩

/-- With no cause in the attention set ATTN# stays released, whatever else the state holds. -/
theorem live_quiet {s : State} (h1 : s.pins = { resetLow := false, attnLow := false })
    (h2 : s.cfg.attention = { delivery := false, backlog := false, room := false, report := false }) : Live s := by
  apply live_of
  rw [h1]
  simp [State.attentionWanted, State.deliveryCause, State.backlogCause, State.roomCause, State.reportCause, h2]

theorem live_station (st : StationState) : Live (station st) ∧ Live (asked (station st)) ∧ Live (atSlot (station st)) := by
  exact ⟨live_quiet rfl rfl, live_quiet rfl rfl, live_quiet rfl rfl⟩


/-! The queue, frames and cells. -/

theorem witness_EveryCommandCompletes : samplesStraps .csFall = false := by decide
theorem witness_SerialJudgements : unordered 0 32768 = true ∧ unordered 0 32767 = false ∧ unordered 0 32769 = false := by decide
theorem witness_CharactersAndTheCheck : (readFrame (frameChars exampleNotice)).isSome = true
    ∧ (readFrame (frameChars resend1)).isSome = true
    ∧ FieldsPass exampleNotice ∧ LaidOut exampleNotice (frameBody exampleNotice)
    ∧ FieldsPass (.resend (header1 .active 0) (.closed 1 32768)) ∧ ¬FieldsPass (.resend (header1 .active 0) (.closed 1 32769)) := by
  refine ⟨by decide +kernel, by decide +kernel, ⟨rfl, rfl, by decide⟩, rfl, ⟨Or.inr rfl, by decide⟩, fun h => ?_⟩
  exact absurd h.2 (by decide)

/-- One field out of its test in each kind: sender states, a NOTICE's and a REPLAY's number, an unordered pair, a kind not the
state's, a view with the sender, a payload of 65 (R18, R20). -/
theorem test_fieldsRefused : ∀ f ∈ [Frame.notice (header1 .joining 0) (body1 1), .notice (header1 .active 0) (body1 2),
      .replay (header1 .leaving 0) (body1 0), .replay (header1 .active 0) (body1 1), .resend (header1 .leaving 0) (.openFrom 0),
      .resend (header1 .active 0) (.closed 1 0), .resend (header1 .active 0) (.closed 1 32769),
      .beacon (header1 .active 0) .leave 0 0, .beacon (header1 .active 0) .periodic 2 0,
      .replay (header1 .active 0) { body1 0 with payload := List.replicate 65 0 }],
    Frame.valid f = false ∧ readFrame (frameChars f) = none := by decide +kernel

/-- Bits 7..1 of a RESEND's flags are ignored (R183). -/
theorem test_resendFlags : let body : List Byte := [0x21, 0x61, 0, 9, 0, 9, 0, 1, 0xFE, 0, 5];
    readFrame ((body ++ be16 (crc16 body)).map fun b => { data := b, framingError := false })
      = some (.resend { senderState := .active, sender := 1, count := 9, settled := 9 } (.closed 1 5)) := by decide +kernel
theorem witness_FramesReadBack :
    Frame.valid (.notice (header1 .active 65535) { number := 0, topic := 31, payload := List.replicate 64 0xFF }) = true
    ∧ Frame.valid (.replay (header1 .joining 0) (body1 0)) = true
    ∧ Frame.valid (.resend (header1 .active 0) (.closed 1 32768)) = true ∧ Frame.valid resend1 = true
    ∧ Frame.valid (.beacon (header1 .leaving 0) .leave 0xFFFFFFFD 0) = true := by decide +kernel
theorem witness_PayloadReadsBack : Memory.wf [] = true ∧ ([255, 0, 7, 9] : List Nat).Nodup
    ∧ ([255, 0, 7, 9] : List Nat).length = cellsFor (List.replicate 64 (1 : Byte)).length
    ∧ ([255] : List Nat).length = cellsFor ([] : List Byte).length := by decide +kernel

/-! Reset and the controller port. -/

theorem witness_NothingActsOutOfPlace :
    ((after .resetAsserted State.reset).pins.resetLow = true ∧ actsInReset .lineIdle = false
      ∧ (after .resetAsserted State.reset).port.link = .closed)
    ∧ (after .resetAsserted (asked State.reset)).port.link = .ignored
    ∧ (Live State.reset ∧ portCommand .take = true ∧ State.reset.awaiting = false)
    ∧ (State.reset.stn.state = .idle ∧ OffLineEmpty State.reset ∧ lineEvent .lineIdle = true)
    ∧ Live (station .halted) ∧ (station .halted).stn.state = .halted := by
  refine ⟨by decide +kernel, by decide +kernel, ⟨live_quiet rfl rfl, by decide +kernel⟩, ?_,
    (live_station _).1, rfl⟩
  unfold OffLineEmpty; decide +kernel

theorem witness_AttentionAndSummaryByte : State.reset.stn.config = none ∧ Live State.reset
    ∧ State.reset.port.link = .closed ∧ Live (station .active) ∧ (station .active).port.link = .closed :=
  ⟨rfl, live_quiet rfl rfl, rfl, (live_station _).1, rfl⟩

/-- The record at the other ends of its ranges. -/
def startTop : List Byte := [128, 0, 0, 0, 0, 0x03, 0xE8, 15, 15, 255, 15, 63, 127, 15, 0, 0]

theorem witness_StartDecided : Live (asked State.reset) ∧ (asked State.reset).port.link = .transaction 0 .awaiting
    ∧ (asked State.reset).stn.state = .idle ∧ (asked (station .listen)).stn.state ≠ .idle
    ∧ (∃ c b w, readStartRecord startBytes = some (c, b, w) ∧ startInRange c b = true)
    ∧ (∃ c b w, readStartRecord startTop = some (c, b, w) ∧ startInRange c b = true)
    ∧ (∃ c b w, readStartRecord (startTop.set 6 0xE9) = some (c, b, w) ∧ startInRange c b = false)
    ∧ (startBytes.take 15).length < 16 :=
  ⟨live_quiet rfl rfl, rfl, rfl, by decide +kernel, ⟨_, _, _, rfl, by decide +kernel⟩,
    ⟨_, _, _, rfl, by decide +kernel⟩, ⟨_, _, _, rfl, by decide +kernel⟩, by decide⟩

theorem witness_StartEffects : ∃ c b w, Live (asked State.reset) ∧ (asked State.reset).port.link = .transaction 0 .awaiting
    ∧ (asked State.reset).stn.state = .idle ∧ readStartRecord (startTop.take 16) = some (c, b, w)
    ∧ startInRange c b = true :=
  ⟨_, _, _, live_quiet rfl rfl, rfl, rfl, rfl, by decide +kernel⟩

/-- A station whose send region holds all it can. -/
def fullSender : State :=
  { station .active with send := { State.reset.send with outbound := List.replicate 32 outbound1 } }

theorem witness_PostDecided : (Live (asked (station .idle)) ∧ (asked (station .idle)).stn.state = .idle)
    ∧ (∀ st ∈ [StationState.listen, .joining, .active], Live (asked (station st)) ∧ (asked (station st)).stn.state = st)
    ∧ (Live (asked fullSender) ∧ fullSender.freeSendCells = 0 ∧ fullSender.freeSendDescs = 0)
    ∧ ((station .active).freeSendCells = 32 ∧ (station .active).freeSendDescs = 32)
    ∧ (List.replicate 64 (0 : Byte)).length = 64 ∧ ([] : List Byte).length < 2 :=
  ⟨⟨(live_station _).2.1, rfl⟩, fun st _ => ⟨(live_station st).2.1, rfl⟩,
    ⟨live_quiet rfl rfl, by decide +kernel⟩, by decide +kernel, by decide, by decide⟩

theorem witness_PostStored : Live (asked (station .listen)) ∧ (asked (station .listen)).port.link = .transaction 0 .awaiting
    ∧ (asked (station .listen)).stn.state = .listen
    ∧ max 1 (((List.replicate 64 (0 : Byte)).length + 15) / 16) ≤ (asked (station .listen)).freeSendCells
    ∧ 1 ≤ (asked (station .listen)).freeSendDescs ∧ Memory.wf (asked (station .listen)).pool.cells = true :=
  ⟨(live_station _).2.1, rfl, rfl, by decide +kernel⟩

/-- The delivery queue holds this record, on descriptor 0 and cell 32. -/
def withRecord (r : DeliveryRecord) (s : State) : State := { lessOne s with rx := { s.rx with queue := [r] } }

theorem witness_TakeAndPeekShowTheHead : (station .active).rx.queue = [] ∧ Live (asked (station .active))
    ∧ (∀ r ∈ [DeliveryRecord.notice (stored1 1), .lost 1 2 0, .base { reason := .founded, number := 0, superseded := false } 0],
      Live (asked (withRecord r (station .active))) ∧ (asked (withRecord r (station .active))).rx.queue = [r]) :=
  ⟨rfl, (live_station _).2.1, fun _ _ => ⟨live_quiet rfl rfl, rfl⟩⟩

/-- A BASE record waits, and no descriptor is free. -/
def basePending (s : State) : State := { s with pool := { s.pool with
  freeDescs := [], pendingBase := some { reason := .resyncSpan, number := 9, superseded := false } } }

/-- No descriptor is free. -/
def noDesc (s : State) : State := { s with pool := { s.pool with freeDescs := [] } }

theorem witness_TakeRemovesAtTheRise :
    (let s := answered [2, 4, 0, 1, 0, 2] .takeHead (withRecord (.lost 1 2 0) (station .active));
      Live s ∧ s.rx.queue = [.lost 1 2 0] ∧ 5 < [2, 4, 0, 1, 0, 2].length ∧ [2, 4, 0, 1, 0, 2].length ≤ 6
        ∧ NothingToAdvance s)
    ∧ (let s := answered [2, 4, 0, 1, 0, 2] .takeHead (basePending (withRecord (.lost 1 2 0) (station .active)));
      Live s ∧ s.rx.queue = [.lost 1 2 0] ∧ s.pool.pendingBase.isSome = true ∧ s.pool.freeDescs = [])
    ∧ (let s := answered [2, 4, 255, 255, 0, 0] .takeHead
        (noDesc (withRecord (.lost 65535 0 0) (withGap .lost (station .active))));
      Live s ∧ s.rx.queue = [.lost 65535 0 0] ∧ OrderSound s ∧ AdvanceRests s ∧ s.pool.pendingBase = none
        ∧ s.lostAt (s.rx.settled + 1) = true) := by
  refine ⟨⟨live_quiet rfl rfl, rfl, by decide, by decide, ?_⟩, ⟨live_quiet rfl rfl, rfl, rfl, rfl⟩,
    live_quiet rfl rfl, rfl, order_of (by decide +kernel), Or.inr ⟨?_, by decide +kernel, Or.inr rfl⟩, rfl, by decide +kernel⟩
  · unfold NothingToAdvance; decide +kernel
  · exact fun n h => absurd h List.not_mem_nil

/-- This many records held, and this overflow count. -/
def withReports (held overflow : Nat) : State := { station .active with
  port := { State.reset.port with reports := List.replicate held (.congested 16), overflow := overflow } }

theorem witness_ReportReadsAndRemoves : (Live (asked (station .active)) ∧ (asked (station .active)).port.reports = [])
    ∧ (let s := asked ((station .active).postReport (.duplicateId 3));
      Live s ∧ s.port.link = .transaction 0 .awaiting ∧ s.port.reports = [.duplicateId 3])
    ∧ (withReports 15 0).port.reports.length < 16 ∧ 16 ≤ (withReports 16 255).port.reports.length :=
  ⟨⟨(live_station _).2.1, rfl⟩, ⟨live_quiet rfl rfl, rfl, by decide +kernel⟩, by decide +kernel⟩

/-- The sixteenth record is appended; the next is dropped and counted, up to 255 (R175). -/
theorem test_reportOverflow :
    ((withReports 15 7).postReport (.duplicateId 3)).port.reports = (withReports 15 7).port.reports ++ [.duplicateId 3]
    ∧ ((withReports 15 7).postReport (.duplicateId 3)).port.overflow = 7
    ∧ (∀ x ∈ [(254, 255), (255, 255)], ((withReports 16 x.1).postReport (.duplicateId 3)).port
      = { (withReports 16 x.1).port with overflow := x.2 }) := by decide +kernel

theorem witness_StatusReadsAndClears : Live (asked (station .joining))
    ∧ (asked (station .joining)).port.link = .transaction 0 .awaiting := ⟨(live_station _).2.1, rfl⟩

theorem witness_MembersListsTheTable : Live (asked (withMember (station .active)))
    ∧ (asked (withMember (station .active))).members[0]? = some member1 := ⟨live_quiet rfl rfl, rfl⟩

theorem witness_WordAndUnknownCodeDecided : (Live (asked (station .idle)) ∧ (asked (station .idle)).stn.state ≠ .halted)
    ∧ (Live (asked (station .halted)) ∧ (asked (station .halted)).stn.state = .halted)
    ∧ ([0x12] : List Byte).length < 2
    ∧ (0x11 : Byte) ∉ ([0x10, 0x20, 0x30, 0x31, 0x40, 0x50, 0x51, 0x60, 0x70] : List Byte)
    ∧ (List.replicate 7 true).length < 8 ∧ 64 < (65 : Byte).toNat ∧ (64 : Byte).toNat ≤ 64 :=
  ⟨⟨(live_station _).2.1, by decide +kernel⟩, ⟨(live_station _).2.1, rfl⟩, by decide, by decide, by decide⟩

theorem witness_LeaveDecided : (∀ st : StationState, Live (asked (station st)) ∧ (asked (station st)).stn.state = st
      ∧ (asked (station st)).line.ownFrame = none)
    ∧ (let s := asked (driving (.notice 0) ownNotice (station .active));
      Live s ∧ s.stn.state = .active ∧ s.line.ownFrame ≠ none)
    ∧ (let s := asked (atSlot (station .joining));
      Live s ∧ s.stn.state = .joining ∧ s.line.ownFrame = none ∧ s.line.timing = .idle 0)
    ∧ (OffLineEmpty (asked (station .listen)) ∧ PendingBaseSound (asked (station .listen))
      ∧ (asked (station .listen)).send.outbound = [])
    ∧ (let s := asked (withOutbound (station .listen)); Live s ∧ s.stn.state = .listen ∧ s.send.outbound = [outbound1]) := by
  refine ⟨fun st => ⟨(live_station st).2.1, rfl, rfl⟩, ⟨live_quiet rfl rfl, rfl, by decide +kernel⟩,
    ⟨live_quiet rfl rfl, rfl, rfl, rfl⟩, ⟨?_, fun h => absurd rfl h, rfl⟩, live_quiet rfl rfl, rfl, rfl⟩
  unfold OffLineEmpty; decide +kernel

/-! Access to the line and own frames. -/

theorem witness_AccessPositionAndDisplacement :
    (Live (station .active) ∧ (station .active).stn.hearsLine = true ∧ (station .active).line.ownFrame = none
      ∧ (station .active).line.displaced = false ∧ (station .active).line.yield = false
      ∧ (station .active).receiving = true ∧ readFrame [] = none)
    ∧ (after (.checkFailure []) (station .active)).line.displaced = true
    ∧ (Live (station .idle) ∧ (station .idle).stn.state = .idle) :=
  ⟨⟨(live_station _).1, by decide +kernel⟩, by decide +kernel, (live_station _).1, rfl⟩

theorem witness_SlotWaits : (Live (station .active) ∧ (station .active).line.timing ≠ .idle 0)
    ∧ AtSlot (atSlot (station .listen)) 0
    ∧ (AtSlot (atSlot (station .active)) 0 ∧ (station .active).send.outbound = [] ∧ (station .active).stn.beaconDue = false
      ∧ (station .active).gaps = [] ∧ (station .active).send.retained = [])
    ∧ (let s := { withOutbound (station .active) with pool := State.reset.pool };
      AtSlot (atSlot s) 0 ∧ s.send.outbound.head? = some outbound1 ∧ s.cfg.topics.getLsbD outbound1.topic.toNat = true
        ∧ s.pool.freeCells.length < cellsFor outbound1.length + 4)
    ∧ (station .listen).stn.hearsLine = true :=
  ⟨⟨(live_station _).1, by decide +kernel⟩, ⟨(live_station _).2.2, rfl, rfl, rfl⟩,
    ⟨⟨(live_station _).2.2, rfl, rfl, rfl⟩, by decide +kernel⟩,
    ⟨⟨live_quiet rfl rfl, rfl, rfl, rfl⟩, by decide +kernel⟩, by decide⟩

theorem witness_SlotStartsRepair :
    (let s := atSlot { station .active with send := { State.reset.send with catchUp := some 1 } };
      AtSlot s 0 ∧ s.stn.state = .active ∧ s.send.catchUp = some 1)
    ∧ (let s := atSlot (withGap .requested (station .joining));
      AtSlot s 0 ∧ s.stn.state = .joining ∧ s.send.catchUp = none ∧ OrderSound s ∧ s.gaps = [gap1 .requested]
        ∧ (gap1 .requested).state = .requested ∧ s.missing (gap1 .requested) ≠ [])
    ∧ (let s := atSlot (withRetained (station .active));
      AtSlot s 0 ∧ s.gaps = [] ∧ s.send.retained = [retained1] ∧ retained1.marked = true
        ∧ atOrBefore retained1.lineNo s.rx.count = true) :=
  ⟨⟨⟨live_quiet rfl rfl, rfl, rfl, rfl⟩, rfl, rfl⟩,
    ⟨⟨live_quiet rfl rfl, rfl, rfl, rfl⟩, rfl, rfl, order_of (by decide +kernel), rfl, rfl, by decide +kernel⟩,
    ⟨live_quiet rfl rfl, rfl, rfl, rfl⟩, by decide +kernel⟩

/-- The configuration with no topic subscribed. -/
def noTopic (s : State) : State :=
  { s with stn := { s.stn with config := some { config1 with topics := 0 } } }

theorem witness_SlotStartsNotice :
    (let s := atSlot (withOutbound (station .active));
      AtSlot s 0 ∧ s.stn.state = .active ∧ s.send.catchUp = none ∧ s.gaps = [] ∧ s.send.retained = []
        ∧ s.send.outbound = [outbound1] ∧ s.commit.catchingUp = false
        ∧ s.cfg.topics.getLsbD outbound1.topic.toNat = true ∧ cellsFor outbound1.length + 4 ≤ s.pool.freeCells.length
        ∧ 2 ≤ s.pool.freeDescs.length ∧ s.pool.freeCells.Nodup ∧ Memory.wf s.pool.cells = true)
    ∧ (let s := atSlot (noTopic (withOutbound (station .active)));
      AtSlot s 0 ∧ s.stn.state = .active ∧ s.cfg.topics.getLsbD outbound1.topic.toNat = false
        ∧ s.send.outbound = [outbound1]) :=
  ⟨⟨⟨live_quiet rfl rfl, rfl, rfl, rfl⟩, by decide +kernel⟩, ⟨live_quiet rfl rfl, rfl, rfl, rfl⟩,
    by decide +kernel⟩

/-- A beacon is due. -/
def due (s : State) : State := { s with stn := { s.stn with beaconDue := true } }

/-- The number one above the count does not follow the retained notice's. -/
def withheld (s : State) : State :=
  { s with send := { s.send with outbound := [outbound1], retained := [{ retained1 with number := some 1, marked := false }] } }

/-- No receive storage is free. -/
def noRoom (s : State) : State := { withOutbound s with pool := State.reset.pool }

/-- The station is catching up. -/
def catchingUp (s : State) : State := { withOutbound s with commit := { s.commit with catchingUp := true } }

theorem witness_SlotStartsBeacon : (∀ st : StationState, AtSlot (atSlot (due (station st))) 0
      ∧ (atSlot (due (station st))).stn.state = st ∧ (atSlot (due (station st))).stn.beaconDue = true
      ∧ (atSlot (due (station st))).send = State.reset.send ∧ (atSlot (due (station st))).gaps = [])
    ∧ (∀ f ∈ [withheld, noRoom, catchingUp], let s := atSlot (due (f (station .active)));
      AtSlot s 0 ∧ s.stn.state = .active ∧ s.stn.beaconDue = true ∧ s.send.catchUp = none ∧ s.gaps = []
        ∧ (∀ n ∈ s.send.retained, n.marked = false) ∧ s.send.outbound = [outbound1])
    ∧ follows 1 ((withheld (station .active)).rx.count + 1) = false
    ∧ ((noRoom (station .active)).cfg.topics.getLsbD 0 = true ∧ (noRoom (station .active)).pool.freeCells.length < cellsFor 0 + 4)
    ∧ (after (.slotBegins 0 false) (atSlot (due (withheld (station .active))))).line.ownFrame.map (·.candidate)
      = some .dueBeacon := by
  refine ⟨fun _ => ⟨⟨live_quiet rfl rfl, rfl, rfl, rfl⟩, rfl, rfl, rfl, rfl⟩, fun f hf => ?_, by decide, by decide +kernel,
    by decide +kernel⟩
  simp only [List.mem_cons, List.not_mem_nil, or_false] at hf
  rcases hf with rfl | rfl | rfl <;> exact ⟨⟨live_quiet rfl rfl, rfl, rfl, rfl⟩, rfl, rfl, rfl, rfl, by decide, rfl⟩

/-- A release waits for the REPLAY on the line. -/
def waitingRelease : State :=
  let s := withRetained (station .active)
  driving (.replay 0) resend1 { s with send := { s.send with releaseWaiting := true, lastReleased := 9 } }

/-- A frame of each candidate but the NOTICE is on the line. -/
theorem witness_RepairFrameSent :
    (∀ c ∈ [Candidate.gap 0, .catchUp, .replay 0], let s := driving c resend1 (withRetained (station .active));
      Live s ∧ s.line.ownFrame = some { candidate := c, frame := resend1, sent := false } ∧ NothingHeld s
        ∧ s.send.releaseWaiting = false)
    ∧ (Live waitingRelease ∧ NothingHeld waitingRelease ∧ waitingRelease.send.releaseWaiting = true
      ∧ (after .frameSent waitingRelease).send.retained = [] ∧ (after .frameSent waitingRelease).send.lastReleased = 0
      ∧ (after .frameSent waitingRelease).send.releasePoint = ⟨1, 1⟩) :=
  ⟨fun _ _ => ⟨live_quiet rfl rfl, rfl, ⟨rfl, rfl⟩, rfl⟩, live_quiet rfl rfl, ⟨rfl, rfl⟩, rfl, by decide +kernel⟩

/-- A beacon of this station in this state. -/
def ownBeacon (st : StationState) (k : BeaconKind) : Frame :=
  .beacon { senderState := st, sender := 0, count := 0, settled := 0 } k 0 0

theorem witness_NoticeOrBeaconSent :
    (Live (driving (.notice 0) ownNotice (station .active)) ∧ NothingHeld (driving (.notice 0) ownNotice (station .active)))
    ∧ (∀ x ∈ [(StationState.active, BeaconKind.periodic), (.joining, .join), (.leaving, .leave)],
      let s := driving .dueBeacon (ownBeacon x.1 x.2) (station x.1);
      Live s ∧ NothingHeld s ∧ s.send.outbound = [])
    ∧ (withOutbound (driving .dueBeacon (ownBeacon .leaving .leave) (station .leaving))).send.outbound = [outbound1]
    ∧ PendingBaseSound (driving .dueBeacon (ownBeacon .leaving .leave) (station .leaving)) :=
  ⟨⟨live_quiet rfl rfl, rfl, rfl⟩,
    fun _ _ => ⟨live_quiet rfl rfl, ⟨rfl, rfl⟩, rfl⟩, rfl, fun h => absurd rfl h⟩

theorem witness_CollisionKeepsTheCandidate :
    (let s := driving (.notice 0) ownNotice (withProvisional (station .active));
      Live s ∧ NothingHeld s ∧ s.commit.provisional = some (stored1 1) ∧ NothingToAdvance s)
    ∧ (let s0 := driving .dueBeacon (ownBeacon .active .periodic) (station .active);
      let s := { s0 with line := { s0.line with collisionCount := 7 } };
      Live s ∧ NothingHeld s ∧ s.line.eighthCollision = true)
    ∧ (Live waitingRelease ∧ NothingHeld waitingRelease ∧ waitingRelease.send.releaseWaiting = true
      ∧ (after .collision waitingRelease).send.retained = []) := by
  refine ⟨⟨live_quiet rfl rfl, ⟨rfl, rfl⟩, rfl, ?_⟩, ⟨live_quiet rfl rfl, ⟨rfl, rfl⟩, by decide +kernel⟩,
    live_quiet rfl rfl, ⟨rfl, rfl⟩, rfl, by decide +kernel⟩
  unfold NothingToAdvance; decide +kernel

/-- A LEAVE is held. -/
def leaveHeld (s : State) : State := { s with stn := { s.stn with leaveHeld := true } }

/-- A join expiry is held. -/
def expiryHeld (s : State) : State := { s with stn := { s.stn with joinExpiryHeld := true } }

theorem witness_HeldEventsTakenAtTheEnd :
    (∀ x ∈ [(Candidate.gap 0, resend1), (.catchUp, resend1), (.replay 0, resend1), (.notice 0, ownNotice),
        (.dueBeacon, ownBeacon .joining .join), (.dueBeacon, ownBeacon .active .periodic)],
      (let s := leaveHeld (expiryHeld (driving x.1 x.2 (station .joining)));
        Live s ∧ s.line.ownFrame = some { candidate := x.1, frame := x.2, sent := false } ∧ s.stn.leaveHeld = true)
      ∧ (let s := expiryHeld (driving x.1 x.2 (station .joining));
        Live s ∧ s.stn.leaveHeld = false ∧ s.stn.joinExpiryHeld = true))
    ∧ (∀ w ∈ [window1 .sender 0 false, window1 .sender 0 true, window1 .sender 256 false],
      let s := leaveHeld (inWindow w (station .active)); Live s ∧ s.line.window = some w ∧ s.stn.leaveHeld = true)
    ∧ (∀ w ∈ [window1 .sender 255 false, window1 .sender 256 true, window1 .receiver 255 false, window1 .receiver 256 true],
      let s := expiryHeld (inWindow w (station .joining));
      Live s ∧ s.line.window = some w ∧ s.stn.leaveHeld = false ∧ s.stn.joinExpiryHeld = true
        ∧ (w.objected = true ∨ s.ahead w.number ≤ 256))
    ∧ (let w := window1 .receiver 256 false; let s := expiryHeld (inWindow w (station .joining));
      Live s ∧ s.line.window = some w ∧ s.stn.joinExpiryHeld = true ∧ w.objected = false ∧ s.ahead w.number = 257
        ∧ s.stn.state = .joining)
    ∧ (∀ s ∈ [leaveHeld (inWindow (window1 .sender 0 false) (station .active)),
        expiryHeld (inWindow (window1 .sender 0 false) (station .joining)),
        expiryHeld (inWindow (window1 .receiver 0 false) (station .joining))],
      (window1 .sender 0 false).number = 1 ∧ s.ahead 1 ≤ 256 ∧ (1 : LineNo) = s.rx.count + 1)
    ∧ (∀ s ∈ [leaveHeld (inWindow (window1 .sender 256 false) (station .active)),
        expiryHeld (inWindow (window1 .receiver 256 false) (station .joining))],
      (window1 .sender 256 false).objected = false ∧ (window1 .sender 256 false).header.count = 256
        ∧ 256 < s.ahead 257) := by
  refine ⟨fun _ _ => ⟨⟨live_quiet rfl rfl, rfl, rfl⟩, live_quiet rfl rfl, rfl, rfl⟩,
    fun _ _ => ⟨live_quiet rfl rfl, rfl, rfl⟩,
    fun w hw => ⟨live_quiet rfl rfl, rfl, rfl, rfl, by revert w; decide +kernel⟩,
    ⟨live_quiet rfl rfl, rfl, rfl, by decide +kernel⟩, fun s hs => ?_, fun s hs => ?_⟩
  all_goals revert s; decide +kernel

/-! The objection window. -/

theorem witness_WindowPositionSampled : Live (inWindow (window1 .receiver 0 false) (station .active))
    ∧ (inWindow (window1 .receiver 0 false) (station .active)).line.window = some (window1 .receiver 0 false)
    ∧ (window1 .receiver 0 false).objected = false ∧ (window1 .receiver 0 true).objected = true :=
  ⟨live_quiet rfl rfl, rfl, by decide, by decide⟩

theorem witness_ReceiverDiscardsObjected :
    (let s := inWindow (window1 .receiver 0 true) (withProvisional (station .active));
      Live s ∧ s.line.window = some (window1 .receiver 0 true) ∧ (window1 .receiver 0 true).objected = true
        ∧ NothingHeld s ∧ s.commit.provisional = some (stored1 1) ∧ NothingToAdvance s)
    ∧ (inWindow (window1 .receiver 0 true) (station .leaving)).commit.provisional = none := by
  refine ⟨⟨live_quiet rfl rfl, rfl, by decide, ⟨rfl, rfl⟩, rfl, ?_⟩, rfl⟩
  unfold NothingToAdvance; decide +kernel

/-- Positions 1 to 255 are missing; the provisional notice is number 256. -/
def atSpan : State :=
  { withProvisional (station .active) with
    rx := { State.reset.rx with count := 255 }
    gaps := [{ gap1 .waiting with last := 255 }]
    nextGapId := 1
    commit := { State.reset.commit with provisional := some (stored1 256) } }

theorem witness_ReceiverCommitsClean :
    (let s := inWindow (window1 .receiver 0 false) (withProvisional (station .active));
      Live s ∧ s.line.window = some (window1 .receiver 0 false) ∧ NothingHeld s
        ∧ (window1 .receiver 0 false).number = s.rx.count + 1
        ∧ s.commit.provisional = some (stored1 1) ∧ s.rx.settled = s.rx.count ∧ s.pool.pendingBase = none
        ∧ s.rx.holdSet = [] ∧ s.rx.known = 0 ∧ s.gaps = [])
    ∧ (let s := inWindow (window1 .receiver 255 false) atSpan;
      Live s ∧ NothingHeld s ∧ (window1 .receiver 255 false).number = s.rx.count + 1
        ∧ s.commit.provisional = some (stored1 256) ∧ OrderSound s ∧ s.rx.settled ≠ s.rx.count
        ∧ s.ahead (window1 .receiver 255 false).number = 256 ∧ AdvanceRests s)
    ∧ (let s := inWindow (window1 .receiver 0 false) (basePending (station .active));
      Live s ∧ s.line.window = some (window1 .receiver 0 false) ∧ NothingHeld s
        ∧ (window1 .receiver 0 false).number = s.rx.count + 1 ∧ s.commit.provisional = none
        ∧ OrderSound s ∧ s.pool.pendingBase ≠ none ∧ s.ahead (window1 .receiver 0 false).number ≤ 256
        ∧ AdvanceRests s) := by
  refine ⟨⟨live_quiet rfl rfl, rfl, ⟨rfl, rfl⟩, rfl, rfl, rfl, rfl, rfl, rfl, rfl⟩,
    ⟨live_quiet rfl rfl, ⟨rfl, rfl⟩, rfl, rfl, order_of (by decide +kernel), by decide +kernel, by decide +kernel, ?_⟩,
    live_quiet rfl rfl, rfl, ⟨rfl, rfl⟩, rfl, rfl, order_of (by decide +kernel), by decide +kernel, by decide +kernel,
    Or.inl (by decide +kernel)⟩
  unfold AdvanceRests; decide +kernel

theorem witness_RefusedCommitResyncs :
    (∀ st : StationState, let s := inWindow (window1 .receiver 256 false) (withProvisional (station st));
      Live s ∧ s.line.window = some (window1 .receiver 256 false) ∧ (window1 .receiver 256 false).objected = false
        ∧ s.ahead (window1 .receiver 256 false).number = 257 ∧ NothingHeld s ∧ s.stn.state = st
        ∧ PendingBaseSound s ∧ s.commit.provisional = some (stored1 1) ∧ NothingToAdvance s)
    ∧ (inWindow (window1 .receiver 256 false) (station .leaving)).commit.provisional = none
    ∧ (let s := inWindow (window1 .sender 256 false) (withMember (withOutbound (station .active)));
      Live s ∧ s.line.window = some (window1 .sender 256 false) ∧ s.ahead (window1 .sender 256 false).number = 257
        ∧ s.send.outbound = [outbound1] ∧ s.members ≠ [])
    ∧ (let s := inWindow (window1 .sender 256 false) (withOutbound (station .active));
      Live s ∧ s.send.outbound = [outbound1] ∧ s.members = []) := by
  refine ⟨fun st => ⟨live_quiet rfl rfl, rfl, rfl, by cases st <;> decide +kernel, ⟨rfl, rfl⟩, rfl,
      fun h => absurd rfl h, rfl, ?_⟩, rfl, ⟨live_quiet rfl rfl, rfl, by decide +kernel, rfl, by decide +kernel⟩,
    live_quiet rfl rfl, rfl, rfl⟩
  unfold NothingToAdvance; cases st <;> decide +kernel

theorem witness_SenderCommitsClean :
    (∀ f ∈ [withMember, id],
      let s := inWindow (window1 .sender 0 false) (f (withOutbound (withProvisional (station .active))));
      Live s ∧ s.line.window = some (window1 .sender 0 false) ∧ (window1 .sender 0 false).objected = false ∧ NothingHeld s
        ∧ (window1 .sender 0 false).number = s.rx.count + 1 ∧ s.send.outbound = [outbound1]
        ∧ s.commit.provisional = some (stored1 1) ∧ s.rx.settled = s.rx.count
        ∧ s.pool.pendingBase = none ∧ s.rx.holdSet = [] ∧ s.rx.known = 0 ∧ s.gaps = [])
    ∧ (withMember (station .active)).members ≠ []
    ∧ (let s := inWindow (window1 .sender 255 false) (withOutbound atSpan);
      Live s ∧ s.line.window = some (window1 .sender 255 false) ∧ NothingHeld s
        ∧ (window1 .sender 255 false).number = s.rx.count + 1 ∧ s.send.outbound = [outbound1]
        ∧ s.commit.provisional = some (stored1 256) ∧ OrderSound s ∧ s.rx.settled ≠ s.rx.count
        ∧ s.ahead (window1 .sender 255 false).number = 256 ∧ AdvanceRests s ∧ s.members = [])
    ∧ (let s := inWindow (window1 .sender 0 false) (basePending (noTopic (withMember (withOutbound (station .active)))));
      Live s ∧ s.line.window = some (window1 .sender 0 false) ∧ NothingHeld s
        ∧ (window1 .sender 0 false).number = s.rx.count + 1 ∧ s.send.outbound = [outbound1]
        ∧ s.commit.provisional = none ∧ OrderSound s ∧ s.pool.pendingBase ≠ none
        ∧ s.ahead (window1 .sender 0 false).number ≤ 256 ∧ AdvanceRests s) := by
  refine ⟨fun f hf => ?_, by decide +kernel, ⟨live_quiet rfl rfl, rfl, ⟨rfl, rfl⟩, rfl, rfl, rfl,
    order_of (by decide +kernel), by decide +kernel, by decide +kernel, ?_, rfl⟩, live_quiet rfl rfl, rfl, ⟨rfl, rfl⟩, rfl,
    rfl, rfl, order_of (by decide +kernel), by decide +kernel, by decide +kernel, Or.inl (by decide +kernel)⟩
  · simp only [List.mem_cons, List.not_mem_nil, or_false] at hf
    rcases hf with rfl | rfl <;>
    exact ⟨live_quiet rfl rfl, rfl, by decide, ⟨rfl, rfl⟩, rfl, rfl, rfl, rfl, rfl, rfl, rfl, rfl⟩
  · unfold AdvanceRests; decide +kernel

theorem witness_SenderObjected :
    (let s := inWindow (window1 .sender 0 true) (withProvisional (station .active));
      Live s ∧ s.line.window = some (window1 .sender 0 true) ∧ (window1 .sender 0 true).objected = true ∧ NothingHeld s
        ∧ s.commit.provisional = some (stored1 1) ∧ NothingToAdvance s)
    ∧ (let s0 := station .active;
      let s := inWindow { window1 .sender 0 false with stale := true }
        { s0 with commit := { s0.commit with objections := 15 } };
      Live s ∧ NothingHeld s ∧ s.commit.objections + 1 = 16 ∧ s.commit.congestedArmed = true
        ∧ s.commit.provisional = none) := by
  refine ⟨⟨live_quiet rfl rfl, rfl, by decide, ⟨rfl, rfl⟩, rfl, ?_⟩, live_quiet rfl rfl, ⟨rfl, rfl⟩, rfl, rfl, rfl⟩
  unfold NothingToAdvance; decide +kernel

/-! Adoption, headers and the frames of each kind. -/

/-- A station in LISTEN with its timer running, and after a frame that stopped it. -/
def listening (timer : Timer) : State := { station .listen with stn := { (station .listen).stn with listenTimer := timer } }

theorem listening_sound (w : Option Window) (timer : Timer) :
    let s := { listening timer with line := { (listening timer).line with window := w } };
    Live s ∧ s.stn.state = .listen ∧ OffLineEmpty s ∧ PendingBaseSound s := by
  refine ⟨live_quiet rfl rfl, rfl, ?_, ?_⟩
  · exact ⟨fun _ => ⟨rfl, rfl, rfl, rfl, rfl⟩, fun h => by simp [listening, station] at h⟩
  · intro h; exact absurd rfl h

/-- The valid frames of station 1 that the statements meet. -/
theorem arrives_of {s : State} {f : Frame} (h1 : s.pins = { resetLow := false, attnLow := false })
    (h2 : s.cfg.attention = { delivery := false, backlog := false, room := false, report := false })
    (h3 : s.receiving = true ∧ readFrame (frameChars f) = some f ∧ (Frame.header f).sender ≠ s.line.id) :
    Arrives s (frameChars f) f := ⟨live_quiet h1 h2, h3⟩

/-- A RESEND adopted in LISTEN is processed as at a JOINING station: the sender's entry and MEMBER_JOINED after the STATE
report, and the mark on a notice retained from before. -/
theorem test_adoptResend :
    let s := after (.resendReceived (frameChars (.resend (header1 .joining 7) (.closed 0 3))))
      { listening (.running 20) with send := { State.reset.send with retained := [{ retained1 with marked := false }] } };
    s.send.retained = [retained1] ∧ s.members.map (·.station) = [1] ∧ s.rx.count = 7 ∧ s.stn.state = .joining
      ∧ s.port.reports = [.stateChange .listen .joining .adoption, .memberJoined 1] := by decide +kernel

/-- A beacon of station 1. -/
def beacon1 (st : StationState) (k : BeaconKind) (view : Set32) : Frame := .beacon (header1 st 0) k view 5

theorem witness_AdoptionSetsTheCount :
    (∀ full, let w := window1 .adopting 7 full; let s := inWindow w (listening .stopped);
      (Live s ∧ s.stn.state = .listen ∧ OffLineEmpty s ∧ PendingBaseSound s) ∧ s.line.window = some w
        ∧ w.objected = full ∧ w.number = w.header.count + 1 ∧ s.member 1 = none
        ∧ distance w.header.settled w.number = 8)
    ∧ (∀ f ∈ [Frame.notice (header1 .active 7) (body1 8), .replay (header1 .active 7) (body1 7),
        .resend (header1 .joining 7) (.openFrom 8), beacon1 .active .periodic 0, beacon1 .leaving .leave 1,
        beacon1 .joining .join 1], Arrives (listening (.running 20)) (frameChars f) f)
    ∧ viewNames 0 (listening (.running 20)).line.id = false ∧ viewNames 1 (listening (.running 20)).line.id = true
    ∧ frameAtOrBefore 7 7 = true := by
  refine ⟨fun full => ⟨listening_sound _ _, rfl, ?_, rfl, rfl, by cases full <;> decide⟩, fun f hf => arrives_of rfl rfl ?_, by decide +kernel⟩
  · cases full <;> rfl
  · revert f; decide +kernel

theorem witness_HeaderTakesTheMember :
    (let s := withMember (station .active);
      MembersSound s ∧ s.members = [] ++ member1 :: [] ∧ member1.station = (header1 .active 0).sender
        ∧ distance (header1 .active 0).settled s.rx.count ≤ 16384 ∧ member1.settled = (header1 .active 0).settled
        ∧ distance 16384 s.rx.count = 16384 ∧ distance 16385 s.rx.count = 16385 ∧ member1.settled ≠ 16384)
    ∧ ((station .active).members = [] ∧ MembersSound (station .active)) := by
  refine ⟨⟨⟨by decide +kernel, by decide +kernel⟩, rfl, rfl, by decide +kernel⟩, rfl, List.Pairwise.nil, by simp [station, State.reset, State.atReset]⟩

/-- A full gap table, its highest entry in this state, at count 8. -/
def fullTable (g : GapState) (s : State) : State :=
  { s with
    rx := { s.rx with count := 8 }
    gaps := (List.range 8).map fun i => { gap1 (if i = 7 then g else .waiting) with
      id := i, first := BitVec.ofNat 16 (i + 1), last := BitVec.ofNat 16 (i + 1) }
    nextGapId := 8 }

/-- Stations 2 and 3 are members at the far end of the horizon of the count: a rise by one leaves both beyond it. -/
def farMembers (s : State) : State :=
  { s with members := [2, 3].map fun n => { member1 with station := n, settled := s.rx.count - 16384 } }

/-- Whom a rise to header 1's count `c` loses, in the order of the table. -/
def lostAtRise (s : State) (c : LineNo) : List StationNo :=
  ((s.headerMember (header1 .active c) false).members.filter fun x => decide (16384 < distance x.settled c)).map (·.station)

/-- The horizon loses members with a free place of the gap table, with a full one that merges, and with one that is LOST. -/
theorem witness_horizonLoses :
    (∀ s ∈ [farMembers (station .active), farMembers (withGap .waiting (station .leaving)),
        farMembers (fullTable .waiting (station .active)), farMembers (fullTable .lost (station .joining))],
      s.stn.onLine = true ∧ follows s.rx.count (s.rx.count + 1) = true ∧ s.ahead (s.rx.count + 1) ≤ 256
        ∧ lostAtRise s (s.rx.count + 1) = [2, 3] ∧ ∀ m ∈ s.members, distance m.settled s.rx.count ≤ 16384)
    ∧ OrderSound (farMembers (fullTable .lost (station .joining)))
    ∧ AdvanceRests (farMembers (fullTable .lost (station .joining))) := by
  refine ⟨by decide +kernel, order_of (by decide +kernel), ?_⟩
  unfold AdvanceRests; decide +kernel

theorem witness_HeaderCountRaises : (station .active).stn.onLine = true ∧ (station .leaving).stn.onLine = true
    ∧ (follows (station .active).rx.count 0 = false ∧ unordered (station .active).rx.count 0 = false)
    ∧ unordered (station .active).rx.count 32768 = true
    ∧ (follows (station .active).rx.count 257 = true ∧ (station .active).ahead 257 = 257)
    ∧ (follows (station .active).rx.count 256 = true ∧ (station .active).ahead 256 = 256 ∧ (station .active).gaps = [])
    ∧ (∀ g ∈ [GapState.lost, .waiting], OrderSound (fullTable g (station .active))
        ∧ NothingToAdvance (fullTable g (station .active)) ∧ (fullTable g (station .active)).gaps.length = 8
        ∧ follows (fullTable g (station .active)).rx.count 9 = true) := by
  refine ⟨rfl, rfl, by decide +kernel, by decide +kernel, by decide +kernel, by decide +kernel, fun g hg => ⟨order_of ?_, ?_, ?_, ?_⟩⟩
  · revert g; decide +kernel
  · unfold NothingToAdvance; revert g; decide +kernel
  · revert g; decide +kernel
  · revert g; decide +kernel

/-- What the header of `h` leaves of a station when its frame arrives. -/
def headed (s : State) (h : Header) : State × Bool := (s.arrival h).headerProcess h false

theorem witness_NoticeFrameDecided :
    (let f := Frame.notice (header1 .active 0) (body1 1);
      Arrives (station .active) (frameChars f) f ∧ (station .active).stn.onLine = true
        ∧ (headed (station .active) (header1 .active 0)).2 = true
        ∧ (let u := (headed (station .active) (header1 .active 0)).1;
          frameAtOrBefore 1 u.rx.count = false ∧ u.cfg.topics.getLsbD 0 = true
            ∧ cellsFor 0 + 4 ≤ u.pool.freeCells.length ∧ 2 ≤ u.pool.freeDescs.length ∧ u.pool.freeCells.Nodup)
        ∧ Memory.wf (station .active).pool.cells = true)
    ∧ (let s := withGap .waiting (station .active); let f := Frame.notice (header1 .active 0) (body1 1);
      Arrives s (frameChars f) f ∧ frameAtOrBefore 1 (headed s (header1 .active 0)).1.rx.count = true)
    ∧ (let s := noTopic (station .active); let f := Frame.notice (header1 .active 0) (body1 1);
      Arrives s (frameChars f) f ∧ (headed s (header1 .active 0)).1.cfg.topics.getLsbD 0 = false)
    ∧ (let s := { station .active with pool := { (station .active).pool with freeCells := [32, 33, 34, 35] } };
      let f := Frame.notice (header1 .active 0) (body1 1);
      Arrives s (frameChars f) f ∧ (headed s (header1 .active 0)).1.pool.freeCells.length < cellsFor 0 + 4)
    ∧ (let f := Frame.notice (header1 .active 257) (body1 258);
      Arrives (station .active) (frameChars f) f ∧ (headed (station .active) (header1 .active 257)).2 = false) :=
  ⟨⟨arrives_of rfl rfl (by decide +kernel), rfl, by decide +kernel⟩, ⟨arrives_of rfl rfl (by decide +kernel), by decide +kernel⟩,
    ⟨arrives_of rfl rfl (by decide +kernel), by decide +kernel⟩, ⟨arrives_of rfl rfl (by decide +kernel), by decide +kernel⟩,
    arrives_of rfl rfl (by decide +kernel), by decide +kernel⟩

/-- Position 2 is held from this originator, position 1 missing. -/
def holding (originator : StationNo) : State :=
  { lessOne (withGap .waiting (station .active)) with
    rx := { State.reset.rx with count := 2, known := 2, holdSet := [{ stored1 2 with originator := originator }] } }

theorem witness_ReplayDiscarded :
    (∀ o ∈ [(1 : StationNo), 9], let f := Frame.replay (header1 .active 2) (body1 2);
      Arrives (holding o) (frameChars f) f ∧ (holding o).stn.onLine = true
        ∧ (headed (holding o) (header1 .active 2)).2 = true
        ∧ (let u := (headed (holding o) (header1 .active 2)).1;
          frameAtOrBefore 2 u.rx.settled = false ∧ u.knownAt 2 = true
            ∧ u.rx.holdSet = [{ stored1 2 with originator := o }]))
    ∧ (let f := Frame.replay (header1 .active 0) (body1 0);
      Arrives (station .active) (frameChars f) f ∧ (headed (station .active) (header1 .active 0)).2 = true
        ∧ frameAtOrBefore 0 (headed (station .active) (header1 .active 0)).1.rx.settled = true)
    ∧ (let f := Frame.replay (header1 .active 257) (body1 1);
      Arrives (station .active) (frameChars f) f ∧ (headed (station .active) (header1 .active 257)).2 = false) := by
  refine ⟨fun o ho => ⟨arrives_of rfl rfl ?_, rfl, ?_⟩, ⟨arrives_of rfl rfl (by decide +kernel), by decide +kernel⟩,
    arrives_of rfl rfl (by decide +kernel), by decide +kernel⟩
  · revert o; decide +kernel
  · revert o; decide +kernel

/-- Positions 1 and 2 are missing, in one entry. -/
def missingTwo : State :=
  { station .active with rx := { State.reset.rx with count := 2 }, gaps := [{ gap1 .waiting with last := 2 }], nextGapId := 1 }

/-- What every clause asks of a REPLAY of position `n` at `s`. -/
def ReplayComes (s : State) (n : LineNo) : Prop :=
  let f := Frame.replay (header1 .active 2) (body1 n);
  let u := (headed s (header1 .active 2)).1;
  Arrives s (frameChars f) f ∧ s.stn.onLine = true ∧ (headed s (header1 .active 2)).2 = true
    ∧ frameAtOrBefore n u.rx.settled = false ∧ u.knownAt n = false ∧ follows u.rx.count n = false
    ∧ OrderSound u ∧ AdvanceRests u

theorem replayComes_of {s : State} {n : LineNo} (h1 : s.pins = { resetLow := false, attnLow := false })
    (h2 : s.cfg.attention = { delivery := false, backlog := false, room := false, report := false })
    (h3 : s.receiving = true ∧ readFrame (frameChars (.replay (header1 .active 2) (body1 n)))
        = some (.replay (header1 .active 2) (body1 n)) ∧ (1 : StationNo) ≠ s.line.id)
    (h4 : s.stn.onLine = true ∧ (headed s (header1 .active 2)).2 = true
      ∧ frameAtOrBefore n (headed s (header1 .active 2)).1.rx.settled = false
      ∧ (headed s (header1 .active 2)).1.knownAt n = false ∧ follows (headed s (header1 .active 2)).1.rx.count n = false)
    (h5 : (headed s (header1 .active 2)).1.rx = missingTwo.rx ∧ (headed s (header1 .active 2)).1.gaps = missingTwo.gaps
      ∧ (headed s (header1 .active 2)).1.nextGapId = 1) :
    ReplayComes s n := by
  have ho : OrderSound missingTwo := order_of (by decide +kernel)
  have hn : NothingToAdvance missingTwo := by unfold NothingToAdvance; decide +kernel
  obtain ⟨e1, e2, e3⟩ := h5
  refine ⟨⟨live_quiet h1 h2, h3⟩, h4.1, h4.2.1, h4.2.2.1, h4.2.2.2.1, h4.2.2.2.2,
    ho.congr ⟨by rw [e1], by rw [e1], by rw [e1], by rw [e1], e2, by rw [e3]; rfl⟩, ?_⟩
  unfold NothingToAdvance at hn
  unfold AdvanceRests State.knownAt State.lostAt at *
  rw [e1, e2]; exact Or.inr ⟨hn.2.1, hn.2.2.1, Or.inl hn.2.2.2⟩

/-- A sender half the circle ahead (log 21): its REPLAY of `n` is valid, and `n` follows the count of a station at 0. -/
def replayAhead (n : Nat) : Frame :=
  .replay { senderState := .active, sender := 1, count := 32769, settled := 32769 } (body1 (BitVec.ofNat 16 n))

/-- The station in this state after the header of that frame. -/
def aheadHeaded (st : StationState) (n : Nat) : State × Bool := headed (station st) (Frame.header (replayAhead n))

/-- What `witness_ReplayAhead` gathers, at a REPLAY of 1, 236 and 257. -/
theorem replayAhead_arrives : ∀ st ∈ [StationState.active, .leaving], ∀ n ∈ [1, 236, 257],
    (station st).receiving = true ∧ readFrame (frameChars (replayAhead n)) = some (replayAhead n)
      ∧ (Frame.header (replayAhead n)).sender ≠ (station st).line.id := by decide +kernel

theorem replayAhead_rests : ∀ st ∈ [StationState.active, .leaving], ∀ n ∈ [1, 236, 257],
    AdvanceRests (aheadHeaded st n).1 := by
  unfold AdvanceRests; decide +kernel

theorem replayAhead_headed : ∀ st ∈ [StationState.active, .leaving], ∀ n ∈ [1, 236, 257],
    (let u := (aheadHeaded st n).1; let p : LineNo := BitVec.ofNat 16 n;
      (aheadHeaded st n).2 = true ∧ u.rx = (station st).rx ∧ u.gaps = [] ∧ frameAtOrBefore p u.rx.settled = false
        ∧ u.knownAt p = false ∧ follows u.rx.count p = true ∧ (256 < u.ahead p ↔ n = 257)
        ∧ (p = u.rx.settled + 1 ↔ n = 1)) := by decide +kernel

/-- Position 1 comes next, 236 opens an entry below it, 257 lies beyond the span; in ACTIVE and in LEAVING. -/
theorem witness_ReplayAhead (st : StationState) (hst : st ∈ [StationState.active, .leaving]) (n : Nat)
    (hn : n ∈ [1, 236, 257]) :
    Arrives (station st) (frameChars (replayAhead n)) (replayAhead n) ∧ (aheadHeaded st n).2 = true
      ∧ OrderSound (aheadHeaded st n).1 ∧ AdvanceRests (aheadHeaded st n).1 := by
  obtain ⟨h1, h2, h3, -⟩ := replayAhead_headed st hst n hn
  refine ⟨⟨(live_station st).1, replayAhead_arrives st hst n hn⟩, h1, order_of ?_, replayAhead_rests st hst n hn⟩
  rw [State.ahead, h2, h3]
  exact ⟨rfl, rfl, by simp [station, State.reset, State.atReset], by simp, List.Pairwise.nil, by simp, by decide⟩

/-- The positions below it are missing. -/
theorem test_replayAhead : (after (.replayReceived (frameChars (replayAhead 236))) (station .active)).gaps.map
    (fun e => (e.first, e.last)) = [(1, 235)] := by decide +kernel

/-- A REPLAY of position 1 is delivered: the entry of positions 1 and 2 begins at 2, and the backlog event flag rises, since the
limit is 0 and the queue was empty; with a record in the queue already it does not. -/
theorem test_replayTrims : (let s := after (.replayReceived (frameChars (.replay (header1 .active 2) (body1 1)))) missingTwo;
      s.gaps = [{ gap1 .waiting with first := 2, last := 2 }] ∧ s.rx.backlog = true ∧ s.rx.settled = 1)
    ∧ (after (.replayReceived (frameChars (.replay (header1 .active 2) (body1 1)))) (withRecord (.lost 65535 0 0) missingTwo)).rx.backlog
      = false := by decide +kernel

theorem witness_ReplayAccepted :
    (ReplayComes missingTwo 1 ∧ ReplayComes missingTwo 2)
    ∧ (ReplayComes (noTopic missingTwo) 1 ∧ ReplayComes (noTopic missingTwo) 2)
    ∧ ReplayComes { missingTwo with pool := { missingTwo.pool with freeCells := [] } } 1
    ∧ (ReplayComes (basePending (noTopic missingTwo)) 1 ∧ ReplayComes (basePending (noTopic missingTwo)) 2
      ∧ (headed (basePending (noTopic missingTwo)) (header1 .active 2)).1.pool.pendingBase ≠ none)
    ∧ (let u := (headed missingTwo (header1 .active 2)).1;
      u.cfg.topics.getLsbD 0 = true ∧ cellsFor 0 + 4 ≤ u.pool.freeCells.length ∧ 2 ≤ u.pool.freeDescs.length
        ∧ u.pool.freeCells.Nodup)
    ∧ (headed (noTopic missingTwo) (header1 .active 2)).1.cfg.topics.getLsbD 0 = false
    ∧ Memory.wf missingTwo.pool.cells = true := by
  refine ⟨⟨replayComes_of rfl rfl ?_ ?_ ?_, replayComes_of rfl rfl ?_ ?_ ?_⟩,
    ⟨replayComes_of rfl rfl ?_ ?_ ?_, replayComes_of rfl rfl ?_ ?_ ?_⟩, replayComes_of rfl rfl ?_ ?_ ?_,
    ⟨replayComes_of rfl rfl ?_ ?_ ?_, replayComes_of rfl rfl ?_ ?_ ?_, ?_⟩, ?_⟩
  all_goals decide +kernel

theorem witness_ResendSuppressesAndMarks :
    (∀ r ∈ [ResendRange.closed 0 1, .openFrom 0],
      let s := withGap .waiting (withRetained (station .active)); let f := Frame.resend (header1 .active 1) r;
      Arrives s (frameChars f) f ∧ s.stn.onLine = true ∧ (headed s (header1 .active 1)).2 = true)
    ∧ (let f := Frame.resend (header1 .active 257) (.openFrom 0);
      Arrives (station .active) (frameChars f) f ∧ (headed (station .active) (header1 .active 257)).2 = false) := by
  refine ⟨fun r hr => ⟨arrives_of rfl rfl ?_, rfl, ?_⟩, arrives_of rfl rfl (by decide +kernel), by decide +kernel⟩
  · revert r; decide +kernel
  · decide +kernel

theorem witness_BeaconWordAndView :
    (∀ x ∈ [(StationState.active, BeaconKind.periodic, (1 : Set32)), (.active, .periodic, 0), (.joining, .join, 1),
        (.joining, .join, 0)], ∀ st ∈ [StationState.joining, .active],
      Arrives (station st) (frameChars (beacon1 x.1 x.2.1 x.2.2)) (beacon1 x.1 x.2.1 x.2.2)
        ∧ (station st).stn.onLine = true
        ∧ (let r := ((station st).arrival (header1 x.1 0)).headerProcess (header1 x.1 0) false;
          r.2 = true ∧ r.1.stn.state = st ∧ r.1.members.map (fun m => (m.station, m.includedMe)) = [(1, false)]))
    ∧ (Arrives (station .leaving) (frameChars (beacon1 .leaving .leave 0)) (beacon1 .leaving .leave 0)
        ∧ (((station .leaving).arrival (header1 .leaving 0)).headerProcess (header1 .leaving 0) true).2 = true)
    ∧ (let s := { station .active with members := [{ member1 with includedMe := true }] };
      Arrives s (frameChars (beacon1 .active .periodic 0)) (beacon1 .active .periodic 0)
        ∧ (headed s (header1 .active 0)).1.members.map (·.includedMe) = [true])
    ∧ (∀ x ∈ [(StationState.joining, (0 : Set32)), (.joining, 1), (.active, 0), (.active, 1)],
      let s := { station x.1 with rx := { State.reset.rx with count := 20000, settled := 20000 } };
      let f := Frame.beacon (header1 .active 20000) .periodic x.2 5;
      Arrives s (frameChars f) f ∧ s.stn.onLine = true
        ∧ (let r := headed s (header1 .active 20000); r.2 = true ∧ r.1.stn.state = x.1 ∧ r.1.members = []))
    ∧ (let f := Frame.beacon (header1 .active 257) .periodic 0 0;
      Arrives (station .active) (frameChars f) f ∧ (headed (station .active) (header1 .active 257)).2 = false) := by
  refine ⟨fun x hx st hst => ⟨arrives_of rfl rfl ?_, ?_, ?_⟩, ⟨arrives_of rfl rfl (by decide +kernel), by decide +kernel⟩,
    ⟨arrives_of rfl rfl (by decide +kernel), by decide +kernel⟩,
    fun x hx => ⟨arrives_of rfl rfl ?_, ?_, ?_⟩, arrives_of rfl rfl (by decide +kernel), by decide +kernel⟩
  iterate 3 · revert x st; decide +kernel
  all_goals revert x; decide +kernel

theorem witness_DuplicateNumberHalts :
    (∀ s ∈ [station .active, withOutbound (station .active), station .leaving, holding 1],
      Live s ∧ s.receiving = true ∧ readFrame (frameChars ownNotice) = some ownNotice
        ∧ (Frame.header ownNotice).sender = s.line.id)
    ∧ PendingBaseSound (holding 1) ∧ (holding 1).storedNotices = [stored1 2] := by
  refine ⟨fun s hs => ⟨live_quiet ?_ ?_, ?_⟩, fun h => absurd rfl h, rfl⟩
  all_goals revert s; decide +kernel

/-! Timers. -/

theorem witness_ListenExpiryFounds : let s := listening (.running 20);
    (Live s ∧ s.stn.state = .listen ∧ OffLineEmpty s ∧ PendingBaseSound s) ∧ s.stn.listenTimer ≠ .stopped
      ∧ Live { s with line := { s.line with timing := .idle 3 } } := by
  exact ⟨listening_sound none (.running 20), by decide +kernel, live_quiet rfl rfl⟩

/-- A joining station with its timer running. -/
def joining : State := { station .joining with stn := { (station .joining).stn with joinTimer := .running 80 } }

theorem witness_JoinExpiryFails :
    (Live joining ∧ joining.stn.state = .joining ∧ joining.stn.joinTimer ≠ .stopped ∧ joining.line.ownFrame = none
      ∧ joining.line.window = none ∧ PendingBaseSound joining ∧ joining.commit.provisional = none)
    ∧ (let s := { joining with rx := (holding 1).rx, pool := (holding 1).pool };
      Live s ∧ s.stn.state = .joining ∧ s.stn.joinTimer ≠ .stopped ∧ s.line.ownFrame = none ∧ s.line.window = none
        ∧ PendingBaseSound s ∧ s.commit.provisional = none ∧ s.rx.holdSet = [stored1 2])
    ∧ (let s := inWindow (window1 .receiver 0 false) joining;
      Live s ∧ s.stn.state = .joining ∧ s.stn.joinTimer ≠ .stopped ∧ s.line.window ≠ none) :=
  ⟨⟨live_quiet rfl rfl, rfl, by decide +kernel, rfl, rfl, fun h => absurd rfl h, rfl⟩,
    ⟨live_quiet rfl rfl, rfl, by decide +kernel, rfl, rfl, fun h => absurd rfl h, rfl, rfl⟩,
    live_quiet rfl rfl, rfl, by decide +kernel⟩

theorem witness_BeaconAndPresenceExpiry :
    (let s := { station .active with stn := { (station .active).stn with beaconTimer := .running 10 } };
      Live s ∧ s.stn.state = .active ∧ s.stn.beaconTimer ≠ .stopped)
    ∧ (Live (withMember (station .active)) ∧ (withMember (station .active)).members = [] ++ member1 :: [])
    ∧ (Live (station .active) ∧ (station .active).members = []) :=
  ⟨⟨live_quiet rfl rfl, rfl, by decide +kernel⟩, ⟨live_quiet rfl rfl, rfl⟩, live_quiet rfl rfl, rfl⟩

theorem witness_RepairExpiry :
    (∀ a ∈ [0, 1], let s := { missingTwo with gaps := [{ gap1 .waiting with last := 2, attempts := a }] };
      Live s ∧ OrderSound s ∧ NothingToAdvance s ∧ s.gaps = [] ++ { gap1 .waiting with last := 2, attempts := a } :: []
        ∧ s.cfg.repairLimit = 1 ∧ s.rx.settled + 1 = 1 ∧ s.pool.freeDescs = 0 :: (List.range 63).map (1 + ·))
    ∧ (let s := { missingTwo with gaps := [{ gap1 .waiting with first := 2, last := 2 }] };
      Live s ∧ OrderSound s ∧ AdvanceRests s ∧ s.cfg.repairLimit ≤ 1 ∧ (2 : LineNo) ≠ s.rx.settled + 1)
    ∧ (∀ s ∈ [noDesc missingTwo, basePending missingTwo],
      Live s ∧ OrderSound s ∧ AdvanceRests s
        ∧ s.gaps = [] ++ { gap1 .waiting with last := 2 } :: [] ∧ s.cfg.repairLimit ≤ 1 ∧ s.rx.settled + 1 = 1)
    ∧ (noDesc missingTwo).pool.freeDescs = [] ∧ (basePending missingTwo).pool.pendingBase ≠ none := by
  refine ⟨fun a ha => ⟨live_quiet rfl rfl, order_of ?_, ?_, rfl, rfl, rfl, ?_⟩,
    ⟨live_quiet rfl rfl, order_of (by decide +kernel), ?_, by decide +kernel⟩, fun s hs => ⟨live_quiet ?_ ?_, order_of ?_, ?_, ?_⟩, rfl,
    by decide +kernel⟩
  · revert a; decide +kernel
  · unfold NothingToAdvance; revert a; decide +kernel
  · revert a; decide +kernel
  · unfold AdvanceRests; decide +kernel
  · revert s; decide +kernel
  · revert s; decide +kernel
  · revert s; decide +kernel
  · unfold AdvanceRests; revert s; decide +kernel
  · revert s; decide +kernel

/-! Shared operations and invariants. -/

theorem witness_ReleaseInOrder : ((withRetained (station .active)).members = []
      ∧ (withRetained (station .active)).line.ownFrame = none)
    ∧ (withMember (withRetained (station .active))).members = [member1]
    ∧ (let s := driving (.replay 0) resend1 { withRetained (station .active) with
        members := [member1, { member1 with station := 2, settled := 65535 }] };
      s.keptByRelease = [retained1]
        ∧ ({ s with line := (station .active).line, members := [member1] } : State).keptByRelease = [])
    ∧ (let s := { withRetained (station .active) with
        members := [member1, { member1 with station := 2, settled := 32768 }] };
      s.members = [member1, { member1 with station := 2, settled := 32768 }]
        ∧ atOrBefore retained1.lineNo (serialMin 0 [32768]) = true ∧ unordered retained1.lineNo 32768 = true
        ∧ s.keptByRelease = [retained1]) :=
  ⟨⟨rfl, rfl⟩, rfl, by decide +kernel⟩

theorem witness_AdvanceRunsToTheEnd : OrderSound (withGap .lost (station .active))
    ∧ OrderSound (basePending (withGap .lost (station .active)))
    ∧ (basePending (withGap .lost (station .active))).pool.pendingBase ≠ none
    ∧ (let s := { missingTwo with rx := { missingTwo.rx with known := 1 } };
      OrderSound s ∧ s.advance.rx.settled = 1 ∧ s.advance.gaps = [{ gap1 .waiting with first := 2, last := 2 }]) := by
  refine ⟨order_of (by decide +kernel), order_of (by decide +kernel), by decide +kernel,
    ⟨by decide +kernel, fun i hi => ?_, by decide +kernel, by decide +kernel, by decide +kernel, by decide +kernel,
      by decide +kernel, by decide +kernel⟩, by decide +kernel⟩
  have h2 : 2 ≤ i := hi
  show (1 : BitVec 256).getLsbD i = false
  simp; omega

theorem witness_ResyncEffects : PendingBaseSound (station .active)
    ∧ PendingBaseSound (basePending (station .active))
    ∧ (PendingBaseSound (holding 1) ∧ (holding 1).storedNotices = [stored1 2])
    ∧ (atSlot (station .active)).line.timing = .idle 0 :=
  ⟨fun h => absurd rfl h, fun _ => ⟨rfl, rfl, rfl⟩, ⟨fun h => absurd rfl h, rfl⟩, rfl⟩

/-! The horizon at every count that is set or rises (R15). -/

/-- At count `n`, stations 1 and 3 lie just beyond the horizon on either side, station 2 on its edge. -/
def edgeMembers (n : LineNo) (s : State) : State :=
  { s with members := [(1, n - 16385), (2, n - 16384), (3, n + 16385)].map fun x =>
      { member1 with station := x.1, settled := x.2 } }

/-- What every clause asks of a station whose table the horizon of count `n` thins. -/
def Thinned (n : LineNo) (s : State) : Prop :=
  Live s ∧ NothingHeld s ∧ PendingBaseSound s ∧ s.horizonReports n = [.memberLost 1 .horizon, .memberLost 3 .horizon]
    ∧ (s.keptAtHorizon n).map (·.station) = [2]

theorem thinned_of {n : LineNo} {s : State} (h1 : s.pins = { resetLow := false, attnLow := false })
    (h2 : s.cfg.attention = { delivery := false, backlog := false, room := false, report := false })
    (h3 : s.stn.leaveHeld = false ∧ s.stn.joinExpiryHeld = false ∧ s.pool.pendingBase = none
      ∧ s.horizonReports n = [.memberLost 1 .horizon, .memberLost 3 .horizon]
      ∧ (s.keptAtHorizon n).map (·.station) = [2]) : Thinned n s :=
  ⟨live_quiet h1 h2, ⟨h3.1, h3.2.1⟩, fun h => absurd h3.2.2.1 h, h3.2.2.2⟩

/-- A clean and a refused window at receiver and sender, adoption at a window's end and at a frame's check pass, founding. -/
theorem witness_horizonThins :
    (∀ r ∈ [WindowRole.receiver, .sender], Thinned 1 (inWindow (window1 r 0 false) (edgeMembers 1 (withOutbound (station .active))))
      ∧ Thinned 256 (inWindow (window1 r 256 false) (edgeMembers 256 (withOutbound (station .joining)))))
    ∧ (Thinned 8 (inWindow (window1 .adopting 7 false) (edgeMembers 8 (listening .stopped)))
      ∧ Thinned 0 (edgeMembers 0 (listening (.running 20))))
    ∧ (Thinned 7 (edgeMembers 7 (listening (.running 20)))
      ∧ (∀ f ∈ [Frame.replay (header1 .active 7) (body1 7), .resend (header1 .joining 7) (.openFrom 8),
          .beacon (header1 .active 7) .periodic 1 5, .beacon (header1 .leaving 7) .leave 0 5],
        Arrives (edgeMembers 7 (listening (.running 20))) (frameChars f) f)
      ∧ ∀ m ∈ (edgeMembers 7 (listening (.running 20))).keptAtHorizon 7, m.station ≠ (header1 .active 7).sender) := by
  refine ⟨fun r hr => ⟨thinned_of rfl rfl ?_, thinned_of rfl rfl ?_⟩,
    ⟨thinned_of rfl rfl (by decide +kernel), thinned_of rfl rfl (by decide +kernel)⟩,
    thinned_of rfl rfl (by decide +kernel), fun f hf => arrives_of rfl rfl ?_, by decide +kernel⟩
  · revert r; decide +kernel
  · revert r; decide +kernel
  · revert f; decide +kernel

/-- The horizon's reports come first, in station-number order, before the STATE report of a resync, an adoption or founding
(R15, logs 12, 27), and before that of a held LEAVE; a sender that it took out is then a new member. -/
theorem test_horizonReports :
    let lost : List Report := [.memberLost 1 .horizon, .memberLost 3 .horizon]
    let reports (c : Instr) (s : State) : List Report := (after c s).port.reports
    reports .windowEndReceiver (inWindow (window1 .receiver 0 false) (edgeMembers 1 (station .active))) = lost
    ∧ reports .windowEndSender (inWindow (window1 .sender 256 false) (edgeMembers 256 (withOutbound (station .active))))
      = lost ++ [.stateChange .active .joining .resyncSpan]
    ∧ reports .windowEndSender (leaveHeld (inWindow (window1 .sender 0 false) (edgeMembers 1 (withOutbound (station .active)))))
      = lost ++ [.stateChange .active .leaving .leaveCommand]
    ∧ reports (.resendReceived (frameChars (.resend (header1 .joining 7) (.openFrom 8)))) (edgeMembers 7 (listening (.running 20)))
      = lost ++ [.stateChange .listen .joining .adoption, .memberJoined 1]
    ∧ reports .listenTimerExpiry (edgeMembers 0 (listening (.running 20))) = lost ++ [.stateChange .listen .active .founding] := by
  decide +kernel

/-- A table that the horizon empties releases what is retained, at a clean window and at founding (R15, R79). -/
theorem test_horizonReleases :
    (after .windowEndSender (inWindow (window1 .sender 0 false) (farMembers (withOutbound (withRetained (station .active)))))
      ).send.retained = []
    ∧ (after .listenTimerExpiry { withRetained (listening (.running 20)) with members := [{ member1 with settled := 16385 }] }
      ).send.retained = []
    ∧ (after .listenTimerExpiry { withRetained (listening (.running 20)) with members := [{ member1 with settled := 49152 }] }
      ).send.retained = [retained1] := by decide +kernel

/-- An ACTIVE station between frames, nothing stored, meets every invariant, and a step from it answers a next state: the
hypotheses of the statements that every step keeps. -/
theorem witness_invariants : let s := { station .active with pending := [.lineIdle] };
    AttnFollows s ∧ CountsBounded s ∧ Memory.wf s.pool.cells = true ∧ LineSound s ∧ MembersSound s ∧ OffLineEmpty s
      ∧ PendingBaseSound s ∧ ProvisionalSound s ∧ StorageConserved s ∧ SendSound s ∧ OrderSound s ∧ GapsCover s
      ∧ StampSound s ∧ BaseWaitsAtSettled s ∧ ChainsSized s ∧ RetainedRise s ∧ ∃ t, step s = .next t := by
  refine ⟨(live_quiet rfl rfl).2, by unfold CountsBounded; decide +kernel, by decide +kernel, ?_, ⟨List.Pairwise.nil, ?_⟩, ?_,
    fun h => absurd rfl h, fun h => absurd rfl h, ⟨?_, ?_⟩, ?_, order_of (by decide +kernel), ?_, ?_, ?_,
    ?_, ?_, _, rfl⟩
  · unfold LineSound; simp [station, State.reset, State.atReset, StationBlock.hearsLine]
  · simp [station, State.reset, State.atReset]
  · unfold OffLineEmpty; decide +kernel
  · decide +kernel
  · decide +kernel
  · exact ⟨rfl, rfl, by decide +kernel, by decide +kernel, ⟨0, rfl⟩, by simp [station, State.reset, State.atReset],
      by simp [station, State.reset, State.atReset], by simp [station, State.reset, State.atReset]⟩
  · exact fun _ => Covered_of_set rfl
  · unfold StampSound; simp [station, State.reset, State.atReset]
  · unfold BaseWaitsAtSettled; simp [station, State.reset, State.atReset]
  · unfold ChainsSized; simp [station, State.reset, State.atReset, State.storedNotices]
  · unfold RetainedRise; simp [station, State.reset, State.atReset]

/-- Two retained notices whose numbers rise; and a NOTICE record on the cell of its length, the storage conserved. -/
theorem witness_storedAndRetained :
    (let s := { station .active with send := { State.reset.send with retained := [retained1, { retained1 with number := some 1 }] } };
      RetainedRise s ∧ ¬RetainedRise { s with send := { s.send with retained := [retained1, retained1] } })
    ∧ (let s := withRecord (.notice (stored1 1)) (station .active);
      StorageConserved s ∧ ChainsSized s ∧ OffLineEmpty s ∧ ProvisionalSound s) := by
  refine ⟨⟨⟨?_, ?_⟩, ?_⟩, ⟨by decide +kernel, by decide +kernel⟩, ?_, ?_, fun h => absurd rfl h⟩
  · simp [retained1, SendNotice.lineNo]; decide
  · intro n _; simp [station, State.reset, State.atReset]
  · unfold RetainedRise; simp [retained1, SendNotice.lineNo, follows]
  · unfold ChainsSized
    simp [withRecord, lessOne, station, State.reset, State.atReset, State.storedNotices, stored1, cellsFor]
  · unfold OffLineEmpty; decide +kernel

/-- Records in order of delivery; a BASE record begins a period anew; and what is out of order is none (R14). -/
theorem witness_deliveryInOrder :
    InOrder 1024 0 0 [.notice (stored1 2), .lost 3 4 0, .base { reason := .resyncSpan, number := 900, superseded := false } 0,
      .notice (stored1 901)] 900 7
    ∧ ¬InOrder 1024 0 0 [.notice (stored1 2), .notice (stored1 2)] 0 7
    ∧ ¬InOrder 1024 0 0 [.lost 1 2 0, .notice (stored1 2)] 0 7
    ∧ BaseWaitsAtSettled { basePending (station .active) with rx := { State.reset.rx with settled := 9 } } := by
  refine ⟨by simp [InOrder, stored1], by simp [InOrder, stored1], by simp [InOrder, stored1], fun b h => ?_⟩
  cases h; rfl

end Sys2Proof.Tests
end

