-- ==== Sys2Proof/Proofs/CellPool.lean ====
section
/-!
PROOF. The cell pool: how many cells a payload takes, and that it reads back from them (R57).
-/

namespace Sys2Proof.Machine

/-- The number of cells, length by length, as R57 tables it. -/
theorem cellsFor_eq_table {len : Nat} (h : len ≤ 64) :
    cellsFor len = if len ≤ 16 then 1 else if len ≤ 32 then 2 else if len ≤ 48 then 3 else 4 := by
  unfold cellsFor
  split_ifs <;> omega

/-- Settles O6: the table by cases on the length; for a chain with room for the payload, the reading, the placing and the
frame are each the law of cell memory for `Memory.writeChain`, and the length read is `Memory.readChain_length`. -/
theorem payloadReadsBack : Obligations.PayloadReadsBack := by
  refine ⟨fun _ => cellsFor_eq_table, fun m chain payload hwf hnodup hlen _ => ?_⟩
  have hroom : payload.length ≤ 16 * chain.length := hlen ▸ length_le_cells _
  refine ⟨?readsBack, ?placed, ?exactLength, ?frame⟩
  case readsBack => exact Memory.readChain_writeChain hwf chain payload hnodup hroom
  case placed => exact fun _ _ _ hcell hi hbyte => Memory.read_writeChain hwf chain payload hnodup hcell hi hbyte
  case exactLength => exact fun other => Memory.readChain_length other chain payload.length hroom
  case frame => exact Memory.read_writeChain_of_notMem hwf chain payload

end Sys2Proof.Machine
end

section
/-!
PROOF. The POST command: how far its argument bytes have got, the order of its tests, and a POST cut short
(R71, R167, R170).
-/

namespace Sys2Proof.Machine

/-! ### The argument bytes -/

/-- The states in which a POST is taken (R71). -/
theorem StationBlock.takesPosts_iff (b : StationBlock) :
    b.takesPosts = true ↔ b.state = .listen ∨ b.state = .joining ∨ b.state = .active := by
  unfold StationBlock.takesPosts
  cases b.state <;> simp

/-- A POST is decided at its length byte or its last payload byte; what follows is ignored (R71, R170). -/
theorem readPost_eq_decided {topic len : Byte} {payload : List Byte} (extra : List Byte)
    (h : payload.length = if len.toNat ≤ 64 then len.toNat else 0) :
    readPost (topic :: len :: (payload ++ extra)) = .decided topic len payload := by
  by_cases hlen : len.toNat ≤ 64
  · have hall : payload.length = len.toNat := by rw [h, if_pos hlen]
    simp [readPost, Config.maxPayload, ← hall, hall ▸ hlen]
  · have hnone : payload = [] := List.length_eq_zero_iff.mp (by rw [h, if_neg hlen])
    simp [readPost, Config.maxPayload, hnone, Nat.lt_of_not_le hlen]

/-- With no length byte, or fewer payload bytes than a length up to 64 asks for, a POST is not decided (R71). -/
theorem readPost_eq_incomplete {topic len : Byte} {few : List Byte}
    (h : few.length < 2 ∨ ∃ p, few = topic :: len :: p ∧ len.toNat ≤ 64 ∧ p.length < len.toNat) :
    readPost few = .incomplete := by
  rcases h with hshort | ⟨p, rfl, hlen, hcut⟩
  · match few, hshort with
    | [], _ => rfl
    | [_], _ => rfl
  · simp [readPost, Config.maxPayload, Nat.not_lt.mpr hlen, hcut]

/-! ### The transaction -/

/-- A transaction with no command yet awaits one. -/
theorem State.awaiting_of_link {s : State} {x : Byte} (hl : s.port.link = .transaction x .awaiting) :
    s.awaiting = true := by simp [State.awaiting, hl]

/-- A phase is set in the open transaction, whose summary byte stands. -/
theorem State.setPhase_of_link {s : State} {x : Byte} {p : Phase} (hl : s.port.link = .transaction x p) (q : Phase) :
    s.setPhase q = { s with port := { s.port with link := .transaction x q } } := by simp [State.setPhase, hl]

/-- A POST's answer is the decision of the transaction and the last-command result, and nothing else. -/
theorem State.answerPost_eq {s : State} {x : Byte} {p : Phase} (hl : s.port.link = .transaction x p) (taken : Nat)
    (code : ResultCode) (tag : Option Tag) :
    s.answerPost taken code tag = { s with port :=
      { decidedIn s x taken [ResultCode.code code, tag.getD 0] .nothing with result := ⟨code, tag⟩ } } :=
  State.setPhase_of_link (s := s.setResult code tag) hl _

/-- While ATTN# follows its causes, a change of the port that leaves the report queue alone leaves ATTN# alone. -/
theorem State.settleAttn_withPort {s : State} (h : AttnFollows s) {p : PortBlock}
    (hp : p.reports = s.port.reports) :
    State.settleAttn { s with port := p } = { s with port := p } := by
  apply State.settleAttn_eq_self
  have hwanted : State.attentionWanted { s with port := p } = s.attentionWanted :=
    State.attentionWanted_congr rfl rfl rfl rfl hp
  unfold AttnFollows
  rw [hwanted]
  exact h

/-- A rise of CS# that cuts a command's arguments short sets TRUNCATED and closes the transaction (R167). -/
theorem exec_csRise_of_incomplete {s : State} (hs : Live s) (x : Byte) (clocked : Nat) :
    exec (.csRise clocked) { s with port := { s.port with link := .transaction x .incomplete } }
      = .next { s with port := { s.port with link := .closed, result := ⟨.truncated, none⟩ } } := by
  obtain ⟨hlow, hattn⟩ := hs
  have hshut := State.settleAttn_withPort hattn
    (p := { s.port with link := .closed, result := ⟨.truncated, none⟩ }) rfl
  have hrise := event_live (f := (·.closeTransaction clocked .incomplete))
    (s := { s with port := { s.port with link := .closed } }) hlow
  exact hrise.trans (congrArg _ hshut)

/-! ### The command -/

/-- POST is `execPost`. -/
theorem exec_post (args : List Byte) (s : State) : exec (.post args) s = execPost args s := rfl

/-- The tests of a decided POST, in R71's order. -/
theorem exec_post_of_decided {s : State} {x topic len : Byte} {args payload : List Byte} (hs : Live s)
    (hl : s.port.link = .transaction x .awaiting) (hread : readPost args = .decided topic len payload) :
    exec (.post args) s = .next (State.settleAttn
      (if s.stn.takesPosts = true then
        if topic.toNat ≤ 31 ∧ len.toNat ≤ 64 then
          if cellsFor len.toNat ≤ s.freeSendCells ∧ 1 ≤ s.freeSendDescs then
            (s.storePost (topic.setWidth 5) payload).answerPost (2 + payload.length) .accepted (some s.send.tagCounter)
          else s.answerPost (2 + payload.length) .noRoom none
        else s.answerPost (2 + payload.length) .badLen none
      else s.answerPost (2 + payload.length) .wrongState none)) := by
  have htakes : (!s.stn.takesPosts) = true ↔ ¬s.stn.takesPosts = true := by simp
  have hfits : (31 < topic.toNat ∨ Config.maxPayload < len.toNat) ↔ ¬(topic.toNat ≤ 31 ∧ len.toNat ≤ 64) := by
    unfold Config.maxPayload; omega
  have hroom : (s.freeSendCells < cellsFor len.toNat ∨ s.freeSendDescs < 1)
      ↔ ¬(cellsFor len.toNat ≤ s.freeSendCells ∧ 1 ≤ s.freeSendDescs) := by omega
  rw [exec_post, execPost, command_awaiting hs.1 (State.awaiting_of_link hl)]
  simp only [hread, htakes, hfits, hroom, ite_not]

/-- A refused POST changes the result and the response only (R71): its answer, with ATTN# as it was. -/
theorem State.settleAttn_answerPost {s : State} {x : Byte} {p : Phase} (h : AttnFollows s)
    (hl : s.port.link = .transaction x p) (taken : Nat) (code : ResultCode) (tag : Option Tag) :
    (s.answerPost taken code tag).settleAttn = { s with port :=
      { decidedIn s x taken [ResultCode.code code, tag.getD 0] .nothing with result := ⟨code, tag⟩ } } := by
  rw [State.answerPost_eq hl]
  exact State.settleAttn_withPort h rfl

/-- A POST whose arguments are not complete leaves the transaction so, and changes nothing else (R167). -/
theorem exec_post_of_incomplete {s : State} {x : Byte} {args : List Byte} (hs : Live s)
    (hl : s.port.link = .transaction x .awaiting) (hread : readPost args = .incomplete) :
    exec (.post args) s = .next { s with port := { s.port with link := .transaction x .incomplete } } := by
  rw [exec_post, execPost, command_awaiting hs.1 (State.awaiting_of_link hl)]
  simp only [hread, State.setPhase_of_link hl]
  exact congrArg _ (State.settleAttn_withPort hs.2 (p := { s.port with link := .transaction x .incomplete }) rfl)

/-- Settles O13: each refusal is one branch of the tests with the answer it gives; storing a post leaves the port to the
answer; a POST cut short is an incomplete one, closed by the rise of CS#. -/
theorem postDecided : Obligations.PostDecided := by
  intro s x topic len payload extra hs hl hlen
  have hread := readPost_eq_decided (topic := topic) extra hlen
  have htakes := s.stn.takesPosts_iff
  refine ⟨fun ht => ?wrongState, fun ht hf => ?badLen, fun ht hf hr => ?noRoom, fun ht hf hr => ?accepted,
    fun few n hfew => ?truncated⟩
  case wrongState =>
    rw [exec_post_of_decided hs hl hread, if_neg (mt htakes.mp ht), State.settleAttn_answerPost hs.2 hl]
    rfl
  case badLen =>
    rw [exec_post_of_decided hs hl hread, if_pos (htakes.mpr ht), if_neg hf, State.settleAttn_answerPost hs.2 hl]
    rfl
  case noRoom =>
    rw [exec_post_of_decided hs hl hread, if_pos (htakes.mpr ht), if_pos hf,
      if_neg (c := cellsFor len.toNat ≤ s.freeSendCells ∧ 1 ≤ s.freeSendDescs) hr, State.settleAttn_answerPost hs.2 hl]
    rfl
  case accepted =>
    refine ⟨_, exec_post_of_decided hs hl hread, ?_⟩
    rw [if_pos (htakes.mpr ht), if_pos hf,
      if_pos (c := cellsFor len.toNat ≤ s.freeSendCells ∧ 1 ≤ s.freeSendDescs) hr,
      State.answerPost_eq (s := s.storePost (topic.setWidth 5) payload) hl]
    rfl
  case truncated =>
    exact ⟨_, exec_post_of_incomplete hs hl (readPost_eq_incomplete hfew), exec_csRise_of_incomplete hs x n⟩

end Sys2Proof.Machine
end

section
/-!
PROOF. The START command: its record's fields and their ranges, the order of its tests, and a START cut short
(R134, R167, R186).
-/

namespace Sys2Proof.Machine

/-! ### The record -/

/-- Two bytes, the high one first, as a number (R183). -/
theorem of16_toNat (hi lo : Byte) : (of16 hi lo).toNat = 256 * hi.toNat + lo.toNat := by
  have hlo : lo.toNat < 2 ^ 8 := lo.isLt
  rw [of16, BitVec.toNat_append, ← Nat.shiftLeft_add_eq_or_of_lt hlo, Nat.shiftLeft_eq]
  omega

/-- Bytes that are not sixteen are not a START record (R186). -/
theorem readStartRecord_eq_none {bytes : List Byte} (h : bytes.length ≠ 16) : readStartRecord bytes = none := by
  unfold readStartRecord
  split
  · exact absurd rfl h
  · rfl

/-- The ranges of R134 and R186, field by field. -/
theorem startInRange_iff (c : StartConfig) (attention : Byte) :
    startInRange c attention = true ↔
      (c.sendSize = 32 ∨ c.sendSize = 64 ∨ c.sendSize = 128) ∧ 10 ≤ c.beaconInterval ∧ c.beaconInterval ≤ 1000
        ∧ 3 ≤ c.presenceMultiple ∧ c.presenceMultiple ≤ 15 ∧ 2 ≤ c.listenMultiple ∧ c.listenMultiple ≤ 15
        ∧ 1 ≤ c.repairInterval ∧ c.repairInterval ≤ 255 ∧ 1 ≤ c.repairLimit ∧ c.repairLimit ≤ 15
        ∧ c.backlogLimit ≤ 63 ∧ c.roomLimit ≤ c.sendSize - 1 ∧ attention.toNat < 16 := by
  simp only [startInRange, Bool.and_eq_true, Bool.or_eq_true, beq_iff_eq, decide_eq_true_eq, and_assoc, or_assoc]

/-! ### Answers that only decide the transaction -/

/-- A one-byte answer is the decision of the transaction and the last-command result, and nothing else (R168). -/
theorem State.answer_eq {s : State} {x : Byte} {p : Phase} (hl : s.port.link = .transaction x p) (taken : Nat)
    (code : ResultCode) :
    s.answer taken code = { s with port :=
      { decidedIn s x taken [ResultCode.code code] .nothing with result := ⟨code, none⟩ } } :=
  State.setPhase_of_link (s := s.setResult code none) hl _

/-- A command that only answers changes the result and the response only: ATTN# stays as it was. -/
theorem command_of_answer {s : State} {x : Byte} {f : State → State} {taken : Nat} {code : ResultCode} (hs : Live s)
    (hl : s.port.link = .transaction x .awaiting) (hf : f s = s.answer taken code) :
    command f s = .next { s with port :=
      { decidedIn s x taken [ResultCode.code code] .nothing with result := ⟨code, none⟩ } } := by
  rw [command_awaiting hs.1 (State.awaiting_of_link hl), hf, State.answer_eq hl]
  exact congrArg _ (State.settleAttn_withPort hs.2 rfl)

/-- A command whose arguments are not complete leaves the transaction so, and changes nothing else (R167). -/
theorem command_of_incomplete {s : State} {x : Byte} {f : State → State} (hs : Live s)
    (hl : s.port.link = .transaction x .awaiting) (hf : f s = s.setPhase .incomplete) :
    command f s = .next { s with port := { s.port with link := .transaction x .incomplete } } := by
  rw [command_awaiting hs.1 (State.awaiting_of_link hl), hf, State.setPhase_of_link hl]
  exact congrArg _ (State.settleAttn_withPort hs.2 rfl)

/-! ### The command -/

/-- START is `execStart`. -/
theorem exec_start (args : List Byte) (s : State) : exec (.start args) s = execStart args s := rfl

/-- The open transaction stays open through an accepted START. -/
theorem State.applyStart_link (s : State) (c : StartConfig) (word : Word16) :
    (s.applyStart c word).port.link = s.port.link := by simp [State.applyStart]

/-- An accepted START enters LISTEN with the record as its configuration, and its status word (R134, R135). -/
theorem State.applyStart_stn (s : State) (c : StartConfig) (word : Word16) :
    (s.applyStart c word).stn.state = .listen ∧ (s.applyStart c word).stn.word = word
      ∧ (s.applyStart c word).stn.config = some c := by simp [State.applyStart]

section Record

variable {s : State} {x : Byte} {args : List Byte} {c : StartConfig} {attention : Byte} {word : Word16}

/-- The state is tested before the record: outside IDLE a START is in the wrong state, whatever it holds (R134). -/
theorem exec_start_wrongState (hs : Live s) (hl : s.port.link = .transaction x .awaiting)
    (hread : readStartRecord (args.take 16) = some (c, attention, word)) (hstate : s.stn.state ≠ .idle) :
    exec (.start args) s = .next { s with port :=
      { decidedIn s x 16 [ResultCode.code .wrongState] .nothing with result := ⟨.wrongState, none⟩ } } := by
  rw [exec_start, execStart]
  exact command_of_answer hs hl (by simp only [hread, if_pos hstate])

/-- In IDLE a record with a field out of range is refused (R134). -/
theorem exec_start_badConfig (hs : Live s) (hl : s.port.link = .transaction x .awaiting)
    (hread : readStartRecord (args.take 16) = some (c, attention, word)) (hidle : s.stn.state = .idle)
    (hout : ¬startInRange c attention = true) :
    exec (.start args) s = .next { s with port :=
      { decidedIn s x 16 [ResultCode.code .badConfig] .nothing with result := ⟨.badConfig, none⟩ } } := by
  rw [exec_start, execStart]
  exact command_of_answer hs hl (by simp [hread, hidle, hout])

/-- In IDLE a record in range is taken: the effects of START, the answer, and then ATTN# (R134, R135). -/
theorem exec_start_accepted (hs : Live s) (hl : s.port.link = .transaction x .awaiting)
    (hread : readStartRecord (args.take 16) = some (c, attention, word)) (hidle : s.stn.state = .idle)
    (hin : startInRange c attention = true) :
    exec (.start args) s = .next ((s.applyStart c word).answer 16 .accepted).settleAttn := by
  rw [exec_start, execStart, command_awaiting hs.1 (State.awaiting_of_link hl)]
  simp [hread, hidle, hin]

end Record

/-- A START cut short leaves the transaction incomplete, and changes nothing else (R134, R167). -/
theorem exec_start_of_incomplete {s : State} {x : Byte} {few : List Byte} (hs : Live s)
    (hl : s.port.link = .transaction x .awaiting) (hfew : few.length < 16) :
    exec (.start few) s = .next { s with port := { s.port with link := .transaction x .incomplete } } := by
  have hread : readStartRecord (few.take 16) = none := readStartRecord_eq_none (by rw [List.length_take]; omega)
  rw [exec_start, execStart]
  exact command_of_incomplete hs hl (by simp only [hread])

/-- Settles O11: each outcome is one branch of START's tests on the record its sixteen bytes spell, whose range test is the
statement's, field by field; a START cut short is an incomplete one, closed by the rise of CS#. -/
theorem startDecided : Obligations.StartDecided := by
  intro s x b1 b2 b3 b4 b5 b6 b7 b8 b9 b10 b11 b12 b13 b14 b15 b16 hs hl args interval inRange
  have hread : readStartRecord (args.take 16) = some (_, b14, of16 b15 b16) := rfl
  rw [of16_toNat] at hread
  have hrange (topics : Set32) (causes : AttentionSet) : startInRange
      { sendSize := b1.toNat, topics := topics, beaconInterval := interval, presenceMultiple := b8.toNat
        listenMultiple := b9.toNat, repairInterval := b10.toNat, repairLimit := b11.toNat, backlogLimit := b12.toNat
        roomLimit := b13.toNat, attention := causes } b14 = true ↔ inRange := by
    have hbyte : b10.toNat ≤ 255 := Nat.le_of_lt_succ b10.isLt
    have h32 : b1 = 32 ↔ b1.toNat = 32 := BitVec.toNat_inj.symm
    have h64 : b1 = 64 ↔ b1.toNat = 64 := BitVec.toNat_inj.symm
    have h128 : b1 = 128 ↔ b1.toNat = 128 := BitVec.toNat_inj.symm
    simp only [startInRange_iff, inRange, h32, h64, h128]
    omega
  refine ⟨fun hstate => ?wrongState, fun hidle hout => ?badConfig, fun hidle hin => ?accepted,
    fun few n hfew => ?truncated⟩
  case wrongState => exact exec_start_wrongState hs hl hread hstate
  case badConfig => exact exec_start_badConfig hs hl hread hidle (mt (hrange _ _).mp hout)
  case accepted =>
    refine ⟨_, exec_start_accepted hs hl hread hidle ((hrange _ _).mpr hin), ?_⟩
    rw [State.answer_eq ((State.applyStart_link ..).trans hl)]
    exact ⟨rfl, rfl, State.applyStart_stn ..⟩
  case truncated => exact ⟨_, exec_start_of_incomplete hs hl hfew, exec_csRise_of_incomplete hs x n⟩

end Sys2Proof.Machine
end

section
/-!
PROOF. The STATUS command: the bits of its flags and result bytes, and a rise of CS# at which nothing leaves
(R178, R188, R167).
-/

namespace Sys2Proof.Machine

/-! ### The bytes that gather bits -/

/-- A flag as bit `i` of a byte shows in that bit only. -/
theorem getLsbD_bitAt (i : Nat) (b : Bool) {j : Nat} (hj : j < 8) :
    (bitAt i b).getLsbD j = (decide (i = j) && b) := by
  cases b with
  | false => simp [bitAt]
  | true =>
    rw [bitAt, if_pos rfl, BitVec.getLsbD_ofNat, Nat.testBit_two_pow]
    simp [hj]

/-- The flags byte, bit by bit, in R188's order. -/
theorem State.statusFlags_bits (s : State) :
    s.statusFlags.getLsbD 0 = s.rx.backlog ∧ s.statusFlags.getLsbD 1 = s.send.room
      ∧ s.statusFlags.getLsbD 2 = s.port.takeIncomplete ∧ s.statusFlags.getLsbD 3 = s.commit.catchingUp
      ∧ s.statusFlags.getLsbD 4 = s.commit.congested ∧ s.statusFlags.getLsbD 5 = s.pool.pendingBase.isSome
      ∧ s.statusFlags.getLsbD 6 = false ∧ s.statusFlags.getLsbD 7 = false := by
  simp [State.statusFlags, getLsbD_bitAt, -BitVec.getLsbD_eq_getElem]

/-- A result code leaves the result byte's bit 7 free for the tag flag (R185, R188). -/
theorem ResultCode.getLsbD_code_seven (c : ResultCode) : (ResultCode.code c).getLsbD 7 = false := by
  cases c <;> rfl

/-- The result byte: the code in bits 3..0, the tag flag in bit 7 (R188). -/
theorem resultByte_bits (c : ResultCode) (tagged : Bool) :
    (ResultCode.code c ||| bitAt 7 tagged).extractLsb' 0 4 = (ResultCode.code c).extractLsb' 0 4
      ∧ (ResultCode.code c ||| bitAt 7 tagged).getLsbD 7 = tagged := by
  constructor
  · apply BitVec.eq_of_getLsbD_eq
    intro i hi
    have hother : (bitAt 7 tagged).getLsbD i = false := by
      rw [getLsbD_bitAt 7 tagged (by omega), decide_eq_false (by omega), Bool.false_and]
    simp only [BitVec.getLsbD_extractLsb', BitVec.getLsbD_or, Nat.zero_add, hother, Bool.or_false]
  · rw [BitVec.getLsbD_or, ResultCode.getLsbD_code_seven, getLsbD_bitAt 7 tagged (by decide)]
    simp

/-! ### The transaction -/

/-- The rise of CS# is `execCsRise`. -/
theorem exec_csRise (clocked : Nat) (s : State) : exec (.csRise clocked) s = execCsRise clocked s := rfl

/-- The rise of CS# after a response with no effect of its own only closes the transaction, whatever is clocked out
(R167). -/
theorem exec_csRise_of_nothing {s : State} {x : Byte} {taken : Nat} {response : List Byte} (hs : Live s)
    (hl : s.port.link = .transaction x (.decided taken response .nothing)) (clocked : Nat) :
    exec (.csRise clocked) s = .next { s with port := { s.port with link := .closed } } := by
  obtain ⟨hlow, hattn⟩ := hs
  have hevent : exec (.csRise clocked) s = event (·.closeTransaction clocked (.decided taken response .nothing))
      { s with port := { s.port with link := .closed } } := by
    simp only [exec_csRise, execCsRise, hl]
  have hrise := hevent.trans (event_live (s := { s with port := { s.port with link := .closed } }) hlow)
  exact hrise.trans (congrArg _ (State.settleAttn_withPort hattn rfl))

/-! ### The command -/

/-- The two event flags, BACKLOG and ROOM, are cleared, and nothing else changes (R178). -/
def State.eventsCleared (s : State) : State :=
  { s with rx := { s.rx with backlog := false }, send := { s.send with room := false } }

/-- STATUS responds with the record as it stands and clears the two event flags (R178). -/
theorem exec_status (s : State) :
    exec .status s = command (fun u => u.eventsCleared.respond 0 u.statusRecord .nothing) s := rfl

/-- STATUS in an open transaction decides it, the event flags cleared, and ATTN# then follows its causes (R178, R181). -/
theorem exec_status_of_awaiting {s : State} {x : Byte} (hs : Live s) (hl : s.port.link = .transaction x .awaiting) :
    exec .status s
      = .next (State.settleAttn { s.eventsCleared with port := decidedIn s x 0 s.statusRecord .nothing }) := by
  rw [exec_status, command_awaiting hs.1 (State.awaiting_of_link hl)]
  exact congrArg (fun t : State => Host.Outcome.next t.settleAttn) (State.setPhase_of_link (s := s.eventsCleared) hl _)

/-- Settles O18: the read is `exec_status`, whose response has no effect at the rise of CS#; the whole bytes stand in the
record where R188 has them, and the flags and result bytes are read bit by bit. -/
theorem statusReadsAndClears : Obligations.StatusReadsAndClears := by
  intro s x hs hl
  have hlive : Live (State.settleAttn { s.eventsCleared with port := decidedIn s x 0 s.statusRecord .nothing }) :=
    ⟨hs.1, AttnFollows_settleAttn _⟩
  obtain ⟨hbacklog, hroom, htake, hcatching, hcongested, hpending, hsix, hseven⟩ := s.statusFlags_bits
  obtain ⟨hcode, htagged⟩ := resultByte_bits s.port.result.code s.port.result.tag.isSome
  refine ⟨s.statusRecord, _, exec_status_of_awaiting hs hl, hlive.2, rfl, rfl, rfl, rfl, rfl, rfl, rfl, rfl, rfl, rfl,
    hlive.1, exec_csRise_of_nothing hlive rfl, ?length, ?upToFlags, hbacklog, hroom, htake, hcatching, hcongested,
    hpending, hsix, hseven, rfl, rfl, hcode, htagged, rfl, ?counters⟩
  case length | upToFlags | counters => rfl

end Sys2Proof.Machine
end

