-- ==== Sys2Proof/Proofs/Effects.lean ====
section
/-!
SUPPORT. What one command or event can do, said once: `Acts` lists the station's moves with their guards, `Happens` adds the
resets, the edges of CS# and what every command does to its transaction and to ATTN#. The kept invariants are each proved
by cases on them.
-/

namespace Sys2Proof.Machine

/-! ### Moves -/

/-- The station with a new status word (R171). -/
def State.wordSet (s : State) (w : Word16) : State := { s with stn := { s.stn with word := w } }

/-- A valid frame has ended at a station in LISTEN, which adopts: the listen timer stops (R9). -/
def State.heard (s : State) (h : Header) : State :=
  { s.arrival h with stn := { s.stn with listenTimer := .stopped } }

/-- What a valid frame of any kind does at a station on the line (R38, R96, R126, R154). -/
def State.frameArrives : Frame → State → State
  | .notice h b => State.noticeArrives h b
  | .replay h b => State.replayArrives h b
  | .resend h r => State.resendArrives h r
  | .beacon h kind view word => State.beaconArrives h kind view word

/-- What a command or event makes of a station that is not held in reset, but for its transaction and ATTN#. -/
inductive Acts (s : State) : Instr → State → Prop
  | nothing (c : Instr) : Acts s c s
  | started {args : List Byte} (c : StartConfig) (w : Word16) (hs : s.stn.state = .idle)
      (hc : c.sendSize = 32 ∨ c.sendSize = 64 ∨ c.sendSize = 128) : Acts s (.start args) (s.applyStart c w)
  | posted {args : List Byte} (topic : Topic) (payload : List Byte) (hs : s.stn.takesPosts = true)
      (hl : payload.length ≤ 64) (hc : cellsFor payload.length ≤ s.freeSendCells) (hd : 1 ≤ s.freeSendDescs) :
      Acts s (.post args) (s.storePost topic payload)
  | statusRead : Acts s .status s.eventsCleared
  | wordTaken {args : List Byte} (w : Word16) : Acts s (.word args) (s.wordSet w)
  | leftListen (hs : s.stn.state = .listen) : Acts s .leave (s.enterIdle .leaveCommand)
  | leaveWaits (hs : s.stn.joinedOrActive = true) (hf : s.line.ownFrame ≠ none) :
      Acts s .leave { s with stn := { s.stn with leaveHeld := true } }
  | leaves (hs : s.stn.joinedOrActive = true) (hf : s.line.ownFrame = none) :
      Acts s .leave s.waitForIdle.enterLeaving
  | headRemoved {clocked : Nat} (p : PortBlock) (hr : p.reports = s.port.reports) (ho : p.overflow = s.port.overflow) :
      Acts s (.csRise clocked) (State.removeHead { s with port := p })
  | idled (hl : s.stn.hearsLine = true) (hf : s.sending = false) :
      Acts s .lineIdle { s with line := { s.line with timing := .idle s.line.accessPosition, ready := true } }
  | active {start : Bool} (ready : Bool) (hl : s.stn.hearsLine = true) (ht : s.line.timing ≠ .off) :
      Acts s (.lineActivity start) { s with line := { s.line with timing := .busy, ready := ready } }
  | slotDominant {slot : Slot} {dominant : Bool} (ht : s.line.timing = .idle slot) : Acts s (.slotBegins slot dominant) s.waitForIdle
  | frameStarted {slot : Slot} {dominant : Bool} {c : Candidate} {f : Frame} (ht : s.line.timing = .idle slot)
      (ho : s.line.ownFrame = none) (hw : s.line.window = none) (hc : s.candidate = some c)
      (hf : s.frameFor c = some f) : Acts s (.slotBegins slot dominant) (s.startFrame c f)
  | frameSent {f : OwnFrame} (hf : s.line.ownFrame = some f) (hs : f.sent = false) :
      Acts s .frameSent (s.noteSent.tellOwner f).takeHeldUnlessWindow
  | collided {f : OwnFrame} (hf : s.line.ownFrame = some f) (hs : f.sent = false) :
      Acts s .collision ((s.countCollision f).afterCollision f.candidate).takeHeld
  | checkFailed {chars : List LineChar} (hr : s.receiving = true) :
      Acts s (.checkFailure chars)
        { s.endReception with
          line := { s.endReception.line with displaced := true }
          counters := { s.counters with checkFailures := s.counters.checkFailures + 1 } }
  | ownNumber {c : Instr} (h : Header) (hr : s.receiving = true) (hs : s.stn.state = .leaving) : Acts s c (s.arrival h)
  | halted {c : Instr} (h : Header) (hr : s.receiving = true) : Acts s c (s.arrival h).halt
  | toAdopt {chars : List LineChar} {h : Header} {b : NoticeBody} (hf : readFrame chars = some (.notice h b))
      (hr : s.receiving = true) (hid : h.sender ≠ s.line.id) (hs : s.stn.state = .listen) :
      Acts s (.noticeFrameReceived chars) ((s.heard h).openWindow .adopting h b.number false false)
  | adopted {c : Instr} {chars : List LineChar} {f : Frame} (hf : readFrame chars = some f) (hk : Frame.kind f ≠ .notice)
      (hr : s.receiving = true) (hid : (Frame.header f).sender ≠ s.line.id) (hs : s.stn.state = .listen) :
      Acts s c (State.frameArrives f ((s.heard (Frame.header f)).adopt (Frame.header f).count))
  | frameTaken {c : Instr} {chars : List LineChar} {f : Frame} (hf : readFrame chars = some f) (hr : s.receiving = true)
      (hid : (Frame.header f).sender ≠ s.line.id) (hs : s.stn.onLine = true) :
      Acts s c (State.frameArrives f (s.arrival (Frame.header f)))
  | sampled {pos : WindowPos} {dominant level : Bool} {w : Window} (hw : s.line.window = some w) :
      Acts s (.windowPosition pos dominant)
        { s with line := { s.line with
            window := some (w.sampled pos level)
            driving := w.drives pos
            timing := if level then .busy else s.line.timing } }
  | adoptedAtWindow {w : Window} (hw : s.line.window = some w) (hr : w.role = .adopting) :
      Acts s .windowEndReceiver (s.closeWindow.adoptAtWindow w)
  | receiverEnds {w : Window} (hw : s.line.window = some w) (hr : w.role = .receiver) :
      Acts s .windowEndReceiver (s.closeWindow.receiverWindowEnd w).takeHeld
  | senderEnds {w : Window} (hw : s.line.window = some w) (hr : w.role = .sender) :
      Acts s .windowEndSender
        (State.senderWindowEnd { s.closeWindow with line := { s.closeWindow.line with ownFrame := none } } w).takeHeld
  | founded (hs : s.stn.state = .listen) (ht : s.stn.listenTimer ≠ .stopped) : Acts s .listenTimerExpiry s.found
  | joinExpiryWaits (hs : s.stn.state = .joining) :
      Acts s .joinTimerExpiry { s with stn := { s.stn with joinTimer := .stopped, joinExpiryHeld := true } }
  | joinFailed (hs : s.stn.state = .joining) (ho : s.line.ownFrame = none) (hw : s.line.window = none) :
      Acts s .joinTimerExpiry s.joinFailure
  | beaconExpired (hs : s.stn.joinedOrActive = true) :
      Acts s .beaconTimerExpiry { s with stn := { s.stn with beaconTimer := .stopped, beaconDue := true } }
  | repairRequested {first : LineNo} (e : GapEntry) (he : e ∈ s.gaps) :
      Acts s (.repairTimerExpiry first) (s.updateGap e.id fun g => g.expired s.cfg.repairLimit)
  | repairLost {first : LineNo} (e : GapEntry) (he : e ∈ s.gaps) :
      Acts s (.repairTimerExpiry first) (s.updateGap e.id fun g => g.expired s.cfg.repairLimit).advance
  | memberSilent {station : StationNo} {m : Member} (hm : s.member station = some m) :
      Acts s (.presenceTimerExpiry station)
        ((s.removeMember station).postReport (.memberLost station .silent)).evaluateRelease

/-- Only the transaction, or a report read, differs: the port's other items and every other block stay. -/
def PortMoves (u v : State) : Prop :=
  ∃ p : PortBlock, v = { u with port := p } ∧ p.reports.length ≤ u.port.reports.length
    ∧ p.overflow = u.port.overflow

/-- What a command or event can make of a station. -/
inductive Happens (s : State) (c : Instr) : State → Prop
  | still : Happens s c s
  | linked (l : PortLink) : Happens s c { s with port := { s.port with link := l } }
  | released (id : StationNo) (rate : BitVec 2) (low : Bool) (hc : samplesStraps c = true) :
      Happens s c { s.released id rate with pins := { resetLow := low, attnLow := false } }
  | asserted : Happens s c { s with
      line := { s.line with driving := false, ownFrame := none, window := none }
      port := { s.port with link := s.port.link.abandoned, result := ⟨.none, none⟩ }
      pins := { resetLow := true, attnLow := false } }
  | acts {u v : State} (hlive : s.pins.resetLow = false) (hu : Acts s c u) (hv : PortMoves u v) :
      Happens s c v.settleAttn

/-! ### Every command is one of them -/

theorem PortMoves.refl (s : State) : PortMoves s s := ⟨s.port, rfl, le_refl _, rfl⟩

theorem PortMoves.setPhase {u v : State} (h : PortMoves u v) (q : Phase) : PortMoves u (v.setPhase q) := by
  obtain ⟨p, rfl, hr, ho⟩ := h
  unfold State.setPhase
  split
  · exact ⟨{ p with link := .transaction _ q }, rfl, hr, ho⟩
  · exact ⟨p, rfl, hr, ho⟩
  · exact ⟨p, rfl, hr, ho⟩

theorem PortMoves.setResult {u v : State} (h : PortMoves u v) (code : ResultCode) (tag : Option Tag) :
    PortMoves u (v.setResult code tag) := by
  obtain ⟨p, rfl, hr, ho⟩ := h
  exact ⟨{ p with result := ⟨code, tag⟩ }, rfl, hr, ho⟩

theorem PortMoves_respond (s : State) (taken : Nat) (response : List Byte) (e : RiseEffect) :
    PortMoves s (s.respond taken response e) := (PortMoves.refl s).setPhase _

theorem PortMoves_answer (s : State) (taken : Nat) (code : ResultCode) : PortMoves s (s.answer taken code) :=
  ((PortMoves.refl s).setResult code none).setPhase _

theorem PortMoves_answerPost (s : State) (taken : Nat) (code : ResultCode) (tag : Option Tag) :
    PortMoves s (s.answerPost taken code tag) := ((PortMoves.refl s).setResult code tag).setPhase _

/-- What the effect of an event does, its event does. -/
theorem Happens_event {f : State → State} {s t : State} {c : Instr} (hf : s.pins.resetLow = false →
    ∃ u, Acts s c u ∧ PortMoves u (f s)) (h : event f s = .next t) : Happens s c t := by
  unfold event at h
  split at h
  · cases h; exact .still
  · rename_i hr
    have hlive : s.pins.resetLow = false := by simpa using hr
    obtain ⟨u, hu, hv⟩ := hf hlive
    cases h; exact .acts hlive hu hv

/-- An event whose effect is itself one of the moves. -/
theorem Happens_move {f : State → State} {s t : State} {c : Instr} (hf : Acts s c (f s)) (h : event f s = .next t) :
    Happens s c t := Happens_event (fun _ => ⟨_, hf, .refl _⟩) h

/-- A command does what its meaning does, or nothing where none is awaited. -/
theorem Happens_command {f : State → State} {s t : State} {c : Instr} (hf : ∃ u, Acts s c u ∧ PortMoves u (f s))
    (h : command f s = .next t) : Happens s c t := by
  refine Happens_event (fun _ => ?_) h
  split
  · exact hf
  · exact ⟨s, .nothing c, .refl s⟩

/-- A command that only answers. -/
theorem Happens_answered {f : State → State} {s t : State} {c : Instr} (hf : PortMoves s (f s))
    (h : command f s = .next t) : Happens s c t := Happens_command ⟨s, .nothing c, hf⟩ h

theorem startInRange_sendSize {c : StartConfig} {attention : Byte} (h : startInRange c attention = true) :
    c.sendSize = 32 ∨ c.sendSize = 64 ∨ c.sendSize = 128 := ((startInRange_iff c attention).mp h).1

theorem Happens_start {args : List Byte} {s t : State} (h : execStart args s = .next t) : Happens s (.start args) t := by
  refine Happens_command ?_ h
  split
  · exact ⟨s, .nothing _, (PortMoves.refl s).setPhase _⟩
  · rename_i c attention word _
    split
    · exact ⟨s, .nothing _, PortMoves_answer ..⟩
    · rename_i hidle
      split
      · exact ⟨s, .nothing _, PortMoves_answer ..⟩
      · rename_i hin
        exact ⟨_, .started c word (not_not.mp hidle) (startInRange_sendSize (by simpa using hin)), PortMoves_answer ..⟩

/-- A payload that a POST's decision has taken has the length its length byte gives, when that is a payload's. -/
theorem readPost_payload_length {args payload : List Byte} {topic len : Byte}
    (h : readPost args = .decided topic len payload) (hl : len.toNat ≤ 64) : payload.length = len.toNat := by
  unfold readPost at h
  split at h
  · split at h
    · rename_i hlong
      cases h; exact absurd hl (Nat.not_le.mpr hlong)
    · split at h
      · cases h
      · cases h; simp_all
  · cases h

theorem Happens_post {args : List Byte} {s t : State} (h : execPost args s = .next t) : Happens s (.post args) t := by
  refine Happens_command ?_ h
  dsimp only
  split
  · exact ⟨s, .nothing _, (PortMoves.refl s).setPhase _⟩
  · rename_i topic len payload hread
    split
    · exact ⟨s, .nothing _, PortMoves_answerPost ..⟩
    · rename_i hposts
      split
      · exact ⟨s, .nothing _, PortMoves_answerPost ..⟩
      · rename_i hlen
        split
        · exact ⟨s, .nothing _, PortMoves_answerPost ..⟩
        · rename_i hroom
          obtain ⟨_, hlen⟩ := not_or.mp hlen
          obtain ⟨hcells, hdescs⟩ := not_or.mp hroom
          have hl : len.toNat ≤ 64 := Nat.not_lt.mp hlen
          have hp := readPost_payload_length hread hl
          exact ⟨_, .posted (topic.setWidth 5) payload (by simpa using hposts) (by omega) (by rw [hp]; omega)
            (by omega), PortMoves_answerPost ..⟩

theorem Happens_word {args : List Byte} {s t : State} (h : execWord args s = .next t) : Happens s (.word args) t := by
  refine Happens_command ?_ h
  dsimp only
  split
  · split
    · exact ⟨s, .nothing _, PortMoves_answer ..⟩
    · exact ⟨_, .wordTaken _, PortMoves_answer ..⟩
  · exact ⟨s, .nothing _, (PortMoves.refl s).setPhase _⟩

theorem Happens_leave {s t : State} (h : execLeave s = .next t) : Happens s .leave t := by
  refine Happens_command ?_ h
  have hwait (hs : s.stn.joinedOrActive = true) : ∃ u, Acts s .leave u ∧ PortMoves u
      (if s.line.ownFrame.isSome then { s with stn := { s.stn with leaveHeld := true } }.answer 0 .accepted
        else s.waitForIdle.enterLeaving.answer 0 .accepted) := by
    split
    · rename_i hf
      exact ⟨_, .leaveWaits hs (Option.isSome_iff_ne_none.mp hf), PortMoves_answer ..⟩
    · rename_i hf
      exact ⟨_, .leaves hs (by simpa using hf), PortMoves_answer ..⟩
  dsimp only
  split
  · exact ⟨s, .nothing _, PortMoves_answer ..⟩
  · exact ⟨s, .nothing _, PortMoves_answer ..⟩
  · exact ⟨s, .nothing _, PortMoves_answer ..⟩
  · rename_i hs; exact ⟨_, .leftListen hs, PortMoves_answer ..⟩
  · rename_i hs; exact hwait ((StationBlock.joinedOrActive_iff _).mpr (.inl hs))
  · rename_i hs; exact hwait ((StationBlock.joinedOrActive_iff _).mpr (.inr hs))

theorem Happens_reading {s t : State} :
    (execTake s = .next t → Happens s .take t) ∧ (execPeek s = .next t → Happens s .peek t)
      ∧ (execReport s = .next t → Happens s .report t) ∧ (execMembers s = .next t → Happens s .members t) := by
  refine ⟨Happens_answered ?_, Happens_answered ?_, Happens_answered ?_, Happens_answered ?_⟩
  · split <;> exact PortMoves_respond ..
  · split <;> exact PortMoves_respond ..
  · split <;> exact PortMoves_respond ..
  · exact PortMoves_respond ..

theorem Happens_unknownCode {code : Byte} {s t : State} (h : execUnknownCode code s = .next t) :
    Happens s (.unknownCode code) t := by
  refine Happens_answered ?_ h
  split
  · exact PortMoves_answer ..
  · exact .refl s

/-- The rise of CS# after a response with the head record (R172). -/
theorem State.closeTransaction_takeHead (s : State) (clocked taken : Nat) (response : List Byte) :
    s.closeTransaction clocked (.decided taken response .takeHead)
      = if response.length ≤ clocked then State.removeHead { s with port := { s.port with takeIncomplete := false } }
        else { s with port := { s.port with takeIncomplete := true } } := rfl

/-- The rise of CS# after a response with the oldest report (R177). -/
theorem State.closeTransaction_reportHead (s : State) (clocked taken : Nat) (response : List Byte) :
    s.closeTransaction clocked (.decided taken response .reportHead)
      = if response.length ≤ clocked then { s with port := { s.port with reports := s.port.reports.tail } } else s := rfl

/-- The transaction's end does nothing else, or takes the head of the delivery queue (R167, R172, R177). -/
theorem Acts_closeTransaction (clocked : Nat) (s : State) (phase : Phase) :
    ∃ u, Acts s (.csRise clocked) u ∧
      PortMoves u (State.closeTransaction { s with port := { s.port with link := .closed } } clocked phase) := by
  have hshut : PortMoves s { s with port := { s.port with link := .closed } } := ⟨_, rfl, le_refl _, rfl⟩
  cases phase with
  | awaiting => exact ⟨s, .nothing _, hshut⟩
  | incomplete => exact ⟨s, .nothing _, hshut.setResult .truncated none⟩
  | decided taken response e =>
    cases e with
    | nothing => exact ⟨s, .nothing _, hshut⟩
    | takeHead =>
      rw [State.closeTransaction_takeHead]
      split
      · exact ⟨_, .headRemoved { s.port with link := .closed, takeIncomplete := false } rfl rfl, .refl _⟩
      · exact ⟨s, .nothing _, { s.port with link := .closed, takeIncomplete := true }, rfl, le_refl _, rfl⟩
    | reportHead =>
      rw [State.closeTransaction_reportHead]
      split
      · exact ⟨s, .nothing _, { s.port with link := .closed, reports := s.port.reports.tail }, rfl, by simp, rfl⟩
      · exact ⟨s, .nothing _, hshut⟩

theorem Happens_csRise {clocked : Nat} {s t : State} (h : execCsRise clocked s = .next t) :
    Happens s (.csRise clocked) t := by
  unfold execCsRise at h
  dsimp only at h
  split at h
  · cases h; exact .still
  · cases h; exact .linked .closed
  · unfold event at h
    split at h
    · cases h; exact .linked .closed
    · rename_i hr
      obtain ⟨u, hu, hv⟩ := Acts_closeTransaction clocked s (by assumption)
      cases h; exact .acts (by simpa using hr) hu hv

theorem Happens_csFall {s t : State} (h : execCsFall s = .next t) : Happens s .csFall t := by
  unfold execCsFall at h
  split at h
  · cases h; exact .linked _
  · cases h; exact .still
  · cases h; exact .still

/-! ### Line events -/

theorem Acts_frameEnds {s : State} {f : OwnFrame} (hf : s.line.ownFrame = some f) :
    Acts s .frameSent (if f.sent then s else (s.noteSent.tellOwner f).takeHeldUnlessWindow)
      ∧ Acts s .collision (if f.sent then s else ((s.countCollision f).afterCollision f.candidate).takeHeld) := by
  cases hs : f.sent with
  | true => exact ⟨.nothing _, .nothing _⟩
  | false => exact ⟨.frameSent hf hs, .collided hf hs⟩

theorem Acts_slotBegins (slot : Slot) (dominant : Bool) (s : State)
    (h : s.line.timing = .idle slot ∧ s.line.ownFrame = none ∧ s.line.window = none) :
    Acts s (.slotBegins slot dominant)
      (if dominant then s.waitForIdle
        else match s.candidate with
          | none => s
          | some c => match s.frameFor c with
            | none => s
            | some f => s.startFrame c f) := by
  obtain ⟨ht, ho, hw⟩ := h
  split
  · exact .slotDominant ht
  · split
    · exact .nothing _
    · split
      · exact .nothing _
      · exact .frameStarted ht ho hw (by assumption) (by assumption)

/-- The end of a valid frame is one of the moves, where its two branches are (R22). -/
theorem Acts_receiveFrame {c : Instr} {s : State} {h : Header} {a p : State → State}
    (ha : s.receiving = true → h.sender ≠ s.line.id → s.stn.state = .listen → Acts s c (a (s.heard h)))
    (hp : s.receiving = true → h.sender ≠ s.line.id → s.stn.onLine = true → Acts s c (p (s.arrival h))) :
    Acts s c (s.receiveFrame h a p) :=
  kept_receiveFrame (.nothing c) (fun hr _ hs => .ownNumber h hr hs) (fun hr _ _ => .halted h hr) ha hp

theorem Happens_frame {s t : State} {chars : List LineChar} :
    (execNoticeFrameReceived chars s = .next t → Happens s (.noticeFrameReceived chars) t)
      ∧ (execReplayReceived chars s = .next t → Happens s (.replayReceived chars) t)
      ∧ (execResendReceived chars s = .next t → Happens s (.resendReceived chars) t)
      ∧ (execBeaconReceived chars s = .next t → Happens s (.beaconReceived chars) t) := by
  refine ⟨Happens_move ?notice, Happens_move ?replay, Happens_move ?resend, Happens_move ?beacon⟩
  case notice =>
    split
    · rename_i h b hf
      exact Acts_receiveFrame (.toAdopt hf) (.frameTaken (f := .notice h b) hf)
    · exact .nothing _
  case replay =>
    split
    · rename_i h b hf
      exact Acts_receiveFrame (.adopted (f := .replay h b) hf (by simp [Frame.kind])) (.frameTaken (f := .replay h b) hf)
    · exact .nothing _
  case resend =>
    split
    · rename_i h r hf
      exact Acts_receiveFrame (.adopted (f := .resend h r) hf (by simp [Frame.kind])) (.frameTaken (f := .resend h r) hf)
    · exact .nothing _
  case beacon =>
    split
    · rename_i h k v w hf
      exact Acts_receiveFrame (.adopted (f := .beacon h k v w) hf (by simp [Frame.kind]))
        (.frameTaken (f := .beacon h k v w) hf)
    · exact .nothing _

theorem Happens_idleTiming {s t : State} {start : Bool} :
    (execLineIdle s = .next t → Happens s .lineIdle t)
      ∧ (execLineActivity start s = .next t → Happens s (.lineActivity start) t) := by
  refine ⟨Happens_move ?idle, Happens_move ?activity⟩
  case idle =>
    dsimp only
    split
    · rename_i h
      obtain ⟨hl, hf⟩ := Bool.and_eq_true_iff.mp h
      exact .idled hl (by simpa using hf)
    · exact .nothing _
  case activity =>
    dsimp only
    split
    · rename_i hl
      split
      · rename_i ht; exact .active _ hl (by simp [ht])
      · rename_i ht; exact .active _ hl (by simp [ht])
      · exact .nothing _
      · exact .nothing _
    · exact .nothing _

theorem Happens_window {s t : State} {pos : WindowPos} {dominant : Bool} :
    (execWindowPosition pos dominant s = .next t → Happens s (.windowPosition pos dominant) t)
      ∧ (execWindowEndReceiver s = .next t → Happens s .windowEndReceiver t)
      ∧ (execWindowEndSender s = .next t → Happens s .windowEndSender t) := by
  refine ⟨Happens_move ?position, Happens_move ?receiver, Happens_move ?sender⟩
  case position =>
    dsimp only
    split
    · exact .nothing _
    · exact .sampled (by assumption)
  case receiver =>
    split
    · exact .nothing _
    · rename_i w hw
      split
      · exact .adoptedAtWindow hw (by assumption)
      · exact .receiverEnds hw (by assumption)
      · exact .nothing _
  case sender =>
    dsimp only
    split
    · exact .nothing _
    · rename_i w hw
      split
      · exact .senderEnds hw (by assumption)
      · exact .nothing _
      · exact .nothing _

theorem Happens_ownFrame {s t : State} {slot : Slot} {dominant : Bool} {chars : List LineChar} :
    (execSlotBegins slot dominant s = .next t → Happens s (.slotBegins slot dominant) t)
      ∧ (execFrameSent s = .next t → Happens s .frameSent t) ∧ (execCollision s = .next t → Happens s .collision t)
      ∧ (execCheckFailure chars s = .next t → Happens s (.checkFailure chars) t) := by
  refine ⟨Happens_move ?slot, Happens_move ?sent, Happens_move ?collision, Happens_move ?failure⟩
  case slot =>
    split
    · rename_i h; exact Acts_slotBegins slot dominant s h
    · exact .nothing _
  case sent =>
    split
    · exact .nothing _
    · rename_i f hf; exact (Acts_frameEnds hf).1
  case collision =>
    split
    · exact .nothing _
    · rename_i f hf; exact (Acts_frameEnds hf).2
  case failure =>
    dsimp only
    split
    · rename_i h; exact .checkFailed (Bool.and_eq_true_iff.mp h).1
    · exact .nothing _

theorem Happens_timer {s t : State} {first : LineNo} {station : StationNo} :
    (execListenTimerExpiry s = .next t → Happens s .listenTimerExpiry t)
      ∧ (execJoinTimerExpiry s = .next t → Happens s .joinTimerExpiry t)
      ∧ (execBeaconTimerExpiry s = .next t → Happens s .beaconTimerExpiry t)
      ∧ (execRepairTimerExpiry first s = .next t → Happens s (.repairTimerExpiry first) t)
      ∧ (execPresenceTimerExpiry station s = .next t → Happens s (.presenceTimerExpiry station) t) := by
  refine ⟨Happens_move ?listen, Happens_move ?join, Happens_move ?beacon, Happens_move ?repair,
    Happens_move ?presence⟩
  case listen =>
    split
    · rename_i h; exact .founded h.1 h.2
    · exact .nothing _
  case join =>
    dsimp only
    split
    · rename_i h
      split
      · exact .joinExpiryWaits h.1
      · rename_i hfree
        obtain ⟨ho, hw⟩ : s.line.ownFrame = none ∧ s.line.window = none := by simpa using hfree
        exact .joinFailed h.1 ho hw
    · exact .nothing _
  case beacon =>
    dsimp only
    split
    · rename_i h; exact .beaconExpired h.1
    · exact .nothing _
  case repair =>
    dsimp only
    split
    · exact .nothing _
    · rename_i e he
      have hmem := List.mem_of_find?_eq_some he
      split
      · exact .repairRequested e hmem
      · exact .repairLost e hmem
  case presence =>
    split
    · exact .nothing _
    · exact .memberSilent (by assumption)

/-- What every command and event can do. -/
theorem exec_happens {c : Instr} {s t : State} (h : exec c s = .next t) : Happens s c t := by
  cases c with
  | powerOnReset id rate => cases h; exact .released id rate _ rfl
  | resetReleased id rate => cases h; exact .released id rate false rfl
  | resetAsserted => cases h; exact .asserted
  | csFall => exact Happens_csFall h
  | csRise clocked => exact Happens_csRise h
  | start args => exact Happens_start h
  | post args => exact Happens_post h
  | take => exact Happens_reading.1 h
  | peek => exact Happens_reading.2.1 h
  | report => exact Happens_reading.2.2.1 h
  | members => exact Happens_reading.2.2.2 h
  | status => exact Happens_command ⟨s.eventsCleared, .statusRead, PortMoves_respond s.eventsCleared ..⟩ (exec_status s ▸ h)
  | word args => exact Happens_word h
  | leave => exact Happens_leave h
  | unknownCode code => exact Happens_unknownCode h
  | lineIdle => exact (Happens_idleTiming (start := false)).1 h
  | lineActivity start => exact Happens_idleTiming.2 h
  | slotBegins slot dominant => exact (Happens_ownFrame (chars := [])).1 h
  | frameSent => exact (Happens_ownFrame (slot := 0) (dominant := false) (chars := [])).2.1 h
  | collision => exact (Happens_ownFrame (slot := 0) (dominant := false) (chars := [])).2.2.1 h
  | checkFailure chars => exact (Happens_ownFrame (slot := 0) (dominant := false)).2.2.2 h
  | noticeFrameReceived chars => exact Happens_frame.1 h
  | replayReceived chars => exact Happens_frame.2.1 h
  | resendReceived chars => exact Happens_frame.2.2.1 h
  | beaconReceived chars => exact Happens_frame.2.2.2 h
  | windowPosition pos dominant => exact Happens_window.1 h
  | windowEndReceiver => exact (Happens_window (pos := .full) (dominant := false)).2.1 h
  | windowEndSender => exact (Happens_window (pos := .full) (dominant := false)).2.2 h
  | listenTimerExpiry => exact (Happens_timer (first := 0) (station := 0)).1 h
  | joinTimerExpiry => exact (Happens_timer (first := 0) (station := 0)).2.1 h
  | beaconTimerExpiry => exact (Happens_timer (first := 0) (station := 0)).2.2.1 h
  | repairTimerExpiry first => exact (Happens_timer (station := 0)).2.2.2.1 h
  | presenceTimerExpiry station => exact (Happens_timer (first := 0)).2.2.2.2 h

end Sys2Proof.Machine
end

