-- ==== Sys2Proof/Proofs/Moves.lean ====
section
/-!
SUPPORT. How a property is carried over a step, by the moves of `Acts`; and over the compound operations the moves are made
of: header processing, the frames' own processing, the ends of windows and of own frames.
-/

namespace Sys2Proof.Machine

/-! ### Steps -/

/-- A step idles, or runs the command at the front of the queue. -/
theorem step_happens {s t : State} (h : step s = .next t) :
    t = s ∨ ∃ c rest, s.pending = c :: rest ∧ Happens { s with pending := rest } c t := by
  unfold step at h
  split at h
  · cases h; exact .inl rfl
  · rename_i c rest hp
    exact .inr ⟨c, rest, hp, exec_happens h⟩

/-- What every move keeps, every step keeps: the property looks neither at the port, nor at ATTN#, nor at the queue, and
`P` is known of the state before. -/
theorem step_keeps {P I : State → Prop}
    (hP : ∀ (s : State) (q : List Instr), P s → P { s with pending := q })
    (hq : ∀ (s : State) (q : List Instr), I s → I { s with pending := q })
    (hport : ∀ (s : State) (p : PortBlock) (b : Bool), I s → I { s with port := p, pins := { s.pins with attnLow := b } })
    (hreleased : ∀ (s : State) (id : StationNo) (rate : BitVec 2) (low : Bool), P s → I s →
      I { s.released id rate with pins := { resetLow := low, attnLow := false } })
    (hasserted : ∀ (s : State) (p : PortBlock), P s → I s → I { s with
      line := { s.line with driving := false, ownFrame := none, window := none }
      port := p, pins := { resetLow := true, attnLow := false } })
    (hacts : ∀ (s u : State) (c : Instr), s.pins.resetLow = false → Acts s c u → P s → I s → I u)
    {s t : State} (hPs : P s) (hs : I s) (h : step s = .next t) : I t := by
  obtain rfl | ⟨c, rest, -, hhap⟩ := step_happens h
  · exact hs
  · have hs' := hq s rest hs
    cases hhap with
    | still => exact hs'
    | linked l => exact hport _ { s.port with link := l } s.pins.attnLow hs'
    | released id rate low => exact hreleased _ id rate low (hP s rest hPs) hs'
    | asserted => exact hasserted _ _ (hP s rest hPs) hs'
    | acts hlive hu hv =>
      rename_i u v
      obtain ⟨p, rfl, -, -⟩ := hv
      exact hport u p _ (hacts _ u c hlive hu (hP s rest hPs) hs')

/-! ### Header processing and frames -/

/-- The three outcomes of header processing (R3, R12): the count refused; raised; or as it stood. -/
theorem State.headerProcess_cases (s : State) (h : Header) (leaving : Bool) :
    (s.headerProcess h leaving).2 = false
        ∧ (s.headerProcess h leaving).1 = (s.headerMember h leaving).spanResync h.count
      ∨ (s.headerProcess h leaving).2 = true ∧ follows s.rx.count h.count = true ∧ s.spanRefuses h.count = false
        ∧ (s.headerProcess h leaving).1 = (s.headerMember h leaving).raiseCount h.count h.count
      ∨ (s.headerProcess h leaving).2 = true ∧ follows s.rx.count h.count = false ∧ unordered s.rx.count h.count = false
        ∧ (s.headerProcess h leaving).1 = s.headerMember h leaving := by
  have heq : s.headerProcess h leaving
      = if unordered s.rx.count h.count || (follows s.rx.count h.count && s.spanRefuses h.count) then
          ((s.headerMember h leaving).spanResync h.count, false)
        else if follows s.rx.count h.count then ((s.headerMember h leaving).raiseCount h.count h.count, true)
        else (s.headerMember h leaving, true) := by
    simp [State.headerProcess, State.spanRefuses]
  rw [heq]
  split
  · exact .inl ⟨rfl, rfl⟩
  · rename_i hok
    obtain ⟨hord, hspan⟩ : unordered s.rx.count h.count = false
        ∧ (follows s.rx.count h.count = true → s.spanRefuses h.count = false) := by simpa using hok
    split
    · rename_i hf; exact .inr (.inl ⟨rfl, hf, hspan hf, rfl⟩)
    · rename_i hf; exact .inr (.inr ⟨rfl, by simpa using hf, hord, rfl⟩)

/-- The frame is a LEAVE beacon (R151). -/
def Frame.leaves : Frame → Bool
  | .notice _ _ => false
  | .replay _ _ => false
  | .resend _ _ => false
  | .beacon _ kind _ _ => kind == .leave

/-- What header processing keeps. -/
theorem kept_headerProcess {I : State → Prop} {s : State} {h : Header} {leaving : Bool}
    (hm : I (s.headerMember h leaving)) (hr : ∀ t, I t → I (t.spanResync h.count))
    (hc : follows s.rx.count h.count = true → s.spanRefuses h.count = false →
      I ((s.headerMember h leaving).raiseCount h.count h.count)) : I (s.headerProcess h leaving).1 := by
  obtain ⟨-, heq⟩ | ⟨-, hf, hs, heq⟩ | ⟨-, -, -, heq⟩ := s.headerProcess_cases h leaving
  · rw [heq]; exact hr _ hm
  · rw [heq]; exact hc hf hs
  · rw [heq]; exact hm

/-- A view has one of five effects (R156 to R158). -/
theorem kept_takeView {I : State → Prop} {s : State} {h : Header} (kind : BeaconKind) (view : Set32) (hs : I s)
    (hu : ∀ b : Bool, I (s.updateMember h.sender fun e => { e with includedMe := b }))
    (hi : s.stn.state = .joining → I (s.updateMember h.sender fun e => { e with includedMe := true }).include)
    (hr : s.stn.joinedOrActive = true → I (s.resync .resyncExcluded .resyncExcluded h.count)) :
    I (s.takeView h kind view) := by
  unfold State.takeView
  split
  · dsimp only
    split
    · rename_i hj; exact hi hj
    · exact hu true
  · split
    · exact hu false
    · split
      · rename_i hx; exact hr (Bool.and_eq_true_iff.mp hx).2
      · exact hs
    · exact hs

/-- What a frame's arrival comes to: its header is processed, which leaves `J`, and what its kind does comes after it and
leaves `I`, unless the header count was refused. -/
theorem kept_frameArrives {J I : State → Prop} {s : State} {f : Frame} (hJ : ∀ t, J t → I t)
    (hh : J (s.headerProcess (Frame.header f) (Frame.leaves f)).1)
    (hnotice : ∀ h b, f = .notice h b → (s.headerProcess h false).2 = true → J (s.headerProcess h false).1 →
      I ((s.headerProcess h false).1.decideNotice h b))
    (hreplay : ∀ t h b, f = .replay h b → J t → I (t.classifyReplay h b))
    (hresend : ∀ t r, J t → I ((t.suppress r).markReplays r))
    (hbeacon : ∀ t h kind view word, f = .beacon h kind view word → kind ≠ .leave → J t →
      I ((t.takeWord h.sender word).takeView h kind view)) :
    I (State.frameArrives f s) := by
  cases f with
  | notice h b =>
    change I (if (s.headerProcess h false).2 then (s.headerProcess h false).1.decideNotice h b
      else (s.headerProcess h false).1)
    split
    · rename_i hgo; exact hnotice h b rfl hgo hh
    · exact hJ _ hh
  | replay h b =>
    change I (if (s.headerProcess h false).2 then (s.headerProcess h false).1.classifyReplay h b
      else (s.headerProcess h false).1)
    split
    · exact hreplay _ h b rfl hh
    · exact hJ _ hh
  | resend h r =>
    change I (if (s.headerProcess h false).2 then ((s.headerProcess h false).1.suppress r).markReplays r
      else (s.headerProcess h false).1)
    split
    · exact hresend _ r hh
    · exact hJ _ hh
  | beacon h kind view word =>
    change I (if !(s.headerProcess h (kind == .leave)).2 || kind == .leave
        || (s.headerProcess h (kind == .leave)).1.stn.state == .leaving then (s.headerProcess h (kind == .leave)).1
      else ((s.headerProcess h (kind == .leave)).1.takeWord h.sender word).takeView h kind view)
    split
    · exact hJ _ hh
    · rename_i hgo
      exact hbeacon _ h kind view word rfl (by rintro rfl; simp at hgo) hh

/-! ### What is held, and the ends of windows and own frames -/

/-- What was held is taken or nothing is held (R141, R144). -/
theorem kept_takeHeld {I : State → Prop} {s : State} (hs : I s) (hl : s.stn.leaveHeld = true → I s.enterLeaving)
    (hj : s.stn.joinExpiryHeld = true → I s.joinFailure) : I s.takeHeld := by
  unfold State.takeHeld
  split
  · rename_i h; exact hl h
  · split
    · rename_i h; exact hj h
    · exact hs

/-- The end of a window at a full receiver (R42, R43, R45). -/
theorem kept_receiverWindowEnd {I : State → Prop} {s : State} {w : Window}
    (hf : w.objected = true → I s.freeProvisional)
    (hr : w.objected = false → s.spanRefuses w.number = true → I (s.refuseCommitted w.header.count))
    (hc : w.objected = false → s.spanRefuses w.number = false → I (s.takeCommitted w.number)) :
    I (s.receiverWindowEnd w) := by
  unfold State.receiverWindowEnd
  split
  · rename_i ho; exact hf ho
  · rename_i ho
    rw [Bool.not_eq_true] at ho
    split
    · rename_i hs; exact hr ho hs
    · rename_i hs; exact hc ho (by simpa using hs)

/-- The send side's part of a clean window at the sender (R48, R51, R75). -/
def State.retained (s : State) (n : LineNo) : State := ((s.retainHead n).clearObjections).releaseIfAlone

/-- The end of the window at the sender (R48 to R52). -/
theorem kept_senderWindowEnd {I : State → Prop} {s : State} {w : Window}
    (ho : w.objected = true → I s.senderObjected)
    (hst : w.objected = true → I s.senderObjected → I (s.senderObjected.senderStale w.number))
    (hr : w.objected = false → (s.retained w.number).spanRefuses w.number = true →
      I ((s.retained w.number).refuseCommitted w.header.count))
    (hc : w.objected = false → (s.retained w.number).spanRefuses w.number = false →
      I ((s.retained w.number).takeCommitted w.number)) :
    I (s.senderWindowEnd w) := by
  unfold State.senderWindowEnd State.senderCommits
  split
  · rename_i hob
    split
    · exact hst hob (ho hob)
    · exact ho hob
  · rename_i hob
    rw [Bool.not_eq_true] at hob
    change I (if (s.retained w.number).spanRefuses w.number then _ else _)
    split
    · rename_i hs; exact hr hob hs
    · rename_i hs; exact hc hob (by simpa using hs)

/-- The window that opens at the sender when its NOTICE frame is sent (R27). -/
def State.ownWindow (s : State) (f : OwnFrame) (h : Header) (b : NoticeBody) : State :=
  { s with line := { s.line with
      ownFrame := some { f with sent := true }
      window := some { role := .sender, header := h, number := b.number, markFull := false, markStale := false
                       turnGap := false, full := false, stale := false } } }

/-- The due beacon has been sent (R36). -/
def State.beaconSent (s : State) : State := { s with stn := { s.stn with beaconDue := false } }

/-- The owner's part when a frame is sent, candidate by candidate (R35). -/
theorem kept_tellOwner {I : State → Prop} {s : State} {f : OwnFrame}
    (hgap : ∀ id, f.candidate = .gap id → I (s.updateGap id fun e =>
      { e with attempts := e.attempts + 1, state := .waiting, timer := .running s.cfg.repairInterval }).countResend)
    (hcatch : f.candidate = .catchUp → I (State.countResend { s with send := { s.send with catchUp := none } }))
    (hreplay : ∀ tag, f.candidate = .replay tag → I (State.releaseAfterReplay { s.clearMark tag with
      counters := { s.counters with replaysSent := s.counters.replaysSent + 1 } }))
    (hnotice : ∀ tag h b, f.candidate = .notice tag → f.frame = .notice h b → I (s.ownWindow f h b))
    (hodd : ∀ tag, f.candidate = .notice tag → (∀ h b, f.frame ≠ .notice h b) → I s)
    (hbeacon : f.candidate = .dueBeacon → I s.beaconSent)
    (hjoin : f.candidate = .dueBeacon →
      I { s.beaconSent with stn := { s.beaconSent.stn with joinBeacons := saturate (s.stn.joinBeacons + 1) } })
    (hleave : f.candidate = .dueBeacon → I (s.beaconSent.enterIdle .leaveSent)) :
    I (s.tellOwner f) := by
  unfold State.tellOwner
  split
  · exact hgap _ (by assumption)
  · exact hcatch (by assumption)
  · exact hreplay _ (by assumption)
  · split
    · exact hnotice _ _ _ (by assumption) (by assumption)
    · exact hodd _ (by assumption) (by assumption)
  · dsimp only
    split
    · exact hjoin (by assumption)
    · exact hleave (by assumption)
    · exact hbeacon (by assumption)

/-- The owner's part of a collision (R47, R81). -/
theorem kept_afterCollision {I : State → Prop} {s : State} {c : Candidate} (hs : I s)
    (hn : ∀ tag, c = .notice tag → I s.freeProvisional) (hr : I s.releaseAfterReplay) : I (s.afterCollision c) := by
  unfold State.afterCollision
  split
  · exact hn _ rfl
  · exact hr
  · exact hs
  · exact hs
  · exact hs

/-- What `classifyReplay` keeps: the counters and reports of a discard, or an accepted REPLAY (R96 to R98). -/
theorem kept_classifyReplay {I : State → Prop} {s : State} {h : Header} {b : NoticeBody}
    (hcount : ∀ c, I { s with counters := c }) (hpost : ∀ c r, I (State.postReport { s with counters := c } r))
    (hspan : I (s.spanResync h.count))
    (hknown : frameAtOrBefore b.number s.rx.settled = false → s.knownAt b.number = false →
      (follows s.rx.count b.number = true → s.spanRefuses b.number = false) →
      I ((s.makeKnown b.number).riseAndAdvance b.number))
    (hhold : frameAtOrBefore b.number s.rx.settled = false → s.knownAt b.number = false →
      (follows s.rx.count b.number = true → s.spanRefuses b.number = false) →
      ∀ n t, s.storeNotice b.number h.sender b.topic b.payload false none true = (n, t) →
        cellsFor b.payload.length ≤ s.pool.freeCells.length → s.pool.freeDescs ≠ [] →
        I ((t.hold n).riseAndAdvance b.number)) :
    I (s.classifyReplay h b) := by
  obtain ⟨c, heq⟩ | ⟨c, r, heq⟩ | ⟨hset, hkn, heq⟩ := s.classifyReplay_cases h b
  · rw [heq]; exact hcount c
  · rw [heq]; exact hpost c r
  · rw [heq]
    obtain ⟨-, -, heq⟩ | ⟨hok, heq | ⟨n, t, hst, hc, hd, heq⟩ | ⟨c, heq⟩⟩ := s.acceptReplay_cases h b
    · rw [heq]; exact hspan
    · rw [heq]; exact hknown hset hkn hok
    · rw [heq]; exact hhold hset hkn hok n t hst hc hd
    · rw [heq]; exact hcount c

end Sys2Proof.Machine
end

