-- ==== Sys2Proof/Proofs/Bounds.lean ====
section
/-!
PROOF. ATTN# follows its causes, the saturating counts stay within their bounds, and cell memory keeps its canonical form
(R181, R29, R51, R141, R175).
-/

namespace Sys2Proof.Machine

/-! ### ATTN# -/

theorem AttnFollows_happens {s t : State} {c : Instr} (hs : AttnFollows s) (h : Happens s c t) : AttnFollows t := by
  cases h with
  | still => exact hs
  | linked l => exact hs
  | released id rate low => cases low <;> rfl
  | asserted => rfl
  | acts hlive hu hv => exact AttnFollows_settleAttn _

/-! ### Cell memory -/

/-- Cell memory is in its canonical form. -/
def CellsCanonical (s : State) : Prop := Memory.wf s.pool.cells = true

theorem CellsCanonical.congr {s t : State} (h : CellsCanonical s) (ht : t.pool.cells = s.pool.cells) :
    CellsCanonical t := by
  unfold CellsCanonical; rw [ht]; exact h

/-- A claim writes the payload into the chain (R40, R46, R97). -/
theorem CellsCanonical.storeNotice {s t u : State} {n : RxNotice} {number : LineNo} {originator : StationNo}
    {topic : Topic} {payload : List Byte} {own : Bool} {tag : Option Tag} {replay : Bool} (hs : CellsCanonical s)
    (h : s.storeNotice number originator topic payload own tag replay = (n, t)) (hu : u.pool.cells = t.pool.cells) :
    CellsCanonical u := by
  obtain ⟨-, rfl⟩ := State.storeNotice_eq h
  unfold CellsCanonical; rw [hu]; exact Memory.writeChain_wf hs _ _

theorem CellsCanonical.decideNotice {s : State} (hs : CellsCanonical s) (h : Header) (b : NoticeBody) :
    CellsCanonical (s.decideNotice h b) := by
  obtain ⟨c, heq⟩ | ⟨-, ⟨n, t, hst, -, -, heq⟩ | ⟨c, full, heq⟩⟩ := s.decideNotice_cases h b
  · rw [heq]; exact hs
  · rw [heq]; exact hs.storeNotice hst rfl
  · rw [heq]; exact hs

theorem CellsCanonical.classifyReplay {s : State} (hs : CellsCanonical s) (h : Header) (b : NoticeBody) :
    CellsCanonical (s.classifyReplay h b) :=
  kept_classifyReplay (fun _ => hs) (fun _ _ => hs.congr (by simp)) (hs.congr (by simp))
    (fun _ _ _ => hs.congr (by simp)) fun _ _ _ _ _ hst _ _ => hs.storeNotice hst (by simp)

theorem CellsCanonical.frameArrives {s : State} (hs : CellsCanonical s) (f : Frame) :
    CellsCanonical (State.frameArrives f s) := by
  refine kept_frameArrives (fun _ ht => ht) (hs.congr (by simp) : CellsCanonical _) (fun h b _ _ ht => ht.decideNotice h b)
    (fun t h b _ ht => ht.classifyReplay h b) (fun t r ht => ht.congr (by simp)) fun t h kind view word _ _ ht => ?_
  have htw : CellsCanonical (t.takeWord h.sender word) := ht.congr (by simp)
  exact kept_takeView kind view htw (fun _ => htw) (fun _ => htw.congr (by simp)) fun _ => htw.congr (by simp)

theorem CellsCanonical.startFrame {s : State} (hs : CellsCanonical s) {c : Candidate} {f : Frame}
    (hc : s.candidate = some c) (hf : s.frameFor c = some f) : CellsCanonical (s.startFrame c f) := by
  have hcells : (s.startFrame c f).pool = (s.reserveOwnRoom c f).pool := rfl
  obtain heq | ⟨tag, h, b, n, t, -, -, -, hst, -, -, heq⟩ := State.reserveOwnRoom_cases hc hf
  · exact hs.congr (by rw [hcells, heq])
  · exact hs.storeNotice hst (by rw [hcells, heq])

theorem CellsCanonical.takeHeld {s : State} (hs : CellsCanonical s) : CellsCanonical s.takeHeld := hs.congr (by simp)

theorem CellsCanonical.refuseCommitted {s : State} (hs : CellsCanonical s) (n : LineNo) :
    CellsCanonical (s.refuseCommitted n) := by
  unfold State.refuseCommitted
  split <;> exact hs.congr (by simp)

theorem CellsCanonical.tellOwner {s : State} (hs : CellsCanonical s) (f : OwnFrame) :
    CellsCanonical (s.tellOwner f) :=
  kept_tellOwner (fun _ _ => hs) (fun _ => hs) (fun _ _ => hs.congr (by simp)) (fun _ _ _ _ _ => hs)
    (fun _ _ _ => hs) (fun _ => hs) (fun _ => hs) fun _ => hs.congr (by simp [State.beaconSent])

theorem CellsCanonical.senderObjected {s : State} (hs : CellsCanonical s) : CellsCanonical s.senderObjected := by
  unfold State.senderObjected
  dsimp only
  split <;> exact hs.congr (by simp)

theorem CellsCanonical.acts {s u : State} {c : Instr} (hs : CellsCanonical s) (h : Acts s c u) : CellsCanonical u := by
  cases h with
  | nothing | statusRead | wordTaken | leaveWaits | idled | active | checkFailed | ownNumber | toAdopt | sampled
  | joinExpiryWaits | beaconExpired | repairRequested => exact hs
  | started c w => exact hs
  | posted topic payload => exact Memory.writeChain_wf hs _ _
  | leftListen | leaves | headRemoved | slotDominant | halted | founded | joinFailed | repairLost | memberSilent =>
    exact hs.congr (by simp)
  | frameStarted ht ho hw hc hf => exact hs.startFrame hc hf
  | frameSent =>
    unfold State.takeHeldUnlessWindow
    have hsent := CellsCanonical.tellOwner (s := s.noteSent) hs
    split
    · exact hsent _
    · exact (hsent _).takeHeld
  | collided hf =>
    refine CellsCanonical.takeHeld (kept_afterCollision ?_ (fun _ _ => ?_) ?_) <;> exact hs.congr (by simp)
  | adopted => exact CellsCanonical.frameArrives (hs.congr (by simp [State.heard])) _
  | frameTaken => exact CellsCanonical.frameArrives (s := s.arrival _) hs _
  | adoptedAtWindow => exact hs.congr (by simp [State.adoptAtWindow])
  | receiverEnds =>
    have hclosed : CellsCanonical s.closeWindow := hs
    exact CellsCanonical.takeHeld (kept_receiverWindowEnd (fun _ => hclosed.congr (by simp))
      (fun _ _ => hclosed.refuseCommitted _) fun _ _ => hclosed.congr (by simp))
  | senderEnds =>
    refine CellsCanonical.takeHeld (kept_senderWindowEnd (fun _ => ?_) (fun _ ho => ho.congr (by simp [State.senderStale]))
      (fun _ _ => ?_) fun _ _ => ?_)
    · exact CellsCanonical.senderObjected hs
    · exact CellsCanonical.refuseCommitted (hs.congr (by simp [State.retained])) _
    · exact hs.congr (by simp [State.retained])

/-! ### The saturating counts -/

theorem CountsBounded_iff (s : State) : CountsBounded s ↔
    PortBounded s ∧ s.line.collisionCount ≤ 255 ∧ s.commit.objections ≤ 255 ∧ s.stn.joinBeacons ≤ 255 := by
  simp [CountsBounded, PortBounded, and_assoc]

/-- The counts of a state whose port is bounded and whose other counts have not risen. -/
theorem CountsBounded.of_le {s t : State} (hs : CountsBounded s) (hp : PortBounded t)
    (hl : t.line.collisionCount ≤ s.line.collisionCount) (hc : t.commit.objections ≤ s.commit.objections)
    (hj : t.stn.joinBeacons ≤ s.stn.joinBeacons) : CountsBounded t := by
  obtain ⟨-, h1, h2, h3⟩ := (CountsBounded_iff s).mp hs
  exact (CountsBounded_iff t).mpr ⟨hp, hl.trans h1, hc.trans h2, hj.trans h3⟩

/-- The counts where port, line interface, commit logic and station stay. -/
theorem CountsBounded.congr {s t : State} (hs : CountsBounded s) (hp : t.port = s.port) (hl : t.line = s.line)
    (hc : t.commit.objections = s.commit.objections) (hj : t.stn = s.stn) : CountsBounded t :=
  hs.of_le (hs.port.congr hp) (by rw [hl]) (by rw [hc]) (by rw [hj])

theorem CountsBounded.postReport {s : State} (hs : CountsBounded s) (r : Report) : CountsBounded (s.postReport r) :=
  hs.of_le (hs.port.postReport r) (by simp) (by simp) (by simp)

theorem CountsBounded.resync {s : State} (hs : CountsBounded s) (r : BaseReason) (c : StateCause) (n : LineNo) :
    CountsBounded (s.resync r c n) := by
  obtain ⟨-, -, -, -, -, hcommit, -, -, hline, hstn, -⟩ := s.resync_spec r c n
  exact hs.of_le (hs.port.resync r c n) (by simp [hline]) (by simp [hcommit]) (by simp [hstn])

theorem CountsBounded.spanResync {s : State} (hs : CountsBounded s) (n : LineNo) : CountsBounded (s.spanResync n) := by
  unfold State.spanResync
  split
  · exact hs.resync ..
  · exact hs

theorem CountsBounded.raiseCount {s : State} (hs : CountsBounded s) (n l : LineNo) : CountsBounded (s.raiseCount n l) :=
  hs.of_le (hs.port.raiseCount n l) (by simp) (by simp) (by simp)

theorem CountsBounded.headerProcess {s : State} (hs : CountsBounded s) (h : Header) (l : Bool) :
    CountsBounded (s.headerProcess h l).1 := by
  have hm : CountsBounded (s.headerMember h l) := hs.of_le (hs.port.headerMember h l) (by simp) (by simp) (by simp)
  exact kept_headerProcess hm (fun _ ht => ht.spanResync _) fun _ _ => hm.raiseCount ..

theorem CountsBounded.adopt {s : State} (hs : CountsBounded s) (n : LineNo) : CountsBounded (s.adopt n) :=
  hs.of_le (hs.port.adopt n) (by simp [State.adopt]) (by simp) (by simp [State.adopt, State.enterState])

theorem CountsBounded.found {s : State} (hs : CountsBounded s) : CountsBounded s.found :=
  hs.of_le hs.port.found (by simp [State.found]) (by simp) (by simp [State.found, State.enterState])

theorem CountsBounded.joinFailure {s : State} (hs : CountsBounded s) : CountsBounded s.joinFailure := by
  obtain ⟨hstn, -, -, -, -, hcommit, -⟩ := s.joinFailure_spec
  exact hs.of_le hs.port.joinFailure (by simp) (by simp [hcommit]) (by simp [hstn])

theorem CountsBounded.enterLeaving {s : State} (hs : CountsBounded s) : CountsBounded s.enterLeaving :=
  hs.of_le hs.port.enterLeaving (by simp) (by simp) (by simp)

theorem CountsBounded.takeHeld {s : State} (hs : CountsBounded s) : CountsBounded s.takeHeld :=
  kept_takeHeld hs (fun _ => hs.enterLeaving) fun _ => hs.joinFailure

theorem CountsBounded.quit {s : State} (hs : CountsBounded s) : CountsBounded s.quit := by
  obtain ⟨-, -, -, -, -, hcommit, -, -, -, hline, hstn⟩ := s.quit_spec
  exact hs.of_le hs.port.quit (by simp [hline]) (by simp [hcommit]) (by simp [hstn])

theorem CountsBounded.enterState {s : State} (hs : CountsBounded s) (st : StationState) (c : StateCause) :
    CountsBounded (s.enterState st c) :=
  hs.of_le (hs.port.enterState st c) (by simp) (by simp) (by simp)

theorem CountsBounded.freeProvisional {s : State} (hs : CountsBounded s) : CountsBounded s.freeProvisional :=
  hs.congr (by simp) (by simp) (by simp) (by simp)

theorem CountsBounded.takeCommitted {s : State} (hs : CountsBounded s) (n : LineNo) :
    CountsBounded (s.takeCommitted n) := by
  have hadvanced (u : State) (hu : CountsBounded u) : CountsBounded (u.raiseCount n (n - 1)).advance :=
    (hu.raiseCount n (n - 1)).congr (by simp) (by simp) (by simp) (by simp)
  obtain ⟨p, -, heq⟩ | ⟨-, heq⟩ := s.takeCommitted_cases n
  · rw [heq]; exact hadvanced _ (hs.congr (by simp) (by simp) (by simp) (by simp))
  · rw [heq]; exact hadvanced _ (hs.congr (by simp) (by simp) (by simp) (by simp))

theorem CountsBounded.riseAndAdvance {s : State} (hs : CountsBounded s) (n : LineNo) :
    CountsBounded (s.riseAndAdvance n) := by
  unfold State.riseAndAdvance
  split
  · exact (hs.raiseCount n (n - 1)).congr (by simp) (by simp) (by simp) (by simp)
  · exact hs.congr (by simp) (by simp) (by simp) (by simp)

theorem CountsBounded.refuseCommitted {s : State} (hs : CountsBounded s) (n : LineNo) :
    CountsBounded (s.refuseCommitted n) := by
  unfold State.refuseCommitted
  split
  · exact hs.spanResync n
  · exact hs.freeProvisional

theorem CountsBounded.storeNotice {s t : State} {n : RxNotice} {number : LineNo} {originator : StationNo}
    {topic : Topic} {payload : List Byte} {own : Bool} {tag : Option Tag} {replay : Bool} (hs : CountsBounded s)
    (h : s.storeNotice number originator topic payload own tag replay = (n, t)) : CountsBounded t := by
  obtain ⟨-, rfl⟩ := State.storeNotice_eq h
  exact hs

theorem CountsBounded.decideNotice {s : State} (hs : CountsBounded s) (h : Header) (b : NoticeBody) :
    CountsBounded (s.decideNotice h b) := by
  obtain ⟨c, heq⟩ | ⟨-, ⟨n, t, hst, -, -, heq⟩ | ⟨c, full, heq⟩⟩ := s.decideNotice_cases h b
  · rw [heq]; exact hs
  · rw [heq]; exact (hs.storeNotice hst : CountsBounded t)
  · rw [heq]; exact hs

theorem CountsBounded.frameArrives {s : State} (hs : CountsBounded s) (f : Frame) :
    CountsBounded (State.frameArrives f s) := by
  refine kept_frameArrives (fun _ ht => ht) (hs.headerProcess _ _) (fun h b _ _ ht => ht.decideNotice h b)
    (fun t h b _ ht => ?replay) (fun t r ht => ?resend) fun t h kind view word _ _ ht => ?beacon
  case replay =>
    exact kept_classifyReplay (fun _ => ht) (fun c r => CountsBounded.postReport (s := { t with counters := c }) ht r)
      (ht.spanResync _) (fun _ _ _ => CountsBounded.riseAndAdvance (s := t.makeKnown b.number) ht _)
      fun _ _ _ n u hst _ _ => CountsBounded.riseAndAdvance (s := u.hold n) (ht.storeNotice hst : CountsBounded u) _
  case resend => exact ht.congr (by simp) (by simp) (by simp) (by simp)
  case beacon =>
    have htw : CountsBounded (t.takeWord h.sender word) :=
      ht.of_le (ht.port.takeWord _ _) (by simp) (by simp) (by simp)
    refine kept_takeView kind view htw (fun _ => htw) (fun _ => ?_) fun _ => htw.resync ..
    exact CountsBounded.of_le htw (PortBounded.include (s := (t.takeWord h.sender word).updateMember _ _) htw.port)
      (by simp [State.include]) (by simp) (by simp [State.include, State.enterState])

theorem CountsBounded.countCollision {s : State} (hs : CountsBounded s) (f : OwnFrame) :
    CountsBounded (s.countCollision f) := by
  obtain ⟨hp, -, hobj, hjoin⟩ := (CountsBounded_iff s).mp hs
  unfold State.countCollision
  dsimp only
  split
  · refine CountsBounded.postReport (s := { s with line := _, counters := _ }) ?_ _
    exact (CountsBounded_iff _).mpr ⟨hp, saturate_le _, hobj, hjoin⟩
  · exact (CountsBounded_iff _).mpr ⟨hp, saturate_le _, hobj, hjoin⟩

theorem CountsBounded.senderObjected {s : State} (hs : CountsBounded s) : CountsBounded s.senderObjected := by
  obtain ⟨hp, hcoll, hobj, hjoin⟩ := (CountsBounded_iff _).mp hs.freeProvisional
  unfold State.senderObjected
  dsimp only
  split
  · refine CountsBounded.postReport (s := { s.freeProvisional with line := _, counters := _, commit := _ }) ?_ _
    exact (CountsBounded_iff _).mpr ⟨hp, by simpa using hcoll, saturate_le _, hjoin⟩
  · exact (CountsBounded_iff _).mpr ⟨hp, by simpa using hcoll, saturate_le _, hjoin⟩

theorem CountsBounded.senderStale {s : State} (hs : CountsBounded s) (n : LineNo) : CountsBounded (s.senderStale n) :=
  CountsBounded.postReport (s := { s with commit := { s.commit with catchingUp := true }
                                          send := { s.send with catchUp := some (s.rx.count + 1) } }) hs _

theorem CountsBounded.tellOwner {s : State} (hs : CountsBounded s) (f : OwnFrame) : CountsBounded (s.tellOwner f) := by
  refine kept_tellOwner (fun _ _ => hs) (fun _ => hs) (fun tag _ => ?_) (fun _ _ _ _ _ => hs) (fun _ _ => fun _ => hs)
    (fun _ => hs) (fun _ => ?_) fun _ => ?_
  · exact hs.congr (by simp) (by simp) (by simp) (by simp)
  · obtain ⟨hp, hcoll, hobj, -⟩ := (CountsBounded_iff s).mp hs
    exact (CountsBounded_iff _).mpr ⟨hp, hcoll, hobj, saturate_le _⟩
  · exact (CountsBounded.quit (s := s.beaconSent) hs).enterState ..

theorem CountsBounded.acts {s u : State} {c : Instr} (hs : CountsBounded s) (h : Acts s c u) : CountsBounded u := by
  cases h with
  | nothing | statusRead | wordTaken | leaveWaits | idled | active | checkFailed | ownNumber | toAdopt | sampled
  | joinExpiryWaits | beaconExpired | repairRequested | posted => exact hs
  | started c w =>
    refine CountsBounded.enterState ((CountsBounded_iff _).mpr ⟨⟨?_, ?_⟩, ?_, ?_, ?_⟩) _ _
    · simp
    · simp
    · simp
    · simp
    · exact ((CountsBounded_iff s).mp hs).2.2.2
  | leftListen => exact hs.quit.enterState ..
  | leaves =>
    exact CountsBounded.enterLeaving (hs.of_le (hs.port.congr (by simp)) (by simp) (by simp) (by simp))
  | headRemoved p hr ho =>
    refine hs.of_le ?_ (by simp) (by simp) (by simp)
    exact PortBounded.congr (s := { s with port := p }) (by simp) (by unfold PortBounded; rw [hr, ho]; exact hs.port)
  | slotDominant => exact hs.of_le (hs.port.congr (by simp)) (by simp) (by simp) (by simp)
  | halted h => exact (CountsBounded.quit (CountsBounded.postReport (s := s.arrival h) hs _)).enterState ..
  | founded => exact hs.found
  | joinFailed => exact hs.joinFailure
  | repairLost e =>
    exact CountsBounded.congr (s := s.updateGap e.id fun g => g.expired s.cfg.repairLimit) hs (by simp) (by simp) (by simp) (by simp)
  | @memberSilent station =>
    have hpost := CountsBounded.postReport (s := s.removeMember station) hs (.memberLost station .silent)
    exact hpost.congr (by simp) (by simp) (by simp) (by simp)
  | frameStarted =>
    refine hs.of_le (hs.port.congr (by simp)) ?_ (by simp) (by simp)
    unfold State.startFrame
    dsimp only
    split
    · simp
    · exact Nat.zero_le _
  | @frameSent f =>
    have hsent : CountsBounded s.noteSent := hs.of_le hs.port (Nat.zero_le _) (le_refl _) (by
      unfold State.noteSent StationBlock.restartBeaconTimer; dsimp only; split <;> exact le_refl _)
    unfold State.takeHeldUnlessWindow
    split
    · exact hsent.tellOwner f
    · exact (hsent.tellOwner f).takeHeld
  | @collided f =>
    have hcoll := hs.countCollision f
    exact CountsBounded.takeHeld (kept_afterCollision hcoll (fun _ _ => hcoll.freeProvisional)
      (hcoll.congr (by simp) (by simp) (by simp) (by simp)))
  | adopted => exact CountsBounded.frameArrives (CountsBounded.adopt (s := s.heard _) hs _) _
  | frameTaken => exact CountsBounded.frameArrives (s := s.arrival _) hs _
  | adoptedAtWindow => exact CountsBounded.headerProcess (CountsBounded.adopt (s := s.closeWindow) hs _) _ _
  | receiverEnds =>
    have hclosed : CountsBounded s.closeWindow := hs
    exact CountsBounded.takeHeld (kept_receiverWindowEnd (fun _ => hclosed.freeProvisional)
      (fun _ _ => hclosed.refuseCommitted _) fun _ _ => hclosed.takeCommitted _)
  | @senderEnds w =>
    have hretained : CountsBounded (State.retained
        { s.closeWindow with line := { s.closeWindow.line with ownFrame := none } } w.number) :=
      hs.of_le (hs.port.congr (by simp [State.retained])) (by simp [State.retained]) (by simp [State.retained])
        (by simp [State.retained])
    exact CountsBounded.takeHeld (kept_senderWindowEnd (fun _ => CountsBounded.senderObjected hs) (fun _ ho => ho.senderStale _)
      (fun _ _ => hretained.refuseCommitted _) fun _ _ => hretained.takeCommitted _)

/-- The transaction and the report read leave the counts within their bounds. -/
theorem CountsBounded_happens {s t : State} {c : Instr} (hs : CountsBounded s) (h : Happens s c t) : CountsBounded t := by
  cases h with
  | still => exact hs
  | linked l => exact hs
  | released id rate low => exact (CountsBounded_iff _).mpr ⟨⟨Nat.zero_le _, Nat.zero_le _⟩, Nat.zero_le _, Nat.zero_le _,
      Nat.zero_le _⟩
  | asserted => exact hs
  | acts hlive hu hv =>
    obtain ⟨p, rfl, hr, ho⟩ := hv
    obtain ⟨⟨hreports, hover⟩, hrest⟩ := (CountsBounded_iff _).mp (hs.acts hu)
    exact (CountsBounded_iff _).mpr ⟨⟨hr.trans hreports, ho ▸ hover⟩, hrest⟩

/-! ### The obligation -/

theorem CellsCanonical_happens {s t : State} {c : Instr} (hs : CellsCanonical s) (h : Happens s c t) :
    CellsCanonical t := by
  cases h with
  | still | linked | asserted => exact hs
  | released id rate low => rfl
  | acts hlive hu hv =>
    obtain ⟨p, rfl, -, -⟩ := hv
    exact (hs.acts hu : CellsCanonical _)

/-- Settles O54: each of the three is kept by whatever a command can do (`Happens`); ATTN# is settled after every event. -/
theorem attentionAndBoundsAreKept : Obligations.AttentionAndBoundsAreKept := by
  intro s t h
  obtain rfl | ⟨c, rest, -, hhap⟩ := step_happens h
  · exact ⟨id, id, id⟩
  · exact ⟨fun hs => AttnFollows_happens (s := { s with pending := rest }) hs hhap,
      fun hs => CountsBounded_happens (s := { s with pending := rest }) hs hhap,
      fun hs => CellsCanonical_happens (s := { s with pending := rest }) hs hhap⟩

end Sys2Proof.Machine
end

