-- ==== Sys2Proof/Proofs/Line.lean ====
section
/-!
PROOF. Own frame, window, line timing and what is driven agree; off the line nothing stands that may not; a pending BASE record
leaves nothing held (R16, R23, R31, R68, R132, R145).
-/

namespace Sys2Proof.Machine

/-! ### A line with nothing of the station's own on it -/

/-- Nothing of the station's own is on the line, no window is open, and line timing is held. -/
def LineFree (s : State) : Prop :=
  s.line.ownFrame = none ∧ s.line.window = none ∧ s.line.driving = false ∧ s.line.timing ≠ .off

theorem LineFree.congr {s t : State} (h : LineFree s) (ht : t.line = s.line) : LineFree t := by
  unfold LineFree; rw [ht]; exact h

theorem LineFree.sound {s : State} (h : LineFree s) (hs : s.stn.hearsLine = true) : LineSound s := by
  obtain ⟨ho, hw, hd, ht⟩ := h
  exact LineSound_quiet ho hw hd (by simp [ht, hs])

/-- Every station on the line hears it. -/
theorem StationBlock.hearsLine_of_onLine {b : StationBlock} (h : b.onLine = true) : b.hearsLine = true := by
  rw [StationBlock.onLine_iff] at h
  rw [StationBlock.hearsLine_iff]
  obtain h | h | h := h <;> simp [h]

theorem StationBlock.onLine_of_joinedOrActive {b : StationBlock} (h : b.joinedOrActive = true) : b.onLine = true := by
  rw [StationBlock.onLine_iff]
  obtain h | h := (StationBlock.joinedOrActive_iff b).mp h
  · exact .inl h
  · exact .inr (.inl h)

theorem StationBlock.hearsLine_of_listen {b : StationBlock} (h : b.state = .listen) : b.hearsLine = true := by
  rw [StationBlock.hearsLine_iff]; simp [h]

theorem StationBlock.not_onLine_of_listen {b : StationBlock} (h : b.state = .listen) : b.onLine = false := by
  unfold StationBlock.onLine; rw [h]

/-- The station hears the line, and nothing of its own is on it. -/
def OnFreeLine (s : State) : Prop := LineFree s ∧ s.stn.onLine = true

theorem OnFreeLine.sound {s : State} (h : OnFreeLine s) : LineSound s :=
  h.1.sound (StationBlock.hearsLine_of_onLine h.2)

theorem OnFreeLine.congr {s t : State} (h : OnFreeLine s) (hl : t.line = s.line) (hs : t.stn = s.stn) : OnFreeLine t :=
  ⟨h.1.congr hl, hs ▸ h.2⟩

theorem OnFreeLine_resync {s : State} (h : LineFree s) (r : BaseReason) (c : StateCause) (n : LineNo) :
    OnFreeLine (s.resync r c n) := by
  obtain ⟨-, -, -, -, -, -, -, -, hline, hstn, -⟩ := s.resync_spec r c n
  obtain ⟨ho, hw, hd, ht⟩ := h
  refine ⟨⟨by simp [ho], by simp [hline], by simp [hd], ?_⟩, ?_⟩
  · rw [hline]; exact fun hoff => ht ((LineBlock.standBack_timing_off _).mp hoff)
  · rw [hstn]; rfl

theorem OnFreeLine.spanResync {s : State} (h : OnFreeLine s) (n : LineNo) : OnFreeLine (s.spanResync n) := by
  unfold State.spanResync
  split
  · exact OnFreeLine_resync h.1 ..
  · exact h

theorem OnFreeLine.headerProcess {s : State} (h : OnFreeLine s) (hd : Header) (l : Bool) :
    OnFreeLine (s.headerProcess hd l).1 := by
  have hm : OnFreeLine (s.headerMember hd l) := h.congr (by simp) (by simp)
  exact kept_headerProcess hm (fun _ ht => ht.spanResync _) fun _ _ => hm.congr (by simp) (by simp)

theorem OnFreeLine_adopt {s : State} (h : LineFree s) (n : LineNo) : OnFreeLine (s.adopt n) := by
  obtain ⟨ho, hw, hd, ht⟩ := h
  refine ⟨⟨by simp [ho], by simp [hw], by simp [hd], by simp [ht]⟩, ?_⟩
  simp [State.adopt, State.enterState, StationBlock.onLine]

theorem OnFreeLine.takeCommitted {s : State} (h : OnFreeLine s) (n : LineNo) : OnFreeLine (s.takeCommitted n) :=
  h.congr (by simp) (by simp)

theorem OnFreeLine.freeProvisional {s : State} (h : OnFreeLine s) : OnFreeLine s.freeProvisional :=
  h.congr (by simp) (by simp)

theorem OnFreeLine.refuseCommitted {s : State} (h : OnFreeLine s) (n : LineNo) : OnFreeLine (s.refuseCommitted n) := by
  unfold State.refuseCommitted
  split
  · exact h.spanResync n
  · exact h.freeProvisional

theorem OnFreeLine.classifyReplay {s : State} (hs : OnFreeLine s) (h : Header) (b : NoticeBody) :
    OnFreeLine (s.classifyReplay h b) := by
  refine kept_classifyReplay (fun _ => hs) (fun _ _ => hs.congr (by simp) (by simp)) (hs.spanResync _)
    (fun _ _ _ => hs.congr (by simp) (by simp)) fun _ _ _ n t hst _ _ => ?_
  obtain ⟨-, rfl⟩ := State.storeNotice_eq hst
  exact hs.congr (by simp) (by simp)

theorem OnFreeLine.takeView {s : State} (hs : OnFreeLine s) (h : Header) (kind : BeaconKind) (view : Set32) :
    OnFreeLine (s.takeView h kind view) := by
  refine kept_takeView kind view hs (fun _ => hs) (fun _ => ?_) fun _ => OnFreeLine_resync hs.1 ..
  obtain ⟨⟨ho, hw, hd, ht⟩, -⟩ := hs
  refine ⟨⟨by simp [ho], by simp [hw], by simp [hd], by simp [ht]⟩, ?_⟩
  simp [State.include, State.enterState, StationBlock.onLine]

/-- A decision opens the receiver's window (R38 to R41). -/
theorem OnFreeLine.openWindow {s : State} (hs : OnFreeLine s) (h : Header) (n : LineNo) (full stale : Bool) :
    LineSound (s.openWindow .receiver h n full stale) ∧ (s.openWindow .receiver h n full stale).stn.onLine = true := by
  obtain ⟨⟨ho, hw, hd, ht⟩, hon⟩ := hs
  refine ⟨⟨?_, ?_, ?_, ?_⟩, hon⟩
  · intro f hf; exact absurd (ho.symm.trans hf) (by simp)
  · intro w hw'; cases hw'; exact ⟨ho, hon⟩
  · exact iff_of_false ht (by rw [StationBlock.hearsLine_of_onLine (b := (s.openWindow ..).stn) hon]; simp)
  · intro hd'; exact absurd (hd.symm.trans hd') (by simp)

theorem OnFreeLine.decideNotice {s : State} (hs : OnFreeLine s) (h : Header) (b : NoticeBody) :
    LineSound (s.decideNotice h b) ∧ (s.decideNotice h b).stn.onLine = true := by
  obtain ⟨c, heq⟩ | ⟨-, ⟨n, t, hst, -, -, heq⟩ | ⟨c, full, heq⟩⟩ := s.decideNotice_cases h b
  · rw [heq]; exact OnFreeLine.openWindow (s := { s with counters := c }) hs ..
  · obtain ⟨-, rfl⟩ := State.storeNotice_eq hst
    rw [heq]
    exact OnFreeLine.openWindow (s := { s with pool := _, commit := { s.commit with provisional := some n } }) hs ..
  · rw [heq]; exact OnFreeLine.openWindow (s := { s with counters := c }) hs ..

theorem OnFreeLine.frameArrives {s : State} (hs : OnFreeLine s) (f : Frame) :
    LineSound (State.frameArrives f s) ∧ (State.frameArrives f s).stn.onLine = true := by
  have hfree (t : State) (ht : OnFreeLine t) : LineSound t ∧ t.stn.onLine = true := ⟨ht.sound, ht.2⟩
  refine kept_frameArrives (J := OnFreeLine) (I := fun t => LineSound t ∧ t.stn.onLine = true) hfree
    (hs.headerProcess _ _) (fun h b _ _ ht => ht.decideNotice h b) (fun t h b _ ht => hfree _ (ht.classifyReplay h b))
    (fun t r ht => hfree _ (ht.congr (by simp) (by simp))) fun t h kind view word _ _ ht => hfree _ ?_
  exact OnFreeLine.takeView (ht.congr (by simp) (by simp)) h kind view

/-- What was held is taken on a line that is free. -/
theorem LineFree.takeHeld {s : State} (h : LineFree s) (hs : s.stn.hearsLine = true) : LineSound s.takeHeld := by
  refine LineFree.sound (h.congr (by simp)) ?_
  refine kept_takeHeld (I := fun t => t.stn.hearsLine = true) hs (fun _ => ?_) fun _ => ?_
  · simp [StationBlock.hearsLine]
  · obtain ⟨hstn, -⟩ := s.joinFailure_spec
    rw [hstn]; rfl

theorem OnFreeLine.takeHeld {s : State} (h : OnFreeLine s) : LineSound s.takeHeld :=
  h.1.takeHeld (StationBlock.hearsLine_of_onLine h.2)

/-! ### What the line interface's invariant says in the states of the moves -/

/-- A change of the line interface's timing, at a station that hears the line. -/
theorem LineSound.retimed {s t : State} (h : LineSound s) (h1 : t.line.ownFrame = s.line.ownFrame)
    (h2 : t.line.window = s.line.window) (h3 : t.line.driving = s.line.driving) (h4 : t.line.id = s.line.id)
    (h5 : t.stn = s.stn) (ht : t.line.timing ≠ .off) (hs : s.stn.hearsLine = true) : LineSound t := by
  obtain ⟨ho, hw, -, hd⟩ := h
  refine ⟨fun f hf => ?_, fun w hw' => ?_, iff_of_false ht (by simp [h5, hs]), ?_⟩
  · have hf' := ho f (h1 ▸ hf)
    unfold OwnFrameSound at hf' ⊢
    rwa [h2, h5]
  · have hw'' := hw w (h2 ▸ hw')
    unfold WindowSound at hw'' ⊢
    rwa [h1, h4, h5]
  · rw [h1, h2, h3]; exact hd

theorem LineSound.timing_ne_off {s : State} (h : LineSound s) (hs : s.stn.hearsLine = true) : s.line.timing ≠ .off :=
  fun hoff => by have := h.2.2.1.mp hoff; simp [hs] at this

theorem LineSound.hearsLine_of_timing {s : State} (h : LineSound s) (ht : s.line.timing ≠ .off) :
    s.stn.hearsLine = true := by
  by_contra hs
  exact ht (h.2.2.1.mpr (by simpa using hs))

/-- A frame of the station's own stands only on the line (R34). -/
theorem LineSound.onLine_of_ownFrame {s : State} (h : LineSound s) {f : OwnFrame} (hf : s.line.ownFrame = some f) :
    s.stn.onLine = true := (h.1 f hf).1

theorem LineSound.ownFrame_of_not_onLine {s : State} (h : LineSound s) (hs : s.stn.onLine = false) :
    s.line.ownFrame = none := by
  by_contra hne
  obtain ⟨f, hf⟩ := Option.ne_none_iff_exists'.mp hne
  simp [h.onLine_of_ownFrame hf] at hs

/-- A frame not yet sent leaves no window. -/
theorem LineSound.window_of_unsent {s : State} (h : LineSound s) {f : OwnFrame} (hf : s.line.ownFrame = some f)
    (hs : f.sent = false) : s.line.window = none := (h.1 f hf).2.2.1 hs

theorem LineSound.receiver {s : State} (h : LineSound s) {w : Window} (hw : s.line.window = some w)
    (hr : w.role = .receiver) : s.line.ownFrame = none ∧ s.stn.onLine = true := by
  have := h.2.1 w hw; unfold WindowSound at this; rw [hr] at this; exact this

theorem LineSound.sender {s : State} (h : LineSound s) {w : Window} (hw : s.line.window = some w)
    (hr : w.role = .sender) : (∃ f, s.line.ownFrame = some f ∧ f.sent = true) ∧ w.markFull = false ∧ w.markStale = false
      ∧ s.stn.onLine = true := by
  have hsound := h.2.1 w hw; unfold WindowSound at hsound; rw [hr] at hsound
  obtain ⟨⟨f, hf, hs⟩, hfull, hstale⟩ := hsound
  exact ⟨⟨f, hf, hs⟩, hfull, hstale, h.onLine_of_ownFrame hf⟩

theorem LineSound.adopting {s : State} (h : LineSound s) {w : Window} (hw : s.line.window = some w)
    (hr : w.role = .adopting) : s.line.ownFrame = none ∧ s.stn.state = .listen ∧ s.stn.listenTimer = .stopped
      ∧ w.header.sender ≠ s.line.id ∧ w.header.senderState = .active ∧ w.markFull = false ∧ w.markStale = false := by
  have := h.2.1 w hw; unfold WindowSound at this; rw [hr] at this; exact this

theorem LineSound.hearsLine_of_window {s : State} (h : LineSound s) {w : Window} (hw : s.line.window = some w) :
    s.stn.hearsLine = true := by
  cases hr : w.role with
  | adopting => exact StationBlock.hearsLine_of_listen (h.adopting hw hr).2.1
  | receiver => exact StationBlock.hearsLine_of_onLine (h.receiver hw hr).2
  | sender => exact StationBlock.hearsLine_of_onLine (h.sender hw hr).2.2.2

/-- Off the line the station drives nothing (R132). -/
theorem LineSound.not_driving {s : State} (h : LineSound s) (hs : s.stn.onLine = false) : s.line.driving = false := by
  by_contra hd
  obtain ⟨f, hf, -⟩ | ⟨w, hw, hmark⟩ := h.2.2.2 (by simpa using hd)
  · simp [h.onLine_of_ownFrame hf] at hs
  · cases hr : w.role with
    | adopting => obtain ⟨-, -, -, -, -, hfull, hstale⟩ := h.adopting hw hr; simp [hfull, hstale] at hmark
    | receiver => simp [(h.receiver hw hr).2] at hs
    | sender => simp [(h.sender hw hr).2.2.2] at hs

/-- A receiver that can end a frame is on a free line. -/
theorem LineSound.free_of_receiving {s : State} (h : LineSound s) (hr : s.receiving = true) :
    LineFree s ∧ s.stn.hearsLine = true := by
  obtain ⟨ho, hw, hd, hs⟩ := h.quiet_of_receiving hr
  exact ⟨⟨ho, hw, hd, h.timing_ne_off hs⟩, hs⟩

theorem LineFree_arrival {s : State} (h : LineFree s) (hd : Header) : LineFree (s.arrival hd) :=
  ⟨h.1, h.2.1, h.2.2.1, by simp⟩

theorem LineFree_heard {s : State} (h : LineFree s) (hd : Header) : LineFree (s.heard hd) := LineFree_arrival h hd

/-- An open window closes at a station with no frame of its own. -/
theorem LineSound.closeWindow {s : State} (h : LineSound s) {w : Window} (hw : s.line.window = some w)
    (ho : s.line.ownFrame = none) : LineFree s.closeWindow :=
  ⟨ho, rfl, rfl, h.timing_ne_off (h.hearsLine_of_window hw)⟩

/-- The sender's window closes, and its frame leaves the line with it. -/
theorem LineSound.closeOwn {s : State} (h : LineSound s) {w : Window} (hw : s.line.window = some w) :
    LineFree { s.closeWindow with line := { s.closeWindow.line with ownFrame := none } } :=
  ⟨rfl, rfl, rfl, h.timing_ne_off (h.hearsLine_of_window hw)⟩

/-! ### The line interface, move by move -/

/-- A station that offers a candidate is on the line, and a NOTICE candidate's frame is a NOTICE (R34, R46). -/
theorem State.candidate_onLine {s : State} {c : Candidate} (h : s.candidate = some c) : s.stn.onLine = true := by
  rw [StationBlock.onLine_iff]
  unfold State.candidate at h
  cases hs : s.stn.state <;> simp_all

theorem LineSound.startFrame {s : State} {c : Candidate} {f : Frame} (hc : s.candidate = some c)
    (hf : s.frameFor c = some f) (hw : s.line.window = none) : LineSound (s.startFrame c f) := by
  have hon := State.candidate_onLine hc
  have hown : (s.startFrame c f).line.ownFrame = some { candidate := c, frame := f, sent := false } := rfl
  have hwin : (s.startFrame c f).line.window = none := by simpa using hw
  refine ⟨fun g hg => ?_, fun w hw' => ?_, ?_, fun _ => .inl ⟨_, hown, rfl⟩⟩
  · rw [hown] at hg; cases hg
    refine ⟨by simpa using hon, fun ⟨tag, htag⟩ => ?_, fun _ => hwin, fun hs => by cases hs⟩
    subst htag
    obtain ⟨n, -, rfl⟩ := State.frameFor_notice hf
    exact ⟨_, _, rfl⟩
  · rw [hwin] at hw'; cases hw'
  · exact iff_of_false (by simp [State.startFrame]) (by simp [StationBlock.hearsLine_of_onLine hon])

/-- A frame that is sent leaves the line free (R27). -/
theorem LineSound.noteSent {s : State} (h : LineSound s) {f : OwnFrame} (hf : s.line.ownFrame = some f)
    (hs : f.sent = false) : OnFreeLine s.noteSent := by
  refine ⟨⟨rfl, h.window_of_unsent hf hs, rfl, fun hoff => by cases hoff⟩, ?_⟩
  have hon := h.onLine_of_ownFrame hf
  unfold State.noteSent StationBlock.restartBeaconTimer
  dsimp only
  split <;> exact hon

/-- What stands at the sender once its NOTICE frame is sent. -/
theorem OnFreeLine.ownWindow {s : State} (hs : OnFreeLine s) {f : OwnFrame} {h : Header} {b : NoticeBody}
    (hf : f.frame = .notice h b) : LineSound (s.ownWindow f h b) := by
  obtain ⟨⟨ho, hw, hd, ht⟩, hon⟩ := hs
  refine ⟨?_, ?_, ?_, fun hd' => absurd (hd.symm.trans hd') (by simp)⟩
  · intro g hg; cases hg
    exact ⟨hon, fun _ => ⟨h, b, hf⟩, fun hs' => (by cases hs'), fun _ => ⟨_, rfl, rfl⟩⟩
  · intro w hw'; cases hw'
    exact ⟨⟨_, rfl, rfl⟩, rfl, rfl⟩
  · exact iff_of_false ht (by rw [StationBlock.hearsLine_of_onLine (b := (s.ownWindow f h b).stn) hon]; simp)

/-- The state after a frame was sent and its owner told: on a free line, in the sender's window, or in IDLE after a LEAVE
beacon (R27, R35, R145). -/
theorem OnFreeLine.tellOwner {s : State} (hs : OnFreeLine s) (f : OwnFrame) :
    OnFreeLine (s.tellOwner f)
      ∨ (LineSound (s.tellOwner f) ∧ (s.tellOwner f).line.ownFrame ≠ none ∧ (s.tellOwner f).stn.onLine = true)
      ∨ s.tellOwner f = s.beaconSent.enterIdle .leaveSent := by
  refine kept_tellOwner (s := s) (f := f) (I := fun t => OnFreeLine t
    ∨ (LineSound t ∧ t.line.ownFrame ≠ none ∧ t.stn.onLine = true) ∨ t = s.beaconSent.enterIdle .leaveSent)
    (fun _ _ => ?_) (fun _ => ?_) (fun _ _ => ?_) (fun _ h b _ hf => ?_) (fun _ _ _ => ?_) (fun _ => ?_) (fun _ => ?_)
    fun _ => ?_
  · exact .inl hs
  · exact .inl hs
  · exact .inl (hs.congr (by simp) (by simp))
  · exact .inr (.inl ⟨hs.ownWindow hf, by simp [State.ownWindow], hs.2⟩)
  · exact .inl hs
  · exact .inl hs
  · exact .inl hs
  · exact .inr (.inr rfl)

theorem LineSound_enterIdle (s : State) (c : StateCause) : LineSound (s.enterIdle c) :=
  LineSound_of_quit (s := s) (by simp [State.enterIdle]) (.inl (by simp [State.enterIdle, State.enterState]))

theorem LineSound_halt (s : State) : LineSound s.halt :=
  LineSound_of_quit (s := s.postReport (.duplicateId s.line.id)) (by simp [State.halt])
    (.inr (by simp [State.halt, State.enterState]))

/-- Entry into IDLE leaves nothing held (R145). -/
theorem NothingHeld_enterIdle (s : State) (c : StateCause) : NothingHeld (s.enterIdle c) := by
  obtain ⟨-, -, -, -, -, -, -, -, -, -, hstn⟩ := s.quit_spec
  simp [NothingHeld, State.enterIdle, State.enterState, hstn]

theorem LineSound.frameSent {s : State} (h : LineSound s) {f : OwnFrame} (hf : s.line.ownFrame = some f)
    (hs : f.sent = false) : LineSound (s.noteSent.tellOwner f).takeHeldUnlessWindow := by
  unfold State.takeHeldUnlessWindow
  obtain hfree | ⟨hsound, hown, -⟩ | hidle := (h.noteSent hf hs).tellOwner f
  · rw [if_neg (by simp [hfree.1.1])]; exact hfree.takeHeld
  · rw [if_pos (Option.isSome_iff_ne_none.mpr hown)]; exact hsound
  · rw [hidle, State.takeHeld_of_nothing (NothingHeld_enterIdle ..), ite_self]; exact LineSound_enterIdle ..

theorem State.countCollision_line (s : State) (f : OwnFrame) : (s.countCollision f).line.ownFrame = none
    ∧ (s.countCollision f).line.driving = false ∧ (s.countCollision f).line.timing = .busy := by
  unfold State.countCollision
  dsimp only
  split <;> simp

theorem LineSound.collided {s : State} (h : LineSound s) {f : OwnFrame} (hf : s.line.ownFrame = some f)
    (hs : f.sent = false) : OnFreeLine ((s.countCollision f).afterCollision f.candidate) := by
  obtain ⟨ho, hd, ht⟩ := s.countCollision_line f
  exact ⟨⟨by simp [ho], by simp [h.window_of_unsent hf hs], by simp [hd], by simp [ht]⟩,
    by simp [h.onLine_of_ownFrame hf]⟩

@[simp] theorem Window.sampled_role (w : Window) (pos : WindowPos) (level : Bool) :
    (w.sampled pos level).role = w.role := by cases pos <;> rfl

@[simp] theorem Window.sampled_number (w : Window) (pos : WindowPos) (level : Bool) :
    (w.sampled pos level).number = w.number := by cases pos <;> rfl

@[simp] theorem Window.sampled_header (w : Window) (pos : WindowPos) (level : Bool) :
    (w.sampled pos level).header = w.header := by cases pos <;> rfl

@[simp] theorem Window.sampled_markFull (w : Window) (pos : WindowPos) (level : Bool) :
    (w.sampled pos level).markFull = w.markFull := by cases pos <;> rfl

@[simp] theorem Window.sampled_markStale (w : Window) (pos : WindowPos) (level : Bool) :
    (w.sampled pos level).markStale = w.markStale := by cases pos <;> rfl

/-- A position is sampled (R31, R32). -/
theorem LineSound.sampled {s : State} (h : LineSound s) {w : Window} (hw : s.line.window = some w) (pos : WindowPos)
    (level : Bool) : LineSound { s with line := { s.line with
      window := some (w.sampled pos level), driving := w.drives pos
      timing := if level then .busy else s.line.timing } } := by
  have htiming := h.timing_ne_off (h.hearsLine_of_window hw)
  refine ⟨fun f hf => ?_, fun v hv => ?_, ?_, fun hd => .inr ⟨_, rfl, ?_⟩⟩
  · obtain ⟨hon, hframe, hunsent, hsent⟩ := h.1 f hf
    refine ⟨hon, hframe, fun hs => absurd (hunsent hs) (by simp [hw]), fun hs => ?_⟩
    obtain ⟨v, hv, hr⟩ := hsent hs
    rw [hw] at hv; cases hv
    exact ⟨_, rfl, (w.sampled_role ..).trans hr⟩
  · cases hv
    have hsound := h.2.1 w hw
    unfold WindowSound at hsound ⊢
    rwa [w.sampled_role, w.sampled_markFull, w.sampled_markStale, w.sampled_header]
  · refine iff_of_false ?_ (by simp [h.hearsLine_of_window hw])
    dsimp only
    split
    · simp
    · exact htiming
  · rw [w.sampled_markFull, w.sampled_markStale]
    cases pos with
    | turnGap => cases hd
    | full => exact .inl hd
    | stale => exact .inr hd

theorem OnFreeLine.adoptAtWindow {s : State} (hs : LineFree s) (w : Window) : OnFreeLine (s.adoptAtWindow w) :=
  (OnFreeLine_adopt hs _).headerProcess _ _

theorem OnFreeLine.receiverWindowEnd {s : State} (hs : OnFreeLine s) (w : Window) : OnFreeLine (s.receiverWindowEnd w) :=
  kept_receiverWindowEnd (fun _ => hs.freeProvisional) (fun _ _ => hs.refuseCommitted _) fun _ _ => hs.takeCommitted _

theorem OnFreeLine.senderObjected {s : State} (hs : OnFreeLine s) : OnFreeLine s.senderObjected := by
  obtain ⟨⟨ho, hw, hd, ht⟩, hon⟩ := hs
  unfold State.senderObjected
  dsimp only
  split <;> exact ⟨⟨by simp [ho], by simp [hw], by simp [hd], by simp [ht]⟩, by simp [hon]⟩

theorem OnFreeLine.senderWindowEnd {s : State} (hs : OnFreeLine s) (w : Window) : OnFreeLine (s.senderWindowEnd w) := by
  have hretained : OnFreeLine (s.retained w.number) := hs.congr (by simp [State.retained]) (by simp [State.retained])
  exact kept_senderWindowEnd (fun _ => hs.senderObjected)
    (fun _ ht => ht.congr (by simp [State.senderStale]) (by simp [State.senderStale]))
    (fun _ _ => hretained.refuseCommitted _) fun _ _ => hretained.takeCommitted _

/-- In LISTEN with the listen timer running the line is free: a window that is sampled to adopt stopped it (R9). -/
theorem LineSound.free_of_listening {s : State} (h : LineSound s) (hs : s.stn.state = .listen)
    (ht : s.stn.listenTimer ≠ .stopped) : LineFree s := by
  have hoff := StationBlock.not_onLine_of_listen hs
  refine ⟨h.ownFrame_of_not_onLine hoff, ?_, h.not_driving hoff, h.timing_ne_off (StationBlock.hearsLine_of_listen hs)⟩
  by_contra hne
  obtain ⟨w, hw⟩ := Option.ne_none_iff_exists'.mp hne
  cases hr : w.role with
  | adopting => exact ht (h.adopting hw hr).2.2.1
  | receiver => simp [(h.receiver hw hr).2] at hoff
  | sender => simp [(h.sender hw hr).2.2.2] at hoff

theorem LineSound.found {s : State} (h : LineFree s) : LineSound s.found := by
  obtain ⟨ho, hw, hd, ht⟩ := h
  exact LineFree.sound ⟨by simp [ho], by simp [hw], by simp [hd], by simp [ht]⟩
    (by simp [State.found, State.enterState, StationBlock.hearsLine])

theorem LineSound.not_driving_of_free {s : State} (h : LineSound s) (ho : s.line.ownFrame = none)
    (hw : s.line.window = none) : s.line.driving = false := by
  by_contra hd
  obtain ⟨f, hf, -⟩ | ⟨w, hw', -⟩ := h.2.2.2 (by simpa using hd)
  · simp [ho] at hf
  · simp [hw] at hw'

theorem LineSound.toAdopt {s : State} (hs : LineFree s) (hst : s.stn.state = .listen) {chars : List LineChar} {h : Header}
    {b : NoticeBody} (hf : readFrame chars = some (.notice h b)) (hid : h.sender ≠ s.line.id) :
    LineSound ((s.heard h).openWindow .adopting h b.number false false) := by
  obtain ⟨ho, -, hd, -⟩ := LineFree_heard hs h
  refine ⟨fun f hf' => absurd (ho.symm.trans hf') (by simp), fun w hw => ?_, ?_,
    fun hd' => absurd (hd.symm.trans hd') (by simp)⟩
  · cases hw
    obtain ⟨hactive, -⟩ := notice_valid (readFrame_valid hf)
    exact ⟨ho, hst, rfl, hid, hactive, rfl, rfl⟩
  · exact iff_of_false (by simp [State.openWindow, State.heard])
      (by simp [State.heard, State.openWindow, StationBlock.hearsLine, hst])

theorem LineSound.acts {s u : State} {c : Instr} (hs : LineSound s) (h : Acts s c u) : LineSound u := by
  cases h with
  | nothing | posted | statusRead | wordTaken | leaveWaits | joinExpiryWaits | beaconExpired | repairRequested =>
    exact hs.congr rfl rfl rfl rfl rfl rfl rfl
  | started c w =>
    exact LineFree.sound ⟨by simp [State.applyStart], by simp [State.applyStart], by simp [State.applyStart],
      by simp [State.applyStart]⟩ (by simp [State.applyStart, State.enterState, StationBlock.hearsLine])
  | leftListen => exact LineSound_enterIdle ..
  | leaves hst =>
    exact hs.waitForIdle.onLine (by simp) (by simpa using StationBlock.onLine_of_joinedOrActive hst)
      (by simp [StationBlock.onLine])
  | headRemoved | repairLost | memberSilent =>
    exact hs.congr (by simp) (by simp) (by simp) (by simp) (by simp) (by simp) (by simp)
  | idled hl => exact hs.retimed rfl rfl rfl rfl rfl (by simp) hl
  | active ready hl => exact hs.retimed rfl rfl rfl rfl rfl (by simp) hl
  | slotDominant => exact hs.waitForIdle
  | frameStarted ht ho hw hc hf => exact LineSound.startFrame hc hf hw
  | frameSent hf hsent => exact hs.frameSent hf hsent
  | collided hf hsent => exact (hs.collided hf hsent).takeHeld
  | checkFailed hr => exact hs.retimed rfl rfl rfl rfl rfl (by simp) (hs.free_of_receiving hr).2
  | ownNumber h hr => exact hs.retimed rfl rfl rfl rfl rfl (by simp) (hs.free_of_receiving hr).2
  | halted => exact LineSound_halt _
  | toAdopt hf hr hid hst => exact LineSound.toAdopt (hs.free_of_receiving hr).1 hst hf hid
  | adopted hf hk hr hid hst =>
    exact ((OnFreeLine_adopt (LineFree_heard (hs.free_of_receiving hr).1 _) _).frameArrives _).1
  | frameTaken hf hr hid hon =>
    exact (OnFreeLine.frameArrives ⟨LineFree_arrival (hs.free_of_receiving hr).1 _, hon⟩ _).1
  | sampled hw => exact hs.sampled hw ..
  | adoptedAtWindow hw hr =>
    exact (OnFreeLine.adoptAtWindow (hs.closeWindow hw (hs.adopting hw hr).1) _).sound
  | receiverEnds hw hr =>
    obtain ⟨ho, hon⟩ := hs.receiver hw hr
    exact (OnFreeLine.receiverWindowEnd ⟨hs.closeWindow hw ho, hon⟩ _).takeHeld
  | senderEnds hw hr =>
    obtain ⟨-, -, -, hon⟩ := hs.sender hw hr
    exact (OnFreeLine.senderWindowEnd ⟨hs.closeOwn hw, hon⟩ _).takeHeld
  | founded hst ht => exact LineSound.found (hs.free_of_listening hst ht)
  | joinFailed hst ho hw =>
    have hears : s.stn.hearsLine = true := StationBlock.hearsLine_of_onLine (by simp [StationBlock.onLine, hst])
    refine LineFree.sound (LineFree.congr ⟨ho, hw, hs.not_driving_of_free ho hw, hs.timing_ne_off hears⟩ (by simp)) ?_
    obtain ⟨hstn, -⟩ := s.joinFailure_spec
    rw [hstn]; rfl

/-! ### Off the line -/

/-- Nothing stands at a station that only hears the line, where its receive side and own frame are as they were. -/
theorem OffLineEmpty.hears {s t : State} (h : OffLineEmpty s) (hst : t.stn.state = s.stn.state)
    (hs : s.stn.hearsLine = true) (h1 : t.rx.holdSet = s.rx.holdSet) (h2 : t.rx.known = s.rx.known)
    (h3 : t.gaps = s.gaps) (h4 : t.commit.provisional = s.commit.provisional)
    (h5 : t.line.ownFrame = s.line.ownFrame) : OffLineEmpty t := by
  have honline : t.stn.onLine = s.stn.onLine := by unfold StationBlock.onLine; rw [hst]
  rw [StationBlock.hearsLine_iff] at hs
  refine ⟨fun hoff => ?_, fun hidle => ?_⟩
  · rw [h1, h2, h3, h4, h5]; exact h.1 (honline ▸ hoff)
  · rw [hst] at hidle
    exact absurd hidle (not_or.mpr hs)

theorem OffLineEmpty_enterIdle (s : State) (c : StateCause) : OffLineEmpty (s.enterIdle c) :=
  OffLineEmpty_of_quit (s := s) (by simp [State.enterIdle]) (by simp [State.enterIdle]) (by simp [State.enterIdle])
    (by simp [State.enterIdle]) (by simp [State.enterIdle]) (by simp [State.enterIdle]) .idle (by simp [State.enterIdle])

theorem OffLineEmpty_halt (s : State) : OffLineEmpty s.halt :=
  OffLineEmpty_of_quit (s := s.postReport (.duplicateId s.line.id)) (by simp [State.halt]) (by simp [State.halt])
    (by simp [State.halt]) (by simp [State.halt]) (by simp [State.halt]) (by simp [State.halt]) .halted
    (by simp [State.halt])

theorem OffLineEmpty_joinFailure {s : State} (ho : s.line.ownFrame = none) : OffLineEmpty s.joinFailure := by
  obtain ⟨hstn, hhold, hknown, hgaps, -, hcommit, -⟩ := s.joinFailure_spec
  exact OffLineEmpty_of_listen (by rw [hstn]) hhold hknown hgaps (by rw [hcommit]) (by simpa using ho)

/-- What was held is taken when the own frame has left the line (R141, R144). -/
theorem OffLineEmpty.takeHeld {s : State} (h : OffLineEmpty s) (ho : s.line.ownFrame = none) :
    OffLineEmpty s.takeHeld :=
  kept_takeHeld h (fun _ => OffLineEmpty_of_onLine (by simp [StationBlock.onLine]))
    fun _ => OffLineEmpty_joinFailure ho

theorem OnFreeLine.offLineEmpty_takeHeld {s : State} (h : OnFreeLine s) : OffLineEmpty s.takeHeld :=
  (OffLineEmpty_of_onLine h.2).takeHeld h.1.1

/-- The station once the head record has left the delivery queue and its storage is free again (R67, R106). -/
def State.headFreed (s : State) (r : DeliveryRecord) (rest : List DeliveryRecord) : State :=
  { s with
    rx := { s.rx with queue := rest }
    pool := { s.pool with
      freeCells := s.pool.freeCells ++ r.cells
      freeDescs := s.pool.freeDescs ++ [r.descriptor] } }

/-- A completed TAKE frees the head's storage and hands it on (R67, R106). -/
theorem State.removeHead_eq {s : State} {r : DeliveryRecord} {rest : List DeliveryRecord} (h : s.rx.queue = r :: rest) :
    s.removeHead = (s.headFreed r rest).handOn := by
  unfold State.removeHead State.headFreed
  rw [h]
  cases r with
  | notice n => rfl
  | lost first last d => simp [State.freeDesc, DeliveryRecord.cells, DeliveryRecord.descriptor]
  | base b d => simp [State.freeDesc, DeliveryRecord.cells, DeliveryRecord.descriptor]

theorem State.removeHead_of_nil {s : State} (h : s.rx.queue = []) : s.removeHead = s := by
  unfold State.removeHead; rw [h]

/-- The head that leaves a station with an empty receive side leaves it empty (R67). -/
theorem State.removeHead_of_empty {s : State} (h1 : s.rx.holdSet = []) (h2 : s.rx.known = 0) (h3 : s.gaps = []) :
    s.removeHead.rx.holdSet = [] ∧ s.removeHead.rx.known = 0 ∧ s.removeHead.gaps = [] := by
  cases hq : s.rx.queue with
  | nil => rw [State.removeHead_of_nil hq]; exact ⟨h1, h2, h3⟩
  | cons r rest =>
    obtain ⟨g1, g2, g3, -⟩ := State.handOn_rx_of_empty (s := s.headFreed r rest) h1 h2 h3
    rw [State.removeHead_eq hq]
    exact ⟨g1, g2, g3⟩

theorem OffLineEmpty.removeHead {s : State} (h : OffLineEmpty s) : OffLineEmpty s.removeHead := by
  refine ⟨fun hoff => ?_, fun hidle => by simpa using h.2 (by simpa using hidle)⟩
  obtain ⟨h1, h2, h3, h4, h5⟩ := h.1 (by simpa using hoff)
  obtain ⟨g1, g2, g3⟩ := State.removeHead_of_empty h1 h2 h3
  exact ⟨g1, g2, g3, by simpa using h4, by simpa using h5⟩

/-- A station with a gap entry is on the line, and one with a member hears it. -/
theorem OffLineEmpty.onLine_of_gap {s : State} (h : OffLineEmpty s) {e : GapEntry} (he : e ∈ s.gaps) :
    s.stn.onLine = true := by
  by_contra hoff
  obtain ⟨-, -, hgaps, -⟩ := h.1 (by simpa using hoff)
  simp [hgaps] at he

theorem OffLineEmpty.hearsLine_of_member {s : State} (h : OffLineEmpty s) {n : StationNo} {m : Member}
    (hm : s.member n = some m) : s.stn.hearsLine = true := by
  rw [StationBlock.hearsLine_iff]
  by_contra hidle
  obtain ⟨-, -, -, hmembers, -⟩ := h.2 (by simpa [or_iff_not_imp_left] using hidle)
  simp [State.member, hmembers] at hm

theorem StationBlock.hearsLine_of_takesPosts {b : StationBlock} (h : b.takesPosts = true) : b.hearsLine = true := by
  rw [StationBlock.hearsLine_iff]
  obtain h | h | h := (StationBlock.takesPosts_iff b).mp h <;> simp [h]

theorem OffLineEmpty.frameSent {s : State} (hl : LineSound s) {f : OwnFrame} (hf : s.line.ownFrame = some f)
    (hs : f.sent = false) : OffLineEmpty (s.noteSent.tellOwner f).takeHeldUnlessWindow := by
  unfold State.takeHeldUnlessWindow
  obtain hfree | ⟨-, hown, hon⟩ | hidle := (hl.noteSent hf hs).tellOwner f
  · rw [if_neg (by simp [hfree.1.1])]; exact hfree.offLineEmpty_takeHeld
  · rw [if_pos (Option.isSome_iff_ne_none.mpr hown)]; exact OffLineEmpty_of_onLine hon
  · rw [hidle, State.takeHeld_of_nothing (NothingHeld_enterIdle ..), ite_self]; exact OffLineEmpty_enterIdle ..

theorem OffLineEmpty.acts {s u : State} {c : Instr} (hl : LineSound s) (hs : OffLineEmpty s) (h : Acts s c u) :
    OffLineEmpty u := by
  cases h with
  | nothing => exact hs
  | statusRead | wordTaken => exact hs.congr rfl rfl rfl rfl rfl rfl rfl rfl rfl rfl
  | started c w =>
    exact OffLineEmpty_of_listen (by simp [State.applyStart, State.enterState]) (by simp [State.applyStart])
      (by simp [State.applyStart]) (by simp [State.applyStart]) (by simp [State.applyStart]) (by simp [State.applyStart])
  | posted topic payload hposts =>
    exact hs.hears rfl (StationBlock.hearsLine_of_takesPosts hposts) rfl rfl rfl rfl rfl
  | leftListen => exact OffLineEmpty_enterIdle ..
  | leaveWaits hst => exact OffLineEmpty_of_onLine (StationBlock.onLine_of_joinedOrActive (b := s.stn) hst)
  | leaves hst => exact OffLineEmpty_of_onLine (by simp [StationBlock.onLine])
  | headRemoved p => exact OffLineEmpty.removeHead (s := { s with port := p }) hs
  | idled hears => exact hs.hears rfl hears rfl rfl rfl rfl rfl
  | active ready hears => exact hs.hears rfl hears rfl rfl rfl rfl rfl
  | slotDominant ht =>
    exact hs.hears (by simp) (hl.hearsLine_of_timing (by simp [ht])) (by simp) (by simp) (by simp) (by simp) (by simp)
  | frameStarted ht ho hw hc => exact OffLineEmpty_of_onLine (by simpa using State.candidate_onLine hc)
  | frameSent hf hsent => exact OffLineEmpty.frameSent hl hf hsent
  | collided hf hsent => exact (hl.collided hf hsent).offLineEmpty_takeHeld
  | checkFailed hr => exact hs.hears rfl (hl.free_of_receiving hr).2 rfl rfl rfl rfl rfl
  | ownNumber h hr => exact hs.hears rfl (hl.free_of_receiving hr).2 rfl rfl rfl rfl rfl
  | halted => exact OffLineEmpty_halt _
  | toAdopt hf hr => exact hs.hears rfl (hl.free_of_receiving hr).2 rfl rfl rfl rfl rfl
  | adopted hf hk hr =>
    exact OffLineEmpty_of_onLine
      ((OnFreeLine_adopt (LineFree_heard (hl.free_of_receiving hr).1 _) _).frameArrives _).2
  | frameTaken hf hr hid hon =>
    exact OffLineEmpty_of_onLine
      (OnFreeLine.frameArrives ⟨LineFree_arrival (hl.free_of_receiving hr).1 _, hon⟩ _).2
  | sampled hw => exact hs.hears rfl (hl.hearsLine_of_window hw) rfl rfl rfl rfl rfl
  | adoptedAtWindow hw hr =>
    exact OffLineEmpty_of_onLine (OnFreeLine.adoptAtWindow (hl.closeWindow hw (hl.adopting hw hr).1) _).2
  | receiverEnds hw hr =>
    obtain ⟨ho, hon⟩ := hl.receiver hw hr
    exact (OnFreeLine.receiverWindowEnd ⟨hl.closeWindow hw ho, hon⟩ _).offLineEmpty_takeHeld
  | senderEnds hw hr =>
    obtain ⟨-, -, -, hon⟩ := hl.sender hw hr
    exact (OnFreeLine.senderWindowEnd ⟨hl.closeOwn hw, hon⟩ _).offLineEmpty_takeHeld
  | founded => exact OffLineEmpty_of_onLine (by simp [State.found, State.enterState, StationBlock.onLine])
  | joinExpiryWaits hst => exact OffLineEmpty_of_onLine (by simp [StationBlock.onLine, hst])
  | joinFailed hst ho => exact OffLineEmpty_joinFailure ho
  | beaconExpired hst => exact OffLineEmpty_of_onLine (StationBlock.onLine_of_joinedOrActive (b := s.stn) hst)
  | repairRequested e he => exact OffLineEmpty_of_onLine (hs.onLine_of_gap he)
  | repairLost e he => exact OffLineEmpty_of_onLine (by simpa using hs.onLine_of_gap he)
  | memberSilent hm =>
    exact hs.hears (by simp) (hs.hearsLine_of_member hm) (by simp) (by simp) (by simp) (by simp) (by simp)

/-! ### The pending-BASE register -/

theorem PendingBaseSound.refuseCommitted {s : State} (h : PendingBaseSound s) (n : LineNo) :
    PendingBaseSound (s.refuseCommitted n) := by
  unfold State.refuseCommitted
  split
  · exact h.spanResync n
  · exact h.freeProvisional

theorem PendingBaseSound.decideNotice {s : State} (hs : PendingBaseSound s) (h : Header) (b : NoticeBody) :
    PendingBaseSound (s.decideNotice h b) := by
  obtain ⟨c, heq⟩ | ⟨-, ⟨n, t, hst, -, hd, heq⟩ | ⟨c, full, heq⟩⟩ := s.decideNotice_cases h b
  · rw [heq]; exact hs
  · obtain ⟨-, rfl⟩ := State.storeNotice_eq hst
    rw [heq]; exact hs.claim hd rfl
  · rw [heq]; exact hs

theorem PendingBaseSound.classifyReplay {s : State} (hs : PendingBaseSound s) (h : Header) (b : NoticeBody) :
    PendingBaseSound (s.classifyReplay h b) := by
  refine kept_classifyReplay (fun _ => hs) (fun _ _ => hs.congr (by simp) (by simp) (by simp) (by simp))
    (hs.spanResync _) (fun _ _ _ => ?_) fun _ _ _ n t hst _ hd => ?_
  · exact PendingBaseSound.riseAndAdvance (s := s.makeKnown b.number) hs _
  · have hbase : (t.hold n).pool.pendingBase = s.pool.pendingBase := by rw [(State.storeNotice_eq hst).2]; rfl
    exact (hs.claim hd hbase).riseAndAdvance _

theorem PendingBaseSound.frameArrives {s : State} (hs : PendingBaseSound s) (f : Frame) :
    PendingBaseSound (State.frameArrives f s) := by
  refine kept_frameArrives (fun _ ht => ht) (hs.headerProcess _ _) (fun h b _ _ ht => ht.decideNotice h b)
    (fun t h b _ ht => ht.classifyReplay h b) (fun t r ht => ht.congr (by simp) (by simp) (by simp) (by simp))
    fun t h kind view word _ _ ht => ?_
  have htw : PendingBaseSound (t.takeWord h.sender word) := ht.congr (by simp) (by simp) (by simp) (by simp)
  exact kept_takeView kind view htw (fun _ => htw)
    (fun _ => htw.congr (by simp) (by simp) (by simp) (by simp)) fun _ => PendingBaseSound_resync htw _ _ _

theorem PendingBaseSound.tellOwner {s : State} (hs : PendingBaseSound s) (f : OwnFrame) :
    PendingBaseSound (s.tellOwner f) :=
  kept_tellOwner (fun _ _ => hs) (fun _ => hs) (fun _ _ => hs.congr (by simp) (by simp) (by simp) (by simp))
    (fun _ _ _ _ _ => hs) (fun _ _ _ => hs) (fun _ => hs) (fun _ => hs)
    fun _ => (PendingBaseSound_quit s.beaconSent).congr (by simp [State.enterIdle]) (by simp [State.enterIdle])
      (by simp [State.enterIdle]) (by simp [State.enterIdle])

theorem PendingBaseSound.senderObjected {s : State} (hs : PendingBaseSound s) : PendingBaseSound s.senderObjected := by
  unfold State.senderObjected
  dsimp only
  split <;> exact hs.freeProvisional.congr (by simp) (by simp) (by simp) (by simp)

theorem PendingBaseSound.senderWindowEnd {s : State} (hs : PendingBaseSound s) (w : Window) :
    PendingBaseSound (s.senderWindowEnd w) := by
  have hretained : PendingBaseSound (s.retained w.number) :=
    hs.congr (by simp [State.retained]) (by simp [State.retained]) (by simp [State.retained]) (by simp [State.retained])
  exact kept_senderWindowEnd (fun _ => hs.senderObjected)
    (fun _ ht => ht.congr (by simp [State.senderStale]) (by simp [State.senderStale]) (by simp [State.senderStale])
      (by simp [State.senderStale]))
    (fun _ _ => hretained.refuseCommitted _) fun _ _ => hretained.takeCommitted _

theorem PendingBaseSound.receiverWindowEnd {s : State} (hs : PendingBaseSound s) (w : Window) :
    PendingBaseSound (s.receiverWindowEnd w) :=
  kept_receiverWindowEnd (fun _ => hs.freeProvisional) (fun _ _ => hs.refuseCommitted _) fun _ _ => hs.takeCommitted _

theorem PendingBaseSound.startFrame {s : State} (hs : PendingBaseSound s) {c : Candidate} {f : Frame}
    (hc : s.candidate = some c) (hf : s.frameFor c = some f) : PendingBaseSound (s.startFrame c f) := by
  suffices hroom : PendingBaseSound (s.reserveOwnRoom c f) from hroom
  obtain heq | ⟨tag, h, b, n, t, -, -, -, hst, -, hd, heq⟩ := State.reserveOwnRoom_cases hc hf
  · rw [heq]; exact hs
  · obtain ⟨-, rfl⟩ := State.storeNotice_eq hst
    rw [heq]; exact hs.claim hd rfl

theorem PendingBaseSound.acts {s u : State} {c : Instr} (hl : LineSound s) (ho : OffLineEmpty s) (hs : PendingBaseSound s)
    (h : Acts s c u) : PendingBaseSound u := by
  cases h with
  | nothing | posted | statusRead | wordTaken | leaveWaits | idled | active | checkFailed | ownNumber | toAdopt | sampled
  | joinExpiryWaits | beaconExpired | repairRequested => exact hs
  | started c w => exact PendingBaseSound_of_none (by simp [State.applyStart])
  | leftListen =>
    exact (PendingBaseSound_quit s).congr (by simp [State.enterIdle]) (by simp [State.enterIdle])
      (by simp [State.enterIdle]) (by simp [State.enterIdle])
  | leaves | slotDominant | memberSilent => exact hs.congr (by simp) (by simp) (by simp) (by simp)
  | headRemoved p => exact PendingBaseSound.removeHead (s := { s with port := p }) hs
  | frameStarted ht ho hw hc hf => exact hs.startFrame hc hf
  | frameSent =>
    unfold State.takeHeldUnlessWindow
    have hsent := PendingBaseSound.tellOwner (s := s.noteSent) hs
    split
    · exact hsent _
    · exact (hsent _).takeHeld
  | @collided f =>
    have hcoll : PendingBaseSound (s.countCollision f) := hs.congr (by simp) (by simp) (by simp) (by simp)
    exact PendingBaseSound.takeHeld (kept_afterCollision hcoll (fun _ _ => hcoll.freeProvisional)
      (hcoll.congr (by simp) (by simp) (by simp) (by simp)))
  | halted =>
    rename_i h _
    exact (PendingBaseSound_quit ((s.arrival h).postReport (.duplicateId s.line.id))).congr (by simp [State.halt])
      (by simp [State.halt]) (by simp [State.halt]) (by simp [State.halt])
  | adopted hf hk hr hid hst =>
    obtain ⟨hhold, -, -, hprov, -⟩ := ho.listen hst
    exact PendingBaseSound.frameArrives (PendingBaseSound.adopt (s := s.heard _) hs hhold hprov _) _
  | frameTaken => exact PendingBaseSound.frameArrives (s := s.arrival _) hs _
  | adoptedAtWindow hw hr =>
    obtain ⟨hhold, -, -, hprov, -⟩ := ho.listen (hl.adopting hw hr).2.1
    exact PendingBaseSound.headerProcess (PendingBaseSound.adopt (s := s.closeWindow) hs hhold hprov _) _ _
  | receiverEnds => exact (PendingBaseSound.receiverWindowEnd (s := s.closeWindow) hs _).takeHeld
  | senderEnds =>
    exact (PendingBaseSound.senderWindowEnd
      (s := { s.closeWindow with line := { s.closeWindow.line with ownFrame := none } }) hs _).takeHeld
  | founded hst =>
    obtain ⟨hhold, -, -, hprov, -⟩ := ho.listen hst
    exact hs.found hhold hprov
  | joinFailed => exact PendingBaseSound_joinFailure s
  | repairLost e =>
    exact PendingBaseSound.advance (s := s.updateGap e.id fun g => g.expired s.cfg.repairLimit) hs

/-! ### The obligation -/

/-- The three invariants of the line, which rest on one another. -/
def LineKept (s : State) : Prop := LineSound s ∧ OffLineEmpty s ∧ PendingBaseSound s

/-- Reset and what every release leaves. -/
theorem LineKept_released (s : State) (id : StationNo) (rate : BitVec 2) (pins : Pins) :
    LineKept { s.released id rate with pins := pins } := by
  refine ⟨LineSound_quiet rfl rfl rfl (iff_of_true rfl rfl), ⟨fun _ => ⟨rfl, rfl, rfl, rfl, rfl⟩, fun _ => ?_⟩,
    PendingBaseSound_of_none rfl⟩
  exact ⟨rfl, rfl, rfl, rfl, rfl, rfl, rfl, rfl, rfl, rfl, rfl, rfl, rfl, rfl, rfl, rfl⟩

/-- RESET# low takes own frame, window and drive away (R147). -/
theorem LineKept.asserted {s : State} (h : LineKept s) (port : PortBlock) (pins : Pins) : LineKept { s with
    line := { s.line with driving := false, ownFrame := none, window := none }, port := port, pins := pins } := by
  obtain ⟨hl, ⟨hoff, hidle⟩, hp⟩ := h
  refine ⟨LineSound_quiet rfl rfl rfl hl.2.2.1, ⟨fun ho => ?_, fun hs => ?_⟩, hp⟩
  · obtain ⟨h1, h2, h3, h4, -⟩ := hoff ho
    exact ⟨h1, h2, h3, h4, rfl⟩
  · obtain ⟨h1, h2, h3, h4, h5, h6, h7, -, -, h10, hrest⟩ := hidle hs
    exact ⟨h1, h2, h3, h4, h5, h6, h7, rfl, rfl, h10, hrest⟩

theorem LineKept_step {s t : State} (hs : LineKept s) (h : step s = .next t) : LineKept t := by
  refine step_keeps (P := fun _ => True) (fun _ _ _ => trivial) (fun _ _ hs => hs) (fun _ _ _ hs => hs)
    (fun s id rate low _ _ => LineKept_released s id rate _) (fun _ p _ hs => hs.asserted p _)
    (fun s u c _ ha _ hs => ?_) trivial hs h
  obtain ⟨hl, ho, hp⟩ := hs
  exact ⟨hl.acts ha, ho.acts hl ha, hp.acts hl ho ha⟩

/-- Settles O55: the three invariants together are kept by every step (`LineKept_step`); a station off the line drives
nothing (`LineSound.not_driving`), so that its pins are released. -/
theorem lineIsKept : Obligations.LineIsKept := by
  intro s t hl ho hp h
  obtain ⟨hl', ho', hp'⟩ := LineKept_step ⟨hl, ho, hp⟩ h
  exact ⟨hl', ho', hp', fun hoff => State.linePins_of_idle (hl'.not_driving hoff)⟩

end Sys2Proof.Machine
end

