-- ==== Sys2Proof/Proofs/MemberTable.lean ====
section
/-!
PROOF. The member table stays in order, without this station, in JOINING or ACTIVE, and within the horizon (R15, R148).
-/

namespace Sys2Proof.Machine

/-- A valid frame that is no LEAVE beacon comes from a station in JOINING or ACTIVE (R20). -/
theorem Frame.senderState_of_valid {f : Frame} (hv : Frame.valid f = true) (hl : Frame.leaves f = false) :
    (Frame.header f).senderState = .joining ∨ (Frame.header f).senderState = .active := by
  cases f with
  | notice h b => exact .inr (notice_valid hv).1
  | replay h b =>
    simp only [Frame.valid, Bool.and_eq_true, Bool.or_eq_true, beq_iff_eq] at hv
    exact hv.1.1
  | resend h r =>
    simp only [Frame.valid, Bool.and_eq_true, Bool.or_eq_true, beq_iff_eq] at hv
    exact hv.1
  | beacon h kind view word =>
    simp only [Frame.valid, Bool.and_eq_true] at hv
    cases kind with
    | periodic => exact .inr (beq_iff_eq.mp hv.1)
    | join => exact .inl (beq_iff_eq.mp hv.1)
    | leave => simp [Frame.leaves] at hl

theorem MembersSound.classifyReplay {s : State} (hs : MembersSound s) (h : Header) (b : NoticeBody) :
    MembersSound (s.classifyReplay h b) := by
  refine kept_classifyReplay (fun _ => hs) (fun _ _ => hs.congr (by simp) (by simp) (by simp)) (hs.spanResync _)
    (fun _ _ _ => ?_) fun _ _ _ n t hst _ _ => ?_
  · exact MembersSound.riseAndAdvance (s := s.makeKnown b.number) hs _
  · obtain ⟨-, rfl⟩ := State.storeNotice_eq hst
    exact MembersSound.riseAndAdvance (hs.congr (by simp) (by simp) (by simp)) _

theorem MembersSound.decideNotice {s : State} (hs : MembersSound s) (h : Header) (b : NoticeBody) :
    MembersSound (s.decideNotice h b) := by
  obtain ⟨c, heq⟩ | ⟨-, ⟨n, t, hst, -, -, heq⟩ | ⟨c, full, heq⟩⟩ := s.decideNotice_cases h b
  · rw [heq]; exact hs
  · obtain ⟨-, rfl⟩ := State.storeNotice_eq hst
    rw [heq]; exact hs
  · rw [heq]; exact hs

theorem MembersSound.takeWord {s : State} (hs : MembersSound s) (n : StationNo) (w : Word16) :
    MembersSound (s.takeWord n w) := by
  unfold State.takeWord
  split
  · split
    · exact hs
    · exact hs.mapFlags (fun e => if e.station == n then { e with word := some w } else e)
        (fun e => by split <;> exact ⟨rfl, rfl, rfl⟩) (by simp) (by simp) (by simp)
  · exact hs

theorem MembersSound.setIncluded {s : State} (hs : MembersSound s) (n : StationNo) (b : Bool) :
    MembersSound (s.updateMember n fun e => { e with includedMe := b }) :=
  hs.mapFlags (fun e => if e.station == n then { e with includedMe := b } else e)
    (fun e => by split <;> exact ⟨rfl, rfl, rfl⟩) rfl rfl rfl

theorem MembersSound.frameArrives {s : State} (hs : MembersSound s) {f : Frame} (hv : Frame.valid f = true)
    (hid : (Frame.header f).sender ≠ s.line.id) : MembersSound (State.frameArrives f s) := by
  refine kept_frameArrives (fun _ ht => ht) (hs.headerProcess _ _ hid (Frame.senderState_of_valid hv))
    (fun h b _ _ ht => ht.decideNotice h b) (fun t h b _ ht => ht.classifyReplay h b)
    (fun t r ht => ht.congr (by simp) (by simp) (by simp)) fun t h kind view word _ _ ht => ?_
  have htw := ht.takeWord h.sender word
  exact kept_takeView kind view htw (fun b => htw.setIncluded _ b)
    (fun _ => (htw.setIncluded h.sender true).congr (by simp) (by simp) (by simp)) fun _ => MembersSound_resync htw.ordered _ _ _

theorem MembersSound.tellOwner {s : State} (hs : MembersSound s) (f : OwnFrame) : MembersSound (s.tellOwner f) :=
  kept_tellOwner (fun _ _ => hs) (fun _ => hs) (fun _ _ => hs.congr (by simp) (by simp) (by simp))
    (fun _ _ _ _ _ => hs) (fun _ _ _ => hs) (fun _ => hs) (fun _ => hs)
    fun _ => (MembersSound_quit s.beaconSent).congr (by simp [State.enterIdle]) (by simp [State.enterIdle])
      (by simp [State.enterIdle])

theorem MembersSound.receiverWindowEnd {s : State} (hs : MembersSound s) (w : Window) :
    MembersSound (s.receiverWindowEnd w) :=
  kept_receiverWindowEnd (fun _ => hs.congr (by simp) (by simp) (by simp)) (fun _ _ => hs.refuseCommitted _)
    fun _ _ => hs.takeCommitted _

theorem MembersSound.senderObjected {s : State} (hs : MembersSound s) : MembersSound s.senderObjected := by
  unfold State.senderObjected
  dsimp only
  split <;> exact hs.congr (by simp) (by simp) (by simp)

theorem MembersSound.senderWindowEnd {s : State} (hs : MembersSound s) (w : Window) :
    MembersSound (s.senderWindowEnd w) := by
  have hretained : MembersSound (s.retained w.number) :=
    hs.congr (by simp [State.retained]) (by simp [State.retained]) (by simp [State.retained])
  exact kept_senderWindowEnd (fun _ => hs.senderObjected)
    (fun _ ht => ht.congr (by simp [State.senderStale]) (by simp [State.senderStale]) (by simp [State.senderStale]))
    (fun _ _ => hretained.refuseCommitted _) fun _ _ => hretained.takeCommitted _

theorem MembersSound.acts {s u : State} {c : Instr} (hl : LineSound s) (hs : MembersSound s) (h : Acts s c u) :
    MembersSound u := by
  cases h with
  | nothing | posted | statusRead | wordTaken | leaveWaits | idled | active | checkFailed | ownNumber | toAdopt | sampled
  | joinExpiryWaits | beaconExpired | repairRequested => exact hs
  | started c w => exact MembersSound_of_empty (by simp [State.applyStart])
  | leftListen =>
    exact (MembersSound_quit s).congr (by simp [State.enterIdle]) (by simp [State.enterIdle]) (by simp [State.enterIdle])
  | leaves | slotDominant | frameStarted | headRemoved | repairLost => exact hs.congr (by simp) (by simp) (by simp)
  | @memberSilent station =>
    exact hs.filter (fun m => !(m.station == station)) (by simp) (by simp) (by simp)
  | frameSent =>
    unfold State.takeHeldUnlessWindow
    have hsent := MembersSound.tellOwner (s := s.noteSent) hs
    split
    · exact hsent _
    · exact (hsent _).takeHeld
  | collided => exact MembersSound.takeHeld (hs.congr (by simp) (by simp) (by simp))
  | halted h =>
    exact (MembersSound_quit ((s.arrival h).postReport (.duplicateId s.line.id))).congr (by simp [State.halt])
      (by simp [State.halt]) (by simp [State.halt])
  | adopted hf hk hr hid =>
    refine MembersSound.frameArrives (MembersSound_adopt (s := s.heard _) hs.ordered _) (readFrame_valid hf) ?_
    simpa [State.heard] using hid
  | frameTaken hf hr hid => exact MembersSound.frameArrives (s := s.arrival _) hs (readFrame_valid hf) hid
  | @adoptedAtWindow w hw hr =>
    obtain ⟨-, -, -, hid, hactive, -⟩ := hl.adopting hw hr
    refine (MembersSound_adopt (s := s.closeWindow) hs.ordered _).headerProcess w.header false ?_ fun _ => .inr hactive
    simpa using hid
  | receiverEnds => exact (MembersSound.receiverWindowEnd (s := s.closeWindow) hs _).takeHeld
  | senderEnds =>
    exact (MembersSound.senderWindowEnd
      (s := { s.closeWindow with line := { s.closeWindow.line with ownFrame := none } }) hs _).takeHeld
  | founded => exact MembersSound_found hs.ordered
  | joinFailed => exact hs.joinFailure

/-- Settles O56: an entry is made or changed only by the header of a valid frame from another station, whose sender state
R20 tests, and the horizon is applied at every change of the count. -/
theorem membersAreKept : Obligations.MembersAreKept := by
  intro s t hs hl h
  exact step_keeps (P := LineSound) (I := MembersSound) (fun _ _ hl => hl) (fun _ _ hs => hs) (fun _ _ _ hs => hs)
    (fun _ _ _ _ _ _ => MembersSound_of_empty rfl) (fun _ _ _ hs => hs) (fun _ _ _ _ ha hl hs => hs.acts hl ha) hl hs h

end Sys2Proof.Machine
end

