-- ==== Sys2Proof/Proofs/SendQueue.lean ====
section
/-!
PROOF. The send queue stays laid on its ring with consecutive tags, and its retained numbers rise (R58, R59, R61, R72, R76,
R77).
-/

namespace Sys2Proof.Machine

/-! ### The ring and the tags -/

/-- The configuration in force is the station's. -/
theorem State.cfg_congr {s t : State} (h : t.stn.config = s.stn.config) : t.cfg = s.cfg := by
  unfold State.cfg; rw [h]

theorem State.noteSent_config (s : State) : s.noteSent.stn.config = s.stn.config := by
  unfold State.noteSent StationBlock.restartBeaconTimer
  dsimp only
  split <;> rfl

theorem State.noteSent_cfg (s : State) : s.noteSent.cfg = s.cfg := State.cfg_congr s.noteSent_config

theorem SendSound.takeHeld {s : State} (hs : SendSound s) : SendSound s.takeHeld := hs.of_send (by simp) (by simp)

theorem SendSound.riseAndAdvance {s : State} (hs : SendSound s) (n : LineNo) : SendSound (s.riseAndAdvance n) := by
  unfold State.riseAndAdvance
  split
  · exact (hs.raiseCount n (n - 1)).of_send (by simp) (by simp)
  · exact hs.of_send (by simp) (by simp)

theorem SendSound.takeCommitted {s : State} (hs : SendSound s) (n : LineNo) : SendSound (s.takeCommitted n) := by
  have hraised (u : State) (hu : SendSound u) : SendSound (u.raiseCount n (n - 1)).advance :=
    (hu.raiseCount n (n - 1)).of_send (by simp) (by simp)
  obtain ⟨p, -, heq⟩ | ⟨-, heq⟩ := s.takeCommitted_cases n
  · rw [heq]; exact hraised _ (hs.of_send (by simp) rfl)
  · rw [heq]; exact hraised _ (hs.of_send (by simp) (by simp))

theorem SendSound.freeProvisional {s : State} (hs : SendSound s) : SendSound s.freeProvisional :=
  hs.of_send (by simp) (by simp)

theorem SendSound.refuseCommitted {s : State} (hs : SendSound s) (n : LineNo) : SendSound (s.refuseCommitted n) := by
  unfold State.refuseCommitted
  split
  · exact hs.spanResync n
  · exact hs.freeProvisional

theorem SendSound.decideNotice {s : State} (hs : SendSound s) (h : Header) (b : NoticeBody) :
    SendSound (s.decideNotice h b) := by
  obtain ⟨c, heq⟩ | ⟨-, ⟨n, t, hst, -, -, heq⟩ | ⟨c, full, heq⟩⟩ := s.decideNotice_cases h b
  · rw [heq]; exact hs
  · obtain ⟨-, rfl⟩ := State.storeNotice_eq hst
    rw [heq]; exact hs
  · rw [heq]; exact hs

theorem SendSound.classifyReplay {s : State} (hs : SendSound s) (h : Header) (b : NoticeBody) :
    SendSound (s.classifyReplay h b) := by
  refine kept_classifyReplay (fun _ => hs) (fun c _ => SendSound.of_send (s := { s with counters := c }) hs (by simp) (by simp))
    (hs.spanResync _) (fun _ _ _ => ?_) fun _ _ _ n t hst _ _ => ?_
  · exact SendSound.riseAndAdvance (s := s.makeKnown b.number) hs _
  · have hheld : SendSound (t.hold n) := hs.of_send (by rw [(State.storeNotice_eq hst).2]; rfl)
      (by rw [(State.storeNotice_eq hst).2]; rfl)
    exact hheld.riseAndAdvance _

theorem SendSound.frameArrives {s : State} (hs : SendSound s) (f : Frame) : SendSound (State.frameArrives f s) := by
  refine kept_frameArrives (fun _ ht => ht) (hs.headerProcess _ _) (fun h b _ _ ht => ht.decideNotice h b)
    (fun t h b _ ht => ht.classifyReplay h b) (fun t r ht => SendSound.markReplays (s := t.suppress r) ht r)
    fun t h kind view word _ _ ht => ?_
  have htw : SendSound (t.takeWord h.sender word) := ht.of_send (by simp) (by simp)
  exact kept_takeView kind view htw (fun _ => htw)
    (fun _ => htw.of_send (by simp) (State.cfg_congr (by simp))) fun _ => htw.resync ..

theorem SendSound.tellOwner {s : State} (hs : SendSound s) (f : OwnFrame) : SendSound (s.tellOwner f) := by
  refine kept_tellOwner (fun _ _ => hs) (fun _ => ?_) (fun tag _ => ?_) (fun _ _ _ _ _ => hs) (fun _ _ _ => hs)
    (fun _ => hs) (fun _ => hs) fun _ => ?_
  · exact hs.congr rfl rfl rfl rfl rfl rfl rfl
  · exact SendSound.releaseAfterReplay (s := { s.clearMark tag with counters := _ }) (hs.clearMark tag)
  · exact (SendSound_quit s.beaconSent).of_send (by simp [State.enterIdle]) (by simp [State.enterIdle])

theorem SendSound.receiverWindowEnd {s : State} (hs : SendSound s) (w : Window) : SendSound (s.receiverWindowEnd w) :=
  kept_receiverWindowEnd (fun _ => hs.freeProvisional) (fun _ _ => hs.refuseCommitted _) fun _ _ => hs.takeCommitted _

theorem SendSound.releaseIfAlone {s : State} (hs : SendSound s) : SendSound s.releaseIfAlone := by
  unfold State.releaseIfAlone
  split
  · exact hs.evaluateRelease
  · exact hs

theorem SendSound.senderObjected {s : State} (hs : SendSound s) : SendSound s.senderObjected := by
  unfold State.senderObjected
  dsimp only
  split <;> exact hs.of_send (by simp) (State.cfg_congr (by simp))

theorem SendSound.senderStale {s : State} (hs : SendSound s) (n : LineNo) : SendSound (s.senderStale n) :=
  hs.congr (congrArg _ (State.cfg_congr (by simp [State.senderStale]))) (by simp [State.senderStale])
    (by simp [State.senderStale]) (by simp [State.senderStale]) (by simp [State.senderStale]) (by simp [State.senderStale])
    (by simp [State.senderStale])

theorem SendSound.senderWindowEnd {s : State} (hs : SendSound s) (w : Window) : SendSound (s.senderWindowEnd w) := by
  have hretained : SendSound (s.retained w.number) :=
    SendSound.releaseIfAlone (s := (s.retainHead w.number).clearObjections) (hs.retainHead w.number)
  exact kept_senderWindowEnd (fun _ => hs.senderObjected) (fun _ ht => ht.senderStale _)
    (fun _ _ => hretained.refuseCommitted _) fun _ _ => hretained.takeCommitted _

theorem SendSound.acts {s u : State} {c : Instr} (hs : SendSound s) (h : Acts s c u) : SendSound u := by
  cases h with
  | nothing | wordTaken | leaveWaits | idled | active | checkFailed | ownNumber | toAdopt | sampled
  | joinExpiryWaits | beaconExpired | repairRequested => exact hs.of_send rfl rfl
  | statusRead => exact hs.congr rfl rfl rfl rfl rfl rfl rfl
  | started c w =>
    exact SendSound_of_empty (by simp [State.applyStart]) (by simp [State.applyStart]) (by simp [State.applyStart])
      (by simp [State.applyStart])
  | posted topic payload hposts hl hc hd => exact hs.storePost topic payload hl hc hd
  | leftListen => exact (SendSound_quit s).of_send (by simp [State.enterIdle]) (by simp [State.enterIdle])
  | leaves | slotDominant | headRemoved | frameStarted | joinFailed | repairLost =>
    exact hs.of_send (by simp) (State.cfg_congr (by simp))
  | @memberSilent station =>
    exact SendSound.evaluateRelease (hs.of_send (by simp) (by simp))
  | frameSent =>
    unfold State.takeHeldUnlessWindow
    have hsent := SendSound.tellOwner (s := s.noteSent) (hs.of_send rfl s.noteSent_cfg)
    split
    · exact hsent _
    · exact (hsent _).takeHeld
  | @collided f =>
    have hcoll : SendSound (s.countCollision f) := hs.of_send (by simp) (by simp)
    exact SendSound.takeHeld (kept_afterCollision hcoll (fun _ _ => hcoll.freeProvisional) hcoll.releaseAfterReplay)
  | halted h =>
    exact (SendSound_quit ((s.arrival h).postReport (.duplicateId s.line.id))).of_send (by simp [State.halt])
      (by simp [State.halt])
  | adopted => exact SendSound.frameArrives (SendSound.adopt (s := s.heard _) (hs.of_send rfl rfl) _) _
  | frameTaken => exact SendSound.frameArrives (s := s.arrival _) hs _
  | @adoptedAtWindow w hw hr => exact (SendSound.adopt (s := s.closeWindow) hs _).headerProcess w.header false
  | receiverEnds => exact (SendSound.receiverWindowEnd (s := s.closeWindow) hs _).takeHeld
  | senderEnds =>
    exact (SendSound.senderWindowEnd
      (s := { s.closeWindow with line := { s.closeWindow.line with ownFrame := none } }) hs _).takeHeld
  | founded => exact hs.found

/-! ### The retained numbers -/

/-- The line interface's numbering where a window of another role opens. -/
theorem RetainedRise.opened {s t : State} (h : RetainedRise s) (hs : t.send.retained = s.send.retained)
    (h1 : t.line.ownFrame = s.line.ownFrame) (h2 : ∀ w, t.line.window = some w → w.role ≠ .sender) :
    RetainedRise t :=
  h.suffix (by rw [hs]) ⟨fun f hf => h1 ▸ hf, fun w hw hr => absurd hr (h2 w hw)⟩

theorem RetainedRise.takeHeld {s : State} (hs : RetainedRise s) : RetainedRise s.takeHeld :=
  hs.congr (by simp) (.inl (by simp)) (.inl (by simp))

theorem RetainedRise.riseAndAdvance {s : State} (hs : RetainedRise s) (n : LineNo) :
    RetainedRise (s.riseAndAdvance n) := by
  unfold State.riseAndAdvance
  split
  · exact (hs.raiseCount n (n - 1)).congr (by simp) (.inl (by simp)) (.inl (by simp))
  · exact hs.congr (by simp) (.inl (by simp)) (.inl (by simp))

theorem RetainedRise.takeCommitted {s : State} (hs : RetainedRise s) (n : LineNo) :
    RetainedRise (s.takeCommitted n) := by
  have hraised (u : State) (hu : RetainedRise u) : RetainedRise (u.raiseCount n (n - 1)).advance :=
    (hu.raiseCount n (n - 1)).congr (by simp) (.inl (by simp)) (.inl (by simp))
  obtain ⟨p, -, heq⟩ | ⟨-, heq⟩ := s.takeCommitted_cases n
  · rw [heq]; exact hraised _ hs
  · rw [heq]; exact hraised _ hs

theorem RetainedRise.freeProvisional {s : State} (hs : RetainedRise s) : RetainedRise s.freeProvisional :=
  hs.congr (by simp) (.inl (by simp)) (.inl (by simp))

theorem RetainedRise.refuseCommitted {s : State} (hs : RetainedRise s) (n : LineNo) :
    RetainedRise (s.refuseCommitted n) := by
  unfold State.refuseCommitted
  split
  · exact hs.spanResync n
  · exact hs.freeProvisional

theorem RetainedRise.openReceiver {s t : State} (hs : RetainedRise s) (h1 : t.send = s.send) (h2 : t.line = s.line)
    (h : Header) (n : LineNo) (full stale : Bool) : RetainedRise (t.openWindow .receiver h n full stale) := by
  refine hs.opened (by rw [← h1]; rfl) (by rw [← h2]; rfl) fun w hw => ?_
  cases hw; simp

theorem RetainedRise.decideNotice {s : State} (hs : RetainedRise s) (h : Header) (b : NoticeBody) :
    RetainedRise (s.decideNotice h b) := by
  obtain ⟨c, heq⟩ | ⟨-, ⟨n, t, hst, -, -, heq⟩ | ⟨c, full, heq⟩⟩ := s.decideNotice_cases h b
  · rw [heq]; exact hs.openReceiver rfl rfl ..
  · obtain ⟨-, rfl⟩ := State.storeNotice_eq hst
    rw [heq]; exact hs.openReceiver rfl rfl ..
  · rw [heq]; exact hs.openReceiver rfl rfl ..

theorem RetainedRise.classifyReplay {s : State} (hs : RetainedRise s) (h : Header) (b : NoticeBody) :
    RetainedRise (s.classifyReplay h b) := by
  refine kept_classifyReplay (fun _ => hs) (fun c _ => hs.congr (by simp) (.inl (by simp)) (.inl (by simp)))
    (hs.spanResync _) (fun _ _ _ => ?_) fun _ _ _ n t hst _ _ => ?_
  · exact RetainedRise.riseAndAdvance (s := s.makeKnown b.number) hs _
  · have hheld : RetainedRise (t.hold n) := by
      rw [(State.storeNotice_eq hst).2]; exact hs
    exact hheld.riseAndAdvance _

theorem RetainedRise.frameArrives {s : State} (hs : RetainedRise s) (f : Frame) :
    RetainedRise (State.frameArrives f s) := by
  refine kept_frameArrives (fun _ ht => ht) (hs.headerProcess _ _) (fun h b _ _ ht => ht.decideNotice h b)
    (fun t h b _ ht => ht.classifyReplay h b) (fun t r ht => RetainedRise.markReplays (s := t.suppress r) ht r)
    fun t h kind view word _ _ ht => ?_
  have htw : RetainedRise (t.takeWord h.sender word) := ht.congr (by simp) (.inl (by simp)) (.inl (by simp))
  exact kept_takeView kind view htw (fun _ => htw)
    (fun _ => htw.congr (by simp) (.inl (by simp)) (.inl (by simp))) fun _ => htw.resync ..

/-- The own NOTICE frame's number passes to its window (R27). -/
theorem RetainedRise.ownWindow {s t : State} (hs : RetainedRise s) {f : OwnFrame} {h : Header} {b : NoticeBody}
    (hf : s.line.ownFrame = some f) (hn : f.frame = .notice h b) (ht : t.send.retained = s.send.retained) :
    RetainedRise (t.ownWindow f h b) := by
  obtain ⟨hchain, hnewest⟩ := hs
  refine ⟨by simpa [State.ownWindow, ht] using hchain, fun newest hlast => ?_⟩
  obtain ⟨hframe, -⟩ := hnewest newest (ht ▸ hlast)
  refine ⟨fun g k d hg hk => ?_, fun w hw _ => ?_⟩
  · cases hg; exact hframe f k d hf hk
  · cases hw; exact hframe f h b hf hn

theorem RetainedRise.frameSent {s : State} (hs : RetainedRise s) {f : OwnFrame} (hf : s.line.ownFrame = some f) :
    RetainedRise (s.noteSent.tellOwner f) := by
  have hsent : RetainedRise s.noteSent := hs.congr rfl (.inr rfl) (.inl rfl)
  refine kept_tellOwner (fun _ _ => hsent) (fun _ => hsent) (fun tag _ => ?_) (fun _ h b _ hn => ?_) (fun _ _ _ => hsent)
    (fun _ => hsent) (fun _ => hsent) fun _ => ?_
  · exact RetainedRise.releaseAfterReplay (s := { s.noteSent.clearMark tag with counters := _ }) (hsent.clearMark tag)
  · exact hs.ownWindow hf hn rfl
  · exact RetainedRise_of_empty (by simp [State.enterIdle, (State.quit_spec _).2.2.2.2.2.2.1])

theorem RetainedRise.receiverWindowEnd {s : State} (hs : RetainedRise s) (w : Window) :
    RetainedRise (s.receiverWindowEnd w) :=
  kept_receiverWindowEnd (fun _ => hs.freeProvisional) (fun _ _ => hs.refuseCommitted _) fun _ _ => hs.takeCommitted _

theorem RetainedRise.senderObjected {s : State} (hs : RetainedRise s) : RetainedRise s.senderObjected := by
  unfold State.senderObjected
  dsimp only
  split <;> exact hs.congr (by simp) (.inl (by simp)) (.inl (by simp))

theorem RetainedRise.releaseIfAlone {s : State} (hs : RetainedRise s) : RetainedRise s.releaseIfAlone := by
  unfold State.releaseIfAlone
  split
  · exact hs.evaluateRelease
  · exact hs

/-- The window closed at the sender, whose number follows the newest retained one (R48, R76). -/
theorem RetainedRise.senderWindowEnd {s : State} (hs : RetainedRise s) (w : Window) (ho : s.line.ownFrame = none)
    (hw : s.line.window = none)
    (hn : ∀ newest, s.send.retained.getLast? = some newest → follows newest.lineNo w.number = true) :
    RetainedRise (s.senderWindowEnd w) := by
  have hretained : RetainedRise (s.retained w.number) :=
    RetainedRise.releaseIfAlone (s := (s.retainHead w.number).clearObjections) (hs.retainHead hn ho hw)
  exact kept_senderWindowEnd (fun _ => hs.senderObjected)
    (fun _ ht => ht.congr (by simp [State.senderStale]) (.inl (by simp [State.senderStale]))
      (.inl (by simp [State.senderStale])))
    (fun _ _ => hretained.refuseCommitted _) fun _ _ => hretained.takeCommitted _

theorem RetainedRise.acts {s u : State} {c : Instr} (hs : RetainedRise s) (h : Acts s c u) : RetainedRise u := by
  cases h with
  | nothing | wordTaken | leaveWaits | idled | active | checkFailed | ownNumber | joinExpiryWaits | beaconExpired
  | repairRequested | statusRead | posted => exact hs
  | toAdopt =>
    refine hs.opened rfl rfl fun w hw => ?_
    cases hw; simp
  | @sampled _ _ _ w hw =>
    refine hs.suffix (List.suffix_refl _) ⟨fun _ hf => hf, fun v hv hr => ?_⟩
    cases hv
    exact ⟨w, hw, by simpa using hr, by simp⟩
  | started c w => exact RetainedRise_of_empty (by simp [State.applyStart])
  | leftListen => exact RetainedRise_of_empty (by simp [State.enterIdle, (State.quit_spec _).2.2.2.2.2.2.1])
  | halted => exact RetainedRise_of_empty (by simp [State.halt, (State.quit_spec _).2.2.2.2.2.2.1])
  | leaves | slotDominant | headRemoved | joinFailed | repairLost =>
    exact hs.congr (by simp) (.inl (by simp)) (.inl (by simp))
  | frameStarted ht ho hw hc hf => exact hs.startFrame hc hf hw
  | @memberSilent station =>
    exact RetainedRise.evaluateRelease (hs.congr (by simp) (.inl (by simp)) (.inl (by simp)))
  | frameSent hf =>
    unfold State.takeHeldUnlessWindow
    have hsent := hs.frameSent hf
    split
    · exact hsent
    · exact hsent.takeHeld
  | @collided f =>
    have hcoll : RetainedRise (s.countCollision f) :=
      hs.congr (by simp) (.inr (s.countCollision_line f).1) (.inl (by simp))
    exact RetainedRise.takeHeld
      (kept_afterCollision hcoll (fun _ _ => hcoll.freeProvisional) hcoll.releaseAfterReplay)
  | adopted => exact RetainedRise.frameArrives (RetainedRise.adopt (s := s.heard _) hs _) _
  | frameTaken => exact RetainedRise.frameArrives (s := s.arrival _) hs _
  | @adoptedAtWindow w =>
    have hclosed : RetainedRise s.closeWindow := hs.congr rfl (.inl rfl) (.inr rfl)
    exact (hclosed.adopt _).headerProcess w.header false
  | receiverEnds =>
    have hclosed : RetainedRise s.closeWindow := hs.congr rfl (.inl rfl) (.inr rfl)
    exact (hclosed.receiverWindowEnd _).takeHeld
  | @senderEnds w hw hr =>
    have hclosed : RetainedRise { s.closeWindow with line := { s.closeWindow.line with ownFrame := none } } :=
      hs.congr rfl (.inr rfl) (.inr rfl)
    exact (hclosed.senderWindowEnd w rfl rfl fun newest hlast => (hs.2 newest hlast).2 w hw hr).takeHeld
  | founded => exact hs.found

/-- Settles O58: each part is kept by every move of a command (`Acts`), and a release empties the send side. -/
theorem sendQueueIsKept : Obligations.SendQueueIsKept := by
  intro s t h
  exact ⟨fun hs => step_keeps (P := fun _ => True) (I := SendSound) (fun _ _ _ => trivial) (fun _ _ hs => hs)
      (fun _ _ _ hs => hs) (fun _ _ _ _ _ _ => SendSound_of_empty rfl rfl rfl rfl) (fun _ _ _ hs => hs)
      (fun _ _ _ _ ha _ hs => hs.acts ha) trivial hs h,
    fun hs => step_keeps (P := fun _ => True) (I := RetainedRise) (fun _ _ _ => trivial) (fun _ _ hs => hs)
      (fun _ _ _ hs => hs) (fun _ _ _ _ _ _ => RetainedRise_of_empty rfl)
      (fun _ _ _ hs => hs.congr rfl (.inr rfl) (.inr rfl)) (fun _ _ _ _ ha _ hs => hs.acts ha) trivial hs h⟩

end Sys2Proof.Machine
end

