-- ==== Sys2Proof/Proofs/Storage.lean ====
section
/-!
PROOF. No cell and no descriptor of the receive region is lost or used twice, a provisional notice stands only for a frame in
hand, and every stored notice has the cells of its length (R37, R57, R63, R70).
-/

namespace Sys2Proof.Machine

/-! ### Frames -/

/-- The length of a valid NOTICE's or REPLAY's payload (R18). -/
theorem replay_payload_le {h : Header} {b : NoticeBody} (hv : Frame.valid (.replay h b) = true) :
    b.payload.length ≤ 64 := by
  simp only [Frame.valid, Bool.and_eq_true, decide_eq_true_eq] at hv
  exact hv.2

theorem SameStorage_postReport (s : State) (r : Report) : SameStorage s (s.postReport r) :=
  SameStorage_of_eq (by simp) (by simp) (by simp) (by simp) (by simp) (by simp)

theorem SameStorage_classifyReplay (s : State) {h : Header} {b : NoticeBody} (hl : b.payload.length ≤ 64) :
    SameStorage s (s.classifyReplay h b) :=
  kept_classifyReplay (fun _ => SameStorage_of_eq rfl rfl rfl rfl rfl rfl)
    (fun c r => (SameStorage_of_eq (t := { s with counters := c }) rfl rfl rfl rfl rfl rfl).trans (SameStorage_postReport _ r))
    (SameStorage_spanResync s _)
    (fun _ _ _ => (SameStorage_makeKnown s _).trans (SameStorage_riseAndAdvance _ _))
    fun _ _ _ _ _ hst hc hd => (SameStorage_claimHold hst hd hc hl).trans (SameStorage_riseAndAdvance _ _)

theorem SameStorage_decideNotice {s : State} {h : Header} {b : NoticeBody} (hl : b.payload.length ≤ 64)
    (hp : s.commit.provisional = none) : SameStorage s (s.decideNotice h b) := by
  obtain ⟨c, heq⟩ | ⟨-, ⟨n, t, hst, hc, hd, heq⟩ | ⟨c, full, heq⟩⟩ := s.decideNotice_cases h b
  · rw [heq]; exact SameStorage_of_eq rfl rfl rfl rfl rfl rfl
  · rw [heq]; exact SameStorage_claimProvisional hst hd hc hl hp ⟨rfl, rfl, rfl, rfl⟩
  · rw [heq]; exact SameStorage_of_eq rfl rfl rfl rfl rfl rfl

theorem SameStorage_takeView {s : State} (h : Header) (kind : BeaconKind) (view : Set32) :
    SameStorage s (s.takeView h kind view) :=
  kept_takeView kind view (.refl s) (fun _ => SameStorage_of_eq rfl rfl rfl rfl rfl rfl)
    (fun _ => SameStorage_of_eq (by simp) (by simp) (by simp) (by simp) (by simp) (by simp))
    fun _ => SameStorage_resync ..

/-- A frame conserves the storage of a station that has no provisional notice yet, and leaves one only in a receiver's
window (R40). -/
theorem SameStorage_frameArrives {s : State} {f : Frame} (hv : Frame.valid f = true) (hp : s.commit.provisional = none) :
    SameStorage s (State.frameArrives f s) := by
  refine kept_frameArrives (J := fun t => SameStorage s t ∧ t.commit.provisional = none) (I := SameStorage s)
    (fun _ ht => ht.1) ⟨SameStorage_headerProcess .., State.headerProcess_provisional hp ..⟩
    (fun h b hf _ ht => ?_) (fun t h b hf ht => ?_) (fun t r ht => ?_) fun t h kind view word _ _ ht => ?_
  · subst hf
    obtain ⟨-, -, hl⟩ := notice_valid hv
    exact ht.1.trans (SameStorage_decideNotice hl ht.2)
  · subst hf
    exact ht.1.trans (SameStorage_classifyReplay t (replay_payload_le hv))
  · exact ht.1.trans (SameStorage_of_eq (by simp) (by simp) (by simp) (by simp) (by simp) (by simp))
  · have hword : SameStorage t (t.takeWord h.sender word) :=
      SameStorage_of_eq (by simp) (by simp) (by simp) (by simp) (by simp) (by simp)
    exact (ht.1.trans hword).trans (SameStorage_takeView h kind view)

/-! ### The provisional notice -/

theorem State.riseAndAdvance_provisional {s : State} (h : s.commit.provisional = none) (n : LineNo) :
    (s.riseAndAdvance n).commit.provisional = none := by
  unfold State.riseAndAdvance
  split <;> simpa using h

theorem State.classifyReplay_provisional {s : State} (hs : s.commit.provisional = none) (h : Header) (b : NoticeBody) :
    (s.classifyReplay h b).commit.provisional = none := by
  refine kept_classifyReplay (I := fun t => t.commit.provisional = none) (fun _ => hs) (fun _ _ => by simpa using hs)
    (State.spanResync_provisional hs _) (fun _ _ _ => State.riseAndAdvance_provisional (s := s.makeKnown b.number) hs _) fun _ _ _ n t hst _ _ => ?_
  refine State.riseAndAdvance_provisional ?_ _
  rw [(State.storeNotice_eq hst).2]; exact hs

theorem State.takeView_provisional {s : State} (hs : s.commit.provisional = none) (h : Header) (kind : BeaconKind)
    (view : Set32) : (s.takeView h kind view).commit.provisional = none :=
  kept_takeView (I := fun t => t.commit.provisional = none) kind view hs (fun _ => hs) (fun _ => by simpa using hs)
    fun _ => by rw [(State.resync_spec ..).2.2.2.2.2.1]

theorem ProvisionalSound_frameArrives {s : State} (f : Frame) (hp : s.commit.provisional = none) :
    ProvisionalSound (State.frameArrives f s) := by
  refine kept_frameArrives (J := fun t => t.commit.provisional = none) (fun _ ht => ProvisionalSound_of_none ht)
    (State.headerProcess_provisional hp ..) (fun h b _ _ _ => ?_)
    (fun t h b _ ht => ProvisionalSound_of_none (State.classifyReplay_provisional ht h b))
    (fun t r ht => ProvisionalSound_of_none (by simpa using ht))
    fun t h kind view word _ _ ht => ProvisionalSound_of_none (State.takeView_provisional (by simpa using ht) ..)
  obtain ⟨c, heq⟩ | ⟨-, ⟨n, t, -, -, -, heq⟩ | ⟨c, full, heq⟩⟩ := (s.headerProcess h false).1.decideNotice_cases h b
  · rw [heq]; exact fun _ _ => .inr ⟨_, rfl, rfl⟩
  · rw [heq]; exact fun _ _ => .inr ⟨_, rfl, rfl⟩
  · rw [heq]; exact fun _ _ => .inr ⟨_, rfl, rfl⟩

/-- An own NOTICE frame carries the tag of its candidate; a station about to start a frame has no provisional notice. -/
theorem ProvisionalSound.startFrame {s : State} {c : Candidate} {f : Frame} (hp : s.commit.provisional = none)
    (hc : s.candidate = some c) (hf : s.frameFor c = some f) : ProvisionalSound (s.startFrame c f) := by
  obtain heq | ⟨tag, h, b, n, t, rfl, -⟩ := State.reserveOwnRoom_cases hc hf
  · refine ProvisionalSound_of_none ?_
    change (s.reserveOwnRoom c f).commit.provisional = none
    rw [heq]; exact hp
  · exact fun _ _ => .inl ⟨_, tag, rfl, rfl⟩

/-- Before its frame is sent, only a NOTICE candidate has a provisional notice (R37). -/
theorem ProvisionalSound.none_of_unsent {s : State} (hs : ProvisionalSound s) (hl : LineSound s)
    (hlive : s.pins.resetLow = false) {f : OwnFrame} (hf : s.line.ownFrame = some f) (hu : f.sent = false)
    (hc : ∀ tag, f.candidate ≠ .notice tag) : s.commit.provisional = none := by
  refine hs.none_of hlive (fun g tag hg => ?_) (fun w hw => ?_)
  · rw [hf] at hg; cases hg; exact hc tag
  · rw [hl.window_of_unsent hf hu] at hw; cases hw

theorem ProvisionalSound.frameSent {s : State} (hs : ProvisionalSound s) (hl : LineSound s)
    (hlive : s.pins.resetLow = false) {f : OwnFrame} (hf : s.line.ownFrame = some f) (hu : f.sent = false) :
    ProvisionalSound (s.noteSent.tellOwner f).takeHeldUnlessWindow := by
  have hnone (hc : ∀ tag, f.candidate ≠ .notice tag) : s.noteSent.commit.provisional = none :=
    hs.none_of_unsent hl hlive hf hu hc
  have htold : (s.noteSent.tellOwner f).line.ownFrame.isSome = true ∧ ProvisionalSound (s.noteSent.tellOwner f)
      ∨ (s.noteSent.tellOwner f).commit.provisional = none := by
    refine kept_tellOwner (s := s.noteSent) (f := f)
      (I := fun t => t.line.ownFrame.isSome = true ∧ ProvisionalSound t ∨ t.commit.provisional = none)
      (fun id hc => .inr (hnone (by simp [hc]))) (fun hc => .inr (hnone (by simp [hc])))
      (fun tag hc => .inr (by simpa using hnone (by simp [hc]))) (fun tag h b hc _ => ?_) (fun tag hc hodd => ?_)
      (fun hc => .inr (hnone (by simp [hc]))) (fun hc => .inr (hnone (by simp [hc]))) fun _ => .inr ?_
    · exact .inl ⟨rfl, fun _ _ => .inl ⟨_, tag, rfl, hc⟩⟩
    · obtain ⟨h, b, hframe⟩ := (hl.1 f hf).2.1 ⟨tag, hc⟩
      exact absurd hframe (hodd h b)
    · simp [State.enterIdle, (State.quit_spec _).2.2.2.2.2.1]
  unfold State.takeHeldUnlessWindow
  obtain ⟨hown, hsound⟩ | hnone := htold
  · rw [if_pos hown]; exact hsound
  · split
    · exact ProvisionalSound_of_none hnone
    · exact ProvisionalSound_of_none (State.takeHeld_provisional hnone)

theorem State.freeProvisional_provisional (s : State) : s.freeProvisional.commit.provisional = none := by
  rw [s.freeProvisional_spec.2.1]

theorem State.collided_provisional {s : State} (hs : ProvisionalSound s) (hl : LineSound s)
    (hlive : s.pins.resetLow = false) {f : OwnFrame} (hf : s.line.ownFrame = some f) (hu : f.sent = false) :
    ((s.countCollision f).afterCollision f.candidate).commit.provisional = none := by
  cases hc : f.candidate with
  | notice tag => exact State.freeProvisional_provisional _
  | replay tag =>
    have hnone := hs.none_of_unsent hl hlive hf hu (by simp [hc])
    simpa [State.afterCollision] using hnone
  | gap id => simpa [State.afterCollision] using hs.none_of_unsent hl hlive hf hu (by simp [hc])
  | catchUp => simpa [State.afterCollision] using hs.none_of_unsent hl hlive hf hu (by simp [hc])
  | dueBeacon => simpa [State.afterCollision] using hs.none_of_unsent hl hlive hf hu (by simp [hc])

theorem State.receiverWindowEnd_provisional (s : State) (w : Window) :
    (s.receiverWindowEnd w).commit.provisional = none :=
  kept_receiverWindowEnd (I := fun t => t.commit.provisional = none) (fun _ => s.freeProvisional_provisional)
    (fun _ _ => State.refuseCommitted_provisional ..) fun _ _ => State.takeCommitted_provisional ..

theorem State.senderObjected_provisional (s : State) : s.senderObjected.commit.provisional = none := by
  unfold State.senderObjected
  dsimp only
  split <;> simpa using s.freeProvisional_provisional

theorem State.senderWindowEnd_provisional (s : State) (w : Window) :
    (s.senderWindowEnd w).commit.provisional = none :=
  kept_senderWindowEnd (I := fun t => t.commit.provisional = none) (fun _ => s.senderObjected_provisional)
    (fun _ ht => by simpa [State.senderStale] using ht) (fun _ _ => State.refuseCommitted_provisional ..)
    fun _ _ => State.takeCommitted_provisional ..

theorem ProvisionalSound.acts {s u : State} {c : Instr} (hl : LineSound s) (ho : OffLineEmpty s)
    (hlive : s.pins.resetLow = false) (hs : ProvisionalSound s) (h : Acts s c u) : ProvisionalSound u := by
  cases h with
  | nothing | posted | statusRead | wordTaken | leaveWaits | idled | active | checkFailed | ownNumber
  | joinExpiryWaits | beaconExpired | repairRequested => exact hs
  | sampled hw =>
    intro hne _
    obtain hown | ⟨w, hw', hr⟩ := hs hne hlive
    · exact .inl hown
    · rw [hw] at hw'; cases hw'
      exact .inr ⟨_, rfl, (Window.sampled_role ..).trans hr⟩
  | started c w => exact ProvisionalSound_of_none (by simp [State.applyStart])
  | leftListen => exact ProvisionalSound_of_none (by simp [State.enterIdle, (State.quit_spec _).2.2.2.2.2.1])
  | halted => exact ProvisionalSound_of_none (by simp [State.halt, (State.quit_spec _).2.2.2.2.2.1])
  | leaves | slotDominant | headRemoved | repairLost | memberSilent =>
    exact hs.congr (by simp) (by simp) (by simp) (by simp)
  | frameStarted ht hown hw hc hf =>
    exact ProvisionalSound.startFrame (hs.none_of hlive (by simp [hown]) (by simp [hw])) hc hf
  | frameSent hf hu => exact hs.frameSent hl hlive hf hu
  | collided hf hu =>
    exact ProvisionalSound_of_none (State.takeHeld_provisional (State.collided_provisional hs hl hlive hf hu))
  | toAdopt hf hr => exact ProvisionalSound_of_none (hs.none_of_receiving hlive hr)
  | adopted hf hk hr =>
    exact ProvisionalSound_frameArrives _ (by simpa [State.heard] using hs.none_of_receiving hlive hr)
  | frameTaken hf hr => exact ProvisionalSound_frameArrives _ (hs.none_of_receiving hlive hr)
  | adoptedAtWindow hw hr =>
    obtain ⟨-, -, -, hprov, -⟩ := ho.listen (hl.adopting hw hr).2.1
    exact ProvisionalSound_of_none (State.headerProcess_provisional (by simpa using hprov) ..)
  | receiverEnds => exact ProvisionalSound_of_none (State.takeHeld_provisional (State.receiverWindowEnd_provisional ..))
  | senderEnds => exact ProvisionalSound_of_none (State.takeHeld_provisional (State.senderWindowEnd_provisional ..))
  | founded hst =>
    obtain ⟨-, -, -, hprov, -⟩ := ho.listen hst
    exact ProvisionalSound_of_none (by simpa using hprov)
  | joinFailed => exact ProvisionalSound_of_none (by rw [s.joinFailure_spec.2.2.2.2.2.1])

/-! ### Storage, move by move -/

/-- What a move conserves: the use of every cell and descriptor; and, with the send queue sound, the sizes. -/
def Conserves (s u : State) : Prop := SameUses s u ∧ (SendSound s → SameStorage s u)

theorem SameStorage.conserves {s u : State} (h : SameStorage s u) : Conserves s u := ⟨h.1, fun _ => h⟩

/-- The room of the own copy is claimed (R46): an outbound notice's length is a payload's, where the send queue is
sound. -/
theorem Conserves_startFrame {s : State} {c : Candidate} {f : Frame} (hp : s.commit.provisional = none)
    (hc : s.candidate = some c) (hf : s.frameFor c = some f) : Conserves s (s.startFrame c f) := by
  have hroom : SameStorage (s.reserveOwnRoom c f) (s.startFrame c f) := SameStorage_of_eq rfl rfl rfl rfl rfl rfl
  obtain heq | ⟨tag, h, b, n, t, rfl, rfl, -, hst, hcells, hd, heq⟩ := State.reserveOwnRoom_cases hc hf
  · rw [heq] at hroom; exact hroom.conserves
  · rw [heq] at hroom
    have hclaim : ∀ u, u = { t with commit := { t.commit with provisional := some n } } →
        u.pool = t.pool ∧ u.rx = t.rx ∧ u.commit.provisional = some n ∧ u.stn.config = t.stn.config := by
      rintro _ rfl; exact ⟨rfl, rfl, rfl, rfl⟩
    refine ⟨(SameUses_claimProvisional hst hd hp (hclaim _ rfl)).trans hroom.1, fun hsend => ?_⟩
    obtain ⟨m, hm, hframe⟩ := State.frameFor_notice hf
    obtain ⟨-, rfl⟩ : h = s.ownHeader ∧ b = _ := by simpa using hframe
    have hlen : m.length ≤ 64 :=
      hsend.2.2.2.2.2.2.2 m (List.mem_append_right _ (List.mem_of_find?_eq_some hm))
    exact (SameStorage_claimProvisional hst hd hcells (by simpa using hlen) hp (hclaim _ rfl)).trans hroom

theorem SameStorage_tellOwner (s : State) (f : OwnFrame) : SameStorage s (s.tellOwner f) :=
  kept_tellOwner (fun _ _ => SameStorage_of_eq rfl rfl rfl rfl rfl rfl)
    (fun _ => SameStorage_of_eq rfl rfl rfl rfl rfl rfl)
    (fun _ _ => SameStorage_of_eq (by simp) (by simp) (by simp) (by simp) (by simp) (by simp))
    (fun _ _ _ _ _ => SameStorage_of_eq rfl rfl rfl rfl rfl rfl) (fun _ _ _ => .refl s)
    (fun _ => SameStorage_of_eq rfl rfl rfl rfl rfl rfl) (fun _ => SameStorage_of_eq rfl rfl rfl rfl rfl rfl)
    fun _ => (SameStorage_of_eq (t := s.beaconSent) rfl rfl rfl rfl rfl rfl).trans (SameStorage_enterIdle ..)

theorem SameStorage_frameSent (s : State) (f : OwnFrame) :
    SameStorage s (s.noteSent.tellOwner f).takeHeldUnlessWindow := by
  have hsent : SameStorage s (s.noteSent.tellOwner f) :=
    (SameStorage_of_eq (s := s) (t := s.noteSent) rfl rfl rfl rfl rfl s.noteSent_config).trans (SameStorage_tellOwner _ f)
  unfold State.takeHeldUnlessWindow
  split
  · exact hsent
  · exact hsent.trans (SameStorage_takeHeld _)

theorem SameStorage_collided (s : State) (f : OwnFrame) :
    SameStorage s ((s.countCollision f).afterCollision f.candidate).takeHeld := by
  have hcoll : SameStorage s (s.countCollision f) :=
    SameStorage_of_eq (by simp) (by simp) (by simp) (by simp) (by simp) (by simp)
  refine SameStorage.trans (kept_afterCollision hcoll (fun _ _ => hcoll.trans (SameStorage_freeProvisional _)) ?_)
    (SameStorage_takeHeld _)
  exact hcoll.trans (SameStorage_of_eq (by simp) (by simp) (by simp) (by simp) (by simp) (by simp))

theorem SameStorage_receiverWindowEnd (s : State) (w : Window) : SameStorage s (s.receiverWindowEnd w) :=
  kept_receiverWindowEnd (fun _ => SameStorage_freeProvisional s) (fun _ _ => SameStorage_refuseCommitted s _)
    fun _ _ => SameStorage_takeCommitted s _

theorem SameStorage_senderObjected (s : State) : SameStorage s s.senderObjected := by
  refine (SameStorage_freeProvisional s).trans ?_
  unfold State.senderObjected
  dsimp only
  split
  · exact SameStorage_of_eq (by simp) (by simp) (by simp) (by simp) (by simp) (by simp)
  · exact SameStorage_of_eq rfl rfl rfl rfl rfl rfl

theorem SameStorage_senderWindowEnd (s : State) (w : Window) : SameStorage s (s.senderWindowEnd w) := by
  have hretained : SameStorage s (s.retained w.number) :=
    SameStorage_of_eq (by simp [State.retained]) (by simp [State.retained]) (by simp [State.retained])
      (by simp [State.retained]) (by simp [State.retained]) (by simp [State.retained])
  refine kept_senderWindowEnd (fun _ => SameStorage_senderObjected s) (fun _ ht => ht.trans ?_)
    (fun _ _ => hretained.trans (SameStorage_refuseCommitted _ _))
    fun _ _ => hretained.trans (SameStorage_takeCommitted _ _)
  exact SameStorage_of_eq (by simp [State.senderStale]) (by simp [State.senderStale]) (by simp [State.senderStale])
    (by simp [State.senderStale]) (by simp [State.senderStale]) (by simp [State.senderStale])

/-- Every move conserves storage, but an accepted START, which partitions the pool afresh (R69, R135). -/
theorem Conserves_acts {s u : State} {c : Instr} (hp : ProvisionalSound s)
    (hlive : s.pins.resetLow = false) (h : Acts s c u) :
    Conserves s u ∨ ∃ cfg w, (cfg.sendSize = 32 ∨ cfg.sendSize = 64 ∨ cfg.sendSize = 128) ∧ u = s.applyStart cfg w := by
  cases h with
  | started cfg w _ hc => exact .inr ⟨cfg, w, hc, rfl⟩
  | nothing | posted | statusRead | wordTaken | leaveWaits | idled | active | checkFailed | ownNumber | toAdopt | sampled
  | joinExpiryWaits | beaconExpired | repairRequested =>
    exact .inl (SameStorage.conserves (by exact SameStorage_of_eq rfl rfl rfl rfl rfl rfl))
  | leftListen => exact .inl (SameStorage_enterIdle ..).conserves
  | leaves | slotDominant | memberSilent =>
    refine .inl (SameStorage.conserves ?_)
    exact SameStorage_of_eq (by simp) (by simp) (by simp) (by simp) (by simp) (by simp)
  | headRemoved p =>
    have hport : SameStorage s { s with port := p } := SameStorage_of_eq rfl rfl rfl rfl rfl rfl
    exact .inl (hport.trans (SameStorage_removeHead _)).conserves
  | frameStarted ht hown hw hc hf =>
    exact .inl (Conserves_startFrame (hp.none_of hlive (by simp [hown]) (by simp [hw])) hc hf)
  | frameSent => exact .inl (SameStorage_frameSent ..).conserves
  | collided => exact .inl (SameStorage_collided ..).conserves
  | halted h =>
    have harrival : SameStorage s (s.arrival h) := SameStorage_of_eq rfl rfl rfl rfl rfl rfl
    exact .inl (harrival.trans (SameStorage_halt _)).conserves
  | @adopted _ _ f hf hk hr =>
    have hheard : SameStorage s (s.heard (Frame.header f)) := SameStorage_of_eq rfl rfl rfl rfl rfl rfl
    refine .inl ((hheard.trans (SameStorage_adopt _ _)).trans (SameStorage_frameArrives (readFrame_valid hf) ?_)).conserves
    simpa [State.heard] using hp.none_of_receiving hlive hr
  | @frameTaken _ _ f hf hr =>
    have harrival : SameStorage s (s.arrival (Frame.header f)) := SameStorage_of_eq rfl rfl rfl rfl rfl rfl
    exact .inl (harrival.trans
      (SameStorage_frameArrives (readFrame_valid hf) (hp.none_of_receiving hlive hr))).conserves
  | @adoptedAtWindow w =>
    have hclosed : SameStorage s s.closeWindow := SameStorage_of_eq rfl rfl rfl rfl rfl rfl
    exact .inl ((hclosed.trans (SameStorage_adopt _ _)).trans (SameStorage_headerProcess _ w.header false)).conserves
  | receiverEnds =>
    have hclosed : SameStorage s s.closeWindow := SameStorage_of_eq rfl rfl rfl rfl rfl rfl
    exact .inl ((hclosed.trans (SameStorage_receiverWindowEnd ..)).trans (SameStorage_takeHeld _)).conserves
  | senderEnds =>
    have hclosed : SameStorage s { s.closeWindow with line := { s.closeWindow.line with ownFrame := none } } :=
      SameStorage_of_eq rfl rfl rfl rfl rfl rfl
    exact .inl ((hclosed.trans (SameStorage_senderWindowEnd ..)).trans (SameStorage_takeHeld _)).conserves
  | founded => exact .inl (SameStorage_found s).conserves
  | joinFailed => exact .inl (SameStorage_joinFailure s).conserves
  | repairLost e =>
    have hexpired : SameStorage s (s.updateGap e.id fun g => g.expired s.cfg.repairLimit) :=
      SameStorage_of_eq rfl rfl rfl rfl rfl rfl
    exact .inl (hexpired.trans (SameStorage_advance _)).conserves

/-- The pool that an accepted START partitions (R69): the receive region's cells are all free, and nothing is stored. -/
theorem StorageConserved_applyStart (s : State) (c : StartConfig) (w : Word16) :
    StorageConserved (s.applyStart c w) ∧ ChainsSized (s.applyStart c w) := by
  have hpool : (s.applyStart c w).pool.freeCells = (List.range (256 - c.sendSize)).map (c.sendSize + ·)
      ∧ (s.applyStart c w).pool.freeDescs = List.range 64 := by simp [State.applyStart, Config.cells, Config.recvDescs]
  have hstored : (s.applyStart c w).storedNotices = [] ∧ (s.applyStart c w).rx.queue = [] := by
    simp [State.applyStart, State.storedNotices]
  have hcfg : (s.applyStart c w).stn.config = some c := (s.applyStart_stn c w).2.2
  refine ⟨⟨?_, ?_⟩, fun n hn => ?_⟩
  · simp [hpool, hstored, State.receiveSize, State.cfg, hcfg, Config.cells]
  · simp [hpool, hstored]
  · simp [hstored] at hn

theorem StorageConserved_released (s : State) (id : StationNo) (rate : BitVec 2) (pins : Pins) :
    StorageConserved { s.released id rate with pins := pins } ∧ ChainsSized { s.released id rate with pins := pins } :=
  ⟨⟨.refl _, .refl _⟩, fun n hn => by obtain hn | hn := hn <;> cases hn⟩

/-! ### The obligation -/

/-- The invariant of O57, with the send queue's where the sizes need it. -/
def StorageKept (sized : Prop) (s : State) : Prop :=
  StorageConserved s ∧ ProvisionalSound s ∧ (sized → ChainsSized s)

theorem StorageKept.acts {sized : Prop} {s u : State} {c : Instr} (hl : LineSound s) (ho : OffLineEmpty s)
    (hq : sized → SendSound s) (hlive : s.pins.resetLow = false) (hs : StorageKept sized s) (h : Acts s c u) :
    StorageKept sized u := by
  obtain ⟨hcons, hprov, hsized⟩ := hs
  have hprov' := hprov.acts hl ho hlive h
  obtain ⟨huses, hsame⟩ | ⟨cfg, w, -, rfl⟩ := Conserves_acts hprov hlive h
  · exact ⟨hcons.of_uses huses, hprov', fun hz => (hsized hz).of_same (hsame (hq hz))⟩
  · obtain ⟨hcons', hsized'⟩ := StorageConserved_applyStart s cfg w
    exact ⟨hcons', hprov', fun _ => hsized'⟩

theorem StorageKept_step {sized : Prop} {s t : State} (hl : LineSound s) (ho : OffLineEmpty s) (hq : sized → SendSound s)
    (hs : StorageKept sized s) (h : step s = .next t) : StorageKept sized t :=
  step_keeps (P := fun u => LineSound u ∧ OffLineEmpty u ∧ (sized → SendSound u)) (I := StorageKept sized)
    (fun _ _ hP => hP) (fun _ _ hs => hs) (fun _ _ _ hs => hs)
    (fun s id rate low _ _ => ⟨(StorageConserved_released s id rate _).1, ProvisionalSound_of_none rfl,
      fun _ => (StorageConserved_released s id rate _).2⟩)
    (fun _ _ _ hs => ⟨hs.1, fun _ hlow => (by cases hlow), hs.2.2⟩)
    (fun _ _ _ hlive ha hP hs => hs.acts hP.1 hP.2.1 hP.2.2 hlive ha) ⟨hl, ho, hq⟩ hs h

/-- Settles O57: every move but START uses each cell and descriptor as often as before (`Conserves_acts`), and START
partitions the pool afresh; the sizes go with it where the send queue is sound, since the own copy is an outbound
notice's. -/
theorem storageIsConserved : Obligations.StorageIsConserved := by
  intro s t hs hp hl ho h
  obtain ⟨hcons, hprov, -⟩ := StorageKept_step (sized := False) hl ho False.elim ⟨hs, hp, False.elim⟩ h
  refine ⟨hcons, hprov, fun hz hq => ?_⟩
  obtain ⟨-, -, hsized⟩ := StorageKept_step (sized := True) hl ho (fun _ => hq) ⟨hs, hp, fun _ => hz⟩ h
  exact ⟨hsized trivial, fun n hn => ⟨(hsized trivial).rxPayload_length (.inr hn), (hsized trivial n (.inr hn)).2⟩⟩

end Sys2Proof.Machine
end

