-- ==== Sys2Proof/Proofs/Order.lean ====
section
/-!
PROOF. The receive order, the gap table's cover of the missing positions, and the order of delivery are kept by every step
(R4, R6, R12, R14, R39, R46, R92, R94, R112).
-/

namespace Sys2Proof.Machine

/-! ### What an operation does to the receive order and to delivery -/

/-- An operation keeps the receive order, and what it delivers, `k` positions wide at most, is in order. -/
def Proceeds (k : Nat) (s t : State) : Prop :=
  OrderSound s → Ordered s t
    ∧ (PendingBaseSound s → BaseWaitsAtSettled s → PendingBaseSound t ∧ Delivers k s t)

theorem Proceeds.trans {k l : Nat} {s t u : State} (h : Proceeds k s t) (g : Proceeds l t u) (hk : k + l < 65536) :
    Proceeds (k + l) s u := by
  intro ho
  obtain ⟨hord, hdel⟩ := h ho
  obtain ⟨hord', hdel'⟩ := g hord.1
  refine ⟨hord.trans hord', fun hp hb => ?_⟩
  obtain ⟨hp1, hd1⟩ := hdel hp hb
  obtain ⟨hp2, hd2⟩ := hdel' hp1 (hd1.1 hb)
  exact ⟨hp2, hd1.trans hd2 hk⟩

theorem Proceeds.mono {k l : Nat} {s t : State} (h : Proceeds k s t) (hk : k ≤ l) : Proceeds l s t := fun ho =>
  ⟨(h ho).1, fun hp hb => ⟨((h ho).2 hp hb).1, ((h ho).2 hp hb).2.mono hk⟩⟩

/-- What leaves receive order and delivery queue as they are. -/
theorem Proceeds_of_same {s t : State} (hr : t.rx = s.rx) (hg : t.gaps = s.gaps) (hn : t.nextGapId = s.nextGapId)
    (hb : t.pool.pendingBase = s.pool.pendingBase) (hp : PendingBaseSound s → PendingBaseSound t) : Proceeds 0 s t :=
  fun ho => ⟨Ordered_of_same ho ⟨by rw [hr], by rw [hr], by rw [hr], by rw [hr], hg, hn⟩, fun hs _ =>
    ⟨hp hs, Delivers_of_same (by rw [hr]) (by rw [hr]) hb⟩⟩

/-- What leaves the receive side and its storage as they are. -/
theorem Proceeds_of_kept {s t : State} (hr : t.rx = s.rx) (hg : t.gaps = s.gaps) (hn : t.nextGapId = s.nextGapId)
    (hp : t.pool = s.pool) (hc : t.commit.provisional = s.commit.provisional) : Proceeds 0 s t :=
  Proceeds_of_same hr hg hn (by rw [hp]) fun h => h.congr (by rw [hp]) (by rw [hp]) (by rw [hr]) hc

theorem Proceeds.refl (s : State) : Proceeds 0 s s := Proceeds_of_kept rfl rfl rfl rfl rfl

theorem Proceeds_resync (s : State) (r : BaseReason) (c : StateCause) (n : LineNo) : Proceeds 0 s (s.resync r c n) :=
  fun _ => ⟨Ordered_resync r c n, fun hp _ => ⟨PendingBaseSound_resync hp r c n, Delivers_resync hp r c n⟩⟩

theorem Proceeds_spanResync (s : State) (n : LineNo) : Proceeds 0 s (s.spanResync n) :=
  fun ho => ⟨Ordered_spanResync ho n, fun hp _ => ⟨hp.spanResync n, Delivers_spanResync hp n⟩⟩

theorem Proceeds_headerProcess (s : State) (h : Header) (l : Bool) : Proceeds 256 s (s.headerProcess h l).1 :=
  fun ho => ⟨Ordered_headerProcess ho h l, fun hp _ => ⟨hp.headerProcess h l, Delivers_headerProcess ho hp h l⟩⟩

theorem Proceeds_classifyReplay (s : State) (h : Header) (b : NoticeBody) : Proceeds 512 s (s.classifyReplay h b) :=
  fun ho => ⟨Ordered_classifyReplay ho, fun hp _ => ⟨hp.classifyReplay h b, Delivers_classifyReplay ho hp⟩⟩

theorem Proceeds_advance (s : State) : Proceeds 256 s s.advance :=
  fun ho => ⟨Ordered_advance ho, fun hp _ => ⟨hp.advance, Delivers_advance ho⟩⟩

theorem Proceeds_freeProvisional (s : State) : Proceeds 256 s s.freeProvisional :=
  fun ho => ⟨Ordered_freeProvisional ho, fun hp hb => ⟨hp.freeProvisional, Delivers_freeProvisional ho hb⟩⟩

theorem Proceeds_refuseCommitted (s : State) (n : LineNo) : Proceeds 256 s (s.refuseCommitted n) :=
  fun ho => ⟨Ordered_refuseCommitted ho n, fun hp hb => ⟨hp.refuseCommitted n, Delivers_refuseCommitted ho hp hb n⟩⟩

theorem Proceeds_takeCommitted {s : State} {n : LineNo} (hn : n = s.rx.count + 1) (hr : s.spanRefuses n = false)
    (hp : ∀ p, s.commit.provisional = some p → p.number = n) : Proceeds 512 s (s.takeCommitted n) :=
  fun ho => ⟨Ordered_takeCommitted ho hn hr hp, fun hs _ => ⟨hs.takeCommitted n, Delivers_takeCommitted ho hn hr hp⟩⟩

theorem Proceeds_adopt {s : State} (hh : s.rx.holdSet = []) (hg : s.gaps = []) (hp : s.commit.provisional = none)
    (n : LineNo) : Proceeds 0 s (s.adopt n) :=
  fun _ => ⟨Ordered_adopt hh hg n, fun hs _ => ⟨hs.adopt hh hp n, Delivers_adopt hs hh hg n⟩⟩

/-- What changes neither the ranges nor the order of the gap entries. -/
theorem Proceeds_mapGaps {s t : State} (f : GapEntry → GapEntry)
    (hf : ∀ e, (f e).first = e.first ∧ (f e).last = e.last ∧ (f e).id = e.id) (hg : t.gaps = s.gaps.map f)
    (hr : t.rx = s.rx) (hn : t.nextGapId = s.nextGapId) (hp : t.pool = s.pool)
    (hc : t.commit.provisional = s.commit.provisional) : Proceeds 0 s t := fun ho =>
  ⟨Ordered_mapGaps ho f hf hg hr hn, fun hs _ => ⟨hs.congr (by rw [hp]) (by rw [hp]) (by rw [hr]) hc,
    Delivers_of_same (by rw [hr]) (by rw [hr]) (by rw [hp])⟩⟩

theorem Proceeds_suppress (s : State) (r : ResendRange) : Proceeds 0 s (s.suppress r) := by
  refine Proceeds_mapGaps _ (fun e => ?_) rfl rfl rfl rfl rfl
  split <;> exact ⟨rfl, rfl, rfl⟩

theorem Proceeds_updateGap (s : State) (id : Nat) {f : GapEntry → GapEntry}
    (hf : ∀ e, (f e).first = e.first ∧ (f e).last = e.last ∧ (f e).id = e.id) : Proceeds 0 s (s.updateGap id f) :=
  Proceeds_mapGaps (fun e => if e.id == id then f e else e) (by grind) rfl rfl rfl rfl rfl

/-- Adoption leaves no position missing (R9). -/
theorem Covered_adopt {s : State} (hh : s.rx.holdSet = []) (hg : s.gaps = []) (n : LineNo) : Covered (s.adopt n) := by
  obtain ⟨hcount, hsettled, -⟩ := State.adopt_spec hh hg n
  exact Covered_of_set (by rw [hcount, hsettled])

/-! ### Frames -/

theorem Proceeds_takeView (s : State) (h : Header) (kind : BeaconKind) (view : Set32) :
    Proceeds 0 s (s.takeView h kind view) :=
  kept_takeView kind view (.refl s) (fun _ => Proceeds_of_kept rfl rfl rfl rfl rfl)
    (fun _ => Proceeds_of_kept (by simp) (by simp) (by simp) (by simp) (by simp)) fun _ => Proceeds_resync _ _ _ _

theorem Proceeds_decideNotice (s : State) (h : Header) (b : NoticeBody) : Proceeds 0 s (s.decideNotice h b) := by
  refine Proceeds_of_same ?_ ?_ ?_ ?_ (fun hp => hp.decideNotice h b) <;>
  · obtain ⟨c, heq⟩ | ⟨-, ⟨n, t, hst, -, -, heq⟩ | ⟨c, full, heq⟩⟩ := s.decideNotice_cases h b
    · rw [heq]; rfl
    · rw [heq, (State.storeNotice_eq hst).2]; rfl
    · rw [heq]; rfl

theorem Proceeds_frameArrives (f : Frame) (s : State) : Proceeds 768 s (State.frameArrives f s) := by
  refine kept_frameArrives (J := Proceeds 256 s) (fun t ht => ht.mono (by omega)) (Proceeds_headerProcess _ _ _)
    (fun h b _ _ ht => (ht.trans (Proceeds_decideNotice _ h b) (by omega)).mono (by omega))
    (fun t h b _ ht => ht.trans (Proceeds_classifyReplay t h b) (by omega)) (fun t r ht => ?_)
    fun t h kind view word _ _ ht => ?_
  · have hmarked : Proceeds 0 t ((t.suppress r).markReplays r) :=
      (Proceeds_suppress t r).trans
        (Proceeds_of_kept (s := t.suppress r) (by simp) (by simp) (by simp) (by simp) (by simp)) (by omega)
    exact (ht.trans hmarked (by omega)).mono (by omega)
  · have hword : Proceeds 0 t (t.takeWord h.sender word) :=
      Proceeds_of_kept (by simp) (by simp) (by simp) (by simp) (by simp)
    exact ((ht.trans hword (by omega)).trans (Proceeds_takeView _ h kind view) (by omega)).mono (by omega)

/-! ### The ends of windows and own frames -/

theorem Proceeds_senderObjected (s : State) : Proceeds 256 s s.senderObjected := by
  refine (Proceeds_freeProvisional s).trans (l := 0) ?_ (by omega)
  unfold State.senderObjected
  dsimp only
  split <;> exact Proceeds_of_kept (by simp) (by simp) (by simp) (by simp) (by simp)

theorem Proceeds_receiverWindowEnd {s : State} {w : Window} (hn : w.objected = false → w.number = s.rx.count + 1)
    (hp : ∀ p, s.commit.provisional = some p → p.number = s.rx.count + 1) : Proceeds 512 s (s.receiverWindowEnd w) :=
  kept_receiverWindowEnd (fun _ => (Proceeds_freeProvisional s).mono (by omega))
    (fun _ _ => (Proceeds_refuseCommitted s _).mono (by omega))
    fun ho hr => Proceeds_takeCommitted (hn ho) hr fun p hprov => (hp p hprov).trans (hn ho).symm

theorem Proceeds_senderWindowEnd {s : State} {w : Window} (hn : w.number = s.rx.count + 1)
    (hp : ∀ p, s.commit.provisional = some p → p.number = s.rx.count + 1) : Proceeds 512 s (s.senderWindowEnd w) := by
  have hretained : Proceeds 0 s (s.retained w.number) :=
    Proceeds_of_kept (by simp [State.retained]) (by simp [State.retained]) (by simp [State.retained])
      (by simp [State.retained]) (by simp [State.retained])
  refine kept_senderWindowEnd (fun _ => (Proceeds_senderObjected s).mono (by omega)) (fun _ ht => ?_)
    (fun _ _ => (hretained.trans (Proceeds_refuseCommitted _ _) (by omega)).mono (by omega)) fun _ hr => ?_
  · have hstale : Proceeds 0 s.senderObjected (s.senderObjected.senderStale w.number) :=
      Proceeds_of_kept (by simp [State.senderStale]) (by simp [State.senderStale]) (by simp [State.senderStale])
        (by simp [State.senderStale]) (by simp [State.senderStale])
    exact ht.trans hstale (by omega)
  · have htaken : Proceeds 512 (s.retained w.number) ((s.retained w.number).takeCommitted w.number) :=
      Proceeds_takeCommitted (by simpa [State.retained] using hn) hr
        (by rw [hn]; simpa [State.retained] using hp)
    exact (hretained.trans htaken (by omega)).mono (by omega)

theorem Proceeds_afterCollision (s : State) (c : Candidate) : Proceeds 256 s (s.afterCollision c) :=
  kept_afterCollision ((Proceeds.refl s).mono (by omega)) (fun _ _ => Proceeds_freeProvisional s)
    ((Proceeds_of_kept (by simp) (by simp) (by simp) (by simp) (by simp) : Proceeds 0 s _).mono (by omega))

/-! ### What a move does to order, cover and delivery -/

/-- What the command `c` delivers is in order; or it emptied the delivery queue. -/
def DeliveredBy (c : Instr) (s t : State) : Prop :=
  DeliveredInOrder s t
    ∨ emptiesQueue c = true ∧ t.rx.queue = [] ∧ t.rx.settled = 0 ∧ t.pool.pendingBase = none

/-- What a move by the command `c` keeps: receive order, cover, order of delivery. -/
def Orderly (c : Instr) (s t : State) : Prop :=
  OrderSound t ∧ (GapsCover s → GapsCover t)
    ∧ (PendingBaseSound s → BaseWaitsAtSettled s → BaseWaitsAtSettled t ∧ DeliveredBy c s t)

theorem DeliveredBy_of_delivers {c : Instr} {k : Nat} {s t : State} (h : Delivers k s t) (hk : k ≤ 1024) :
    DeliveredBy c s t := by
  obtain ⟨-, more, base, stop, hq, hin, hstop, -⟩ := h
  exact .inl ⟨0, more, base, stop, by omega, by simpa using hq, hin.mono hk, hstop⟩

/-- An operation at a station that was on the line before, or one that leaves every missing position covered. -/
theorem Proceeds.orderly {c : Instr} {k : Nat} {s t : State} (h : Proceeds k s t) (ho : OrderSound s) (hk : k ≤ 1024)
    (hon : t.stn.onLine = true → s.stn.onLine = true ∨ Covered t) : Orderly c s t := by
  obtain ⟨hord, hdel⟩ := h ho
  refine ⟨hord.1, fun hc ht => ?_, fun hp hb => ?_⟩
  · obtain hs | hcov := hon ht
    · exact hord.2 (hc hs)
    · exact hcov
  · obtain ⟨-, hd⟩ := hdel hp hb
    exact ⟨hd.1 hb, DeliveredBy_of_delivers hd hk⟩

theorem Orderly_offLine {c : Instr} {s t : State} (ho : OrderSound t) (hd : PendingBaseSound s → Delivers 0 s t)
    (hoff : t.stn.onLine = false) : Orderly c s t :=
  ⟨ho, fun _ hon => absurd (hoff.symm.trans hon) (by simp), fun hp hb =>
    ⟨(hd hp).1 hb, DeliveredBy_of_delivers (hd hp) (by omega)⟩⟩

/-- What was held is taken at the end of a move (R141, R144). -/
theorem Proceeds.orderly_takeHeld {c : Instr} {k : Nat} {s t : State} (h : Proceeds k s t) (ho : OrderSound s) (hk : k ≤ 1024)
    (hon : s.stn.onLine = true) : Orderly c s t.takeHeld := by
  obtain ⟨hord, hdel⟩ := h ho
  obtain ⟨hheld, hcov⟩ := OrderSound_takeHeld hord.1
  refine ⟨hheld, fun hc ht => hcov ht (hord.2 (hc hon)), fun hp hb => ?_⟩
  obtain ⟨hp', hd⟩ := hdel hp hb
  have hall : Delivers (k + 0) s t.takeHeld := hd.trans (Delivers_takeHeld hp') (by omega)
  exact ⟨hall.1 hb, DeliveredBy_of_delivers hall (by omega)⟩

/-- The line is given up at the end of a move: the receive side is freed, and the station is off the line. -/
theorem Proceeds.orderly_quit {c : Instr} {s u t : State} (h : Proceeds 0 s u) (ho : OrderSound s) (hr : t.rx = u.quit.rx)
    (hg : t.gaps = u.quit.gaps) (hn : t.nextGapId = u.quit.nextGapId) (hp : t.pool = u.quit.pool)
    (hoff : t.stn.onLine = false) : Orderly c s t := by
  obtain ⟨hord, hdel⟩ := h ho
  have hfreed := OrderSound_quit hord.1
  refine ⟨hfreed.congr ⟨by rw [hr], by rw [hr], by rw [hr], by rw [hr], hg, hn⟩,
    fun _ hon => absurd (hoff.symm.trans hon) (by simp), fun hpb hb => ?_⟩
  obtain ⟨hpb', hd⟩ := hdel hpb hb
  have hall : Delivers (0 + 0) s t :=
    hd.trans ((Delivers_quit hpb').before (by rw [hr]) (by rw [hr]) (by rw [hp])) (by omega)
  exact ⟨hall.1 hb, DeliveredBy_of_delivers hall (by omega)⟩

theorem Proceeds.orderly_enterIdle {c : Instr} {s u : State} (h : Proceeds 0 s u) (ho : OrderSound s) (cause : StateCause) :
    Orderly c s (u.enterIdle cause) :=
  h.orderly_quit ho (by simp [State.enterIdle]) (by simp [State.enterIdle]) (by simp [State.enterIdle])
    (by simp [State.enterIdle]) (by simp [State.enterIdle, StationBlock.onLine])

/-- A TAKE that completes (R106). -/
theorem Orderly_removeHead (c : Instr) {s : State} (ho : OrderSound s) : Orderly c s s.removeHead := by
  obtain ⟨hord, hcov⟩ := Ordered_removeHead ho
  refine ⟨hord, fun hc ht => hcov (hc (by simpa using ht)), fun hp hb => ?_⟩
  obtain ⟨hwaits, more, base, stop, hq, hin, hstop, -⟩ := Delivers_removeHead ho hb
  exact ⟨hwaits hb, .inl ⟨1, more, base, stop, le_refl _, hq, hin.mono (by omega), hstop⟩⟩

end Sys2Proof.Machine
end

