-- ==== Sys2Proof/Proofs/OrderKept.lean ====
section
/-!
PROOF. The stamp of the frame in hand, and receive order, cover and delivery, over every step (R4, R14, R39, R46, R112).
-/

namespace Sys2Proof.Machine

/-! ### The stamp of the frame in hand -/

theorem StampSound_of_free {s : State} (ho : s.line.ownFrame = none) (hw : s.line.window = none)
    (hp : s.commit.provisional = none) : StampSound s :=
  ⟨fun f _ _ hf => by simp [ho] at hf, fun w hw' => by simp [hw] at hw', fun w hw' => by simp [hw] at hw',
    fun p hp' => by simp [hp] at hp'⟩

theorem StampSound.congr {s t : State} (h : StampSound s) (hn : t.rx.count = s.rx.count) (hl : t.line = s.line)
    (hp : t.commit.provisional = s.commit.provisional) (hr : t.pins = s.pins) : StampSound t := by
  unfold StampSound; rw [hn, hl, hp, hr]; exact h

/-- A frame of the station's own leaves the line, where no window stands: what remains is the provisional notice. -/
theorem LineFree.stamp {s : State} (h : LineFree s) (hp : s.commit.provisional = none) : StampSound s :=
  StampSound_of_free h.1 h.2.1 hp

theorem LineFree.stamp_takeHeld {s : State} (h : LineFree s) (hp : s.commit.provisional = none) : StampSound s.takeHeld :=
  LineFree.stamp (h.congr (by simp)) (State.takeHeld_provisional hp)

/-- A header count at or before the own count, whose successor follows it, is the own count. -/
theorem count_eq_of_successor_follows {own frame : LineNo} (hle : follows own frame = false)
    (hs : follows own (frame + 1) = true) : frame = own := by
  simp only [follows, Bool.and_eq_true, decide_eq_true_eq, Bool.and_eq_false_iff, decide_eq_false_iff_not] at hle hs
  bv_omega

/-- A valid NOTICE whose header was taken, and whose number the count has not reached, carries the count's successor (R39). -/
theorem State.headerProcess_stamp {s : State} {h : Header} {b : NoticeBody} (hv : Frame.valid (.notice h b) = true)
    (hgo : (s.headerProcess h false).2 = true)
    (hnew : frameAtOrBefore b.number (s.headerProcess h false).1.rx.count = false) :
    b.number = (s.headerProcess h false).1.rx.count + 1 ∧ h.count = (s.headerProcess h false).1.rx.count := by
  obtain ⟨-, hnum, -⟩ := notice_valid hv
  suffices hcount : h.count = (s.headerProcess h false).1.rx.count from ⟨hcount ▸ hnum, hcount⟩
  obtain ⟨hno, -⟩ | ⟨-, -, -, heq⟩ | ⟨-, hle, -, heq⟩ := s.headerProcess_cases h false
  · rw [hno] at hgo; cases hgo
  · rw [heq, State.raiseCount_count]
  · have hrx : (s.headerMember h false).rx = s.rx := by simp
    rw [heq, hrx] at hnew ⊢
    refine count_eq_of_successor_follows hle ?_
    simpa [frameAtOrBefore, hnum] using hnew

/-- The window a receiver opens on a free line: it carries the stamp, or its number is stale (R39). -/
theorem StampSound_openWindow {s : State} {h : Header} {n : LineNo} {full stale : Bool} (ho : s.line.ownFrame = none)
    (hn : stale = false → n = s.rx.count + 1 ∧ h.count = s.rx.count)
    (hp : ∀ p, s.commit.provisional = some p → p.number = s.rx.count + 1) :
    StampSound (s.openWindow .receiver h n full stale) := by
  refine ⟨fun f _ _ hf => by simp [State.openWindow, ho] at hf, fun w hw hr => ?_, fun w hw _ hst => ?_, fun p hp' _ => hp p hp'⟩
  · cases hw; cases hr
  · cases hw; exact hn hst

theorem StampSound_decideNotice {s : State} {h : Header} {b : NoticeBody} (ho : s.line.ownFrame = none)
    (hp : s.commit.provisional = none)
    (hn : frameAtOrBefore b.number s.rx.count = false → b.number = s.rx.count + 1 ∧ h.count = s.rx.count) :
    StampSound (s.decideNotice h b) := by
  obtain ⟨c, heq⟩ | ⟨hnew, ⟨n, t, hst, -, -, heq⟩ | ⟨c, full, heq⟩⟩ := s.decideNotice_cases h b
  · rw [heq]
    exact StampSound_openWindow (s := { s with counters := c }) ho (fun hf => by cases hf) fun p hp' => by simp [hp] at hp'
  · rw [heq]
    obtain ⟨hname, rfl⟩ := State.storeNotice_eq hst
    refine StampSound_openWindow (s := { s with pool := _, commit := { s.commit with provisional := some n } }) ho
      (fun _ => hn hnew) fun p hp' => ?_
    cases hp'; rw [hname]; exact (hn hnew).1
  · rw [heq]
    exact StampSound_openWindow (s := { s with counters := c }) ho (fun _ => hn hnew) fun p hp' => by simp [hp] at hp'

theorem StampSound_frameArrives {s : State} {f : Frame} (hv : Frame.valid f = true) (hs : OnFreeLine s)
    (hp : s.commit.provisional = none) : StampSound (State.frameArrives f s) := by
  have hfree (t : State) (ht : OnFreeLine t) (hp : t.commit.provisional = none) : StampSound t := ht.1.stamp hp
  refine kept_frameArrives (J := fun t => OnFreeLine t ∧ t.commit.provisional = none) (fun t ht => hfree t ht.1 ht.2)
    ⟨hs.headerProcess .., State.headerProcess_provisional hp ..⟩ (fun h b hf hgo ht => ?_)
    (fun t h b _ ht => hfree _ (ht.1.classifyReplay h b) (State.classifyReplay_provisional ht.2 h b))
    (fun t r ht => hfree _ (ht.1.congr (by simp) (by simp)) (by simpa using ht.2)) fun t h kind view word _ _ ht => ?_
  · subst hf
    exact StampSound_decideNotice ht.1.1.1 ht.2 (State.headerProcess_stamp hv hgo)
  · exact hfree _ (OnFreeLine.takeView (ht.1.congr (by simp) (by simp)) h kind view)
      (State.takeView_provisional (by simpa using ht.2) ..)

/-- A frame that starts carries the successor of the count, and so does the own copy (R4, R46). -/
theorem StampSound.startFrame {s : State} {c : Candidate} {f : Frame} (hc : s.candidate = some c)
    (hf : s.frameFor c = some f) (hw : s.line.window = none) (hp : s.commit.provisional = none) :
    StampSound (s.startFrame c f) := by
  have hwin : (s.startFrame c f).line.window = none := by simpa using hw
  refine ⟨fun g h b hg hframe => ?_, fun w hw' => absurd (hwin.symm.trans hw') (by simp),
    fun w hw' => absurd (hwin.symm.trans hw') (by simp), fun p hp' _ => ?_⟩
  · cases hg
    change f = .notice h b at hframe
    subst hframe
    cases c with
    | notice tag =>
      obtain ⟨n, -, hframe⟩ := State.frameFor_notice hf
      obtain ⟨rfl, rfl⟩ : h = s.ownHeader ∧ b = _ := by simpa using hframe
      simp [State.ownHeader]
    | replay tag | catchUp | gap id | dueBeacon => simp [State.frameFor] at hf
  · change (s.reserveOwnRoom c f).commit.provisional = some p at hp'
    obtain heq | ⟨tag, h, b, n, t, -, -, hnum, hst, -, -, heq⟩ := State.reserveOwnRoom_cases hc hf
    · rw [heq, hp] at hp'; cases hp'
    · rw [heq] at hp'
      cases hp'
      rw [(State.storeNotice_eq hst).1]
      simpa using hnum

/-- The window that follows the own NOTICE frame carries the frame's stamp (R27). -/
theorem StampSound.ownWindow {s : State} {f : OwnFrame} {h : Header} {b : NoticeBody} (hf : f.frame = .notice h b)
    (hn : b.number = s.rx.count + 1 ∧ h.count = s.rx.count)
    (hp : ∀ p, s.commit.provisional = some p → s.pins.resetLow = false → p.number = s.rx.count + 1) :
    StampSound (s.ownWindow f h b) := by
  refine ⟨fun g h' b' hg hframe => ?_, fun w hw _ => ?_, fun w hw hr => ?_, hp⟩
  · cases hg
    obtain ⟨rfl, rfl⟩ : h = h' ∧ b = b' := by simpa [hf] using hframe
    exact hn
  · cases hw; exact hn
  · cases hw; cases hr

theorem StampSound.frameSent {s : State} (hs : StampSound s) (hl : LineSound s) (hp : ProvisionalSound s)
    (hlive : s.pins.resetLow = false) {f : OwnFrame} (hf : s.line.ownFrame = some f) (hu : f.sent = false) :
    StampSound (s.noteSent.tellOwner f).takeHeldUnlessWindow := by
  have hnone (hc : ∀ tag, f.candidate ≠ .notice tag) : s.noteSent.commit.provisional = none :=
    hp.none_of_unsent hl hlive hf hu hc
  have hfree : LineFree s.noteSent := (hl.noteSent hf hu).1
  have htold : (s.noteSent.tellOwner f).line.ownFrame.isSome = true ∧ StampSound (s.noteSent.tellOwner f)
      ∨ (s.noteSent.tellOwner f).line.ownFrame = none ∧ (s.noteSent.tellOwner f).line.window = none
        ∧ (s.noteSent.tellOwner f).commit.provisional = none := by
    refine kept_tellOwner (s := s.noteSent) (f := f) (I := fun t => t.line.ownFrame.isSome = true ∧ StampSound t
        ∨ t.line.ownFrame = none ∧ t.line.window = none ∧ t.commit.provisional = none)
      (fun id hc => .inr ⟨hfree.1, hfree.2.1, hnone (by simp [hc])⟩)
      (fun hc => .inr ⟨hfree.1, hfree.2.1, hnone (by simp [hc])⟩)
      (fun tag hc => .inr ⟨by simpa using hfree.1, by simpa using hfree.2.1, by simpa using hnone (by simp [hc])⟩)
      (fun tag h b hc hframe => .inl ⟨rfl, ?_⟩) (fun tag hc hodd => ?_)
      (fun hc => .inr ⟨hfree.1, hfree.2.1, hnone (by simp [hc])⟩) (fun hc => .inr ⟨hfree.1, hfree.2.1, hnone (by simp [hc])⟩)
      fun _ => .inr ?_
    · exact StampSound.ownWindow (s := s.noteSent) hframe (hs.1 f h b hf hframe) hs.2.2.2
    · obtain ⟨h, b, hframe⟩ := (hl.1 f hf).2.1 ⟨tag, hc⟩
      exact absurd hframe (hodd h b)
    · simp [State.enterIdle, (State.quit_spec _).2.2.2.2.2.1, (State.quit_spec _).2.2.2.2.2.2.2.2.2.1]
  unfold State.takeHeldUnlessWindow
  obtain ⟨hown, hsound⟩ | ⟨hown, hwin, hnone⟩ := htold
  · rw [if_pos hown]; exact hsound
  · rw [if_neg (by simp [hown])]
    exact StampSound_of_free (by simpa using hown) (by simpa using hwin) (State.takeHeld_provisional hnone)

theorem StampSound_quit {s t : State} (hl : t.line = s.quit.line) (hc : t.commit = s.quit.commit) : StampSound t := by
  obtain ⟨-, -, -, -, -, hcommit, -, -, -, hline, -⟩ := s.quit_spec
  exact StampSound_of_free (by rw [hl, hline]) (by rw [hl, hline]) (by rw [hc, hcommit])

theorem StampSound.acts {s u : State} {c : Instr} (hs : StampSound s) (hl : LineSound s) (ho : OffLineEmpty s)
    (hp : ProvisionalSound s) (hlive : s.pins.resetLow = false) (h : Acts s c u) : StampSound u := by
  cases h with
  | nothing | posted | statusRead | wordTaken | leaveWaits | idled | active | checkFailed | ownNumber
  | joinExpiryWaits | beaconExpired | repairRequested => exact hs
  | started c w =>
    exact StampSound_of_free (by simp [State.applyStart]) (by simp [State.applyStart]) (by simp [State.applyStart])
  | leftListen => exact StampSound_quit (s := s) (by simp [State.enterIdle]) (by simp [State.enterIdle])
  | halted h =>
    exact StampSound_quit (s := (s.arrival h).postReport (.duplicateId (s.arrival h).line.id)) (by simp [State.halt])
      (by simp [State.halt])
  | leaves | slotDominant | headRemoved | repairLost | memberSilent =>
    obtain ⟨h1, h2, h3, h4⟩ := hs
    exact ⟨by simpa using h1, by simpa using h2, by simpa using h3, by simpa using h4⟩
  | frameStarted ht hown hw hc hf =>
    exact StampSound.startFrame hc hf hw (hp.none_of hlive (by simp [hown]) (by simp [hw]))
  | frameSent hf hu => exact hs.frameSent hl hp hlive hf hu
  | collided hf hu => exact (hl.collided hf hu).1.stamp_takeHeld (State.collided_provisional hp hl hlive hf hu)
  | toAdopt hf hr =>
    obtain ⟨hown, -⟩ := (hl.free_of_receiving hr).1
    have hnone := hp.none_of_receiving hlive hr
    refine ⟨fun f _ _ hf' => absurd (hown.symm.trans hf') (by simp), fun w hw hrole => ?_, fun w hw hrole => ?_,
      fun p hp' => absurd (hnone.symm.trans hp') (by simp)⟩
    · cases hw; cases hrole
    · cases hw; cases hrole
  | adopted hf hk hr =>
    exact StampSound_frameArrives (readFrame_valid hf) (OnFreeLine_adopt (LineFree_heard (hl.free_of_receiving hr).1 _) _)
      (by simpa [State.heard] using hp.none_of_receiving hlive hr)
  | frameTaken hf hr hid hon =>
    exact StampSound_frameArrives (readFrame_valid hf) ⟨LineFree_arrival (hl.free_of_receiving hr).1 _, hon⟩
      (hp.none_of_receiving hlive hr)
  | sampled hw =>
    obtain ⟨hown, hsend, hrecv, hprov⟩ := hs
    refine ⟨hown, fun v hv hrole => ?_, fun v hv hrole hst => ?_, hprov⟩
    · cases hv
      rw [Window.sampled_number, Window.sampled_header]
      exact hsend _ hw (by simpa using hrole)
    · cases hv
      rw [Window.sampled_number, Window.sampled_header]
      exact hrecv _ hw (by simpa using hrole) (by simpa using hst)
  | adoptedAtWindow hw hr =>
    obtain ⟨-, -, -, hprov, -⟩ := ho.listen (hl.adopting hw hr).2.1
    exact (OnFreeLine.adoptAtWindow (hl.closeWindow hw (hl.adopting hw hr).1) _).1.stamp
      (State.headerProcess_provisional (by simpa using hprov) ..)
  | receiverEnds hw hr =>
    obtain ⟨hown, hon⟩ := hl.receiver hw hr
    exact (OnFreeLine.receiverWindowEnd ⟨hl.closeWindow hw hown, hon⟩ _).1.stamp_takeHeld
      (State.receiverWindowEnd_provisional ..)
  | senderEnds hw hr =>
    obtain ⟨-, -, -, hon⟩ := hl.sender hw hr
    exact (OnFreeLine.senderWindowEnd ⟨hl.closeOwn hw, hon⟩ _).1.stamp_takeHeld (State.senderWindowEnd_provisional ..)
  | founded hst ht =>
    obtain ⟨-, -, -, hprov, -⟩ := ho.listen hst
    obtain ⟨hown, hwin, -⟩ := hl.free_of_listening hst ht
    exact StampSound_of_free (by simpa using hown) (by simpa using hwin) (by simpa using hprov)
  | joinFailed hst hown hw =>
    exact StampSound_of_free (by simpa using hown) (by simpa using hw) (by rw [s.joinFailure_spec.2.2.2.2.2.1])

/-! ### Order, cover and delivery, move by move -/

theorem Proceeds_tellOwner (s : State) (f : OwnFrame) :
    Proceeds 0 s (s.tellOwner f) ∧ (s.tellOwner f).stn.onLine = s.stn.onLine
      ∨ s.tellOwner f = s.beaconSent.enterIdle .leaveSent := by
  refine kept_tellOwner (s := s) (f := f)
    (I := fun t => Proceeds 0 s t ∧ t.stn.onLine = s.stn.onLine ∨ t = s.beaconSent.enterIdle .leaveSent)
    (fun id _ => .inl ⟨?_, rfl⟩) (fun _ => .inl ⟨Proceeds_of_kept rfl rfl rfl rfl rfl, rfl⟩)
    (fun tag _ => .inl ⟨Proceeds_of_kept (by simp) (by simp) (by simp) (by simp) (by simp), by simp⟩)
    (fun _ _ _ _ _ => .inl ⟨Proceeds_of_kept rfl rfl rfl rfl rfl, rfl⟩) (fun _ _ _ => .inl ⟨.refl s, rfl⟩)
    (fun _ => .inl ⟨Proceeds_of_kept rfl rfl rfl rfl rfl, rfl⟩) (fun _ => .inl ⟨Proceeds_of_kept rfl rfl rfl rfl rfl, rfl⟩)
    fun _ => .inr rfl
  exact (Proceeds_updateGap s id (by simp)).trans (Proceeds_of_kept rfl rfl rfl rfl rfl) (by omega)

theorem Orderly.frameSent {c : Instr} {s : State} {f : OwnFrame} (ho : OrderSound s) (hon : s.stn.onLine = true) :
    Orderly c s (s.noteSent.tellOwner f).takeHeldUnlessWindow := by
  have hsent : Proceeds 0 s s.noteSent := Proceeds_of_kept rfl rfl rfl rfl rfl
  unfold State.takeHeldUnlessWindow
  obtain ⟨htold, -⟩ | heq := Proceeds_tellOwner s.noteSent f
  · have hall : Proceeds 0 s (s.noteSent.tellOwner f) := hsent.trans htold (by omega)
    split
    · exact hall.orderly ho (by omega) fun _ => .inl hon
    · exact hall.orderly_takeHeld ho (by omega) hon
  · rw [heq, State.takeHeld_of_nothing (NothingHeld_enterIdle ..), ite_self]
    exact (hsent.trans (Proceeds_of_kept (t := s.noteSent.beaconSent) rfl rfl rfl rfl rfl) (by omega)).orderly_enterIdle ho _

theorem Orderly_started (args : List Byte) (s : State) (c : StartConfig) (w : Word16) :
    Orderly (.start args) s (s.applyStart c w) := by
  refine ⟨OrderSound_of_empty (by simp [State.applyStart, State.ahead]) (by simp [State.applyStart])
    (by simp [State.applyStart]) (by simp [State.applyStart]), fun _ hon => ?_, fun _ _ => ⟨fun b hb => ?_, .inr ?_⟩⟩
  · simp [State.applyStart, State.enterState, StationBlock.onLine] at hon
  · simp [State.applyStart] at hb
  · exact ⟨rfl, by simp [State.applyStart], by simp [State.applyStart], by simp [State.applyStart]⟩

/-- A move that leaves the receive side alone, or changes it by one operation. -/
theorem Orderly.acts {s u : State} {c : Instr} (ho : OrderSound s) (hst : StampSound s) (hl : LineSound s)
    (hoff : OffLineEmpty s) (hlive : s.pins.resetLow = false) (h : Acts s c u) : Orderly c s u := by
  cases h with
  | nothing | posted | statusRead | wordTaken | leaveWaits | idled | active | checkFailed | ownNumber | toAdopt | sampled
  | joinExpiryWaits | beaconExpired =>
    exact (Proceeds_of_same rfl rfl rfl rfl fun hp => hp).orderly ho (by omega) .inl
  | started c w => exact Orderly_started _ s c w
  | leftListen => exact (Proceeds.refl s).orderly_enterIdle ho _
  | leaves hs =>
    exact (Proceeds_of_kept (by simp) (by simp) (by simp) (by simp) (by simp)).orderly ho (by omega)
      fun _ => .inl (StationBlock.onLine_of_joinedOrActive hs)
  | headRemoved p => exact Orderly_removeHead _ (s := { s with port := p }) ho
  | slotDominant | memberSilent =>
    exact (Proceeds_of_kept (by simp) (by simp) (by simp) (by simp) (by simp)).orderly ho (by omega)
      fun hon => .inl (by simpa using hon)
  | frameStarted ht hown hw hc hf =>
    refine (Proceeds_of_same (by simp) (by simp) (by simp) ?_ fun hp => hp.startFrame hc hf).orderly ho (by omega)
      fun _ => .inl (State.candidate_onLine hc)
    simp
  | frameSent hf => exact Orderly.frameSent ho (hl.onLine_of_ownFrame hf)
  | @collided f hf =>
    have hcount : Proceeds 0 s (s.countCollision f) :=
      Proceeds_of_kept (by simp) (by simp) (by simp) (by simp) (by simp)
    exact (hcount.trans (Proceeds_afterCollision _ f.candidate) (by omega)).orderly_takeHeld ho (by omega)
      (hl.onLine_of_ownFrame hf)
  | halted h =>
    have harrival : Proceeds 0 s ((s.arrival h).postReport (.duplicateId (s.arrival h).line.id)) :=
      Proceeds_of_kept (by simp) (by simp) (by simp) (by simp) (by simp)
    exact harrival.orderly_quit ho (by simp [State.halt]) (by simp [State.halt]) (by simp [State.halt])
      (by simp [State.halt]) (by simp [State.halt, StationBlock.onLine])
  | @adopted _ _ f hf hk hr hid hs =>
    obtain ⟨hhold, -, hgaps, hprov, -⟩ := hoff.listen hs
    have hheard : Proceeds 0 s (s.heard (Frame.header f)) := Proceeds_of_kept rfl rfl rfl rfl rfl
    have hadopt := Proceeds_adopt (s := s.heard (Frame.header f)) hhold hgaps hprov (Frame.header f).count
    have hframe := Proceeds_frameArrives f ((s.heard (Frame.header f)).adopt (Frame.header f).count)
    refine ((hheard.trans hadopt (by omega)).trans hframe (by omega)).orderly ho (by omega) fun _ => .inr ?_
    exact (hframe ((hheard.trans hadopt (by omega)) ho).1.1).1.2 (Covered_adopt (s := s.heard _) hhold hgaps _)
  | @frameTaken _ _ f hf hr hid hon =>
    have harrival : Proceeds 0 s (s.arrival (Frame.header f)) := Proceeds_of_kept rfl rfl rfl rfl rfl
    exact (harrival.trans (Proceeds_frameArrives f _) (by omega)).orderly ho (by omega) fun _ => .inl hon
  | @adoptedAtWindow w hw hr =>
    obtain ⟨hhold, -, hgaps, hprov, -⟩ := hoff.listen (hl.adopting hw hr).2.1
    have hclose : Proceeds 0 s s.closeWindow := Proceeds_of_kept rfl rfl rfl rfl rfl
    have hadopt := Proceeds_adopt (s := s.closeWindow) hhold hgaps hprov
    have hframe := fun n => Proceeds_headerProcess (s.closeWindow.adopt n) w.header false
    refine ((hclose.trans (hadopt _) (by omega)).trans (hframe _) (by omega)).orderly ho (by omega) fun _ => .inr ?_
    exact (hframe _ ((hclose.trans (hadopt _) (by omega)) ho).1.1).1.2 (Covered_adopt (s := s.closeWindow) hhold hgaps _)
  | @receiverEnds w hw hr =>
    obtain ⟨-, hon⟩ := hl.receiver hw hr
    have hclose : Proceeds 0 s s.closeWindow := Proceeds_of_kept rfl rfl rfl rfl rfl
    have hend : Proceeds 512 s.closeWindow (s.closeWindow.receiverWindowEnd w) :=
      Proceeds_receiverWindowEnd (fun hob => (hst.2.2.1 w hw hr (by simp_all [Window.objected])).1)
        fun p hp => hst.2.2.2 p hp hlive
    exact (hclose.trans hend (by omega)).orderly_takeHeld ho (by omega) hon
  | @senderEnds w hw hr =>
    obtain ⟨-, -, -, hon⟩ := hl.sender hw hr
    have hclose : Proceeds 0 s { s.closeWindow with line := { s.closeWindow.line with ownFrame := none } } :=
      Proceeds_of_kept rfl rfl rfl rfl rfl
    have hend := Proceeds_senderWindowEnd (s := { s.closeWindow with line := { s.closeWindow.line with ownFrame := none } })
      (w := w) (hst.2.1 w hw hr).1 fun p hp => hst.2.2.2 p hp hlive
    exact (hclose.trans hend (by omega)).orderly_takeHeld ho (by omega) hon
  | founded hs =>
    obtain ⟨hhold, -, hgaps, hprov, -⟩ := hoff.listen hs
    have hfound : Proceeds 0 s s.found := fun _ =>
      ⟨Ordered_found hhold hgaps, fun hp _ => ⟨hp.found hhold hprov, Delivers_found hp hhold hgaps⟩⟩
    refine hfound.orderly ho (by omega) fun _ => .inr ?_
    obtain ⟨hcount, hsettled, -⟩ := State.found_spec hhold hgaps
    exact Covered_of_set (by rw [hcount, hsettled])
  | joinFailed =>
    refine Orderly_offLine (OrderSound_joinFailure ho) Delivers_joinFailure ?_
    rw [s.joinFailure_spec.1]; rfl
  | repairRequested e =>
    exact (Proceeds_updateGap s e.id (by simp [GapEntry.expired])).orderly ho (by omega) .inl
  | repairLost e =>
    exact ((Proceeds_updateGap s e.id (by simp [GapEntry.expired])).trans (Proceeds_advance _) (by omega)).orderly ho
      (by omega) fun hon => .inl (by simpa using hon)

/-! ### The obligations -/

/-- A reset empties the delivery queue (R110). -/
theorem emptiesQueue_of_samplesStraps {c : Instr} (h : samplesStraps c = true) : emptiesQueue c = true := by
  unfold samplesStraps at h
  split at h
  · rfl
  · rfl
  · cases h

/-- A step keeps order, cover and the order of delivery, by the command at the front of the queue. -/
theorem Orderly_step {s t : State} (ho : OrderSound s) (hst : StampSound s) (hl : LineSound s) (hoff : OffLineEmpty s)
    (h : step s = .next t) : ∃ c, (t = s ∨ ∃ rest, s.pending = c :: rest) ∧ Orderly c s t := by
  obtain rfl | ⟨c, rest, hq, hhap⟩ := step_happens h
  · exact ⟨.lineIdle, .inl rfl, (Proceeds.refl t).orderly ho (by omega) .inl⟩
  · refine ⟨c, .inr ⟨rest, hq⟩, ?_⟩
    cases hhap with
    | still | linked => exact (Proceeds.refl s).orderly ho (by omega) .inl
    | released id rate low hc =>
      exact ⟨OrderSound_of_empty (by simp [State.ahead, State.released, State.atReset]) rfl rfl rfl,
        fun _ hon => (by cases hon), fun _ _ => ⟨fun b hb => (by cases hb), 
          .inr ⟨emptiesQueue_of_samplesStraps hc, rfl, rfl, rfl⟩⟩⟩
    | asserted => exact (Proceeds.refl s).orderly ho (by omega) .inl
    | acts hlive hu hv =>
      have hord := Orderly.acts (s := { s with pending := rest }) ho hst hl hoff hlive hu
      obtain ⟨p, rfl, -, -⟩ := hv
      exact hord

theorem StampSound_step {s t : State} (hst : StampSound s) (hl : LineSound s) (hoff : OffLineEmpty s)
    (hp : ProvisionalSound s) (h : step s = .next t) : StampSound t :=
  step_keeps (P := fun u => LineSound u ∧ OffLineEmpty u ∧ ProvisionalSound u) (I := StampSound)
    (fun _ _ hP => hP) (fun _ _ hs => hs) (fun _ _ _ hs => hs) (fun _ _ _ _ _ _ => StampSound_of_free rfl rfl rfl)
    (fun _ _ _ _ => ⟨fun _ _ _ hf => (by cases hf), fun _ hw => (by cases hw), fun _ hw => (by cases hw),
      fun _ _ hlow => (by cases hlow)⟩)
    (fun _ _ _ hlive ha hP hs => hs.acts hP.1 hP.2.1 hP.2.2 hlive ha) ⟨hl, hoff, hp⟩ hst h

/-- Settles O59: every move is a run of operations that keep the receive order and deliver in order (`Orderly.acts`); START
and a reset empty the queue. -/
theorem orderIsKept : Obligations.OrderIsKept := by
  intro s t ho hst hl hoff hp h
  obtain ⟨c, hfront, hord, -, hdel⟩ := Orderly_step ho hst hl hoff h
  refine ⟨hord, StampSound_step hst hl hoff hp h, fun hpb hb => ?_⟩
  obtain ⟨hb', hin | ⟨hc, hempty⟩⟩ := hdel hpb hb
  · exact ⟨hb', .inl hin⟩
  · obtain rfl | ⟨rest, hq⟩ := hfront
    · exact ⟨hb', .inl ⟨0, [], t.rx.settled, 0, by omega, by simp, ⟨rfl, le_refl _, by omega⟩, fun _ => by simp⟩⟩
    · exact ⟨hb', .inr ⟨⟨c, rest, hq, hc⟩, hempty⟩⟩

/-- Settles O60: the cover goes with the receive order, operation by operation (`Ordered`); a station that comes onto the line
adopts its count, and nothing is missing. -/
theorem gapsCoverIsKept : Obligations.GapsCoverIsKept := by
  intro s t hc ho hst hl hoff _ h
  obtain ⟨_, -, -, hcover, -⟩ := Orderly_step ho hst hl hoff h
  exact hcover hc

end Sys2Proof.Machine
end

