-- ==== Sys2Proof/Proofs/Commands.lean ====
section
/-!
PROOF. What holds of every command: it completes, it leaves the queue and the straps alone, it acts only in its place; the
resets; the judgements of serial order; the window's positions (R1, R30, R31, R147, R165).
-/

namespace Sys2Proof.Machine

/-! ### Events -/

/-- An event at a station that is not held in reset, whose effect leaves ATTN# as it should be. -/
theorem event_settled {f : State → State} {s t : State} (hs : Live s) (hf : f s = t) (ht : AttnFollows t) :
    event f s = .next t := by
  rw [event_live hs.1, hf, State.settleAttn_eq_self ht]

/-- An event that finds nothing to act on. -/
theorem event_still {f : State → State} {s : State} (hs : Live s) (hf : f s = s) : event f s = .next s :=
  event_settled hs hf hs.2

/-- A command where none is awaited. -/
theorem command_unasked {f : State → State} {s : State} (hs : Live s) (ha : s.awaiting = false) :
    command f s = .next s := event_still hs (by simp [ha])

/-! ### What no move changes -/

/-- The queue of commands, the station's number and its rate are as they were. -/
def SameStraps (s t : State) : Prop :=
  t.pending = s.pending ∧ t.line.id = s.line.id ∧ t.line.rate = s.line.rate

theorem SameStraps.trans {s t u : State} (h : SameStraps s t) (g : SameStraps t u) : SameStraps s u :=
  ⟨g.1.trans h.1, g.2.1.trans h.2.1, g.2.2.trans h.2.2⟩

theorem SameStraps.takeHeld {s t : State} (h : SameStraps s t) : SameStraps s t.takeHeld :=
  h.trans ⟨by simp, by simp, by simp⟩

theorem SameStraps_frameArrives (f : Frame) (s : State) : SameStraps s (State.frameArrives f s) := by
  have hspan (t : State) (n : LineNo) : SameStraps t (t.spanResync n) := ⟨by simp, by simp, by simp⟩
  refine kept_frameArrives (J := SameStraps s) (I := SameStraps s) (fun _ ht => ht) ⟨by simp, by simp, by simp⟩
    (fun h b _ _ ht => ht.trans ?_) (fun t h b _ ht => ht.trans ?_) (fun t r ht => ht.trans ⟨by simp, by simp, by simp⟩)
    fun t h kind view word _ _ ht => ht.trans ?_
  · obtain ⟨c, heq⟩ | ⟨-, ⟨n, t, hst, -, -, heq⟩ | ⟨c, full, heq⟩⟩ := (s.headerProcess h false).1.decideNotice_cases h b
    · rw [heq]; exact ⟨rfl, rfl, rfl⟩
    · rw [heq, (State.storeNotice_eq hst).2]; exact ⟨rfl, rfl, rfl⟩
    · rw [heq]; exact ⟨rfl, rfl, rfl⟩
  · refine kept_classifyReplay (fun _ => ⟨rfl, rfl, rfl⟩) (fun _ _ => ⟨by simp, by simp, by simp⟩) (hspan t _)
      (fun _ _ _ => ⟨by simp, by simp, by simp⟩) fun _ _ _ n v hst _ _ => ?_
    rw [(State.storeNotice_eq hst).2]
    exact ⟨by simp, by simp, by simp⟩
  · exact kept_takeView (s := t.takeWord h.sender word) kind view ⟨by simp, by simp, by simp⟩
      (fun _ => ⟨by simp, by simp, by simp⟩) (fun _ => ⟨by simp, by simp, by simp⟩)
      fun _ => ⟨by simp, by simp, by simp⟩

theorem SameStraps_frameSent (s : State) (f : OwnFrame) : SameStraps s (s.noteSent.tellOwner f).takeHeldUnlessWindow := by
  have htold : SameStraps s (s.noteSent.tellOwner f) :=
    SameStraps.trans (t := s.noteSent) ⟨rfl, rfl, rfl⟩ (kept_tellOwner (fun _ _ => ⟨rfl, rfl, rfl⟩)
      (fun _ => ⟨rfl, rfl, rfl⟩) (fun _ _ => ⟨by simp, by simp, by simp⟩) (fun _ _ _ _ _ => ⟨rfl, rfl, rfl⟩)
      (fun _ _ _ => ⟨rfl, rfl, rfl⟩) (fun _ => ⟨rfl, rfl, rfl⟩) (fun _ => ⟨rfl, rfl, rfl⟩)
      fun _ => ⟨by simp [State.enterIdle, State.beaconSent], by simp [State.enterIdle, State.beaconSent],
        by simp [State.enterIdle, State.beaconSent]⟩)
  unfold State.takeHeldUnlessWindow
  split
  · exact htold
  · exact htold.takeHeld

theorem SameStraps_refuseCommitted (s : State) (n : LineNo) : SameStraps s (s.refuseCommitted n) := by
  unfold State.refuseCommitted
  split <;> exact ⟨by simp, by simp, by simp⟩

theorem SameStraps_receiverWindowEnd (s : State) (w : Window) : SameStraps s (s.receiverWindowEnd w) :=
  kept_receiverWindowEnd (fun _ => ⟨by simp, by simp, by simp⟩) (fun _ _ => SameStraps_refuseCommitted s _)
    fun _ _ => ⟨by simp, by simp, by simp⟩

theorem SameStraps_senderWindowEnd (s : State) (w : Window) : SameStraps s (s.senderWindowEnd w) := by
  have hretained : SameStraps s (s.retained w.number) :=
    ⟨by simp [State.retained], by simp [State.retained], by simp [State.retained]⟩
  refine kept_senderWindowEnd (fun _ => ?_) (fun _ ht => ht.trans ?_)
    (fun _ _ => hretained.trans (SameStraps_refuseCommitted _ _)) fun _ _ => hretained.trans ⟨by simp, by simp, by simp⟩
  · unfold State.senderObjected
    dsimp only
    split <;> exact ⟨by simp, by simp, by simp⟩
  · exact ⟨by simp [State.senderStale], by simp [State.senderStale], by simp [State.senderStale]⟩

theorem SameStraps_acts {s u : State} {c : Instr} (h : Acts s c u) : SameStraps s u := by
  cases h with
  | nothing | posted | statusRead | wordTaken | leaveWaits | idled | active | checkFailed | ownNumber | toAdopt | sampled
  | joinExpiryWaits | beaconExpired | repairRequested => exact ⟨rfl, rfl, rfl⟩
  | started => exact ⟨by simp [State.applyStart], by simp [State.applyStart], by simp [State.applyStart]⟩
  | leftListen => exact ⟨by simp [State.enterIdle], by simp [State.enterIdle], by simp [State.enterIdle]⟩
  | halted => exact ⟨by simp [State.halt], by simp [State.halt], by simp [State.halt]⟩
  | leaves | headRemoved | slotDominant | founded | joinFailed | repairLost | memberSilent =>
    exact ⟨by simp, by simp, by simp⟩
  | frameStarted => exact ⟨by simp, by simp [State.startFrame], by simp [State.startFrame]⟩
  | frameSent => exact SameStraps_frameSent s _
  | @collided f =>
    have hcoll : SameStraps s (s.countCollision f) := by
      unfold State.countCollision
      dsimp only
      split <;> exact ⟨by simp, by simp, by simp⟩
    exact SameStraps.takeHeld (hcoll.trans ⟨by simp, by simp, by simp⟩)
  | @adopted _ _ f =>
    have hadopt : SameStraps s ((s.heard (Frame.header f)).adopt (Frame.header f).count) :=
      ⟨by simp [State.heard], by simp [State.heard], by simp [State.heard]⟩
    exact hadopt.trans (SameStraps_frameArrives f _)
  | frameTaken => exact SameStraps.trans (t := s.arrival _) ⟨rfl, rfl, rfl⟩ (SameStraps_frameArrives _ _)
  | adoptedAtWindow =>
    exact ⟨by simp [State.adoptAtWindow], by simp [State.adoptAtWindow], by simp [State.adoptAtWindow]⟩
  | receiverEnds =>
    exact (SameStraps.trans (t := s.closeWindow) ⟨rfl, rfl, rfl⟩ (SameStraps_receiverWindowEnd _ _)).takeHeld
  | senderEnds =>
    exact (SameStraps.trans (t := { s.closeWindow with line := { s.closeWindow.line with ownFrame := none } })
      ⟨rfl, rfl, rfl⟩ (SameStraps_senderWindowEnd _ _)).takeHeld

/-- Every command completes. -/
theorem exec_completes (c : Instr) (s : State) : ∃ t, exec c s = .next t := by
  cases c with
  | csRise n =>
    change ∃ t, execCsRise n s = .next t
    unfold execCsRise
    split
    · exact ⟨_, rfl⟩
    · exact ⟨_, rfl⟩
    · exact ⟨_, rfl⟩
  | _ => exact ⟨_, rfl⟩

/-- Settles O2: each move leaves queue and straps alone (`SameStraps_acts`), and a release keeps the queue. -/
theorem everyCommandCompletes : Obligations.EveryCommandCompletes := by
  intro c s
  obtain ⟨t, ht⟩ := exec_completes c s
  refine ⟨t, ht, ?_⟩
  cases exec_happens ht with
  | still | linked | asserted => exact ⟨rfl, fun _ => ⟨rfl, rfl⟩⟩
  | released id rate low hc => exact ⟨rfl, fun hno => by simp [hc] at hno⟩
  | acts hlive hu hv =>
    obtain ⟨p, rfl, -, -⟩ := hv
    obtain ⟨hq, hid, hrate⟩ := SameStraps_acts hu
    exact ⟨hq, fun _ => ⟨hid, hrate⟩⟩

/-! ### The queue, and serial order -/

/-- Settles O1, by the definition of a step. -/
theorem stepRunsFrontCommand : Obligations.StepRunsFrontCommand := fun _ _ _ => rfl

theorem follows_iff (a b : LineNo) : follows a b = true ↔ 1 ≤ (b - a).toNat ∧ (b - a).toNat ≤ 32767 := by
  simp [follows]

theorem distance_le (a b : LineNo) : distance a b ≤ 32768 := by
  unfold distance; bv_omega

/-- Settles O3, by the differences modulo 65536. -/
theorem serialJudgements : Obligations.SerialJudgements := by
  intro a b
  refine ⟨follows_iff a b, ?_, by simp [unordered], ?_, ?_, ?_, rfl, fun _ => rfl, rfl, distance_le a b⟩
  · rw [follows_iff]; bv_omega
  · rw [follows_iff]; simp only [atOrBefore, decide_eq_true_eq]; bv_omega
  · intro h
    have hd : (b - a).toNat = 32768 := by simpa [unordered] using h
    have hd' : (a - b).toNat = 32768 := by bv_omega
    simp [frameAtOrBefore, frameAtOrAfter, follows, atOrBefore, hd']
  · intro h
    have hd : (b - a).toNat ≠ 32768 := by simpa [unordered] using h
    refine ⟨?_, rfl⟩
    rw [Bool.eq_iff_iff]
    simp only [frameAtOrBefore, Bool.not_eq_true', ← Bool.not_eq_true, follows_iff, atOrBefore, decide_eq_true_eq]
    bv_omega

/-! ### Resets -/

/-- Settles O7, item by item: a release builds the state anew, but for queue, free reads and the level of CS#. -/
theorem resetReleaseSetsEveryItem : Obligations.ResetReleaseSetsEveryItem := by
  have hlink (l : PortLink) : l.abandoned = if l = .closed then .closed else .ignored := by cases l <;> rfl
  have hreset (s : State) (id : StationNo) (rate : BitVec 2) (low : Bool) :
      AtReset { s.released id rate with pins := { resetLow := low, attnLow := false } } id rate := by
    simp [AtReset, State.released, State.atReset, Config.recvDescs]
  intro s id rate
  exact ⟨⟨_, rfl, hreset s id rate false, rfl, hlink _⟩, ⟨_, rfl, hreset s id rate _, rfl, hlink _⟩,
    hreset State.reset 0 0 false⟩

/-- Settles O8: RESET# low drops what is driven, and with it both pins. -/
theorem resetAssertedBreaksOff : Obligations.ResetAssertedBreaksOff := by
  intro s
  refine ⟨_, rfl, rfl, rfl, State.linePins_of_idle rfl, ?_, rfl, rfl, rfl, rfl, rfl, rfl, rfl, rfl⟩
  cases hl : s.port.link <;> simp [PortLink.abandoned]

/-- Settles O53: reset is a release with the straps at 0, and every invariant holds of one. -/
theorem invariantsHoldAtReset : Obligations.InvariantsHoldAtReset := by
  obtain ⟨hline, hoff, hbase⟩ := LineKept_released State.reset 0 0 State.reset.pins
  obtain ⟨hstorage, hsized⟩ := StorageConserved_released State.reset 0 0 State.reset.pins
  exact ⟨rfl, (CountsBounded_iff _).mpr ⟨⟨Nat.zero_le _, Nat.zero_le _⟩, Nat.zero_le _, Nat.zero_le _, Nat.zero_le _⟩, rfl,
    hline, MembersSound_of_empty rfl, hoff, hbase, ProvisionalSound_of_none rfl, hstorage,
    SendSound_of_empty rfl rfl rfl rfl, OrderSound_of_empty (Nat.zero_le _) rfl rfl rfl, fun hon => (by cases hon),
    StampSound_of_free rfl rfl rfl, fun b hb => (by cases hb), hsized, RetainedRise_of_empty rfl⟩

/-! ### Out of place -/

/-- A station that does not hear the line, with nothing of the line on it, does nothing at an event of the line. -/
theorem exec_lineEvent_of_deaf {s : State} {c : Instr} (hs : Live s) (hst : s.stn.state = .idle ∨ s.stn.state = .halted)
    (ho : OffLineEmpty s) (hc : lineEvent c = true) : exec c s = .next s := by
  have hears : s.stn.hearsLine = false := by
    rw [← Bool.not_eq_true, StationBlock.hearsLine_iff]; tauto
  have hjoined : s.stn.joinedOrActive = false := by
    rw [← Bool.not_eq_true, StationBlock.joinedOrActive_iff]; rcases hst with h | h <;> simp [h]
  have hstate : s.stn.state ≠ .listen ∧ s.stn.state ≠ .joining := by rcases hst with h | h <;> simp [h]
  have honline : s.stn.onLine = false := by
    rw [← Bool.not_eq_true, StationBlock.onLine_iff]; rcases hst with h | h <;> simp [h]
  have hrec : s.receiving = false := by simp [State.receiving, hears]
  have hframe (h : Header) (a p : State → State) : s.receiveFrame h a p = s := by simp [State.receiveFrame, hrec]
  obtain ⟨-, -, hgaps, -, hown⟩ := ho.1 honline
  obtain ⟨-, -, -, hmembers, -, -, -, hwin, -, htiming, -⟩ := ho.2 hst
  cases c <;> unfold exec
  case lineIdle | lineActivity => exact event_still hs (by simp [hears])
  case slotBegins => exact event_still hs (by simp [htiming])
  case frameSent | collision => exact event_still hs (by simp [hown])
  case checkFailure => exact event_still hs (by simp [hrec])
  case noticeFrameReceived | replayReceived | resendReceived | beaconReceived =>
    refine event_still hs ?_
    split
    · exact hframe ..
    · rfl
  case windowPosition | windowEndReceiver | windowEndSender => exact event_still hs (by simp [hwin])
  case listenTimerExpiry | joinTimerExpiry => exact event_still hs (by simp [hstate])
  case beaconTimerExpiry => exact event_still hs (by simp [hjoined])
  case repairTimerExpiry => exact event_still hs (by simp [hgaps])
  case presenceTimerExpiry => exact event_still hs (by simp [State.member, hmembers])
  all_goals cases hc

/-- Settles O9: what is held in reset, unasked for or deaf finds nothing to act on (`event_held`, `command_unasked`,
`exec_lineEvent_of_deaf`). -/
theorem nothingActsOutOfPlace : Obligations.NothingActsOutOfPlace := by
  intro s
  refine ⟨fun hr => ⟨fun c hc => ?_, fun hl => ?_⟩, fun n hl => ?_, fun hs c hc ha => ?_,
    fun hs hst ho c hc => exec_lineEvent_of_deaf hs hst ho hc⟩
  · cases c with
    | powerOnReset | resetAsserted | resetReleased | csFall | csRise => cases hc
    | _ => unfold exec; exact event_held hr
  · change execCsFall s = _
    simp [execCsFall, hl, hr]
  · change execCsRise n s = _
    simp [execCsRise, hl]
  · cases c with
    | start | post | take | peek | report | status | members | word | leave | unknownCode =>
      unfold exec; exact command_unasked hs ha
    | _ => cases hc

/-! ### The window's positions -/

/-- A position of an open window is sampled: the line's level there is what others drive, or this station (R31, R32). -/
theorem exec_windowPosition {s : State} {w : Window} (hs : Live s) (hw : s.line.window = some w) (pos : WindowPos)
    (dominant : Bool) : exec (.windowPosition pos dominant) s = .next { s with line := { s.line with
      window := some (w.sampled pos (dominant || w.drives pos)), driving := w.drives pos
      timing := if dominant || w.drives pos then .busy else s.line.timing } } := by
  unfold exec
  exact event_settled hs (by simp [hw]) hs.2

/-- Settles O31: a station drives the positions it marked, outside its own frames. -/
theorem windowPositionSampled : Obligations.WindowPositionSampled := by
  intro s w dominant hs hw
  refine ⟨?_, exec_windowPosition hs hw .full dominant, exec_windowPosition hs hw .stale dominant, fun pos => ?_, ?_⟩
  · simpa [Window.drives, Window.sampled] using exec_windowPosition hs hw .turnGap dominant
  · refine ⟨_, exec_windowPosition hs hw pos dominant, fun bit => ⟨fun hown => ?_, fun f hf hsent => ?_⟩⟩
    · refine (State.linePins_of_mark (by exact hown) bit).trans ?_
      cases pos <;> rfl
    · exact State.linePins_of_released (by simp [State.drivenLevel, hf, hsent])
  · simp [Window.objected, or_assoc]

end Sys2Proof.Machine
end

