-- ==== Sys2Proof/Proofs/Frames.lean ====
section
/-!
PROOF. Characters and frames: what is driven for them, and that a frame is read exactly from the bytes of its layout (R16 to R20,
R182, R183).
-/

namespace Sys2Proof.Machine

/-! ### Characters -/

/-- The data bits of a character are read back, 0 dominant (R16). -/
theorem readChar_charLevels (b : Byte) : readChar (charLevels b) = some { data := b, framingError := false } := by
  have hdata : dataOfLevels [!b.getLsbD 0, !b.getLsbD 1, !b.getLsbD 2, !b.getLsbD 3, !b.getLsbD 4, !b.getLsbD 5,
      !b.getLsbD 6, !b.getLsbD 7] = b := by
    revert b; decide
  rw [charLevels_eq]
  simpa [readChar] using hdata

/-- What the station drives of a frame of its own, bit by bit (R16). -/
theorem State.linePins_ownFrame {s : State} {f : OwnFrame} (hd : s.line.driving = true) (hf : s.line.ownFrame = some f)
    (hs : f.sent = false) (bit : Nat) :
    (∀ k b, (frameBytes f.frame)[k]? = some b → 10 * k ≤ bit → bit < 10 * k + 10 →
        (s.linePins bit).de = (charLevels b).getD (bit - 10 * k) false)
      ∧ (10 * (frameBytes f.frame).length ≤ bit → s.linePins bit = { de := false, txd := true }) := by
  rw [State.linePins_of_frame hd hf hs]
  refine ⟨fun k b hk h1 h2 => charLevels_flatMap_getD hk h1 h2, fun hlen => ?_⟩
  have hover : (frameLevels f.frame).length ≤ bit := by rw [frameLevels, charLevels_flatMap_length]; exact hlen
  rw [List.getD_eq_default _ _ hover]; rfl

/-! ### Fields -/

theorem valid_iff_fieldsPass (f : Frame) : Frame.valid f = true ↔ FieldsPass f := by
  cases f with
  | notice h b =>
    simp only [Frame.valid, FieldsPass, Bool.and_eq_true, beq_iff_eq, decide_eq_true_eq, and_assoc]; exact Iff.rfl
  | replay h b =>
    simp only [Frame.valid, FieldsPass, Bool.and_eq_true, Bool.or_eq_true, beq_iff_eq, decide_eq_true_eq, and_assoc,
      Bool.not_eq_true', ← Bool.not_eq_true, follows_iff]
    exact Iff.rfl
  | resend h r => cases r <;> simp [Frame.valid, FieldsPass, atOrBefore]
  | beacon h k v w => cases k <;> simp [Frame.valid, FieldsPass]

theorem extract_append8 (hi lo : BitVec 8) :
    (hi ++ lo : BitVec 16).extractLsb' 8 8 = hi ∧ (hi ++ lo : BitVec 16).extractLsb' 0 8 = lo :=
  ⟨BitVec.extractLsb'_append_eq_left, BitVec.extractLsb'_append_eq_right⟩

/-- A 16-bit field's bytes are those it was read from (R182). -/
theorem be16_of16 (hi lo : Byte) : be16 (of16 hi lo) = [hi, lo] := by
  obtain ⟨h1, h0⟩ := extract_append8 hi lo
  simp only [be16, of16, h1, h0]

theorem extract_append16 (hi lo : BitVec 16) :
    (hi ++ lo : BitVec 32).extractLsb' 24 8 = hi.extractLsb' 8 8 ∧ (hi ++ lo : BitVec 32).extractLsb' 16 8 = hi.extractLsb' 0 8
      ∧ (hi ++ lo : BitVec 32).extractLsb' 8 8 = lo.extractLsb' 8 8
      ∧ (hi ++ lo : BitVec 32).extractLsb' 0 8 = lo.extractLsb' 0 8 :=
  ⟨BitVec.extractLsb'_append_eq_of_le (by decide), BitVec.extractLsb'_append_eq_of_le (by decide),
    BitVec.extractLsb'_append_eq_of_add_le (by decide), BitVec.extractLsb'_append_eq_of_add_le (by decide)⟩

/-- A 32-position set's bytes are those it was read from (R183). -/
theorem be32_of32 (a b c d : Byte) : be32 (of32 a b c d) = [a, b, c, d] := by
  obtain ⟨h3, h2, h1, h0⟩ := extract_append16 (a ++ b : BitVec 16) (c ++ d : BitVec 16)
  obtain ⟨ha, hb⟩ := extract_append8 a b
  obtain ⟨hc, hd⟩ := extract_append8 c d
  simp only [be32, of32, h3, h2, h1, h0, ha, hb, hc, hd]

/-- A header's second byte is its state bits over its number bits. -/
theorem append_extract (b : Byte) : (b.extractLsb' 5 3 ++ b.extractLsb' 0 5 : BitVec 8) = b := by
  revert b; decide

/-- The state a code stands for has that code (R183). -/
theorem code_of_senderState {code : BitVec 3} {st : StationState} (h : senderStateOf code = some st) :
    StationState.code st = code := by
  unfold senderStateOf at h
  split at h
  · rename_i hc; cases h; rw [hc]; rfl
  · split at h
    · rename_i hc; cases h; rw [hc]; rfl
    · split at h
      · rename_i hc; cases h; rw [hc]; rfl
      · cases h

theorem code_of_beaconKind {b : Byte} {k : BeaconKind} (h : beaconKindOf b = some k) : BeaconKind.code k = b := by
  unfold beaconKindOf at h
  split at h
  · rename_i hc; cases h; rw [hc]; rfl
  · split at h
    · rename_i hc; cases h; rw [hc]; rfl
    · split at h
      · rename_i hc; cases h; rw [hc]; rfl
      · cases h

/-- A topic or station number fits the byte it was read from (R183). -/
theorem byteOf5_setWidth {b : Byte} (h : b.toNat ≤ 31) : byteOf5 (b.setWidth 5) = b := by
  unfold byteOf5; bv_omega

/-! ### The parts of a frame -/

/-- What a frame's kind makes of the bytes after its header (R183). -/
def readRest (h : Header) (rest : List Byte) : FrameKind → Option Frame
  | .notice => (readNoticeBody rest).map (Frame.notice h)
  | .replay => (readNoticeBody rest).map (Frame.replay h)
  | .resend => (readRange rest).map (Frame.resend h)
  | .beacon => readBeacon h rest

/-- The sender states a frame may carry (R20). -/
def Speaks (h : Header) : Prop :=
  h.senderState = .joining ∨ h.senderState = .active ∨ h.senderState = .leaving

theorem readBody_headerBytes {h : Header} (hs : Speaks h) (k : FrameKind) (rest : List Byte) :
    readBody (headerBytes k h ++ rest) = readRest h rest k := by
  have hstate := extract_state h.senderState h.sender
  have hsender := extract_sender h.senderState h.sender
  simp only [headerBytes, be16, List.cons_append, List.nil_append, readBody, hstate, hsender, senderStateOf_code hs,
    of16_be16]
  cases k <;> rfl

theorem readBody_eq_some {bytes : List Byte} {f : Frame} (h : readBody bytes = some f) :
    ∃ k hd rest, bytes = headerBytes k hd ++ rest ∧ Speaks hd ∧ readRest hd rest k = some f := by
  unfold readBody at h
  split at h
  · rename_i kind b1 c1 c0 s1 s0 rest
    split at h
    · cases h
    · rename_i st hst
      have hspeaks : st = .joining ∨ st = .active ∨ st = .leaving := by
        unfold senderStateOf at hst
        split at hst
        · cases hst; exact .inl rfl
        · split at hst
          · cases hst; exact .inr (.inl rfl)
          · split at hst
            · cases hst; exact .inr (.inr rfl)
            · cases hst
      dsimp only at h
      have hbytes (k : FrameKind) (hk : kind = FrameKind.code k) : kind :: b1 :: c1 :: c0 :: s1 :: s0 :: rest
          = headerBytes k { senderState := st, sender := b1.extractLsb' 0 5, count := of16 c1 c0, settled := of16 s1 s0 }
            ++ rest := by
        simp [headerBytes, be16_of16, code_of_senderState hst, append_extract, hk]
      split at h
      · exact ⟨.notice, _, rest, hbytes .notice (by assumption), hspeaks, h⟩
      · split at h
        · exact ⟨.replay, _, rest, hbytes .replay (by assumption), hspeaks, h⟩
        · split at h
          · exact ⟨.resend, _, rest, hbytes .resend (by assumption), hspeaks, h⟩
          · split at h
            · exact ⟨.beacon, _, rest, hbytes .beacon (by assumption), hspeaks, h⟩
            · cases h
  · cases h

theorem readNoticeBody_iff (rest : List Byte) (b : NoticeBody) :
    readNoticeBody rest = some b ↔ rest = noticeBodyBytes b ∧ b.payload.length ≤ 64 := by
  refine ⟨fun h => ?_, fun ⟨h, hl⟩ => ?_⟩
  · unfold readNoticeBody at h
    split at h
    · split at h
      · rename_i htest
        obtain ⟨ht, hl, hp⟩ := htest
        cases h
        refine ⟨?_, hp ▸ hl⟩
        simp [noticeBodyBytes, be16_of16, byteOf5_setWidth ht, hp]
      · cases h
    · cases h
  · subst h
    have ht := b.topic.isLt
    simp [noticeBodyBytes, be16, readNoticeBody, Config.maxPayload, Nat.mod_eq_of_lt (show b.payload.length < 256 by omega),
      hl, show b.topic.toNat ≤ 31 by omega]

theorem readRange_closed_iff (rest : List Byte) (a z : LineNo) : readRange rest = some (.closed a z)
    ↔ ∃ flags : Byte, flags.getLsbD 0 = false ∧ rest = be16 a ++ flags :: be16 z := by
  refine ⟨fun h => ?_, fun ⟨flags, hf, h⟩ => ?_⟩
  · unfold readRange at h
    split at h
    · rename_i a1 a0 flags z1 z0
      split at h
      · cases h
      · rename_i hf
        cases h
        exact ⟨flags, by simpa using hf, by simp [be16_of16]⟩
    · cases h
  · rw [h]
    simpa [readRange, be16] using hf

theorem readRange_open_iff (rest : List Byte) (a : LineNo) : readRange rest = some (.openFrom a)
    ↔ ∃ (flags : Byte) (ignored : BitVec 16), flags.getLsbD 0 = true ∧ rest = be16 a ++ flags :: be16 ignored := by
  refine ⟨fun h => ?_, fun ⟨flags, w, hf, h⟩ => ?_⟩
  · unfold readRange at h
    split at h
    · rename_i a1 a0 flags z1 z0
      split at h
      · rename_i hf
        cases h
        exact ⟨flags, of16 z1 z0, hf, by simp [be16_of16]⟩
      · cases h
    · cases h
  · rw [h]
    simp [readRange, be16, hf]

theorem readBeacon_iff (h : Header) (rest : List Byte) (f : Frame) : readBeacon h rest = some f
    ↔ ∃ k v w, f = .beacon h k v w ∧ rest = BeaconKind.code k :: (be32 v ++ be16 w) := by
  refine ⟨fun hr => ?_, fun ⟨k, v, w, hf, hr⟩ => ?_⟩
  · unfold readBeacon at hr
    split at hr
    · obtain ⟨k, hk, rfl⟩ := Option.map_eq_some_iff.mp hr
      exact ⟨k, _, _, rfl, by simp [code_of_beaconKind hk, be32_of32, be16_of16]⟩
    · cases hr
  · subst hf hr
    simp [readBeacon, be16, be32]

/-! ### Layouts -/

theorem speaks_of_fieldsPass {f : Frame} (h : FieldsPass f) : Speaks (Frame.header f) := by
  cases f with
  | notice hd b => exact .inr (.inl h.1)
  | replay hd b => exact h.1.imp_right .inl
  | resend hd r =>
    cases r with
    | closed a z => exact h.1.imp_right .inl
    | openFrom a => exact Or.imp_right .inl h
  | beacon hd k v w =>
    obtain ⟨⟨-, hst⟩ | ⟨-, hst⟩ | ⟨-, hst⟩, -⟩ := h
    · exact .inl hst
    · exact .inr (.inl hst)
    · exact .inr (.inr hst)

/-- What is read lies in the layout (R20, R183). -/
theorem laidOut_of_readBody {f : Frame} {bytes : List Byte} (h : readBody bytes = some f) : LaidOut f bytes := by
  obtain ⟨k, hd, rest, rfl, -, hrest⟩ := readBody_eq_some h
  cases k with
  | notice =>
    obtain ⟨b, hb, rfl⟩ := Option.map_eq_some_iff.mp hrest
    obtain ⟨rfl, -⟩ := (readNoticeBody_iff rest b).mp hb
    exact rfl
  | replay =>
    obtain ⟨b, hb, rfl⟩ := Option.map_eq_some_iff.mp hrest
    obtain ⟨rfl, -⟩ := (readNoticeBody_iff rest b).mp hb
    exact rfl
  | resend =>
    obtain ⟨r, hr, rfl⟩ := Option.map_eq_some_iff.mp hrest
    cases r with
    | closed a z =>
      obtain ⟨flags, hf, rfl⟩ := (readRange_closed_iff rest a z).mp hr
      exact ⟨flags, hf, rfl⟩
    | openFrom a =>
      obtain ⟨flags, w, hf, rfl⟩ := (readRange_open_iff rest a).mp hr
      exact ⟨flags, w, hf, rfl⟩
  | beacon =>
    obtain ⟨kind, v, w, rfl, rfl⟩ := (readBeacon_iff hd rest f).mp hrest
    cases kind <;> exact rfl

/-- What lies in the layout, with fields that pass, is read (R20, R183). -/
theorem readBody_of_laidOut {f : Frame} {bytes : List Byte} (hv : FieldsPass f) (h : LaidOut f bytes) :
    readBody bytes = some f := by
  have hspeaks := speaks_of_fieldsPass hv
  cases f with
  | notice hd b =>
    change bytes = headerBytes .notice hd ++ noticeBodyBytes b at h
    rw [h, readBody_headerBytes (h := hd) hspeaks, readRest, (readNoticeBody_iff _ b).mpr ⟨rfl, hv.2.2⟩]; rfl
  | replay hd b =>
    change bytes = headerBytes .replay hd ++ noticeBodyBytes b at h
    rw [h, readBody_headerBytes (h := hd) hspeaks, readRest, (readNoticeBody_iff _ b).mpr ⟨rfl, hv.2.2⟩]; rfl
  | resend hd r =>
    cases r with
    | closed a z =>
      obtain ⟨flags, hf, hb⟩ := h
      change bytes = headerBytes .resend hd ++ (be16 a ++ flags :: be16 z) at hb
      rw [hb, readBody_headerBytes (h := hd) hspeaks, readRest, (readRange_closed_iff _ a z).mpr ⟨flags, hf, rfl⟩]; rfl
    | openFrom a =>
      obtain ⟨flags, w, hf, hb⟩ := h
      change bytes = headerBytes .resend hd ++ (be16 a ++ flags :: be16 w) at hb
      rw [hb, readBody_headerBytes (h := hd) hspeaks, readRest, (readRange_open_iff _ a).mpr ⟨flags, w, hf, rfl⟩]; rfl
  | beacon hd k v w =>
    have hb : bytes = headerBytes .beacon hd ++ (BeaconKind.code k :: (be32 v ++ be16 w)) := by
      cases k <;> exact h
    rw [hb, readBody_headerBytes (h := hd) hspeaks]
    exact (readBeacon_iff hd _ _).mpr ⟨k, v, w, rfl, rfl⟩

/-- The bytes a station sends lie in the layout (R183). -/
theorem laidOut_frameBody (f : Frame) : LaidOut f (frameBody f) := by
  cases f with
  | notice hd b => exact rfl
  | replay hd b => exact rfl
  | resend hd r =>
    cases r with
    | closed a z => exact ⟨0, rfl, rfl⟩
    | openFrom a => exact ⟨1, 0, rfl, rfl⟩
  | beacon hd k v w => cases k <;> exact rfl

/-- The characters of a frame (R18). -/
def frameSize : Frame → Nat
  | .notice _ b => 12 + b.payload.length
  | .replay _ b => 12 + b.payload.length
  | .resend _ _ => 13
  | .beacon _ _ _ _ => 15

/-- The size of a frame's bytes before its check, and their first (R18). -/
theorem LaidOut.size {f : Frame} {bytes : List Byte} (h : LaidOut f bytes) : bytes.length + 2 = frameSize f
      ∧ ∀ check, (bytes ++ check).head? = some (FrameKind.code (Frame.kind f)) := by
  cases f with
  | notice hd b => cases h; exact ⟨by simp [frameSize]; omega, fun _ => rfl⟩
  | replay hd b => cases h; exact ⟨by simp [frameSize]; omega, fun _ => rfl⟩
  | resend hd r =>
    cases r with
    | closed a z => obtain ⟨flags, -, rfl⟩ := h; exact ⟨rfl, fun _ => rfl⟩
    | openFrom a => obtain ⟨flags, w, -, rfl⟩ := h; exact ⟨rfl, fun _ => rfl⟩
  | beacon hd k v w => cases h; exact ⟨rfl, fun _ => rfl⟩

/-! ### The check -/

/-- A run of characters is a frame exactly where it passes the check (R20). -/
theorem readFrame_iff (chars : List LineChar) (f : Frame) : readFrame chars = some f
    ↔ (∀ c ∈ chars, c.framingError = false) ∧ FieldsPass f ∧ ∃ body, LaidOut f body
      ∧ chars.map (·.data) = body ++ be16 (crc16 body) := by
  unfold readFrame
  by_cases hframing : ∀ c ∈ chars, c.framingError = false
  · rw [if_neg (by simpa using hframing)]
    refine Iff.trans ?_ (and_iff_right hframing).symm
    generalize chars.map (·.data) = bytes
    refine ⟨fun h => ?_, fun ⟨hv, body, hbody, hbytes⟩ => ?_⟩
    · unfold readFrameBytes at h
      dsimp only at h
      split at h
      · rename_i hcheck
        obtain ⟨hread, hv⟩ := Option.filter_eq_some_iff.mp h
        refine ⟨(valid_iff_fieldsPass f).mp hv, _, laidOut_of_readBody hread, ?_⟩
        rw [← hcheck, List.take_append_drop]
      · cases h
    · have hlen : bytes.length - 2 = body.length := by rw [hbytes]; simp
      have htake : bytes.take body.length = body := by rw [hbytes, List.take_left]
      have hdrop : bytes.drop body.length = be16 (crc16 body) := by rw [hbytes, List.drop_left]
      unfold readFrameBytes
      dsimp only
      rw [hlen, htake, hdrop, if_pos rfl, readBody_of_laidOut hv hbody]
      exact Option.filter_eq_some_iff.mpr ⟨rfl, (valid_iff_fieldsPass f).mpr hv⟩
  · rw [if_pos (by simpa using hframing)]
    exact iff_of_false (by simp) fun h => hframing h.1

/-- Settles O5: a frame's own bytes lie in its layout, with the check after them (`readFrame_iff`). -/
theorem framesReadBack : Obligations.FramesReadBack := by
  intro f hv
  refine (readFrame_iff _ f).mpr ⟨by simp [frameChars], (valid_iff_fieldsPass f).mp hv, _, laidOut_frameBody f, ?_⟩
  simp [frameChars, frameBytes, Function.comp_def]

/-- Settles O4: characters bit by bit; frames by `readFrame_iff`, of whose layouts sizes and first bytes are read. -/
theorem charactersAndTheCheck : Obligations.CharactersAndTheCheck := by
  refine ⟨readChar_charLevels, charLevels_eq, fun s bit => ⟨rfl, fun hd => State.linePins_of_idle hd bit, fun hd hf => ?_,
    fun f hd hf hs => State.linePins_ownFrame hd hf hs bit⟩, by decide, fun levels => rfl, by decide +kernel,
    valid_iff_fieldsPass, readFrame_iff, fun chars f h => ?_⟩
  · rw [State.linePins_of_mark hf, hd]; rfl
  · obtain ⟨hframing, -, body, hbody, hbytes⟩ := (readFrame_iff chars f).mp h
    obtain ⟨hsize, hhead⟩ := hbody.size
    have hlen : chars.length = body.length + 2 := by
      rw [← List.length_map (f := fun c => c.data), hbytes]; simp
    refine ⟨readFrame_valid h, hframing, ?_, ?_, ?_⟩
    · rw [hbytes, hlen, Nat.add_sub_cancel, List.drop_left, List.take_left]
    · rw [hlen, hsize]; cases f <;> rfl
    · rw [hbytes]; exact hhead _

end Sys2Proof.Machine
end

