-- ==== Sys2Proof/Proofs/Reading.lean ====
section
/-!
PROOF. The reading commands TAKE, PEEK, REPORT and MEMBERS, and what leaves at the rise of CS# (R106, R172 to R177, R187, R188).
-/

namespace Sys2Proof.Machine

/-! ### Responses and the rise of CS# -/

/-- A command that responds decides the transaction, and does nothing else. -/
theorem command_of_respond {s : State} {x : Byte} {f : State → State} {taken : Nat} {response : List Byte} {e : RiseEffect}
    (hs : Live s) (hl : s.port.link = .transaction x .awaiting) (hf : f s = s.respond taken response e) :
    command f s = .next { s with port := decidedIn s x taken response e } := by
  rw [command_awaiting hs.1 (State.awaiting_of_link hl), hf]
  exact congrArg Host.Outcome.next ((congrArg State.settleAttn (State.setPhase_of_link hl _)).trans
    (State.settleAttn_withPort hs.2 rfl))

/-- The rise of CS# closes the transaction with the effect of its phase (R167). -/
theorem exec_csRise_of_link {s : State} {x : Byte} {phase : Phase} (hlow : s.pins.resetLow = false)
    (hl : s.port.link = .transaction x phase) (clocked : Nat) : exec (.csRise clocked) s
      = .next (State.closeTransaction { s with port := { s.port with link := .closed } } clocked phase).settleAttn := by
  have hevent : exec (.csRise clocked) s = event (fun t => t.closeTransaction clocked phase)
      { s with port := { s.port with link := .closed } } := by
    simp only [exec_csRise, execCsRise, hl]
  exact hevent.trans (event_live (s := { s with port := { s.port with link := .closed } }) hlow)

theorem exec_take_peek (s : State) :
    exec .take s = command (fun s => match s.rx.queue with
        | [] => s.respond 0 emptyResponse .nothing
        | r :: _ => s.respond 0 (deliveryBytes (s.recordPayload r) r) .takeHead) s
      ∧ exec .peek s = command (fun s => match s.rx.queue with
        | [] => s.respond 0 emptyResponse .nothing
        | r :: _ => s.respond 0 (deliveryBytes (s.recordPayload r) r) .nothing) s := ⟨rfl, rfl⟩

theorem exec_report (s : State) : exec .report s = command (fun s => match s.port.reports with
    | [] => s.respond 0 emptyResponse .nothing
    | r :: _ => s.respond 0 (reportBytes r) .reportHead) s := rfl

/-! ### TAKE and PEEK -/

/-- A NOTICE record's leading bytes (R187). -/
theorem deliveryBytes_notice (payload : List Byte) (n : RxNotice) : deliveryBytes payload (.notice n)
    = [0x01, byteOf (7 + payload.length)] ++ be16 n.number
      ++ [byteOf5 n.originator, byteOf5 n.topic, (if n.own then 1 else 0) ||| (if n.replay then 2 else 0),
          if n.own then n.tag.getD 0 else 0, byteOf n.length] ++ payload := by
  have hlen : (be16 n.number ++ [byteOf5 n.originator, byteOf5 n.topic, bitAt 0 n.own ||| bitAt 1 n.replay,
      if n.own then n.tag.getD 0 else 0, byteOf n.length] ++ payload).length = 7 + payload.length := by simp; omega
  simp only [deliveryBytes, framed, hlen]
  cases n.own <;> cases n.replay <;> rfl

/-- Settles O15: both show the head's bytes; PEEK and EMPTY have no effect at the rise of CS#. -/
theorem takeAndPeekShowTheHead : Obligations.TakeAndPeekShowTheHead := by
  intro s x hs hl
  refine ⟨fun response n => exec_csRise_of_nothing (s := { s with port := decidedIn s x 0 response .nothing }) hs rfl n,
    fun hq => ?_, fun r rest hq => ?_⟩
  · rw [(exec_take_peek s).1, (exec_take_peek s).2]
    exact ⟨command_of_respond hs hl (by simp [hq, emptyResponse]), command_of_respond hs hl (by simp [hq, emptyResponse])⟩
  · rw [(exec_take_peek s).1, (exec_take_peek s).2]
    refine ⟨deliveryBytes (s.recordPayload r) r, command_of_respond hs hl (by simp [hq]),
      command_of_respond hs hl (by simp [hq]), ?_⟩
    cases r with
    | notice n => exact deliveryBytes_notice (s.rxPayload n) n
    | lost first last d => exact rfl
    | base b d =>
      obtain ⟨reason, number, superseded⟩ := b
      cases reason <;> cases superseded <;> rfl

/-! ### The head that leaves -/

/-- The waiting BASE record takes the one descriptor that is free (R67, R68). -/
theorem State.handOn_of_base {s : State} {b : BaseRecord} {d : Nat} (hb : s.pool.pendingBase = some b)
    (hd : s.pool.freeDescs = [d]) : (∃ more, s.handOn.rx.queue = s.rx.queue ++ .base b d :: more)
      ∧ s.handOn.pool.pendingBase = none ∧ s.handOn.pool.freeDescs = [] := by
  have hserved : s.servePendingBase
      = State.appendRecord { s with pool := { s.pool with pendingBase := none, freeDescs := [] } } (.base b d) := by
    simp [State.servePendingBase, hb, hd]
  obtain ⟨more, hq⟩ := s.servePendingBase.advance_queue
  unfold State.handOn
  refine ⟨⟨more, ?_⟩, ?_, ?_⟩
  · rw [hq, hserved]; simp
  · rw [hserved]; simp
  · exact State.advanceRun_noDesc (by rw [hserved]; simp) _

/-- A LOST record that waited for a descriptor takes the one that is free (R102). -/
theorem State.handOn_of_lost {s : State} {d : Nat} (ho : OrderSound s) (hb : s.pool.pendingBase = none)
    (hf : ∀ x ∈ s.rx.holdSet, x.number ≠ s.rx.settled + 1) (hk : s.knownAt (s.rx.settled + 1) = false)
    (hl : s.lostAt (s.rx.settled + 1) = true) (hd : s.pool.freeDescs = [d]) :
    ∃ last more, s.handOn.rx.queue = s.rx.queue ++ .lost (s.rx.settled + 1) last d :: more
      ∧ LostRun s (fun n => s.lostAt n = true) last ∧ s.ahead last ≤ s.ahead s.handOn.rx.settled
      ∧ s.handOn.pool.pendingBase = none ∧ s.handOn.pool.freeDescs = [] := by
  rw [State.handOn_of_noBase hb]
  obtain ⟨last, more, hq, hrun, hle, hdesc⟩ := State.advance_of_lost ho hb hf hk hl hd
  exact ⟨last, more, hq, hrun, hle, by simpa using hb, hdesc rfl⟩

/-- A TAKE clocked in full removes the head and hands its storage on (R106, R172, R67). -/
theorem exec_csRise_takeHead {s : State} {x : Byte} {taken n : Nat} {response : List Byte} {r : DeliveryRecord}
    {rest : List DeliveryRecord} (hs : Live s) (hl : s.port.link = .transaction x (.decided taken response .takeHead))
    (hq : s.rx.queue = r :: rest) (hn : response.length ≤ n) : exec (.csRise n) s = .next
      (State.headFreed { s with port := { s.port with link := .closed, takeIncomplete := false } } r rest).handOn.settleAttn := by
  have hremoved := State.removeHead_eq
    (s := { s with port := { s.port with link := .closed, takeIncomplete := false } }) hq
  rw [exec_csRise_of_link hs.1 hl, State.closeTransaction_takeHead, if_pos hn]
  exact congrArg (fun t : State => Host.Outcome.next t.settleAttn) hremoved

/-- Settles O16: what the freed storage lets the station deliver is the handing on of it (`HandedOn_handOn`,
`State.handOn_of_base`, `State.handOn_of_lost`). -/
theorem takeRemovesAtTheRise : Obligations.TakeRemovesAtTheRise := by
  intro s x taken n response r rest hs hl hq
  refine ⟨fun hn => ?_, fun hn => ?_⟩
  · rw [exec_csRise_of_link hs.1 hl, State.closeTransaction_takeHead, if_neg (by omega)]
    exact congrArg _ (State.settleAttn_withPort hs.2 rfl)
  · let v := State.headFreed { s with port := { s.port with link := .closed, takeIncomplete := false } } r rest
    obtain ⟨-, hbacklog, hgaps⟩ := HandedOn_handOn (s := v) (u := v) rfl rfl rfl rfl
    refine ⟨_, exec_csRise_takeHead hs hl hq hn, AttnFollows_settleAttn _, v.handOn_frame.2.2.2.2.2.2.1, v.handOn_queue,
      by simp [State.headFreed], by simp [State.headFreed], hbacklog, hgaps, by simp [State.headFreed],
      by simp [State.headFreed], by simp [State.headFreed], by simp [State.headFreed], by simp [State.headFreed],
      by simp [State.headFreed], by simp [State.headFreed], fun hnone => ?_, fun b hb hd => ?_, fun ho hrests hb hlost => ?_⟩
    · have hstill : v.handOn = v := State.handOn_of_nothing hnone
      rw [hstill]; exact ⟨rfl, rfl, rfl⟩
    · obtain ⟨⟨more, hqueue⟩, hbase, hdesc⟩ := State.handOn_of_base (s := v) (d := r.descriptor) hb (by simp [v, State.headFreed, hd])
      exact ⟨more, hqueue, hbase, hdesc⟩
    · obtain hno | ⟨hheld, hknown, hnodesc⟩ := hrests
      · exact absurd hb hno
      · have hd : s.pool.freeDescs = [] := hnodesc.resolve_left (by rw [hlost]; simp)
        exact State.handOn_of_lost (s := v) ho hb hheld hknown hlost (by simp [v, State.headFreed, hd])

/-! ### REPORT -/

theorem stateCodeByte_eq (st : StationState) : stateCodeByte st = (StationState.code st).setWidth 8 := by
  cases st <;> rfl

/-- A report's bytes, kind by kind (R187). -/
theorem reportBytes_eq (r : Report) : reportBytes r = (match r with
    | .memberJoined n => [0x01, 0x01, byteOf5 n]
    | .memberLost n cause => [0x02, 0x02, byteOf5 n, (match cause with | .silent => 1 | .horizon => 2)]
    | .memberLeft n => [0x03, 0x01, byteOf5 n]
    | .peerWord n word => [0x04, 0x03, byteOf5 n] ++ be16 word
    | .stateChange previous new cause => [0x05, 0x03, (StationState.code previous).setWidth 8,
        (StationState.code new).setWidth 8, (match cause with
          | .start => 1 | .adoption => 2 | .founding => 3 | .inclusion => 4 | .joinFailure => 5
          | .resyncExcluded => 6 | .resyncSpan => 7 | .leaveCommand => 8 | .leaveSent => 9 | .duplicateId => 10)]
    | .staleSender number count => [0x06, 0x04] ++ be16 number ++ be16 count
    | .congested count => [0x07, 0x01, BitVec.ofNat 8 count]
    | .collisions kind count => [0x08, 0x02, FrameKind.code kind, BitVec.ofNat 8 count]
    | .numberingConflict number held sender => [0x09, 0x04] ++ be16 number ++ [byteOf5 held, byteOf5 sender]
    | .gapOverflow first last => [0x0A, 0x04] ++ be16 first ++ be16 last
    | .joinUnanswered count => [0x0B, 0x01, BitVec.ofNat 8 count]
    | .duplicateId n => [0x0C, 0x01, byteOf5 n]
    | .outboundDiscarded count tag => [0x0D, 0x02, BitVec.ofNat 8 count, tag]) := by
  cases r with
  | stateChange previous new cause =>
    simp only [reportBytes, framed, stateCodeByte_eq]
    cases cause <;> rfl
  | memberLost n cause => cases cause <;> rfl
  | _ => rfl

/-- Settles O17: the queue takes sixteen records, the next counts as overflow; a report that was clocked in full leaves. -/
theorem reportReadsAndRemoves : Obligations.ReportReadsAndRemoves := by
  refine ⟨fun s r => ⟨fun h => ?_, fun h => ?_⟩, fun s => rfl, fun s r rs => rfl,
    fun s x hs hl => ⟨fun hq => ?_, fun r rest hq => ?_⟩⟩
  · exact if_pos h
  · exact if_neg (Nat.not_lt.mpr h)
  · rw [exec_report]
    exact command_of_respond hs hl (by simp [hq, emptyResponse])
  · refine ⟨reportBytes r, ?_, ?_, fun n => ⟨_, exec_csRise_of_link
      (s := { s with port := decidedIn s x 0 (reportBytes r) .reportHead }) hs.1 rfl n, AttnFollows_settleAttn _, ?_⟩⟩
    · rw [exec_report]
      exact command_of_respond hs hl (by simp [hq])
    · exact reportBytes_eq r
    · rw [State.closeTransaction_reportHead]
      split
      · exact ⟨by simp [hq, decidedIn], rfl, rfl, rfl, rfl, rfl, rfl, rfl, rfl, rfl⟩
      · exact ⟨by simp [hq, decidedIn], rfl, rfl, rfl, rfl, rfl, rfl, rfl, rfl, rfl⟩

/-! ### MEMBERS -/

/-- The flags byte of a member's entry: the state code in bits 2..0, included-me in bit 4, a known word in bit 5 (R188). -/
theorem memberFlags_bits (st : StationState) (included word : Bool) :
    let flags := stateCodeByte st ||| bitAt 4 included ||| bitAt 5 word
    flags.extractLsb' 0 3 = StationState.code st ∧ flags.getLsbD 4 = included ∧ flags.getLsbD 5 = word
      ∧ flags.getLsbD 3 = false ∧ flags.getLsbD 6 = false ∧ flags.getLsbD 7 = false := by
  have hhigh (i : Nat) (hi : 3 ≤ i) : (stateCodeByte st).getLsbD i = false := by
    rw [stateCodeByte_eq, BitVec.getLsbD_setWidth, BitVec.getLsbD_of_ge _ _ hi, Bool.and_false]
  have hbit (i : Nat) (hi : i < 8) : (stateCodeByte st ||| bitAt 4 included ||| bitAt 5 word).getLsbD i
      = ((stateCodeByte st).getLsbD i || (decide (4 = i) && included) || (decide (5 = i) && word)) := by
    rw [BitVec.getLsbD_or, BitVec.getLsbD_or, getLsbD_bitAt 4 included hi, getLsbD_bitAt 5 word hi]
  refine ⟨BitVec.eq_of_getLsbD_eq fun i hi => ?_, ?_, ?_, ?_, ?_, ?_⟩
  · rw [BitVec.getLsbD_extractLsb', Nat.zero_add, hbit i (by omega), stateCodeByte_eq, BitVec.getLsbD_setWidth]
    simp [hi, show i < 8 by omega, show ¬4 = i by omega, show ¬5 = i by omega]
  all_goals rw [hbit _ (by omega), hhigh _ (by omega)]; simp

/-- Pieces of one length, laid one after the other: the `i`-th stands `i` lengths on. -/
theorem drop_take_flatMap {α β : Type} {f : α → List β} {k : Nat} (hf : ∀ a, (f a).length = k) {l : List α} {i : Nat} {a : α}
    (h : l[i]? = some a) : ((l.flatMap f).drop (k * i)).take k = f a := by
  induction l generalizing i with
  | nil => simp at h
  | cons b l ih =>
    cases i with
    | zero =>
      cases h
      rw [Nat.mul_zero, List.drop_zero, List.flatMap_cons, ← hf a, List.take_left]
    | succ i =>
      rw [List.flatMap_cons, Nat.mul_succ, Nat.add_comm, ← List.drop_drop, ← hf b, List.drop_left, hf b]
      exact ih (by simpa using h)

theorem exec_members (s : State) : exec .members s = command (fun s => s.respond 0 s.membersResponse .nothing) s := rfl

theorem Member.bytes_length (m : Member) : m.bytes.length = 6 := rfl

/-- Settles O19: the entries follow one another, six bytes each. -/
theorem membersListsTheTable : Obligations.MembersListsTheTable := by
  intro s x hs hl
  have hlen : (s.members.flatMap Member.bytes).length = 6 * s.members.length := by
    simp [List.length_flatMap, Member.bytes_length, Nat.mul_comm]
  refine ⟨s.membersResponse, (exec_members s).trans (command_of_respond hs hl rfl), ?_, rfl, fun i m hm => ?_⟩
  · rw [State.membersResponse, List.length_cons, hlen, Nat.add_comm]
  · refine ⟨_, ?_, memberFlags_bits m.state m.includedMe m.word.isSome⟩
    rw [State.membersResponse, Nat.add_comm, List.drop_succ_cons, drop_take_flatMap Member.bytes_length hm]
    rfl

end Sys2Proof.Machine
end

