-- ==== Sys2Proof/Proofs/Port.lean ====
section
/-!
PROOF. The controller port: ATTN# and the summary byte, what MISO carries, the transaction's commands, WORD and unknown codes
(R165 to R171, R181, R185).
-/

namespace Sys2Proof.Machine

/-! ### ATTN# and the summary byte -/

theorem State.attentionWanted_iff (s : State) : s.attentionWanted = true ↔
    (s.cfg.attention.delivery = true ∧ s.rx.queue ≠ [])
      ∨ (s.cfg.attention.backlog = true ∧ s.rx.backlog = true)
      ∨ (s.cfg.attention.room = true ∧ s.send.room = true)
      ∨ (s.cfg.attention.report = true ∧ s.port.reports ≠ []) := by
  simp [State.attentionWanted, State.deliveryCause, State.backlogCause, State.roomCause, State.reportCause, or_assoc]

/-- The summary byte, bit by bit (R166, R185). -/
theorem State.summaryByte_bits (s : State) : s.summaryByte.extractLsb' 0 3 = StationState.code s.stn.state
    ∧ s.summaryByte.getLsbD 3 = !s.port.reports.isEmpty ∧ s.summaryByte.getLsbD 4 = s.deliveryCause
    ∧ s.summaryByte.getLsbD 5 = s.backlogCause ∧ s.summaryByte.getLsbD 6 = s.roomCause
    ∧ s.summaryByte.getLsbD 7 = s.reportCause := by
  have hbit (i : Nat) (hi : i < 8) : s.summaryByte.getLsbD i = ((StationState.code s.stn.state).getLsbD i
      || (decide (3 = i) && !s.port.reports.isEmpty) || (decide (4 = i) && s.deliveryCause)
      || (decide (5 = i) && s.backlogCause) || (decide (6 = i) && s.roomCause) || (decide (7 = i) && s.reportCause)) := by
    simp only [State.summaryByte, BitVec.getLsbD_or, getLsbD_bitAt _ _ hi, stateCodeByte_eq, BitVec.getLsbD_setWidth, hi,
      decide_true, Bool.true_and]
  refine ⟨BitVec.eq_of_getLsbD_eq fun i hi => ?_, ?_, ?_, ?_, ?_, ?_⟩
  · rw [BitVec.getLsbD_extractLsb', Nat.zero_add, hbit i (by omega)]
    simp [hi, show ¬3 = i by omega, show ¬4 = i by omega, show ¬5 = i by omega, show ¬6 = i by omega, show ¬7 = i by omega]
  all_goals rw [hbit _ (by omega), BitVec.getLsbD_of_ge _ _ (by omega)]; simp

theorem State.causes_of_noConfig {s : State} (h : s.stn.config = none) : s.deliveryCause = false ∧ s.backlogCause = false
    ∧ s.roomCause = false ∧ s.reportCause = false := by
  simp [State.deliveryCause, State.backlogCause, State.roomCause, State.reportCause, State.cfg, h,
    StartConfig.unset]

theorem exec_csFall_of_closed {s : State} (hs : Live s) (hl : s.port.link = .closed) :
    exec .csFall s = .next { s with port := { s.port with link := .transaction s.summaryByte .awaiting } } := by
  change execCsFall s = _
  simp [execCsFall, hl, hs.1]

/-! ### MISO -/

/-- Bytes travel most significant bit first (R165). -/
theorem PortLink.misoBit_eq (l : PortLink) (k : Nat) {j : Nat} (hj : j < 8) :
    l.misoBit k j = (l.misoByte k).map fun b => b.getLsbD (7 - j) := by
  unfold PortLink.misoBit
  congr 1
  funext b
  rw [portBits_eq]
  simp [hj]

theorem PortLink.misoByte_decided (b : Byte) (taken : Nat) (response : List Byte) (e : RiseEffect) :
    let link : PortLink := .transaction b (.decided taken response e)
    link.misoByte 1 = some b ∧ (∀ k, 2 ≤ k → k < 3 + taken → link.misoByte k = some 0)
      ∧ (∀ i, i < response.length → link.misoByte (3 + taken + i) = response[i]?)
      ∧ (∀ i, response.length ≤ i → link.misoByte (3 + taken + i) = some 0) := by
  have hbyte (i : Nat) : PortLink.misoByte (.transaction b (.decided taken response e)) (3 + taken + i)
      = some (response.getD i 0) := by
    have hi : 3 + taken + i - 3 - taken = i := by omega
    simp only [PortLink.misoByte, hi]
    rw [if_neg (by omega), if_neg (by omega)]
  refine ⟨rfl, fun k h2 hk => ?_, fun i hi => ?_, fun i hi => ?_⟩
  · simp only [PortLink.misoByte]
    rw [if_neg (by omega), if_pos hk]
  · rw [hbyte, List.getD_eq_getElem?_getD, List.getElem?_eq_getElem hi, Option.getD_some]
  · rw [hbyte, List.getD_eq_default _ _ hi]

/-- Settles O10: the causes are those of `State.attentionWanted_iff`, the summary byte's bits those of
`State.summaryByte_bits`, and MISO's bytes those of the link's phase. -/
theorem attentionAndSummaryByte : Obligations.AttentionAndSummaryByte := by
  intro s
  refine ⟨s.attentionWanted_iff, fun hc => ?_, AttnFollows_settleAttn s, fun hs hl => ?_, PortLink.misoByte_decided,
    fun b phase hp => ?_, fun k => ⟨rfl, rfl⟩, fun link k j hj => link.misoBit_eq k hj⟩
  · simp [State.attentionWanted, State.causes_of_noConfig hc]
  · obtain ⟨hstate, hreports, hdelivery, hbacklog, hroom, hreport⟩ := s.summaryByte_bits
    refine ⟨s.summaryByte, exec_csFall_of_closed hs hl, hstate, hreports, hdelivery, hbacklog, hroom, hreport,
      fun hc => ?_, rfl, fun j hj => PortLink.misoBit_eq _ 1 hj, fun n => ?_⟩
    · rw [hdelivery, hbacklog, hroom, hreport]; exact State.causes_of_noConfig hc
    · have hshut : ({ s with port := { s.port with link := .closed } } : State) = s := by rw [← hl]
      rw [exec_csRise_of_link (s := { s with port := { s.port with link := .transaction s.summaryByte .awaiting } }) hs.1 rfl]
      change Host.Outcome.next (State.settleAttn { s with port := { s.port with link := .closed } }) = _
      rw [hshut, State.settleAttn_eq_self hs.2]
  · rcases hp with rfl | rfl
    · exact ⟨rfl, fun k hk => congrArg some (if_neg (by omega))⟩
    · exact ⟨rfl, fun k hk => congrArg some (if_neg (by omega))⟩

/-! ### Commands that answer -/

/-- A command that answers and does more besides, in a state whose port is as it was. -/
theorem command_of_effect {s u : State} {x : Byte} {p : Phase} {f : State → State} {taken : Nat} {code : ResultCode}
    (hs : Live s) (ha : s.port.link = .transaction x .awaiting) (hf : f s = u.answer taken code)
    (hl : u.port.link = .transaction x p) : command f s = .next (State.settleAttn { u with port :=
      { decidedIn u x taken [ResultCode.code code] .nothing with result := ⟨code, none⟩ } }) := by
  rw [command_awaiting hs.1 (State.awaiting_of_link ha), hf, State.answer_eq hl]

theorem exec_word (args : List Byte) (s : State) : exec (.word args) s = execWord args s := rfl

theorem exec_leave (s : State) : exec .leave s = execLeave s := rfl

theorem exec_unknownCode (code : Byte) (s : State) : exec (.unknownCode code) s = execUnknownCode code s := rfl

/-- A transaction's bytes as the bits that are clocked, the bits of an incomplete byte after them (R165). -/
theorem transactionEvents_clocked (bytes : List Byte) (cut : List Bool) :
    transactionEvents ((bytes.flatMap fun b => (List.range 8).map fun i => b.getLsbD (7 - i)) ++ cut)
      = transactionEvents (bytes.flatMap portBits ++ cut) := by
  have hbits : (fun b : Byte => (List.range 8).map fun i => b.getLsbD (7 - i)) = portBits :=
    funext fun b => (portBits_eq b).symm
  rw [hbits]

/-- The command byte selects the command, and the bytes up to the deciding one are its arguments (R167, R185). -/
theorem transactionEvents_command {first code : Byte} {rest : List Byte} {cut : List Bool} (h : cut.length < 8) :
    transactionEvents (((first :: code :: rest).flatMap fun b => (List.range 8).map fun i => b.getLsbD (7 - i)) ++ cut)
      = [.csFall, commandOf code (rest.take (commandOf code rest).argBytes),
          .csRise (rest.length - (commandOf code rest).argBytes)] := by
  rw [transactionEvents_clocked, transactionEvents_bytes first code rest cut h]

/-- The arguments a POST takes (R71, R170): two bytes, and the payload its length byte gives when that is a payload's. -/
theorem transactionEvents_post {first topic len : Byte} {payload : List Byte} {cut : List Bool} (h : cut.length < 8) :
    (64 < len.toNat → transactionEvents (((first :: 0x20 :: topic :: len :: payload).flatMap fun b =>
        (List.range 8).map fun i => b.getLsbD (7 - i)) ++ cut) = [.csFall, .post [topic, len], .csRise payload.length])
      ∧ (len.toNat ≤ 64 → transactionEvents (((first :: 0x20 :: topic :: len :: payload).flatMap fun b =>
        (List.range 8).map fun i => b.getLsbD (7 - i)) ++ cut)
        = [.csFall, .post (topic :: len :: payload.take len.toNat), .csRise (payload.length - len.toNat)]) := by
  have hargs : (commandOf 0x20 (topic :: len :: payload)).argBytes = if len.toNat ≤ 64 then 2 + len.toNat else 2 := rfl
  rw [transactionEvents_command h, hargs]
  refine ⟨fun hlen => ?_, fun hlen => ?_⟩
  · rw [if_neg (by omega)]; rfl
  · rw [if_pos hlen, Nat.add_comm 2, List.length_cons, List.length_cons,
      show payload.length + 1 + 1 - (len.toNat + 2) = payload.length - len.toNat by omega]
    rfl

/-- Settles O20: WORD and an unknown code are an answer each; the bytes of a transaction select its command
(`transactionEvents_command`). -/
theorem wordAndUnknownCodeDecided : Obligations.WordAndUnknownCodeDecided := by
  intro s x hi lo code extra hs hl
  refine ⟨fun hst => ?_, fun hst => ?_, fun few n hfew => ?_, fun hcode => ?_, fun first rest cut hcut => ?_⟩
  · rw [exec_word, execWord]
    refine (command_of_effect (u := { s with stn := { s.stn with word := of16 hi lo } }) hs hl (if_neg hst) hl).trans ?_
    exact congrArg _ (State.settleAttn_withPort (s := { s with stn := { s.stn with word := of16 hi lo } }) hs.2 rfl)
  · rw [exec_word, execWord]
    exact command_of_answer (taken := 2) (code := .wrongState) hs hl (by exact if_pos hst)
  · refine ⟨{ s with port := { s.port with link := .transaction x .incomplete } }, ?_, exec_csRise_of_incomplete hs x n⟩
    rw [exec_word, execWord]
    refine command_of_incomplete hs hl ?_
    match few, hfew with
    | [], _ => rfl
    | [_], _ => rfl
  · rw [exec_unknownCode, execUnknownCode]
    exact command_of_answer (taken := 0) (code := .badCommand) hs hl (by exact if_pos (commandOf_unknown hcode _))
  · refine ⟨?_, ?_, transactionEvents_command hcut, fun hshort => ?_, fun topic len payload hrest => ?_,
      transactionEvents_command hcut, transactionEvents_command hcut, transactionEvents_command hcut,
      transactionEvents_command hcut, transactionEvents_command hcut, transactionEvents_command hcut,
      transactionEvents_command hcut, fun hcode => ?_⟩
    · exact (transactionEvents_clocked [] cut).trans (transactionEvents_short [] cut (by simp) hcut)
    · exact (transactionEvents_clocked [first] cut).trans (transactionEvents_short [first] cut (by simp) hcut)
    · have hargs : (commandOf 0x20 rest).argBytes = 2 := by
        match rest, hshort with
        | [], _ => rfl
        | [_], _ => rfl
      refine (transactionEvents_command hcut).trans ?_
      rw [hargs, List.take_of_length_le (by omega), Nat.sub_eq_zero_of_le (by omega)]
      rfl
    · subst hrest
      exact transactionEvents_post hcut
    · refine (transactionEvents_command hcut).trans ?_
      rw [commandOf_unknown hcode, commandOf_unknown hcode]
      rfl

end Sys2Proof.Machine
end

