-- ==== Sys2Proof/Proofs/PortEffects.lean ====
section
/-!
PROOF. What an accepted START, POST and LEAVE leave behind (R58, R72, R73, R135, R144, R145).
-/

namespace Sys2Proof.Machine

/-! ### START -/

/-- The one report of an accepted START (R133, R135). -/
theorem State.applyStart_reports (s : State) (c : StartConfig) (w : Word16) :
    (s.applyStart c w).port.reports = [.stateChange s.stn.state .listen .start] := rfl

/-- Settles O12: START builds each block anew (`State.applyStart`), posts its report and answers. -/
theorem startEffects : Obligations.StartEffects := by
  intro s x args c attention word hs hl hidle hread hin
  refine ⟨_, exec_start_accepted hs hl hread hidle hin, AttnFollows_settleAttn _, ?_⟩
  rw [State.answer_eq ((State.applyStart_link ..).trans hl)]
  refine ⟨hs.1, rfl, rfl, ?_⟩
  refine ⟨(s.applyStart_reports c word).trans (by rw [hidle]), ?_⟩
  and_intros
  all_goals rfl

/-! ### POST -/

/-- Settles O14: the payload lies in the ring's next cells, which are no more than the ring has, and is read back from them. -/
theorem postStored : Obligations.PostStored := by
  intro s x topic len payload hs hl hst htopic hlen hmax hcells hdescs hm c n
  have hread : readPost (topic :: len :: payload) = .decided topic len payload := by
    simpa using readPost_eq_decided (topic := topic) (len := len) (payload := payload) [] (by rw [hlen, if_pos hmax])
  have htakes : s.stn.takesPosts = true := (StationBlock.takesPosts_iff _).mpr hst
  have hroom : cellsFor len.toNat ≤ s.freeSendCells ∧ 1 ≤ s.freeSendDescs := ⟨by rw [hlen]; exact hcells, hdescs⟩
  have hexec : exec (.post (topic :: len :: payload)) s = .next { s.storePost (topic.setWidth 5) payload with port :=
      { decidedIn s x (2 + payload.length) [ResultCode.code .accepted, s.send.tagCounter] .nothing with
          result := ⟨.accepted, some s.send.tagCounter⟩ } } := by
    rw [exec_post_of_decided hs hl hread, if_pos htakes, if_pos ⟨htopic, by omega⟩, if_pos hroom,
      State.answerPost_eq (s := s.storePost (topic.setWidth 5) payload) hl]
    exact congrArg _ (State.settleAttn_withPort (s := s.storePost (topic.setWidth 5) payload) hs.2 rfl)
  have hring : c ≤ s.cfg.sendSize := hcells.trans (Nat.sub_le _ _)
  refine ⟨_, hexec, rfl, ?payload, fun a ha => Memory.read_writeChain_of_notMem hm _ _ _ ha, ?cells, ?descs, rfl, rfl, rfl,
    rfl, rfl, rfl, rfl, rfl, rfl, rfl, rfl⟩
  case payload =>
    exact Memory.readChain_writeChain hm _ _ (ringCells_nodup _ hring)
      (by rw [ringCells_length]; exact length_le_cells _)
  case cells =>
    change s.cfg.sendSize - (sendCellsOf s.send.retained + sendCellsOf (s.send.outbound ++ [n])) = s.freeSendCells - c
    rw [sendCellsOf_append, State.freeSendCells]
    simp only [sendCellsOf, List.map_cons, List.map_nil, List.sum_cons, List.sum_nil]
    change _ - (_ + (_ + (c + 0))) = _
    omega
  case descs =>
    change Config.sendDescs - (s.send.retained.length + (s.send.outbound ++ [n]).length) = s.freeSendDescs - 1
    rw [List.length_append, State.freeSendDescs, List.length_singleton]
    omega

/-! ### LEAVE -/

/-- The report of an entry into IDLE follows that of the send queue given up (R133, R145). -/
theorem State.enterIdle_port (s : State) (c : StateCause) :
    (s.enterIdle c).port = (s.discardSend.postReport (.stateChange s.stn.state .idle c)).port := by
  obtain ⟨-, -, -, -, -, -, -, hport, -, -, -⟩ := s.quit_spec
  have hstate : s.quit.stn.state = s.stn.state := by simp
  rw [State.enterIdle, State.enterState_port, hstate]
  exact State.postReport_port_congr hport _

/-- A response decided before a report is posted, or after it, leaves the same port. -/
theorem State.postReport_decidedIn (s : State) (x : Byte) (taken : Nat) (response : List Byte) (e : RiseEffect) (r : Report) :
    (State.postReport { s with port := decidedIn s x taken response e } r).port
      = decidedIn (s.postReport r) x taken response e := by
  unfold State.postReport decidedIn
  dsimp only
  split <;> rfl

/-- A decision depends on the port alone. -/
theorem decidedIn_congr {s t : State} (h : t.port = s.port) (x : Byte) (taken : Nat) (response : List Byte)
    (e : RiseEffect) : decidedIn t x taken response e = decidedIn s x taken response e := by
  unfold decidedIn; rw [h]

/-- LEAVE in JOINING or ACTIVE with nothing of the station's own on the line (R144). -/
theorem exec_leave_enterLeaving {s : State} {x : Byte} (hs : Live s) (hl : s.port.link = .transaction x .awaiting)
    (hst : s.stn.state = .joining ∨ s.stn.state = .active) (hown : s.line.ownFrame = none) :
    exec .leave s = .next (State.settleAttn { s.waitForIdle.enterLeaving with port :=
      { decidedIn s.waitForIdle.enterLeaving x 0 [ResultCode.code .accepted] .nothing with result := ⟨.accepted, none⟩ } }) := by
  rw [exec_leave, execLeave]
  refine command_of_effect hs hl ?_ (p := .awaiting) (by simpa using hl)
  rcases hst with h | h <;> simp [h, hown]

/-- LEAVE in LISTEN (R144). -/
theorem exec_leave_enterIdle {s : State} {x : Byte} (hs : Live s) (hl : s.port.link = .transaction x .awaiting)
    (hst : s.stn.state = .listen) : exec .leave s = .next (State.settleAttn { s.enterIdle .leaveCommand with port :=
      { decidedIn (s.enterIdle .leaveCommand) x 0 [ResultCode.code .accepted] .nothing with
        result := ⟨.accepted, none⟩ } }) := by
  rw [exec_leave, execLeave]
  exact command_of_effect hs hl (by simp [hst]) (p := .awaiting) (by simpa [State.enterIdle] using hl)

/-- Settles O21: LEAVE by the state it finds; what LISTEN gives up is the quitting of the line (`State.quit_spec`). -/
theorem leaveDecided : Obligations.LeaveDecided := by
  intro s x hs hl
  refine ⟨fun hst => ?refused, fun hst hown => ?held, fun hst hown => ?leaves, fun hst => ?listen⟩
  case refused =>
    rw [exec_leave, execLeave]
    refine command_of_answer (taken := 0) (code := .wrongState) hs hl ?_
    rcases hst with h | h | h <;> simp [h]
  case held =>
    rw [exec_leave, execLeave]
    refine (command_of_effect (u := { s with stn := { s.stn with leaveHeld := true } }) (code := .accepted) (taken := 0)
      hs hl ?_ hl).trans ?_
    · have hsome : s.line.ownFrame.isSome = true := Option.isSome_iff_ne_none.mpr hown
      rcases hst with h | h <;> simp [h, hsome]
    · exact congrArg _ (State.settleAttn_withPort (s := { s with stn := { s.stn with leaveHeld := true } }) hs.2 rfl)
  case leaves =>
    have ht := exec_leave_enterLeaving hs hl hst hown
    refine ⟨_, ht, AttnFollows_settleAttn _, ?stn, ?port, fun hbusy => ?busy, fun p hp => ⟨?idle, fun q dominant => ?slot⟩,
      ?_, ?_, ?_, ?_, ?_, ?_, ?_⟩
    case stn => simp
    case port =>
      have hport : s.waitForIdle.enterLeaving.port = (s.postReport (.stateChange s.stn.state .leaving .leaveCommand)).port := by
        rw [State.enterLeaving_port, show s.waitForIdle.stn = s.stn by simp]
        exact State.postReport_port_congr (by simp) _
      rw [State.postReport_decidedIn, ← decidedIn_congr hport]
      rfl
    case busy => simp [State.waitForIdle_of_not_idle hbusy]
    case idle => simp [State.waitForIdle_of_idle hp]
    case slot =>
      unfold exec
      refine event_still ⟨?_, AttnFollows_settleAttn _⟩ ?_
      · simpa using hs.1
      · simp [State.waitForIdle_of_idle hp]
    all_goals simp
  case listen =>
    obtain ⟨hhold, hknown, hgaps, hsettled, ⟨more, hqueue⟩, hcommit, hsend, hport, hmembers, hline, hstn⟩ := s.quit_spec
    have hreports := s.enterIdle_port .leaveCommand
    rw [hst] at hreports
    have hboth {p : PortBlock} (hp : (s.discardSend.postReport (.stateChange .listen .idle .leaveCommand)).port = p) :
        (s.enterIdle .leaveCommand).port.reports = p.reports ∧ (s.enterIdle .leaveCommand).port.overflow = p.overflow := by
      rw [hreports, hp]; exact ⟨rfl, rfl⟩
    refine ⟨_, exec_leave_enterIdle hs hl hst, AttnFollows_settleAttn _, ?state, rfl, rfl, fun hout => ?quiet,
      fun n rest hout => ?discards, ?_, ?_, ?_, ?_, ?_, ?_, ⟨more, ?queue⟩, fun hoff hbase => ?storage, ?offLine, ?_, ?_, ?_,
      ?_, ?_, ?_, ?_⟩
    case state => simp [State.enterIdle]
    case quiet =>
      have hnone : s.discardSend.port = s.port := by rw [s.discardSend_port, hout]
      exact hboth (State.postReport_port_congr hnone _)
    case discards =>
      have hsome : s.discardSend.port = (s.postReport (.outboundDiscarded (n :: rest).length n.tag)).port := by
        rw [s.discardSend_port, hout]
      exact hboth (State.postReport_port_congr hsome _)
    case queue => simpa [State.enterIdle] using hqueue
    case storage =>
      obtain ⟨hh, hk, -, hprov, -⟩ := hoff.listen hst
      obtain ⟨hrx, hpool⟩ := State.quit_of_empty hbase hh hk hprov
      simp [State.enterIdle, hrx, hpool]
    case offLine => exact (OffLineEmpty_enterIdle s .leaveCommand).congr rfl rfl rfl rfl rfl rfl rfl rfl rfl rfl
    all_goals simp [State.enterIdle, hsettled, hsend, decidedIn]

end Sys2Proof.Machine
end

