-- ==== Sys2Proof/Proofs/SharedOperations.lean ====
section
/-!
PROOF. The delivery advance, resync and the expiries of the listen, join, beacon and presence timers (R10, R11, R14, R101,
R137 to R143, R152).
-/

namespace Sys2Proof.Machine

/-! ### The delivery advance -/

/-- The positions past the settled point that the advance reaches keep what is known of them. -/
theorem State.advance_knownAt {s : State} (hs : OrderSound s) {n : LineNo} (h1 : 1 ≤ s.advance.ahead n)
    (h2 : s.advance.ahead n ≤ s.advance.ahead s.advance.rx.count) : s.advance.knownAt n = s.knownAt n := by
  obtain ⟨hO, ⟨-, hreach, hknown, -⟩, -⟩ := State.advance_spec hs
  refine hknown n ?_
  have hspan := hs.1
  have hspan' := hO.1
  rw [ahead_unshift (t := s.advance) (m := n) (by omega)]
  omega

/-- Settles O51: the advance's own laws, put together. -/
theorem advanceRunsToTheEnd : Obligations.AdvanceRunsToTheEnd := by
  intro s hs t
  obtain ⟨hO, ⟨-, hreach, -, -, -, -, -⟩, hend⟩ := State.advance_spec hs
  obtain ⟨more, hq, -, horder, hnotices, hlost, hsettled, -, hheld⟩ := State.advance_by hs
  refine ⟨hend, by simp [t], ⟨more, hq, horder.mono hs.1, hnotices, hlost, hsettled⟩, hreach, hO, s.advance_backlog,
    State.advance_gaps hs, s.advance_nextGapId, fun hp => State.advance_of_none (State.advanceStep_of_pendingBase hp),
    ?_, ?_, ?_, ?_, ?_, ?_, ?_, ?_, ?_, ?_, fun n h1 h2 => State.advance_knownAt hs h1 h2, fun n hn => ?held⟩
  case held =>
    refine (hheld n hn).imp_right fun hmem => ?_
    exact hq ▸ List.mem_append_right _ hmem
  all_goals simp [t]

/-! ### Resync -/

/-- Settles O52: what a resync leaves (`State.resync_spec`), its storage, and the horizon of the count set. -/
theorem resyncEffects : Obligations.ResyncEffects := by
  intro s reason cause count hp t
  obtain ⟨hcount, hsettled, hknown, hheld, hgaps, hcommit, -, -, hline, hstn, -⟩ := s.resync_spec reason cause count
  obtain ⟨hcells, hbase⟩ := State.resync_storage hp reason cause count
  obtain ⟨hmembers, hsend, hport⟩ := s.resync_horizon reason cause count
  refine ⟨hcount, hsettled, hknown, hheld, hgaps, hcells, hbase, hcommit, hsend, hmembers, ?_, hstn, hport, ?_, ?_⟩
  · rw [hline, LineBlock.standBack_eq_yielded]
  · simp [t]
  · simp [t]

/-! ### The listen timer -/

/-- Settles O46: founding, on a receive side that is empty off the line. -/
theorem listenExpiryFounds : Obligations.ListenExpiryFounds := by
  intro s hs hst htimer hoff hp
  obtain ⟨hheld, -, hgaps, -, -⟩ := hoff.1 (by simp [StationBlock.onLine, hst])
  obtain ⟨hcount, hsettled, hknown, hheld', hgaps', -, -, hline, hstn, -, hbase⟩ := State.found_spec hheld hgaps
  obtain ⟨hmembers, hsend, hport⟩ := State.found_horizon hheld hgaps
  have hexec : exec .listenTimerExpiry s = .next s.found.settleAttn := by
    unfold exec execListenTimerExpiry
    rw [event_live hs.1, if_pos ⟨hst, htimer⟩]
  refine ⟨_, hexec, AttnFollows_settleAttn _, hcount, hsettled, hknown, hheld', hgaps', hbase hp, hstn, ?line, ?_, ?_, ?outbound,
    ?_, hmembers, hsend, ?port⟩
  case line => exact hline.trans (LineBlock.standBack_eq_yielded _)
  case port => exact hport.trans (by rw [hst])
  case outbound => exact (congrArg SendBlock.outbound hsend).trans (by unfold State.releasedAtHorizon; split <;> simp)
  all_goals simp

/-! ### The join timer -/

/-- What a join failure discards lies on the free lists, and the delivery queue is left alone (R110, R141). -/
theorem State.joinFailure_storage {s : State} (hp : PendingBaseSound s) :
    s.joinFailure.rx = { s.rx with holdSet := [], known := 0 }
      ∧ s.joinFailure.pool = { s.pool with
          freeCells := s.pool.freeCells ++ s.storedNotices.flatMap (·.chain)
          freeDescs := s.pool.freeDescs ++ s.storedNotices.map (·.desc) } := by
  have hkeep : (s.postReport (.joinUnanswered s.stn.joinBeacons)).discardReceive.handOn
      = (s.postReport (.joinUnanswered s.stn.joinBeacons)).discardReceive := by
    refine State.discardReceive_handOn fun h => ?_
    simp only [State.postReport_frame] at h ⊢
    exact hp h
  unfold State.joinFailure
  rw [hkeep]
  simp [State.discardReceive_eq, State.storedNotices]

/-- Settles O47: the expiry is held for the frame or window on the line, and else the station is back in LISTEN. -/
theorem joinExpiryFails : Obligations.JoinExpiryFails := by
  intro s hs hst htimer
  refine ⟨fun hbusy => ?held, fun hown hwindow hp hprov => ?fails⟩
  case held =>
    have hsome : (s.line.ownFrame.isSome || s.line.window.isSome) = true := by
      simpa only [Bool.or_eq_true, Option.isSome_iff_ne_none] using hbusy
    unfold exec execJoinTimerExpiry
    refine event_settled hs ?_ hs.2
    rw [if_pos ⟨hst, htimer⟩, if_pos hsome]
  case fails =>
    have hexec : exec .joinTimerExpiry s = .next s.joinFailure.settleAttn := by
      unfold exec execJoinTimerExpiry
      rw [event_live hs.1, if_pos ⟨hst, htimer⟩, hown, hwindow]
      rfl
    obtain ⟨hstn, -, -, hgaps, -, hcommit, hport⟩ := s.joinFailure_spec
    obtain ⟨hrx, hpool⟩ := State.joinFailure_storage hp
    refine ⟨_, hexec, AttnFollows_settleAttn _, hstn, hport.trans (by rw [hst]), hrx, hgaps, hpool.trans ?pool, ?_, ?_, ?_,
      hcommit.trans (by rw [← hprov]), ?_⟩
    case pool => simp [State.storedNotices, hprov]
    all_goals simp

/-! ### The beacon timer and the presence timers -/

/-- Settles O48: the beacon due, and the removal of the silent member with the release after it. -/
theorem beaconAndPresenceExpiry : Obligations.BeaconAndPresenceExpiry := by
  intro s hs
  refine ⟨fun hst htimer => ?beacon, fun n before m after hmembers hm hne => ?silent, fun n hne => ?absent⟩
  case beacon =>
    unfold exec execBeaconTimerExpiry
    exact event_settled hs (if_pos ⟨(StationBlock.joinedOrActive_iff _).mpr hst, htimer⟩) hs.2
  case silent =>
    have hfound : s.member n = some m := State.member_eq_some hmembers hm fun e he => hne e (List.mem_append_left _ he)
    have hrest : (s.removeMember n).members = before ++ after := filter_station hmembers hm hne
    have hexec : exec (.presenceTimerExpiry n) s
        = .next (((s.removeMember n).postReport (.memberLost n .silent)).evaluateRelease).settleAttn := by
      unfold exec
      refine (event_live hs.1).trans ?_
      rw [hfound]
    refine ⟨_, hexec, AttnFollows_settleAttn _, ?members, ?send, ?port, ?_, ?_, ?_, ?_, ?_, ?_, ?_⟩
    case members => simpa using hrest
    case send => exact State.evaluateRelease_send_congr (by simp) (by simpa using hrest) (by simp) (by simp [State.cfg])
    case port => simpa using State.postReport_port_congr (by simp) _
    all_goals simp
  case absent =>
    unfold exec execPresenceTimerExpiry
    exact event_still hs (by rw [State.member_eq_none hne])

end Sys2Proof.Machine
end

