-- ==== Sys2Proof/Proofs/ReleaseOrder.lean ====
section
/-!
PROOF. Release, in order from the release point (R78 to R82).
-/

namespace Sys2Proof.Machine

/-- The serial minimum of a set is one of it. -/
theorem serialMin_mem (a : LineNo) (l : List LineNo) : serialMin a l ∈ a :: l := by
  induction l generalizing a with
  | nil => simp [serialMin]
  | cons b l ih =>
    have h := ih (if follows b a then b else a)
    rw [serialMin]
    rcases List.mem_cons.mp h with h | h
    · rw [h]; split <;> simp
    · simp [h]

/-- A notice is due when there is no member, and otherwise by the members' settled points (R78). -/
theorem State.releaseDue_of_alone {s : State} (h : s.members = []) (n : SendNotice) : s.releaseDue n = true := by
  simp [State.releaseDue, State.memberMinimum, h]

theorem State.releaseDue_iff {s : State} {m : Member} {ms : List Member} (h : s.members = m :: ms) (n : SendNotice) :
    s.releaseDue n = true ↔ atOrBefore n.lineNo (serialMin m.settled (ms.map (·.settled))) = true
      ∧ ∀ x ∈ m :: ms, unordered n.lineNo x.settled = false := by
  simp [State.releaseDue, State.memberMinimum, h]

/-- A due notice is at or before some member's settled point. -/
theorem State.settled_of_releaseDue {s : State} {n : SendNotice} (h : s.releaseDue n = true) :
    s.members = [] ∨ ∃ m ∈ s.members, atOrBefore n.lineNo m.settled = true := by
  cases hm : s.members with
  | nil => exact Or.inl rfl
  | cons m ms =>
    have hleast := ((State.releaseDue_iff hm n).mp h).1
    have hmem : serialMin m.settled (ms.map (·.settled)) ∈ (m :: ms).map (·.settled) := serialMin_mem _ _
    obtain ⟨x, hx, hxs⟩ := List.mem_map.mp hmem
    exact Or.inr ⟨x, hx, by rw [hxs]; exact hleast⟩

/-- What an evaluation of release takes out is the run that it may release. -/
theorem State.gone_eq_takeWhile (s : State) :
    s.send.retained.take (s.send.retained.length - s.keptByRelease.length) = s.send.retained.takeWhile s.released? := by
  have hsplit : s.send.retained.takeWhile s.released? ++ s.keptByRelease = s.send.retained := List.takeWhile_append_dropWhile
  have hlen := congrArg List.length hsplit
  rw [List.length_append] at hlen
  calc s.send.retained.take (s.send.retained.length - s.keptByRelease.length)
      = (s.send.retained.takeWhile s.released? ++ s.keptByRelease).take (s.send.retained.takeWhile s.released?).length := by
        rw [hsplit]; congr 1; omega
    _ = s.send.retained.takeWhile s.released? := List.take_left

/-- The replay on the line is the own frame's. -/
theorem State.replayOnLine_iff (s : State) (n : SendNotice) :
    s.replayOnLine n = true ↔ ∃ f, s.line.ownFrame = some f ∧ f.candidate = .replay n.tag := by
  unfold State.replayOnLine
  split
  · rename_i f hf; simp [hf]
  · rename_i hf; simp [hf]

/-- The first notice kept is not due, or its REPLAY is on the line. -/
theorem State.head_of_keptByRelease {s : State} {n : SendNotice} {more : List SendNotice} (h : s.keptByRelease = n :: more) :
    s.releaseDue n = false ∨ ∃ f, s.line.ownFrame = some f ∧ f.candidate = .replay n.tag := by
  have hnot : (s.releaseDue n && !s.replayOnLine n) = false := by
    have := List.head?_dropWhile_not (fun n => s.releaseDue n && !s.replayOnLine n) s.send.retained
    have hk : List.dropWhile (fun n => s.releaseDue n && !s.replayOnLine n) s.send.retained = n :: more := h
    rw [hk] at this
    simpa using this
  rw [← State.replayOnLine_iff]
  cases hd : s.releaseDue n with
  | false => exact Or.inl rfl
  | true => exact Or.inr (by simpa [hd] using hnot)

/-- With no member and nothing on the line, release takes everything. -/
theorem State.keptByRelease_of_alone {s : State} (hm : s.members = []) (ho : s.line.ownFrame = none) :
    s.keptByRelease = [] := by
  refine List.dropWhile_eq_nil_iff.mpr fun n _ => ?_
  simp [State.releaseDue_of_alone hm, State.replayOnLine, ho]

/-- Settles O50: the released run and what stands after it (`State.evaluateRelease_eq`), and why each notice goes or stays. -/
theorem releaseInOrder : Obligations.ReleaseInOrder := by
  intro s t kept gone
  have hgone : gone = s.send.retained.takeWhile s.released? := s.gone_eq_takeWhile
  have hdue : ∀ n ∈ gone, s.releaseDue n = true := fun n hn => by
    have hrel : s.released? n = true := List.mem_takeWhile_imp (hgone ▸ hn)
    exact (Bool.and_eq_true_iff.mp hrel).1
  refine ⟨?split, ?block, fun n hn => State.settled_of_releaseDue (hdue n hn),
    fun m ms hm => ⟨fun n hn => ?goes, fun n more hk => ?stays⟩, State.keptByRelease_of_alone, fun m hm n hn => ?one⟩
  case split => rw [hgone]; exact List.takeWhile_append_dropWhile.symm
  case block =>
    have hroom : t.freeSendCells = s.freeWith kept := by
      simp only [t, State.evaluateRelease_eq]; rfl
    rw [hroom, hgone]
    exact s.evaluateRelease_eq
  case goes => exact (State.releaseDue_iff hm n).mp (hdue n hn)
  case stays =>
    rcases State.head_of_keptByRelease hk with hnot | hreplay
    · have hiff := State.releaseDue_iff hm n
      rw [hnot, Bool.false_eq_true, false_iff, not_and_or] at hiff
      rcases hiff with h | h
      · exact Or.inl (by simpa using h)
      · exact Or.inr (Or.inl (by simpa only [not_forall, Bool.not_eq_false, exists_prop] using h))
    · exact Or.inr (Or.inr hreplay)
  case one => exact ((State.releaseDue_iff hm n).mp (hdue n hn)).1

end Sys2Proof.Machine
end

