-- ==== Sys2Proof/Proofs/RepairTimer.lean ====
section
/-!
PROOF. The expiry of a repair timer (R102, R103, R121, R122).
-/

namespace Sys2Proof.Machine

/-- The station with another gap table. -/
abbrev State.withGaps (s : State) (gaps : List GapEntry) : State := { s with gaps := gaps }

/-- A position lies in a LOST entry. -/
theorem State.lostAt_iff (s : State) (n : LineNo) :
    s.lostAt n = true ↔ ∃ g ∈ s.gaps, g.state = .lost ∧ g.covers n = true := by
  simp [State.lostAt]

section
variable {s : State} {before after : List GapEntry} {e : GapEntry}

/-- No two entries of the table begin at one number. -/
theorem OrderSound.first_ne (ho : OrderSound s) (hg : s.gaps = before ++ e :: after) :
    ∀ g ∈ before, g.first ≠ e.first := by
  obtain ⟨-, -, -, -, hwithin, hrise, -, -⟩ := ho
  intro g hgm heq
  have hlt : s.ahead g.last < s.ahead e.first :=
    ((List.pairwise_append.mp (hg ▸ hrise)).2.2 g hgm e (List.mem_cons_self ..)).1
  have hle := (hwithin g (by rw [hg]; simp [hgm])).2.1
  rw [heq] at hle
  omega

/-- No two entries of the table bear one id. -/
theorem OrderSound.id_ne (ho : OrderSound s) (hg : s.gaps = before ++ e :: after) :
    (∀ g ∈ before, g.id ≠ e.id) ∧ ∀ g ∈ after, g.id ≠ e.id := by
  obtain ⟨-, -, -, -, -, hrise, -, -⟩ := ho
  obtain ⟨-, hafter, hbefore⟩ := List.pairwise_append.mp (hg ▸ hrise)
  exact ⟨fun g hgm => Nat.ne_of_lt (hbefore g hgm e (List.mem_cons_self ..)).2,
    fun g hgm => Nat.ne_of_gt ((List.pairwise_cons.mp hafter).1 g hgm).2⟩

/-- The WAITING entry is found by its first number. -/
theorem OrderSound.find_waiting (ho : OrderSound s) (hg : s.gaps = before ++ e :: after) (hw : e.state = .waiting) :
    (s.gaps.find? fun g => g.first == e.first && g.state == .waiting) = some e := by
  rw [hg, List.find?_append, List.find?_eq_none.mpr fun g hgm => by simp [ho.first_ne hg g hgm]]
  rw [List.find?_cons_of_pos (by simp [hw])]
  rfl

/-- A change of one entry, found by its id, leaves the others. -/
theorem OrderSound.updateGap_eq (ho : OrderSound s) (hg : s.gaps = before ++ e :: after) (f : GapEntry → GapEntry) :
    s.updateGap e.id f = s.withGaps (before ++ f e :: after) := by
  obtain ⟨hbefore, hafter⟩ := ho.id_ne hg
  have hid : ∀ l : List GapEntry, (∀ g ∈ l, g.id ≠ e.id) → (l.map fun g => if g.id == e.id then f g else g) = l := fun l hl => by
    conv_rhs => rw [← List.map_id l]
    exact List.map_congr_left fun g hgm => by simp [hl g hgm]
  have hmap : (s.gaps.map fun g => if g.id == e.id then f g else g) = before ++ f e :: after := by
    rw [hg, List.map_append, List.map_cons, hid before hbefore, hid after hafter]
    simp
  exact congrArg s.withGaps hmap

/-- The entry after its expiry, by the attempts it has had. -/
theorem GapEntry.expired_of_lt {limit : Nat} (h : e.attempts < limit) :
    e.expired limit = { e with state := .requested, timer := .stopped } := by
  rw [GapEntry.expired, if_pos h]

theorem GapEntry.expired_of_le {limit : Nat} (h : limit ≤ e.attempts) :
    e.expired limit = { e with state := .lost, timer := .stopped } := by
  rw [GapEntry.expired, if_neg (by omega)]

/-- The expiry of a WAITING entry's timer. -/
theorem exec_repairTimerExpiry (hs : Live s) (ho : OrderSound s) (hg : s.gaps = before ++ e :: after)
    (hw : e.state = .waiting) : exec (.repairTimerExpiry e.first) s = .next (State.settleAttn
      (let t := s.withGaps (before ++ e.expired s.cfg.repairLimit :: after)
       if e.attempts < s.cfg.repairLimit then t else t.advance)) := by
  unfold exec
  refine (event_live hs.1).trans ?_
  rw [ho.find_waiting hg hw]
  exact congrArg (fun t => Host.Outcome.next (State.settleAttn (if e.attempts < s.cfg.repairLimit then t else t.advance)))
    (ho.updateGap_eq hg _)

/-- An entry covers the position after the settled point only when it begins there. -/
theorem OrderSound.covers_next (ho : OrderSound s) (he : e ∈ s.gaps) (hc : e.covers (s.rx.settled + 1) = true) :
    e.first = s.rx.settled + 1 := by
  obtain ⟨-, -, -, -, hwithin, -⟩ := ho
  obtain ⟨hfirst, hle, -⟩ := hwithin e he
  have hbound := ((GapEntry.covers_iff hle _).mp hc).1
  rw [ahead_next] at hbound
  exact ahead_inj (s := s) (by rw [ahead_next]; omega)

/-- Where the advance rests, it rests with one more entry LOST that it cannot deliver (R68, R101, R102). -/
theorem AdvanceRests.declareLost (hr : AdvanceRests s) (ho : OrderSound s) (hg : s.gaps = before ++ e :: after)
    {l : GapEntry} (hcov : ∀ n, l.covers n = e.covers n)
    (hno : e.first ≠ s.rx.settled + 1 ∨ s.pool.freeDescs = [] ∨ s.pool.pendingBase ≠ none) :
    AdvanceRests (s.withGaps (before ++ l :: after)) := by
  rcases hr with hbase | ⟨hheld, hknown, hrest⟩
  · exact Or.inl hbase
  rcases hno with hfirst | hdesc | hbase
  · refine Or.inr ⟨hheld, hknown, hrest.imp_left fun hlost => ?_⟩
    refine Bool.eq_false_iff.mpr fun hnow => ?_
    obtain ⟨g, hmem, hst, hc⟩ := (State.lostAt_iff _ _).mp hnow
    rcases List.mem_append.mp hmem with h | h
    · exact Bool.eq_false_iff.mp hlost ((s.lostAt_iff _).mpr ⟨g, by rw [hg]; simp [h], hst, hc⟩)
    rcases List.mem_cons.mp h with rfl | h
    · exact hfirst (ho.covers_next (by rw [hg]; simp) (by rw [← hcov]; exact hc))
    · exact Bool.eq_false_iff.mp hlost ((s.lostAt_iff _).mpr ⟨g, by rw [hg]; simp [h], hst, hc⟩)
  · exact Or.inr ⟨hheld, hknown, Or.inr hdesc⟩
  · exact Or.inl hbase

/-- An entry in another state keeps the table in order. -/
theorem OrderSound.changeState (ho : OrderSound s) (hg : s.gaps = before ++ e :: after) {st : GapState} {tm : Timer} :
    OrderSound (s.withGaps (before ++ { e with state := st, timer := tm } :: after)) := by
  have hkept := Proceeds_updateGap s e.id (f := fun g => { g with state := st, timer := tm }) (fun _ => ⟨rfl, rfl, rfl⟩) ho
  rw [ho.updateGap_eq hg] at hkept
  exact hkept.1.1

end

/-- Settles O49: the entry is found, becomes REQUESTED or LOST, and the advance runs on the LOST one. -/
theorem repairExpiry : Obligations.RepairExpiry := by
  intro s before after e hs ho hg hw lost
  have hexec := exec_repairTimerExpiry hs ho hg hw
  refine ⟨fun hlt => ?requested, fun hle hrest hno => ?stays, fun d ds hle hfirst hnone hdesc => ?delivered⟩
  case requested =>
    rw [hexec, if_pos hlt, GapEntry.expired_of_lt hlt]
    exact congrArg _ (State.settleAttn_eq_self hs.2)
  case stays =>
    have hrests : AdvanceRests (s.withGaps (before ++ lost :: after)) := hrest.declareLost ho hg (fun _ => rfl) hno
    rw [hexec, if_neg (by omega), GapEntry.expired_of_le hle]
    exact congrArg _ ((congrArg State.settleAttn (State.advance_of_rests hrests)).trans (State.settleAttn_eq_self hs.2))
  case delivered =>
    let u := s.withGaps (before ++ lost :: after)
    have hu : OrderSound u := ho.changeState hg
    have hnext : exec (.repairTimerExpiry e.first) s = .next u.advance.settleAttn := by
      rw [hexec, if_neg (by omega), GapEntry.expired_of_le hle]
    obtain ⟨hbase, hheld, hunknown, -⟩ := hnone
    have hcover : lost.covers (s.rx.settled + 1) = true := by
      rw [← hfirst]; simp [lost, GapEntry.covers]
    have hlost : u.lostAt (u.rx.settled + 1) = true := (u.lostAt_iff _).mpr ⟨lost, by simp [u], rfl, hcover⟩
    obtain ⟨last, more, hqueue, hrun, hreach, -⟩ := State.advance_of_lost (s := u) hu hbase hheld hunknown hlost hdesc
    have hin : (fun n => u.lostAt n = true)
        = fun n => ∃ g ∈ before ++ lost :: after, g.state = .lost ∧ g.covers n = true :=
      funext fun n => propext (u.lostAt_iff n)
    refine ⟨_, last, more, hnext, AttnFollows_settleAttn _, by rw [hfirst]; exact hqueue, ?_, hin ▸ hrun, hreach,
      u.advance_backlog, State.advance_gaps hu, ?_, ?_, ?_, ?_, ?_, ?_, ?_, ?_⟩
    all_goals simp [u]

end Sys2Proof.Machine
end

