-- ==== Sys2Proof/Proofs/LineAccess.lean ====
section
/-!
PROOF. The idle moment, activity, a check failure, and the slots in which a station starts nothing (R18, R20 to R26, R34, R35).
-/

namespace Sys2Proof.Machine

/-! ### The access position -/

/-- A displaced or yielding station stands back (R26). -/
theorem LineBlock.accessPosition_back {l : LineBlock} (h : l.displaced = true ∨ l.yield = true) :
    l.accessPosition.toNat = 32 + l.id.toNat := by
  have hid : l.id.toNat < 32 := l.id.isLt
  have hback : (l.displaced || l.yield) = true := by simpa using h
  rw [LineBlock.accessPosition, if_pos hback, BitVec.toNat_add, BitVec.toNat_setWidth]
  change (32 + l.id.toNat % 64) % 64 = _
  omega

/-- Any other station counts from the rotation base (R26). -/
theorem LineBlock.accessPosition_rotating {l : LineBlock} (h1 : l.displaced = false) (h2 : l.yield = false) :
    l.accessPosition.toNat = (l.id.toNat + 32 - l.rotationBase.toNat) % 32 := by
  have hid : l.id.toNat < 32 := l.id.isLt
  have hbase : l.rotationBase.toNat < 32 := l.rotationBase.isLt
  rw [LineBlock.accessPosition, if_neg (by simp [h1, h2]), BitVec.toNat_setWidth]
  change (l.id - l.rotationBase).toNat % 64 = _
  rw [BitVec.toNat_sub]
  omega

/-! ### The idle moment and activity -/

/-- A station sends nothing whose frame, where there is one, was sent. -/
theorem State.sending_eq_false {s : State} (h : ∀ f, s.line.ownFrame = some f → f.sent = true) : s.sending = false := by
  unfold State.sending
  cases hf : s.line.ownFrame with
  | none => rfl
  | some f => simp [h f hf]

/-- The idle moment at a station that hears the line and sends nothing (R23). -/
theorem exec_lineIdle_of_hears {s : State} (hs : Live s) (hh : s.stn.hearsLine = true) (hq : s.sending = false) :
    exec .lineIdle s = .next { s with line := { s.line with timing := .idle s.line.accessPosition, ready := true } } := by
  unfold exec execLineIdle
  exact event_settled hs (if_pos (by rw [hh, hq]; rfl)) hs.2

/-- Activity that ends the idle state (R17, R18, R23). -/
theorem exec_lineActivity_of_idle {s : State} {p : Slot} (hs : Live s) (hh : s.stn.hearsLine = true) (start : Bool)
    (ht : s.line.timing = .idle p ∨ s.line.timing = .awaitsIdle) :
    exec (.lineActivity start) s
      = .next { s with line := { s.line with timing := .busy, ready := s.line.ready && start } } := by
  unfold exec
  refine event_settled hs ?_ hs.2
  rw [if_pos hh]
  rcases ht with h | h <;> rw [h]

/-- Activity on a busy line (R17, R18). -/
theorem exec_lineActivity_of_busy {s : State} (hs : Live s) (ht : s.line.timing = .busy) (start : Bool) :
    exec (.lineActivity start) s = .next s := by
  unfold exec
  refine event_still hs ?_
  rw [ht]
  exact ite_self s

/-- Settles O22: each event by what it finds, and the access position by its two cases. -/
theorem accessPositionAndDisplacement : Obligations.AccessPositionAndDisplacement := by
  intro s hs
  refine ⟨fun hh hsent => ⟨s.line.accessPosition, exec_lineIdle_of_hears hs hh (State.sending_eq_false hsent),
      LineBlock.accessPosition_rotating, LineBlock.accessPosition_back,
      fun start => exec_lineActivity_of_idle (p := s.line.accessPosition)
        (s := { s with line := { s.line with timing := .idle s.line.accessPosition, ready := true } }) hs hh start
        (Or.inl rfl)⟩,
    fun ht start => exec_lineActivity_of_busy hs ht start, fun chars hbad => ⟨fun hrec => ?fails, fun hst => ?deaf⟩⟩
  case fails =>
    refine ⟨_, ?_, rfl, LineBlock.accessPosition_back (Or.inl rfl)⟩
    unfold exec execCheckFailure
    exact event_settled hs (if_pos (by rw [hrec, hbad]; rfl)) hs.2
  case deaf =>
    have hdeaf : s.receiving = false := by rcases hst with h | h <;> simp [State.receiving, StationBlock.hearsLine, h]
    unfold exec execCheckFailure
    exact event_still hs (if_neg (by simp [hdeaf]))

/-! ### What the selector offers -/

/-- The orders that JOINING and ACTIVE share offer nothing (R34). -/
theorem State.repairCandidate_eq_none {s : State} (hc : s.send.catchUp = none) (hg : ∀ e ∈ s.gaps, e.state ≠ .requested)
    (hm : ∀ n ∈ s.send.retained, n.marked = true → atOrBefore n.lineNo s.rx.count = false) :
    s.repairCandidate = none := by
  have hgap : s.requestedGap = none := List.find?_eq_none.mpr fun e he => by simpa using hg e he
  have hreplay : s.replayCandidate = none := List.find?_eq_none.mpr fun n hn => by simpa using hm n hn
  simp [State.repairCandidate, hc, hgap, hreplay]

/-- The outbound head is not presented when count + 1 does not follow the newest retained number (R76). -/
theorem State.headPresented_eq_false {s : State} {n : SendNotice} (h : s.send.retained.getLast? = some n)
    (hf : follows n.lineNo (s.rx.count + 1) = false) : s.headPresented = false := by
  rw [State.headPresented, h]
  exact hf

/-- Why an ACTIVE station may not start its outbound head (R34, R46, R76). -/
def State.HeadWaits (s : State) : Prop :=
  s.send.outbound = [] ∨ s.commit.catchingUp = true
    ∨ (∃ n, s.send.retained.getLast? = some n ∧ follows n.lineNo (s.rx.count + 1) = false)
    ∨ ∃ n, s.send.outbound.head? = some n ∧ s.cfg.topics.getLsbD n.topic.toNat = true
      ∧ (s.pool.freeCells.length < cellsFor n.length + 4 ∨ s.pool.freeDescs.length < 2)

theorem State.noticeCandidate_eq_none {s : State} (h : s.HeadWaits) : s.noticeCandidate = none := by
  unfold State.noticeCandidate
  cases ho : s.send.outbound with
  | nil => rfl
  | cons head rest =>
    refine if_neg ?_
    rcases h with h | h | ⟨n, hn, hf⟩ | ⟨n, hn, htopic, hroom⟩
    · simp [ho] at h
    · simp [h]
    · simp [State.headPresented_eq_false hn hf]
    · have hhead : head = n := by simpa [ho] using hn
      subst hhead
      have hno : s.roomRule (cellsFor head.length) = false := by
        refine Bool.eq_false_iff.mpr fun hr => ?_
        have := (s.roomRule_iff _).mp hr
        omega
      have hsub : s.subscribed head.topic = true := htopic
      simp [hno, hsub]

/-- Past the shared orders and the outbound head, a JOINING or ACTIVE station offers a due beacon, or nothing. -/
theorem State.candidate_of_quiet {s : State} (hst : s.stn.state = .joining ∨ s.stn.state = .active)
    (hr : s.repairCandidate = none) (hw : s.stn.state = .active → s.HeadWaits) :
    s.candidate = if s.stn.beaconDue then some .dueBeacon else none := by
  rcases hst with h | h
  · simp [State.candidate, h, hr]
  · simp [State.candidate, h, hr, State.noticeCandidate_eq_none (hw h)]

/-! ### A slot in which nothing starts -/

/-- A slot that is not the station's own, or not free. -/
theorem exec_slotBegins_elsewhere {s : State} (hs : Live s) {p : Slot} (dominant : Bool)
    (h : ¬(s.line.timing = .idle p ∧ s.line.ownFrame = none ∧ s.line.window = none)) :
    exec (.slotBegins p dominant) s = .next s := by
  unfold exec execSlotBegins
  exact event_still hs (if_neg h)

/-- The station's own slot on a line that is dominant (R24). -/
theorem exec_slotBegins_dominant {s : State} {p : Slot} (h : AtSlot s p) :
    exec (.slotBegins p true) s = .next { s with line := { s.line with timing := .awaitsIdle } } := by
  obtain ⟨hs, hslot⟩ := h
  unfold exec execSlotBegins
  refine event_settled hs ?_ hs.2
  rw [if_pos hslot, if_pos rfl, State.waitForIdle_of_idle hslot.1]

/-- The station's own slot with nothing eligible (R35). -/
theorem exec_slotBegins_of_none {s : State} {p : Slot} (h : AtSlot s p) (hc : s.candidate = none) :
    exec (.slotBegins p false) s = .next s := by
  obtain ⟨hs, hslot⟩ := h
  unfold exec
  refine event_still hs ?_
  rw [if_pos hslot, if_neg Bool.false_ne_true, hc]

/-- Settles O23: the slots that are not the station's own, dominant, or without a candidate. -/
theorem slotWaits : Obligations.SlotWaits := by
  intro s p dominant hs
  refine ⟨fun helse => exec_slotBegins_elsewhere hs dominant fun ⟨h1, h2, h3⟩ => ?elsewhere,
    fun hat => ⟨exec_slotBegins_dominant hat, fun hh start => exec_lineActivity_of_idle (p := p)
      (s := { s with line := { s.line with timing := .awaitsIdle } }) hs hh start (Or.inr rfl)⟩,
    fun hat hquiet => exec_slotBegins_of_none hat ?nothing⟩
  case elsewhere =>
    rcases helse with h | h | h
    · exact h h1
    · exact h h2
    · exact h h3
  case nothing =>
    rcases hquiet with hst | ⟨hst, hc, hg, hm, hdue, hw⟩
    · simp [State.candidate, hst]
    · rw [State.candidate_of_quiet hst (State.repairCandidate_eq_none hc hg hm) hw, hdue]
      rfl

end Sys2Proof.Machine
end

