-- ==== Sys2Proof/Proofs/SlotStarts.lean ====
section
/-!
PROOF. The slots in which a station starts a frame (R34 to R36, R46, R86, R88, R123, R160).
-/

namespace Sys2Proof.Machine

/-! ### The start of a frame -/

/-- The header of every own frame (R8, R19), as the statements write it. -/
theorem State.ownHeader_eq (s : State) : s.ownHeader =
    { senderState := s.stn.state, sender := s.line.id, count := s.rx.count, settled := s.rx.settled } := rfl

/-- The first eligible candidate starts its frame in a slot that is free (R24, R35). -/
theorem exec_slotBegins_starts {s : State} {p : Slot} {c : Candidate} {f : Frame} (h : AtSlot s p)
    (hc : s.candidate = some c) (hf : s.frameFor c = some f) :
    exec (.slotBegins p false) s = .next (s.startFrame c f).settleAttn := by
  obtain ⟨hs, hslot⟩ := h
  unfold exec
  refine (event_live hs.1).trans ?_
  rw [if_pos hslot, if_neg Bool.false_ne_true, hc]
  simp only [hf]

/-- A frame for which nothing is reserved changes the line interface alone. -/
theorem exec_slotBegins_unreserved {s : State} {p : Slot} {c : Candidate} {f : Frame} (h : AtSlot s p)
    (hc : s.candidate = some c) (hf : s.frameFor c = some f) (hr : s.reserveOwnRoom c f = s) :
    exec (.slotBegins p false) s = .next { s with line := s.line.started c f } := by
  rw [exec_slotBegins_starts h hc hf, State.startFrame, hr]
  exact congrArg _ (State.settleAttn_eq_self h.1.2)

/-- The orders that JOINING and ACTIVE share come first (R34). -/
theorem State.candidate_of_repair {s : State} {c : Candidate} (hst : s.stn.state = .joining ∨ s.stn.state = .active)
    (hr : s.repairCandidate = some c) : s.candidate = some c := by
  rcases hst with h | h <;> simp [State.candidate, h, hr]

/-! ### Requests and replays -/

/-- An entry's missing positions rise from its first number on (R123). -/
theorem State.missing_rises {s : State} {e : GapEntry} (h1 : s.ahead e.first ≤ s.ahead e.last) :
    (s.missing e).Pairwise (fun a b => s.ahead a ≤ s.ahead b) := by
  have hlen : (e.last - e.first).toNat = s.ahead e.last - s.ahead e.first := sub_toNat_of_ahead_le h1
  have hlast := ahead_lt s e.last
  have hrise : e.positions.Pairwise (fun a b => s.ahead a ≤ s.ahead b) := by
    refine List.pairwise_map.mpr (List.pairwise_lt_range.imp_of_mem fun {i j} hi hj hij => ?_)
    rw [List.mem_range] at hi hj
    rw [ahead_add s e.first i (by omega), ahead_add s e.first j (by omega)]
    omega
  exact hrise.filter _

/-- The range of a gap's RESEND runs from its lowest to its highest missing position (R123). -/
theorem State.gapRange_spans {s : State} {e : GapEntry} (h1 : s.ahead e.first ≤ s.ahead e.last) (hne : s.missing e ≠ []) :
    ∃ lo hi, s.gapRange e = .closed lo hi ∧ lo ∈ s.missing e ∧ hi ∈ s.missing e
      ∧ ∀ n ∈ s.missing e, s.ahead lo ≤ s.ahead n ∧ s.ahead n ≤ s.ahead hi := by
  have hrise := State.missing_rises h1
  refine ⟨(s.missing e).head hne, (s.missing e).getLast hne, ?_, List.head_mem hne, List.getLast_mem hne, fun n hn =>
    ⟨hrise.rel_head_of_rel_head_head hn le_rfl, hrise.rel_getLast_of_rel_getLast_getLast hn le_rfl⟩⟩
  rw [State.gapRange, List.headD_eq_head?_getD, List.head?_eq_some_head hne, List.getLastD_eq_getLast?,
    List.getLast?_eq_some_getLast hne]
  rfl

/-- A gap entry is found by its id. -/
theorem OrderSound.find_id {s : State} {before after : List GapEntry} {e : GapEntry} (ho : OrderSound s)
    (hg : s.gaps = before ++ e :: after) : s.gaps.find? (·.id == e.id) = some e := by
  rw [hg, List.find?_append, List.find?_eq_none.mpr fun g hgm => by simp [(ho.id_ne hg).1 g hgm]]
  rw [List.find?_cons_of_pos (by simp)]
  rfl

/-- The first entry of a kind, where none before it is of the kind. -/
theorem find?_split {α : Type} {p : α → Bool} {l before after : List α} {x : α} (h : l = before ++ x :: after)
    (hx : p x = true) (hb : ∀ y ∈ before, p y = false) : l.find? p = some x := by
  rw [h, List.find?_append, List.find?_eq_none.mpr fun y hy => by simp [hb y hy], List.find?_cons_of_pos hx]
  rfl

/-- Settles O24: the first of the shared orders that is there, and the frame that its owner holds. -/
theorem slotStartsRepair : Obligations.SlotStartsRepair := by
  intro s p hat hst h
  refine ⟨fun first hcatch => ?catchUp, fun hcatch ho before e after hg hreq hno hmiss => ?gap,
    fun hcatch hno before n after hr hmark hcount hfree => ?replay⟩
  case catchUp =>
    refine exec_slotBegins_unreserved hat (State.candidate_of_repair hst ?_) ?_ rfl
    · simp [State.repairCandidate, hcatch]
    · simp [State.frameFor, hcatch, h, State.ownHeader_eq]
  case gap =>
    have hfound : s.requestedGap = some e :=
      find?_split hg (by simp [hreq]) fun g hgm => by simpa using hno g hgm
    obtain ⟨-, -, -, -, hwithin, -⟩ := id ho
    obtain ⟨lo, hi, hrange, hlo, hhi, hspan⟩ := State.gapRange_spans (hwithin e (by rw [hg]; simp)).2.1 hmiss
    refine ⟨lo, hi, exec_slotBegins_unreserved hat (State.candidate_of_repair hst ?_) ?_ rfl, hlo, hhi, hspan⟩
    · simp [State.repairCandidate, hcatch, hfound]
    · simp [State.frameFor, ho.find_id hg, hrange, h, State.ownHeader_eq]
  case replay =>
    have hgap : s.requestedGap = none := List.find?_eq_none.mpr fun e he => by simpa using hno e he
    have hfound : s.replayCandidate = some n := by
      refine find?_split hr (by simp [hmark, hcount]) fun m hm => ?_
      cases hmm : m.marked with
      | false => rfl
      | true => simpa [hmm] using (hfree m hm).2 hmm
    have htag : s.send.retained.find? (·.tag == n.tag) = some n :=
      find?_split hr (by simp) fun m hm => by simpa using (hfree m hm).1
    refine exec_slotBegins_unreserved hat (State.candidate_of_repair hst ?_) ?_ rfl
    · simp [State.repairCandidate, hcatch, hgap, hfound]
    · simp [State.frameFor, htag, h, State.ownHeader_eq]

/-! ### The outbound head -/

/-- The outbound head that may start (R34, R46, R76). -/
theorem State.noticeCandidate_eq_head {s : State} {n : SendNotice} {rest : List SendNotice} (ho : s.send.outbound = n :: rest)
    (hc : s.commit.catchingUp = false)
    (hp : ∀ m, s.send.retained.getLast? = some m → follows m.lineNo (s.rx.count + 1) = true)
    (hroom : s.subscribed n.topic = true → s.roomRule (cellsFor n.length) = true) : s.noticeCandidate = some n := by
  have hpresented : s.headPresented = true := by
    unfold State.headPresented
    cases hl : s.send.retained.getLast? with
    | none => rfl
    | some m => exact hp m hl
  have hfits : (!s.subscribed n.topic || s.roomRule (cellsFor n.length)) = true := by
    cases hsub : s.subscribed n.topic with
    | false => rfl
    | true => simp [hroom hsub]
  unfold State.noticeCandidate
  rw [ho]
  exact if_pos (by rw [hc, hpresented, hfits]; rfl)

/-- The frame of the outbound head. -/
theorem State.frameFor_head {s : State} {n : SendNotice} {rest : List SendNotice} (ho : s.send.outbound = n :: rest) :
    s.frameFor (.notice n.tag)
      = some (.notice s.ownHeader { number := s.rx.count + 1, topic := n.topic, payload := s.sendPayload n }) := by
  have hfind : s.send.outbound.find? (·.tag == n.tag) = some n := by
    rw [ho]; exact List.find?_cons_of_pos (by simp)
  rw [State.frameFor, hfind]
  rfl

/-- Settles O25: the head starts, and for a subscribed topic its own copy is stored (`State.storeNotice`). -/
theorem slotStartsNotice : Obligations.SlotStartsNotice := by
  intro s p n rest hat hst hcatch hg hm ho hc hp c frame
  have hquiet : s.repairCandidate = none := State.repairCandidate_eq_none hcatch hg hm
  have hcand : (s.subscribed n.topic = true → s.roomRule c = true) → s.candidate = some (.notice n.tag) := fun hroom => by
    simp [State.candidate, hst, hquiet, State.noticeCandidate_eq_head ho hc hp hroom]
  have hframe : s.frameFor (.notice n.tag) = some frame := by
    rw [State.frameFor_head ho, State.ownHeader_eq, hst]
  refine ⟨fun hsub => ?free, fun hsub hcells hdescs hnodup hwf => ?stored⟩
  case free =>
    have hunsub : s.subscribed n.topic = false := hsub
    exact exec_slotBegins_unreserved hat (hcand fun h => by rw [hunsub] at h; cases h) hframe
      (if_neg (by simp [hunsub]))
  case stored =>
    have hsubs : s.subscribed n.topic = true := hsub
    have hroom : s.roomRule c = true := (s.roomRule_iff c).mpr ⟨hcells, hdescs⟩
    have hlen : (s.sendPayload n).length = n.length := s.sendPayload_length n
    let stored := s.storeNotice (s.rx.count + 1) s.line.id n.topic (s.sendPayload n) true (some n.tag) false
    have hreserve : s.reserveOwnRoom (.notice n.tag) frame
        = { stored.2 with commit := { stored.2.commit with provisional := some stored.1 } } := if_pos hsubs
    have hexec : exec (.slotBegins p false) s = .next { s with
        line := s.line.started (.notice n.tag) frame
        commit := { s.commit with provisional := some stored.1 }
        pool := stored.2.pool } := by
      rw [exec_slotBegins_starts hat (hcand fun _ => hroom) hframe, State.startFrame, hreserve]
      exact congrArg _ (State.settleAttn_eq_self hat.1.2)
    have hfits : cellsFor (s.sendPayload n).length ≤ s.pool.freeCells.length := by rw [hlen]; omega
    refine ⟨_, stored.1, hexec, rfl, rfl, ?own, ?cells, rfl, rfl,
      State.rxPayload_storeNotice hwf hnodup (s.rx.count + 1) s.line.id n.topic _ true (some n.tag) false hfits,
      fun a ha => ?other, rfl, rfl, rfl, rfl, rfl, rfl, rfl, rfl⟩
    case own => simp only [stored, State.storeNotice, hlen, c]
    case cells => exact congrArg (s.pool.freeCells.drop <| cellsFor ·) hlen
    case other =>
      exact State.read_storeNotice_of_notMem hwf (s.rx.count + 1) s.line.id n.topic _ true (some n.tag) false
        (by rw [hlen]; exact ha)

/-! ### Beacons -/

/-- The bit of one station number. -/
theorem getLsbD_stationBit (n i : StationNo) : (1#32 <<< n.toNat).getLsbD i.toNat = decide (n = i) := by
  have hi : i.toNat < 32 := i.isLt
  have heq : n = i ↔ n.toNat = i.toNat := BitVec.toNat_inj.symm
  rw [BitVec.getLsbD_shiftLeft, BitVec.getLsbD_one, Bool.eq_iff_iff]
  simp only [heq, Bool.and_eq_true, Bool.not_eq_true', decide_eq_true_eq, decide_eq_false_iff_not]
  omega

/-- A view names the stations of the table (R160). -/
theorem State.view_names (s : State) (i : StationNo) : s.view.getLsbD i.toNat = true ↔ ∃ m ∈ s.members, m.station = i := by
  have hfold : ∀ (l : List Member) (v : Set32), (l.foldl (fun v m => v ||| (1#32 <<< m.station.toNat)) v).getLsbD i.toNat = true
      ↔ v.getLsbD i.toNat = true ∨ ∃ m ∈ l, m.station = i := by
    intro l
    induction l with
    | nil => simp
    | cons m l ih =>
      intro v
      rw [List.foldl_cons, ih, BitVec.getLsbD_or, getLsbD_stationBit]
      simp [or_assoc]
  simpa [State.view] using hfold s.members 0

/-- Settles O26: the due beacon is the only candidate, and its kind follows the state. -/
theorem slotStartsBeacon : Obligations.SlotStartsBeacon := by
  intro s p hat hcase
  obtain ⟨kind, hkind⟩ : ∃ kind, beaconKindFor s.stn.state = some kind ∧ s.candidate = some .dueBeacon := by
    rcases hcase with hst | ⟨hst, hdue, hcatch, hg, hm, hw⟩
    · exact ⟨.leave, by rw [hst]; rfl, by simp [State.candidate, hst]⟩
    · have hcand := State.candidate_of_quiet hst (State.repairCandidate_eq_none hcatch hg hm) hw
      rw [hdue, if_pos rfl] at hcand
      rcases hst with h | h
      · exact ⟨.join, by rw [h]; rfl, hcand⟩
      · exact ⟨.periodic, by rw [h]; rfl, hcand⟩
  obtain ⟨hof, hcand⟩ := hkind
  refine ⟨kind, s.view, exec_slotBegins_unreserved hat hcand (by simp [State.frameFor, hof, State.ownHeader_eq]) rfl,
    fun h => ?_, fun h => ?_, fun h => ?_, s.view_names⟩
  all_goals rw [h] at hof; exact (Option.some.inj hof).symm

end Sys2Proof.Machine
end

