-- ==== Sys2Proof/Proofs/FrameEnds.lean ====
section
/-!
PROOF. The end of an own frame, sent or in collision (R25 to R30, R35, R36, R47, R81, R87, R88, R124, R142, R145).
-/

namespace Sys2Proof.Machine

/-! ### What a sent frame does -/

/-- ATTN# follows its causes where the same causes stand. -/
theorem AttnFollows.of_same {s t : State} (h : AttnFollows s) (hp : t.pins = s.pins) (hc : t.stn.config = s.stn.config)
    (hr : t.rx = s.rx) (hroom : t.send.room = s.send.room) (hq : t.port = s.port) : AttnFollows t := by
  rw [AttnFollows, State.attentionWanted_congr hc (by rw [hr]) (by rw [hr]) hroom (by rw [hq]), hp]
  exact h

/-- The restart of the beacon timer touches nothing else of the station (R142). -/
theorem State.beaconRestarted_eq (s : State) :
    s.beaconRestarted = { s.stn with beaconTimer := s.beaconRestarted.beaconTimer } := by
  unfold State.beaconRestarted
  split <;> rfl

@[simp] theorem State.beaconRestarted_kept (s : State) : s.beaconRestarted.state = s.stn.state
    ∧ s.beaconRestarted.config = s.stn.config ∧ s.beaconRestarted.word = s.stn.word
    ∧ s.beaconRestarted.leaveHeld = s.stn.leaveHeld ∧ s.beaconRestarted.joinExpiryHeld = s.stn.joinExpiryHeld
    ∧ s.beaconRestarted.joinBeacons = s.stn.joinBeacons := by
  rw [s.beaconRestarted_eq]
  and_intros <;> rfl

/-- What every sent frame does (R25 to R27, R29, R142). -/
theorem State.noteSent_eq (s : State) : s.noteSent = { s with line := s.line.afterSent, stn := s.beaconRestarted } := by
  have hstn : s.stn.restartBeaconTimer s.cfg.beaconInterval = s.beaconRestarted := by
    unfold StationBlock.restartBeaconTimer State.beaconRestarted
    by_cases h : s.stn.joinedOrActive = true
    · rw [if_pos h, if_pos ((StationBlock.joinedOrActive_iff _).mp h)]
    · rw [if_neg h, if_neg (mt (StationBlock.joinedOrActive_iff _).mpr h)]
  rw [← hstn]
  rfl

section
variable {s t : State} {f : OwnFrame}

/-- The event of a frame that is being sent. -/
theorem exec_frameSent (hs : Live s) (hf : s.line.ownFrame = some f) (hu : f.sent = false) :
    exec .frameSent s = .next (s.noteSent.tellOwner f).takeHeldUnlessWindow.settleAttn := by
  unfold exec
  refine (event_live hs.1).trans ?_
  rw [hf]
  exact congrArg (fun t => Host.Outcome.next (State.settleAttn t)) (if_neg (by simp [hu]))

/-- Nothing is taken where nothing was held. -/
theorem State.takeHeldUnlessWindow_of_nothing (h : NothingHeld s) : s.takeHeldUnlessWindow = s := by
  rw [State.takeHeldUnlessWindow, State.takeHeld_of_nothing h, ite_self]

/-- A sent frame whose owner posts nothing, at a station where nothing is held. -/
theorem exec_frameSent_quiet (hs : Live s) (hf : s.line.ownFrame = some f) (hu : f.sent = false) (hn : NothingHeld s)
    (ht : s.noteSent.tellOwner f = t) (hl : t.stn.leaveHeld = s.stn.leaveHeld)
    (hj : t.stn.joinExpiryHeld = s.stn.joinExpiryHeld) (hc : t.stn.config = s.stn.config) (hpins : t.pins = s.pins)
    (hrx : t.rx = s.rx) (hroom : t.send.room = s.send.room) (hport : t.port = s.port) :
    exec .frameSent s = .next t := by
  have hnone : NothingHeld t := by rw [NothingHeld, hl, hj]; exact hn
  rw [exec_frameSent hs hf hu, ht, State.takeHeldUnlessWindow_of_nothing hnone,
    State.settleAttn_eq_self (hs.2.of_same hpins hc hrx hroom hport)]

/-! ### Requests and replays -/

/-- The owner's part for a gap's RESEND (R124). -/
theorem State.tellOwner_gap {id : Nat} (hc : f.candidate = .gap id) : s.tellOwner f = { s with
    gaps := s.gaps.map fun e =>
      if e.id = id then
        { e with attempts := e.attempts + 1, state := .waiting, timer := .running s.cfg.repairInterval }
      else e
    counters := { s.counters with resendsSent := s.counters.resendsSent + 1 } } := by
  simp [State.tellOwner, hc, State.updateGap, State.countResend]

/-- The owner's part for the catch-up RESEND (R88). -/
theorem State.tellOwner_catchUp (hc : f.candidate = .catchUp) : s.tellOwner f = { s with
    send := { s.send with catchUp := none }
    counters := { s.counters with resendsSent := s.counters.resendsSent + 1 } } := by
  simp [State.tellOwner, hc, State.countResend]

/-- The retained notices once the mark of one tag is cleared (R87). -/
def unmarked (tag : Tag) (l : List SendNotice) : List SendNotice :=
  l.map fun n => if n.tag = tag then { n with marked := false } else n

theorem State.clearMark_send (s : State) (tag : Tag) :
    (s.clearMark tag).send = { s.send with retained := unmarked tag s.send.retained } := by
  simp [State.clearMark, unmarked]

/-- A mark takes no cells. -/
theorem sendCellsOf_unmarked (tag : Tag) (l : List SendNotice) : sendCellsOf (unmarked tag l) = sendCellsOf l := by
  have hlen : (fun n : SendNotice => cellsFor n.length) ∘ (fun n => if n.tag = tag then { n with marked := false } else n)
      = fun n => cellsFor n.length := funext fun n => by
    dsimp only [Function.comp]
    split <;> rfl
  rw [sendCellsOf, unmarked, List.map_map, hlen]
  rfl

/-- The station when a REPLAY was sent and its release is still to be taken (R87). -/
def State.replaySent (s : State) (tag : Tag) : State := { s with
  send := { s.send with retained := unmarked tag s.send.retained }
  counters := { s.counters with replaysSent := s.counters.replaysSent + 1 } }

/-- The owner's part for a REPLAY (R81, R87). -/
theorem State.tellOwner_replay {tag : Tag} (hc : f.candidate = .replay tag) :
    s.tellOwner f = (s.replaySent tag).releaseAfterReplay := by
  rw [State.tellOwner, hc]
  dsimp only
  rw [State.replaySent, ← State.clearMark_send]
  rfl

/-- A release that waits for no REPLAY. -/
theorem State.releaseAfterReplay_of_not (h : s.send.releaseWaiting = false) : s.releaseAfterReplay = s := by
  rw [State.releaseAfterReplay, h]
  exact if_neg Bool.false_ne_true

end

/-- Settles O27: each owner's part, after what every sent frame does. -/
theorem repairFrameSent : Obligations.RepairFrameSent := by
  intro s f hs hf hu hn
  refine ⟨fun id hc => ?gap, fun hc => ?catchUp, fun tag hc hw => ?replay, fun tag hc hw => ?released⟩
  case gap =>
    refine exec_frameSent_quiet hs hf hu hn ?_ (by simp) (by simp) (by simp) rfl rfl rfl rfl
    rw [State.tellOwner_gap hc, s.noteSent_cfg, s.noteSent_eq]
  case catchUp =>
    refine exec_frameSent_quiet hs hf hu hn ?_ (by simp) (by simp) (by simp) rfl rfl rfl rfl
    rw [State.tellOwner_catchUp hc, s.noteSent_eq]
  case replay =>
    refine exec_frameSent_quiet hs hf hu hn ?_ (by simp) (by simp) (by simp) rfl rfl rfl rfl
    rw [State.tellOwner_replay hc, State.releaseAfterReplay_of_not (by exact hw), s.noteSent_eq]
    rfl
  case released =>
    have hheld : NothingHeld (s.noteSent.tellOwner f) := by
      rw [State.tellOwner_replay hc, s.noteSent_eq]
      simpa [NothingHeld, State.replaySent] using hn
    have hexec := exec_frameSent hs hf hu
    rw [State.takeHeldUnlessWindow_of_nothing hheld, State.tellOwner_replay hc, s.noteSent_eq] at hexec
    refine ⟨_, hexec, AttnFollows_settleAttn _, ?_, ?_, ?send, ?_, ?_, ?_, ?_, ?_, ?_, ?_⟩
    case send =>
      exact State.releaseAfterReplay_send (span := unmarked tag s.send.retained) hw rfl rfl rfl (by simp [State.cfg, State.replaySent])
        (sendCellsOf_unmarked tag _)
    all_goals simp [State.replaySent]

/-! ### NOTICE frames and beacons -/

section
variable {s : State} {f : OwnFrame}

/-- The owner's part for a NOTICE frame: its window opens at the sender (R27). -/
theorem State.tellOwner_notice {tag : Tag} {h : Header} {b : NoticeBody} (hc : f.candidate = .notice tag)
    (hframe : f.frame = .notice h b) : s.tellOwner f = { s with line := { s.line with
      ownFrame := some { f with sent := true }
      window := some { role := .sender, header := h, number := b.number, markFull := false, markStale := false
                       turnGap := false, full := false, stale := false } } } := by
  simp [State.tellOwner, hc, hframe]

/-- The owner's part for the beacons that leave the station where it is (R36, R141). -/
theorem State.tellOwner_due (hc : f.candidate = .dueBeacon) (hj : ∀ h v w, f.frame ≠ .beacon h .join v w)
    (hl : ∀ h v w, f.frame ≠ .beacon h .leave v w) : s.tellOwner f = { s with stn := { s.stn with beaconDue := false } } := by
  rw [State.tellOwner, hc]
  dsimp only
  split
  · rename_i hframe; exact absurd hframe (hj _ _ _)
  · rename_i hframe; exact absurd hframe (hl _ _ _)
  · rfl

theorem State.tellOwner_join {h : Header} {v : Set32} {w : Word16} (hc : f.candidate = .dueBeacon)
    (hframe : f.frame = .beacon h .join v w) : s.tellOwner f = { s with stn := { s.stn with
      beaconDue := false, joinBeacons := min (s.stn.joinBeacons + 1) 255 } } := by
  simp [State.tellOwner, hc, hframe, saturate, Config.countTop]

/-- The owner's part for the LEAVE beacon (R145). -/
theorem State.tellOwner_leave {h : Header} {v : Set32} {w : Word16} (hc : f.candidate = .dueBeacon)
    (hframe : f.frame = .beacon h .leave v w) :
    s.tellOwner f = State.enterIdle { s with stn := { s.stn with beaconDue := false } } .leaveSent := by
  simp [State.tellOwner, hc, hframe]

/-- What a station that leaves the line keeps (R60, R74, R110, R145, R146), and its ring points. -/
theorem State.quit_kept (s : State) :
    (s.quit.send.releasePoint = ⟨0, 0⟩ ∧ s.quit.send.transmitPoint = ⟨0, 0⟩ ∧ s.quit.send.postEnd = ⟨0, 0⟩)
    ∧ (s.quit.send.tagCounter = s.send.tagCounter ∧ s.quit.send.lastCommitted = s.send.lastCommitted
      ∧ s.quit.send.lastReleased = s.send.lastReleased ∧ s.quit.send.room = s.send.room)
    ∧ (s.quit.rx.count = s.rx.count ∧ s.quit.rx.settled = s.rx.settled)
    ∧ s.quit.stn.config = s.stn.config ∧ s.quit.stn.word = s.stn.word ∧ s.quit.counters = s.counters := by
  obtain ⟨-, -, -, hsettled, -, -, hsend, -, -, -, hstn⟩ := s.quit_spec
  simp [hsettled, hsend, hstn]

/-- The port of a station that leaves the line: the report of the notices it discards (R60, R90). -/
theorem State.discardSend_port_nil {s : State} (h : s.send.outbound = []) : s.discardSend.port = s.port := by
  rw [s.discardSend_port, h]

theorem State.discardSend_port_cons {s : State} {n : SendNotice} {rest : List SendNotice} (h : s.send.outbound = n :: rest) :
    s.discardSend.port = (s.postReport (.outboundDiscarded (n :: rest).length n.tag)).port := by
  rw [s.discardSend_port, h]

/-- What a station that enters IDLE or HALTED keeps, and its ring points. -/
theorem State.quit_enterState_kept (s : State) (st : StationState) (c : StateCause) : let t := s.quit.enterState st c
    t.stn.state = st
    ∧ (t.send.releasePoint = ⟨0, 0⟩ ∧ t.send.transmitPoint = ⟨0, 0⟩ ∧ t.send.postEnd = ⟨0, 0⟩)
    ∧ (t.send.tagCounter = s.send.tagCounter ∧ t.send.lastCommitted = s.send.lastCommitted
      ∧ t.send.lastReleased = s.send.lastReleased ∧ t.send.room = s.send.room)
    ∧ (t.rx.count = s.rx.count ∧ t.rx.settled = s.rx.settled ∧ ∃ more, t.rx.queue = s.rx.queue ++ more)
    ∧ t.stn.config = s.stn.config ∧ t.stn.word = s.stn.word ∧ t.counters = s.counters := by
  obtain ⟨-, -, -, -, hqueue, -⟩ := s.quit_spec
  obtain ⟨hpoints, hsend, ⟨-, hsettled⟩, -⟩ := s.quit_kept
  simp [hpoints, hsend, hsettled, hqueue]

/-- The port of a station that enters IDLE or HALTED: the notices discarded, and the STATE report (R60, R90, R145, R146). -/
theorem State.quit_enterState_port (s : State) (st : StationState) (c : StateCause) :
    (s.send.outbound = [] → (s.quit.enterState st c).port = (s.postReport (.stateChange s.stn.state st c)).port)
    ∧ ∀ n rest, s.send.outbound = n :: rest → (s.quit.enterState st c).port
      = ((s.postReport (.outboundDiscarded (n :: rest).length n.tag)).postReport (.stateChange s.stn.state st c)).port := by
  obtain ⟨-, -, -, -, -, -, -, hport, -⟩ := s.quit_spec
  have hstate : s.quit.stn.state = s.stn.state := by simp
  have hreport : (s.quit.enterState st c).port = (s.discardSend.postReport (.stateChange s.stn.state st c)).port := by
    rw [State.enterState_port, hstate]
    exact State.postReport_port_congr hport _
  exact ⟨fun h => hreport.trans (State.postReport_port_congr (State.discardSend_port_nil h) _),
    fun n rest h => hreport.trans (State.postReport_port_congr (State.discardSend_port_cons h) _)⟩

/-- The receive side of a station that enters IDLE or HALTED (R110, R145, R146). -/
theorem State.quit_enterState_freed {s : State} (hp : PendingBaseSound s) (st : StationState) (c : StateCause) :
    ReceiveSideFreed s (s.quit.enterState st c) := by
  obtain ⟨hqueue, hbacklog, hpool⟩ := State.quit_freed hp
  refine ⟨?_, ?_, ?_⟩ <;> simpa

end

/-- Settles O28: the window of a NOTICE frame, a beacon no longer due, and the entry into IDLE (`State.quit_spec`). -/
theorem noticeOrBeaconSent : Obligations.NoticeOrBeaconSent := by
  intro s f hs hf hu hn
  refine ⟨fun tag h b hc hframe => ?notice, fun h v w hc hframe => ?periodic, fun h v w hc hframe => ?join,
    fun h v w hc hframe => ?leave⟩
  case notice =>
    refine exec_frameSent_quiet hs hf hu hn ?_ (by simp) (by simp) (by simp) rfl rfl rfl rfl
    rw [State.tellOwner_notice hc hframe, s.noteSent_eq]
  case periodic =>
    refine exec_frameSent_quiet hs hf hu hn ?_ (by simp) (by simp) (by simp) rfl rfl rfl rfl
    rw [State.tellOwner_due hc (by simp [hframe]) (by simp [hframe]), s.noteSent_eq]
  case join =>
    refine exec_frameSent_quiet hs hf hu hn ?_ (by simp) (by simp) (by simp) rfl rfl rfl rfl
    rw [State.tellOwner_join hc hframe, s.noteSent_eq]
    simp
  case leave =>
    let u : State := { s with line := s.line.afterSent, stn := { s.beaconRestarted with beaconDue := false } }
    have hexec : exec .frameSent s = .next (u.enterIdle .leaveSent).settleAttn := by
      rw [exec_frameSent hs hf hu, State.tellOwner_leave hc hframe, s.noteSent_eq,
        State.takeHeldUnlessWindow_of_nothing (NothingHeld_enterIdle ..)]
    have hconfig : u.stn.config = s.stn.config ∧ u.stn.word = s.stn.word ∧ u.stn.state = s.stn.state := by simp [u]
    obtain ⟨huconfig, huword, hustate⟩ := hconfig
    obtain ⟨hidle, ⟨hrelease, htransmit, hpost⟩, ⟨htag, hcommitted, hreleased, hroom⟩, ⟨hcount, hsettled, hqueue⟩, hconfig, hword,
      hcounters⟩ := u.quit_enterState_kept .idle .leaveSent
    obtain ⟨hquiet, hdiscards⟩ := u.quit_enterState_port .idle .leaveSent
    rw [hustate] at hquiet hdiscards
    refine ⟨_, hexec, AttnFollows_settleAttn _, hidle, ?offLine, fun hout => (hquiet hout).trans ?quiet,
      fun n rest hout => (hdiscards n rest hout).trans ?discards, hrelease, htransmit, hpost, htag, hcommitted, hreleased, hroom,
      hcount, hsettled, hconfig.trans huconfig, hword.trans huword, hcounters, hqueue,
      fun hp => State.quit_enterState_freed (s := u) hp .idle .leaveSent⟩
    case offLine => exact (OffLineEmpty_enterIdle u .leaveSent).congr rfl rfl rfl rfl rfl rfl rfl rfl rfl rfl
    case quiet => exact State.postReport_port_congr (s := u) (t := s) rfl _
    case discards => exact State.postReport_port_congr (State.postReport_port_congr (s := u) (t := s) rfl _) _

/-! ### Collisions -/

/-- A saturated count reaches a limit below its top with the count itself. -/
theorem saturate_beq (n : Nat) {limit : Nat} (h : limit < 255) : (saturate n == limit) = (n == limit) := by
  rw [Bool.eq_iff_iff, beq_iff_eq, beq_iff_eq, saturate, Config.countTop]
  omega

/-- The station right after a collision has been counted (R28, R29). -/
def State.collided (s : State) (f : OwnFrame) : State := { s with
  line := s.line.afterCollision f.candidate
  counters := { s.counters with collisions := s.counters.collisions + 1 }
  port := if s.line.eighthCollision then (s.postReport (.collisions (Frame.kind f.frame) 8)).port else s.port }

theorem State.countCollision_eq (s : State) (f : OwnFrame) : s.countCollision f = s.collided f := by
  have heighth : (saturate (s.line.collisionCount + 1) == Config.collisionsLimit && s.line.collisionsArmed)
      = s.line.eighthCollision := congrArg (· && s.line.collisionsArmed) (saturate_beq _ (by decide))
  unfold State.countCollision State.collided
  simp only [heighth]
  by_cases h : s.line.eighthCollision = true
  · rw [if_pos h, if_pos h, State.postReport_eq]
    exact congrArg (State.mk _ _ _ _ _ _ _ _ _ · _ _ _ _)
      (State.postReport_port_congr (t := s) (by rfl) _)
  · rw [if_neg h, if_neg h]
    rfl

section
variable {s : State} {f : OwnFrame}

/-- The event of a collision. -/
theorem exec_collision (hs : Live s) (hf : s.line.ownFrame = some f) (hu : f.sent = false) :
    exec .collision s = .next ((s.collided f).afterCollision f.candidate).takeHeld.settleAttn := by
  rw [← s.countCollision_eq]
  unfold exec
  refine (event_live hs.1).trans ?_
  rw [hf]
  exact congrArg (fun t => Host.Outcome.next (State.settleAttn t)) (if_neg (by simp [hu]))

/-- A collision of a frame whose owner is told nothing, or of a REPLAY for which no release waits (R35, R81). -/
theorem State.afterCollision_quiet {c : Candidate} (h : ∀ tag, c ≠ .notice tag) :
    (s.afterCollision c).gaps = s.gaps ∧ (s.afterCollision c).rx = s.rx ∧ (s.afterCollision c).pool = s.pool
      ∧ (s.afterCollision c).commit = s.commit
      ∧ (s.send.releaseWaiting = false ∨ (∀ tag, c ≠ .replay tag) → (s.afterCollision c).send = s.send) := by
  cases c with
  | notice tag => exact absurd rfl (h tag)
  | replay tag =>
    refine ⟨by simp [State.afterCollision], by simp [State.afterCollision], by simp [State.afterCollision],
      by simp [State.afterCollision], fun hw => ?_⟩
    rw [State.afterCollision, State.releaseAfterReplay_of_not (hw.resolve_right fun hne => hne tag rfl)]
  | gap id => exact ⟨rfl, rfl, rfl, rfl, fun _ => rfl⟩
  | catchUp => exact ⟨rfl, rfl, rfl, rfl, fun _ => rfl⟩
  | dueBeacon => exact ⟨rfl, rfl, rfl, rfl, fun _ => rfl⟩

end

/-- Settles O29: the collision is counted (`State.collided`), and then the owner of the candidate is told. -/
theorem collisionKeepsTheCandidate : Obligations.CollisionKeepsTheCandidate := by
  intro s f hs hf hu hn
  let u := s.collided f
  have hheld : NothingHeld (u.afterCollision f.candidate) := by simpa [NothingHeld, u, State.collided] using hn
  have hexec := exec_collision hs hf hu
  rw [State.takeHeld_of_nothing hheld] at hexec
  have hline : (u.afterCollision f.candidate).line = s.line.afterCollision f.candidate := by simp [u, State.collided]
  have hport : (u.afterCollision f.candidate).port = u.port := by simp
  have hcounters : (u.afterCollision f.candidate).counters = u.counters := by simp
  refine ⟨_, hexec, AttnFollows_settleAttn _, hline, hcounters, hport, ?_, ?_, ?_, ?_, ?_, ?_, ?_,
    fun hc => State.afterCollision_quiet (s := u) hc, fun tag hc hw => ?replay,
    fun tag hc => ?notice⟩
  case replay =>
    rw [hc]
    exact State.releaseAfterReplay_send (u := u) hw rfl rfl rfl rfl rfl
  case notice =>
    obtain ⟨hnone, hcommit, hsome⟩ := u.freeProvisional_spec
    rw [hc]
    refine ⟨congrArg CommitBlock.provisional hcommit, u.freeProvisional_frame.2.1, fun hp => ?_,
      (HandedOn_freeProvisional u).congr rfl rfl rfl rfl rfl rfl, fun own hown => ?_⟩
    · have hsame : u.freeProvisional = u := hnone hp
      exact ⟨congrArg (·.pool) hsame, congrArg (·.rx) hsame, congrArg (·.gaps) hsame⟩
    · obtain ⟨hcells, hrest⟩ := hsome own hown
      refine ⟨hcells, fun hnothing => ?_⟩
      obtain ⟨hrx, hgaps, hpool⟩ := hrest hnothing
      exact ⟨hpool, hrx, hgaps⟩
  all_goals simp [u, State.collided]

end Sys2Proof.Machine
end

