-- ==== Sys2Proof/Proofs/ReceiverWindow.lean ====
section
/-!
PROOF. The end of a window at a full receiver (R42, R43, R45, R53), and what a commit or a refusal does there and at the sender.
-/

namespace Sys2Proof.Machine

/-! ### The storage of a provisional notice that is given up -/

/-- What giving up the provisional notice does to storage and delivery (R43, R47, R50, R67). -/
theorem State.freeProvisional_storage (s : State) :
    (s.commit.provisional = none →
      s.freeProvisional.rx = s.rx ∧ s.freeProvisional.gaps = s.gaps ∧ s.freeProvisional.pool = s.pool)
    ∧ ∀ own, s.commit.provisional = some own → s.freeProvisional.pool.freeCells = s.pool.freeCells ++ own.chain ∧
      (NothingToAdvance s →
        s.freeProvisional.rx = s.rx ∧ s.freeProvisional.gaps = s.gaps
          ∧ s.freeProvisional.pool = { s.pool with
              freeCells := s.pool.freeCells ++ own.chain, freeDescs := s.pool.freeDescs ++ [own.desc] }) := by
  obtain ⟨hnone, -, hsome⟩ := s.freeProvisional_spec
  refine ⟨fun hp => ?_, hsome⟩
  rw [hnone hp]
  exact ⟨rfl, rfl, rfl⟩

/-! ### A commit -/

/-- What a commit of the notice numbered `n` leaves, where the count was the number before it (R15, R42, R48, R53). -/
def State.CommitsTo (s t : State) (n : LineNo) : Prop :=
  t.rx.count = n ∧ t.commit = { s.commit with provisional := none, catchingUp := false }
    ∧ t.members = s.keptAtHorizon n ∧ t.send = { s.releasedAtHorizon n with catchUp := none }
    ∧ t.port = (s.postReports (s.horizonReports n)).port
    ∧ t.pool = s.pool ∧ t.stn = s.stn ∧ t.counters = s.counters ∧ t.line = s.line

section
variable {s : State} {n : LineNo}

/-- The span limit, as the statements write it (R12). -/
theorem State.spanRefuses_eq_false (h : s.ahead n ≤ 256) : s.spanRefuses n = false :=
  decide_eq_false (Nat.not_lt.mpr h)

theorem State.spanRefuses_eq_true (h : 256 < s.ahead n) : s.spanRefuses n = true := decide_eq_true h

/-- A commit in order delivers the notice at once, or settles its position (R42, R48, R101). -/
theorem State.takeCommitted_delivers (hn : n = s.rx.count + 1) (hset : s.rx.settled = s.rx.count)
    (hbase : s.pool.pendingBase = none) (hheld : s.rx.holdSet = []) (hknown : s.rx.known = 0) (hgaps : s.gaps = [])
    (hp : ∀ own, s.commit.provisional = some own → own.number = n) : let t := s.takeCommitted n
    s.CommitsTo t n ∧ t.rx.settled = n ∧ t.rx.known = 0 ∧ t.rx.holdSet = []
      ∧ t.rx.queue = s.rx.queue ++ s.commit.provisional.toList.map .notice ∧ BacklogFollows s t s.rx.queue.length
      ∧ t.gaps = [] := by
  intro t
  obtain ⟨b, ht⟩ := State.takeCommitted_inOrder hn hset hbase hheld hknown hgaps hp
  have hbacklog : BacklogFollows s t s.rx.queue.length := (Appends_takeCommitted s n).2.2
  refine ⟨⟨?_, ?_, ?_, ?_, ?_, ?_, ?_, ?_, ?_⟩, ?_, ?_, ?_, ?_, hbacklog, ?_⟩ <;> simp only [t, ht]

/-- The number after the count lies after the settled point. -/
theorem OrderSound.next_ahead (hs : OrderSound s) (hn : n = s.rx.count + 1) : 1 ≤ s.ahead n := by
  have hspan := hs.1
  rw [hn, ahead_succ s _ (by omega)]
  omega

/-- A commit behind a gap, or while a BASE record waits, is held and its position known (R42, R48, R68, R101). -/
theorem State.takeCommitted_holds (hn : n = s.rx.count + 1) (hs : OrderSound s)
    (hne : s.rx.settled ≠ s.rx.count ∨ s.pool.pendingBase ≠ none) (hspan : s.ahead n ≤ 256) (hrest : AdvanceRests s)
    (hp : ∀ own, s.commit.provisional = some own → own.number = n) : let t := s.takeCommitted n
    s.CommitsTo t n ∧ t.rx.settled = s.rx.settled ∧ t.rx.queue = s.rx.queue ∧ t.rx.backlog = s.rx.backlog
      ∧ t.knownAt n = true ∧ (∀ m, m ≠ n → t.knownAt m = s.knownAt m)
      ∧ (∀ x, x ∈ t.rx.holdSet ↔ x ∈ s.rx.holdSet ∨ s.commit.provisional = some x) ∧ t.gaps = s.gaps := by
  intro t
  obtain ⟨hold, ht, hmem, hknown⟩ := State.takeCommitted_behindGap hn hs hne hspan hrest hp
  have hothers : ∀ m, m ≠ n → t.knownAt m = s.knownAt m := fun m hm => by
    have hmark : t.knownAt m = (s.makeKnown n).knownAt m := knownAt_congr (by simp only [t, ht]; rfl) (by simp only [t, ht]; rfl) m
    rw [hmark, State.knownAt_makeKnown (hs.next_ahead hn) hspan, decide_eq_false hm, Bool.or_false]
  refine ⟨⟨?_, ?_, ?_, ?_, ?_, ?_, ?_, ?_, ?_⟩, ?_, ?_, ?_, hknown, hothers, ?_, ?_⟩ <;> simp only [t, ht]
  exact hmem

end

/-! ### A refusal -/

/-- What a refused commit leaves at a station that resyncs to the count `n` (R12, R15, R143). -/
def State.ResyncsTo (s t : State) (n : LineNo) : Prop :=
  t.stn.state = .joining ∧ t.stn.joinTimer = .running (8 * s.cfg.beaconInterval)
    ∧ t.stn.beaconTimer = .running s.cfg.beaconInterval ∧ t.stn.beaconDue = true ∧ t.stn.joinBeacons = 0
    ∧ t.rx.count = n ∧ t.rx.settled = n ∧ t.rx.holdSet = [] ∧ t.rx.known = 0
    ∧ t.gaps = [] ∧ t.commit.provisional = none ∧ t.commit.catchingUp = false ∧ t.send.catchUp = none
    ∧ t.line.yield = true ∧ t.line.window = none ∧ t.line.driving = false ∧ t.counters = s.counters
    ∧ t.members = (s.keptAtHorizon n).map (fun m => { m with includedMe := false })
    ∧ (PendingBaseSound s →
        t.pool.freeCells = s.pool.freeCells ++ s.storedNotices.flatMap (·.chain)
          ∧ BaseEmitted s t (s.pool.freeDescs ++ s.storedNotices.map (·.desc)) .resyncSpan n)
    ∧ t.port = ((s.postReports (s.horizonReports n)).postReport (.stateChange s.stn.state .joining .resyncSpan)).port

/-- A resync of a station whose window is over, for every state that stores, holds and shows the same. -/
theorem State.resync_resyncsTo {s u : State} (n : LineNo) (hrx : u.rx = s.rx) (hpool : u.pool = s.pool)
    (hmembers : u.members = s.members) (hstn : u.stn = s.stn) (hport : u.port = s.port)
    (hcounters : u.counters = s.counters) (hprov : u.commit.provisional = s.commit.provisional)
    (hdriving : u.line.driving = false) : s.ResyncsTo (u.resync .resyncSpan .resyncSpan n) n := by
  obtain ⟨hcount, hsettled, hknown, hheld, hgaps, hcommit, hsend, -, hline, hstation, -⟩ :=
    u.resync_spec .resyncSpan .resyncSpan n
  obtain ⟨hkept, -, hreports⟩ := u.resync_horizon .resyncSpan .resyncSpan n
  obtain ⟨hsame, hlost⟩ := State.horizon_congr hmembers n
  have hcfg : u.cfg = s.cfg := State.cfg_congr (by rw [hstn])
  have hstored : u.storedNotices = s.storedNotices := by rw [State.storedNotices, State.storedNotices, hrx, hprov]
  refine ⟨by rw [hstation], by rw [hstation, hcfg], by rw [hstation, hcfg], by rw [hstation], by rw [hstation], hcount,
    hsettled, hheld, hknown, hgaps, by rw [hcommit], by rw [hcommit], by rw [hsend], by simp [hline], by simp [hline],
    by simpa [hline] using hdriving, by simpa using hcounters, by rw [hkept, hsame], fun hp => ?storage, ?port⟩
  case storage =>
    have hbase : PendingBaseSound u := hp.congr (by rw [hpool]) (by rw [hpool]) (by rw [hrx]) hprov
    obtain ⟨hcells, hemitted⟩ := State.resync_storage hbase .resyncSpan .resyncSpan n
    rw [hpool, hstored] at hcells hemitted
    exact ⟨hcells, hemitted.congr hrx.symm hcfg.symm hpool.symm rfl rfl⟩
  case port =>
    rw [hreports, hlost, hstn]
    exact State.postReport_port_congr (State.postReports_port_congr hport _) _

/-- Nothing is held after a resync of a station where no LEAVE is (R143). -/
theorem NothingHeld_resync {s : State} (h : s.stn.leaveHeld = false) (r : BaseReason) (c : StateCause) (n : LineNo) :
    NothingHeld (s.resync r c n) := by
  obtain ⟨-, -, -, -, -, -, -, -, -, hstn, -⟩ := s.resync_spec r c n
  exact ⟨by rw [hstn]; exact h, by rw [hstn]⟩

/-! ### The receiver -/

section
variable {s : State} {w : Window}

/-- The event of the end of a window at a full receiver. -/
theorem exec_windowEndReceiver (hs : Live s) (hw : s.line.window = some w) (hr : w.role = .receiver) :
    exec .windowEndReceiver s = .next (s.closeWindow.receiverWindowEnd w).takeHeld.settleAttn := by
  unfold exec
  refine (event_live hs.1).trans ?_
  rw [hw]
  simp only [hr]

/-- The window's end by its three outcomes (R42, R43, R45). -/
theorem State.receiverWindowEnd_objected (s : State) (h : w.objected = true) : s.receiverWindowEnd w = s.freeProvisional :=
  if_pos h

theorem State.receiverWindowEnd_clean (h : w.objected = false) (hspan : s.ahead w.number ≤ 256) :
    s.receiverWindowEnd w = s.takeCommitted w.number := by
  rw [State.receiverWindowEnd, h, State.spanRefuses_eq_false hspan]
  rfl

theorem State.receiverWindowEnd_refused (h : w.objected = false) (hspan : 256 < s.ahead w.number) :
    s.receiverWindowEnd w = s.refuseCommitted w.header.count := by
  rw [State.receiverWindowEnd, h, State.spanRefuses_eq_true hspan]
  rfl

/-- A refused commit at a station that can resync, and at a LEAVING one (R12, R45, R49). -/
theorem State.refuseCommitted_resyncs (n : LineNo) (h : s.stn.state = .joining ∨ s.stn.state = .active) :
    s.refuseCommitted n = s.resync .resyncSpan .resyncSpan n := by
  have hj : s.stn.joinedOrActive = true := (StationBlock.joinedOrActive_iff _).mpr h
  rw [State.refuseCommitted, if_pos hj, State.spanResync, if_pos hj]

theorem State.refuseCommitted_leaving (n : LineNo) (h : s.stn.state = .leaving) :
    s.refuseCommitted n = s.freeProvisional :=
  if_neg (by simp [StationBlock.joinedOrActive, h])

end

/-- Settles O32: the provisional notice of the closed window is given up. -/
theorem receiverDiscardsObjected : Obligations.ReceiverDiscardsObjected := by
  intro s w hs hw hr ho hn
  have hexec := exec_windowEndReceiver hs hw hr
  rw [State.receiverWindowEnd_objected _ ho, State.takeHeld_of_nothing (by simpa [NothingHeld] using hn)] at hexec
  obtain ⟨hnone, hsome⟩ := s.closeWindow.freeProvisional_storage
  obtain ⟨-, hcommit, -⟩ := s.closeWindow.freeProvisional_spec
  refine ⟨_, hexec, AttnFollows_settleAttn _, ?_, hcommit, ?_, ?_, ?_, ?_, ?_, ?_,
    (HandedOn_freeProvisional s.closeWindow).congr rfl rfl rfl rfl rfl rfl, hnone, hsome⟩
  all_goals simp

/-- Settles O33: the commit, in order or held (`State.takeCommitted_delivers`, `State.takeCommitted_holds`). -/
theorem receiverCommitsClean : Obligations.ReceiverCommitsClean := by
  intro s w hs hw hr ho hn hnumber hp committed
  have hexec (hspan : s.ahead w.number ≤ 256) :
      exec .windowEndReceiver s = .next (s.closeWindow.takeCommitted w.number).settleAttn := by
    rw [exec_windowEndReceiver hs hw hr, State.receiverWindowEnd_clean (s := s.closeWindow) ho hspan,
      State.takeHeld_of_nothing (by simpa [NothingHeld] using hn)]
  have hcommitted {t : State} (h : s.closeWindow.CommitsTo t w.number) : committed t.settleAttn := by
    obtain ⟨hcount, hcommit, hmembers, hsend, hport, hpool, hstn, hcounters, hline⟩ := h
    refine ⟨AttnFollows_settleAttn _, hcount, hcommit, hmembers, hsend.trans ?_, hport.trans ?_, hpool, hstn, hcounters, hline⟩
    · exact congrArg (fun b : SendBlock => { b with catchUp := none })
        (State.releasedAtHorizon_congr (s := s) (t := s.closeWindow) rfl rfl rfl rfl _)
    · exact State.postReports_port_congr (s := s.closeWindow) (t := s) rfl _
  refine ⟨fun hset hbase hheld hknown hgaps => ?inOrder, fun hos hne hspan hrest => ?behind⟩
  case inOrder =>
    have hspan : s.ahead w.number ≤ 256 := by
      rw [hnumber, ← hset, ahead_next]
      decide
    obtain ⟨hto, hrest⟩ := State.takeCommitted_delivers (s := s.closeWindow) hnumber hset hbase hheld hknown hgaps hp
    exact ⟨_, hexec hspan, hcommitted hto, hrest⟩
  case behind =>
    obtain ⟨hto, hrest⟩ := State.takeCommitted_holds (s := s.closeWindow) hnumber hos hne hspan hrest hp
    exact ⟨_, hexec hspan, hcommitted hto, hrest⟩

end Sys2Proof.Machine
end

