-- ==== Sys2Proof/Proofs/SenderWindow.lean ====
section
/-!
PROOF. The end of the window of the own NOTICE frame, and the refusal of a commit (R12, R45, R48 to R52, R75).
-/

namespace Sys2Proof.Machine

/-! ### The event -/

/-- The station whose own frame has left the line with its window. -/
def State.frameOver (s : State) : State := { s with line := { s.line with window := none, driving := false, ownFrame := none } }

section
variable {s : State} {w : Window}

/-- The event of the end of the window at the sender. -/
theorem exec_windowEndSender (hs : Live s) (hw : s.line.window = some w) (hr : w.role = .sender) :
    exec .windowEndSender s = .next (s.frameOver.senderWindowEnd w).takeHeld.settleAttn := by
  unfold exec
  refine (event_live hs.1).trans ?_
  rw [hw]
  simp only [hr]
  rfl

/-! ### The send queue at a clean window -/

/-- What the horizon's release leaves of the send block (R15, R80). -/
theorem State.releasedAtHorizon_kept (s : State) (n : LineNo) : (s.releasedAtHorizon n).outbound = s.send.outbound
    ∧ (s.releasedAtHorizon n).lastCommitted = s.send.lastCommitted := by
  unfold State.releasedAtHorizon
  split <;> simp

/-- The send block once the head is retained under number `n`, with no catch-up RESEND pending (R48, R49, R53). -/
def State.headRetained (s : State) (head : SendNotice) (rest : List SendNotice) (n : LineNo) : SendBlock := { s.send with
  outbound := rest
  retained := s.send.retained ++ [{ head with number := some n }]
  transmitPoint := ⟨(s.send.transmitPoint.cell + cellsFor head.length) % s.cfg.sendSize, (s.send.transmitPoint.desc + 1) % 32⟩
  lastCommitted := head.tag
  catchUp := none }

/-- What the send queue's effects leave in the send block once the horizon has been applied and the catch-up has ended (R15, R53). -/
def State.HeadCommitted (s : State) (head : SendNotice) (rest : List SendNotice) (number n : LineNo) (send : SendBlock) : Prop :=
  (s.members ≠ [] → send = State.releasedAtHorizon
      { s with send := s.headRetained head rest number, line := { s.line with ownFrame := none } } n)
    ∧ (s.members = [] → send = { s.headRetained head rest number with
        retained := [], lastReleased := head.tag
        releasePoint := (s.send.retained ++ [head]).foldl
          (fun p n => p.past s.cfg.sendSize (cellsFor n.length)) s.send.releasePoint
        room := s.send.room || (decide (s.freeSendCells ≤ s.cfg.roomLimit)
          && decide (s.cfg.roomLimit < s.cfg.sendSize - (sendCellsOf send.retained + sendCellsOf send.outbound))) })

/-- The station at a clean window of its own frame, once the head is retained: commit logic and send block are new. -/
theorem State.headRetained_spec {head : SendNotice} {rest : List SendNotice} (number : LineNo)
    (ho : s.send.outbound = head :: rest) : ∃ send,
      ((s.frameOver.retainHead number).clearObjections).releaseIfAlone = { s.frameOver with
        commit := { s.commit with objections := 0, congestedArmed := true, congested := false }
        send := send }
      ∧ ∀ n, s.HeadCommitted head rest number n { State.releasedAtHorizon { s.frameOver with send := send } n with catchUp := none } := by
  obtain ⟨send, heq, hmany, halone⟩ := State.senderCommits_send (s := s.frameOver) number ho rfl
  refine ⟨send, heq, fun n => ⟨fun hm => ?_, fun hm => ?_⟩⟩
  · rw [hmany hm, ← State.releasedAtHorizon_catchUp]
    apply State.releasedAtHorizon_congr <;> rfl
  · have hnone : State.releasedAtHorizon { s.frameOver with send := send } n = send := by
      obtain ⟨-, -, hsend⟩ := State.horizon_of_within (s := { s.frameOver with send := send }) (n := n) (by
        intro m hmem
        rw [show ({ s.frameOver with send := send } : State).members = [] from hm] at hmem
        cases hmem)
      exact hsend
    rw [hnone, halone hm]
    simp only [sendCellsOf, List.map_nil, List.sum_nil, Nat.zero_add]
    rfl

end

/-! ### Commit and refusal at the sender -/

section
variable {s u : State} {w : Window} {head : SendNotice} {rest : List SendNotice} {n : LineNo}

/-- The statements' form of the send block, in a station whose send block it is. -/
theorem State.HeadCommitted.of_send {t : State} (h : s.HeadCommitted head rest w.number n t.send) (hc : t.cfg = s.cfg) :
    (s.members ≠ [] → t.send = State.releasedAtHorizon
      { s with send := s.headRetained head rest w.number, line := { s.line with ownFrame := none } } n)
    ∧ (s.members = [] → t.send = { s.headRetained head rest w.number with
        retained := [], lastReleased := head.tag
        releasePoint := (s.send.retained ++ [head]).foldl
          (fun p n => p.past s.cfg.sendSize (cellsFor n.length)) s.send.releasePoint
        room := s.send.room
          || (decide (s.freeSendCells ≤ s.cfg.roomLimit) && decide (s.cfg.roomLimit < t.freeSendCells)) }) := by
  have hfree : t.freeSendCells = s.cfg.sendSize - (sendCellsOf t.send.retained + sendCellsOf t.send.outbound) := by
    rw [State.freeSendCells, hc]
  rw [hfree]
  exact h

/-- A clean window at the sender, whose head is the outbound queue's first: the send queue's effects, then the commit or the
refusal on a station that differs from `s` in line, commit logic and send block alone. -/
theorem State.senderWindowEnd_clean (ho : s.send.outbound = head :: rest) (hclean : w.objected = false) :
    ∃ u : State, u = { s.frameOver with
        commit := { s.commit with objections := 0, congestedArmed := true, congested := false }, send := u.send }
      ∧ (∀ n, s.HeadCommitted head rest w.number n { u.releasedAtHorizon n with catchUp := none })
      ∧ (s.ahead w.number ≤ 256 → s.frameOver.senderWindowEnd w = u.takeCommitted w.number)
      ∧ (256 < s.ahead w.number → s.frameOver.senderWindowEnd w = u.refuseCommitted w.header.count) := by
  obtain ⟨send, heq, hsend⟩ := s.headRetained_spec w.number ho
  let u : State := { s.frameOver with
    commit := { s.commit with objections := 0, congestedArmed := true, congested := false }, send := send }
  have hcommits : s.frameOver.senderWindowEnd w
      = if u.spanRefuses w.number then u.refuseCommitted w.header.count else u.takeCommitted w.number := by
    rw [State.senderWindowEnd, hclean, if_neg Bool.false_ne_true, State.senderCommits, heq]
  refine ⟨u, rfl, fun n => ?_, fun hspan => ?_, fun hspan => ?_⟩
  · rw [State.releasedAtHorizon_congr (s := { s.frameOver with send := send }) (t := u) rfl rfl rfl rfl]
    exact hsend n
  · rw [hcommits, State.spanRefuses_eq_false (s := u) hspan]
    exact if_neg Bool.false_ne_true
  · rw [hcommits, State.spanRefuses_eq_true (s := u) hspan]
    exact if_pos rfl

end

/-- Settles O34: the refusal on the closed window, at the receiver, in LEAVING, and at the sender after its send queue's effects. -/
theorem refusedCommitResyncs : Obligations.RefusedCommitResyncs := by
  intro s w hs hw hclean hspan hn resynced
  obtain ⟨hleave, -⟩ := id hn
  refine ⟨fun hr hst => ?receiver, fun hr hst => ?leaving, fun hr hst head rest hout => ?sender⟩
  case receiver =>
    have hexec := exec_windowEndReceiver hs hw hr
    rw [State.receiverWindowEnd_refused (s := s.closeWindow) hclean hspan,
      State.refuseCommitted_resyncs (s := s.closeWindow) _ hst,
      State.takeHeld_of_nothing (NothingHeld_resync (s := s.closeWindow) hleave ..)] at hexec
    have hto := State.resync_resyncsTo (s := s) (u := s.closeWindow) w.header.count rfl rfl rfl rfl rfl rfl rfl rfl
    obtain ⟨-, hsend, -⟩ := s.closeWindow.resync_horizon .resyncSpan .resyncSpan w.header.count
    have hrel : s.closeWindow.releasedAtHorizon w.header.count = s.releasedAtHorizon w.header.count :=
      State.releasedAtHorizon_congr (s := s) (t := s.closeWindow) rfl rfl rfl rfl _
    rw [hrel] at hsend
    have hkept := s.releasedAtHorizon_kept w.header.count
    refine ⟨_, hexec, ⟨AttnFollows_settleAttn _, hto⟩, rfl, ?_, ?_, hsend⟩
    · exact (congrArg SendBlock.outbound hsend).trans hkept.1
    · exact (congrArg SendBlock.lastCommitted hsend).trans hkept.2
  case leaving =>
    have hexec := exec_windowEndReceiver hs hw hr
    rw [State.receiverWindowEnd_refused (s := s.closeWindow) hclean hspan,
      State.refuseCommitted_leaving (s := s.closeWindow) _ hst,
      State.takeHeld_of_nothing (by simpa [NothingHeld] using hn)] at hexec
    obtain ⟨hnone, hsome⟩ := s.closeWindow.freeProvisional_storage
    obtain ⟨-, hcommit, -⟩ := s.closeWindow.freeProvisional_spec
    refine ⟨_, hexec, AttnFollows_settleAttn _, ?_, hcommit, ?_, ?_, ?_, ?_, ?_, ?_,
      (HandedOn_freeProvisional s.closeWindow).congr rfl rfl rfl rfl rfl rfl, hnone, hsome⟩
    all_goals simp
  case sender =>
    obtain ⟨u, hu, hsend, -, hrefused⟩ := State.senderWindowEnd_clean (s := s) hout hclean
    have hstn : u.stn = s.stn := by rw [hu]; rfl
    have hexec := exec_windowEndSender hs hw hr
    rw [hrefused hspan, State.refuseCommitted_resyncs _ (by rw [hstn]; exact hst),
      State.takeHeld_of_nothing (NothingHeld_resync (by rw [hstn]; exact hleave) ..)] at hexec
    have hto := State.resync_resyncsTo (s := s) (u := u) w.header.count (by rw [hu]; rfl) (by rw [hu]; rfl) (by rw [hu]; rfl) hstn
      (by rw [hu]; rfl) (by rw [hu]; rfl) (by rw [hu]) (by rw [hu]; rfl)
    obtain ⟨-, -, -, -, -, hcommit, -, -, hline, -⟩ := u.resync_spec .resyncSpan .resyncSpan w.header.count
    obtain ⟨-, hblock, -⟩ := u.resync_horizon .resyncSpan .resyncSpan w.header.count
    have hheads : s.HeadCommitted head rest w.number w.header.count (u.resync .resyncSpan .resyncSpan w.header.count).send := by
      rw [hblock]; exact hsend _
    obtain ⟨hmany, halone⟩ := hheads.of_send (State.cfg_congr (by simp [hstn]))
    refine ⟨_, hexec, ⟨AttnFollows_settleAttn _, hto⟩, ?own, ?_, ?_, ?_, hmany, halone⟩
    case own => exact (congrArg LineBlock.ownFrame hline).trans (by rw [hu]; simp [State.frameOver])
    all_goals exact (congrArg _ hcommit).trans (by rw [hu])

/-- Settles O35: the send queue's effects, then the commit in order or held. -/
theorem senderCommitsClean : Obligations.SenderCommitsClean := by
  intro s w head rest hs hw hr hclean hn hnumber hout hp send committed
  obtain ⟨u, hu, hsend, hcommits, -⟩ := State.senderWindowEnd_clean (s := s) hout hclean
  have hstn : u.stn = s.stn := by rw [hu]; rfl
  have hrx : u.rx = s.rx := by rw [hu]; rfl
  have hpool : u.pool = s.pool := by rw [hu]; rfl
  have hgaps : u.gaps = s.gaps := by rw [hu]; rfl
  have hnext : u.nextGapId = s.nextGapId := by rw [hu]; rfl
  have hprov : u.commit.provisional = s.commit.provisional := by rw [hu]
  have hcfg : u.cfg = s.cfg := State.cfg_congr (by rw [hstn])
  have hmembers : u.members = s.members := by rw [hu]; rfl
  have hexec (hspan : s.ahead w.number ≤ 256) :
      exec .windowEndSender s = .next (u.takeCommitted w.number).settleAttn := by
    rw [exec_windowEndSender hs hw hr, hcommits hspan, State.takeHeld_of_nothing (by simpa [NothingHeld, hstn] using hn)]
  have hcommitted {t : State} (h : u.CommitsTo t w.number) : committed t.settleAttn := by
    obtain ⟨hcount, hcommit, hkept, hblock, hport, htpool, htstn, hcounters, hline⟩ := h
    obtain ⟨hsame, hlost⟩ := State.horizon_congr hmembers w.number
    have hheads : s.HeadCommitted head rest w.number w.number t.send := by rw [hblock]; exact hsend _
    obtain ⟨hmany, halone⟩ := hheads.of_send (State.cfg_congr (by rw [htstn, hstn]))
    refine ⟨AttnFollows_settleAttn _, hcount, hcommit.trans ?_, hline.trans ?_, hmany, halone, hkept.trans hsame, hport.trans ?_,
      htpool.trans hpool, htstn.trans hstn, hcounters.trans ?_⟩
    · rw [hu]
    · rw [hu]; rfl
    · rw [hlost]
      exact State.postReports_port_congr (by rw [hu]; rfl) _
    · rw [hu]; rfl
  have hnumber' : w.number = u.rx.count + 1 := by rw [hrx]; exact hnumber
  have hp' : ∀ own, u.commit.provisional = some own → own.number = w.number := by rw [hprov]; exact hp
  refine ⟨fun hset hbase hheld hknown hgap => ?inOrder, fun hos hne hspan hrest => ?behind⟩
  case inOrder =>
    have hspan : s.ahead w.number ≤ 256 := by
      rw [hnumber, ← hset, ahead_next]
      decide
    obtain ⟨hto, hsettled, hunknown, hempty, hqueue, hbacklog, hnone⟩ := State.takeCommitted_delivers hnumber' (by rw [hrx]; exact hset)
      (by rw [hpool]; exact hbase) (by rw [hrx]; exact hheld) (by rw [hrx]; exact hknown) (by rw [hgaps]; exact hgap) hp'
    rw [hrx, hprov] at hqueue
    rw [hrx] at hbacklog
    exact ⟨_, hexec hspan, hcommitted hto, hsettled, hunknown, hempty, hqueue,
      hbacklog.congr (by rw [hrx]) hcfg.symm rfl rfl, hnone⟩
  case behind =>
    have hspan' : u.ahead w.number ≤ 256 := by rw [ahead_congr (s := s) (by rw [hrx])]; exact hspan
    have hos' : OrderSound u := hos.congr ⟨by rw [hrx], by rw [hrx], by rw [hrx], by rw [hrx], hgaps, hnext⟩
    have hrest' : AdvanceRests u := by
      rw [hu]
      exact hrest
    obtain ⟨hto, hsettled, hqueue, hbacklog, hknown, hothers, hmem, hsame⟩ :=
      State.takeCommitted_holds hnumber' hos' (by rw [hrx, hpool]; exact hne) hspan' hrest' hp'
    rw [hrx] at hsettled hqueue hbacklog hmem
    rw [hprov] at hmem
    refine ⟨_, hexec hspan, hcommitted hto, hsettled, hqueue, hbacklog, hknown, fun n hn => (hothers n hn).trans ?_, hmem,
      hsame.trans hgaps⟩
    exact knownAt_congr (by rw [hrx]) (by rw [hrx]) n

/-! ### An objected window at the sender -/

/-- The sixteenth objection in a row, while CONGESTED is armed (R51). -/
def State.sixteenth (s : State) : Bool := s.commit.objections + 1 == 16 && s.commit.congestedArmed

/-- What an objection leaves: the reservation given up, the yield flag set, the counts risen (R50, R51). -/
theorem State.senderObjected_spec (s : State) : let t := s.senderObjected
    t.line = s.line.yielded ∧ t.counters = { s.counters with ownObjected := s.counters.ownObjected + 1 }
    ∧ t.commit = { provisional := none, objections := min (s.commit.objections + 1) 255
                   congestedArmed := s.commit.congestedArmed && !s.sixteenth
                   congested := s.commit.congested || s.sixteenth
                   catchingUp := s.commit.catchingUp }
    ∧ t.port = (if s.sixteenth then s.postReport (.congested 16) else s).port
    ∧ (t.rx = s.freeProvisional.rx ∧ t.gaps = s.freeProvisional.gaps ∧ t.pool = s.freeProvisional.pool)
    ∧ t.send = s.send ∧ t.members = s.members ∧ t.stn = s.stn := by
  have hsixteenth : (saturate (s.commit.objections + 1) == Config.congestedLimit && s.commit.congestedArmed) = s.sixteenth :=
    congrArg (· && s.commit.congestedArmed) (saturate_beq _ (by decide))
  obtain ⟨-, hcommit, -⟩ := s.freeProvisional_spec
  unfold State.senderObjected
  simp only [hcommit, hsixteenth]
  split
  · refine ⟨?_, ?_, ?_, State.postReport_port_congr (by simp) _, ⟨?_, ?_, ?_⟩, ?_, ?_, ?_⟩ <;>
      simp [LineBlock.standBack_eq_yielded, saturate, Config.countTop]
  · refine ⟨?_, ?_, ?_, ?_, ⟨?_, ?_, ?_⟩, ?_, ?_, ?_⟩ <;>
      simp [LineBlock.standBack_eq_yielded, saturate, Config.countTop]

/-- What an objected window leaves at the sender, STALE or not (R50 to R52). -/
theorem State.senderWindowEnd_objected (s : State) {w : Window} (h : w.objected = true) : let t := s.senderWindowEnd w
    t.line = s.line.yielded ∧ t.counters = { s.counters with ownObjected := s.counters.ownObjected + 1 }
    ∧ t.commit = { provisional := none, objections := min (s.commit.objections + 1) 255
                   congestedArmed := s.commit.congestedArmed && !s.sixteenth
                   congested := s.commit.congested || s.sixteenth
                   catchingUp := s.commit.catchingUp || w.stale }
    ∧ t.send = { s.send with catchUp := if w.stale then some (s.rx.count + 1) else s.send.catchUp }
    ∧ t.port = (if w.stale then
        (if s.sixteenth then s.postReport (.congested 16) else s).postReport (.staleSender w.number s.rx.count)
        else if s.sixteenth then s.postReport (.congested 16) else s).port
    ∧ (t.rx = s.freeProvisional.rx ∧ t.gaps = s.freeProvisional.gaps ∧ t.pool = s.freeProvisional.pool)
    ∧ t.members = s.members ∧ t.stn = s.stn := by
  obtain ⟨hline, hcounters, hcommit, hport, ⟨hrx, hgaps, hpool⟩, hsend, hmembers, hstn⟩ := s.senderObjected_spec
  have hcount : s.senderObjected.rx.count = s.rx.count := by rw [hrx]; simp
  intro t
  cases hst : w.stale with
  | false =>
    have ht : t = s.senderObjected := by simp [t, State.senderWindowEnd, h, hst]
    rw [ht]
    simp [hline, hcounters, hcommit, hport, hrx, hgaps, hpool, hsend, hmembers, hstn]
  | true =>
    have ht : t = s.senderObjected.senderStale w.number := by simp [t, State.senderWindowEnd, h, hst]
    have hreport : t.port = ((if s.sixteenth then s.postReport (.congested 16) else s).postReport
        (.staleSender w.number s.rx.count)).port := by
      rw [ht, State.senderStale, hcount]
      exact State.postReport_port_congr (by exact hport) _
    refine ⟨?_, ?_, ?_, ?_, hreport, ⟨?_, ?_, ?_⟩, ?_, ?_⟩
    all_goals simp [ht, State.senderStale, hline, hcounters, hcommit, hrx, hgaps, hpool, hsend, hmembers, hstn]

/-- Settles O36: the objection on the station whose frame is over. -/
theorem senderObjected : Obligations.SenderObjected := by
  intro s w hs hw hr ho hn sixteenth posted
  let u := s.frameOver
  obtain ⟨hline, hcounters, hcommit, hsend, hport, ⟨hrx, hgaps, hpool⟩, hmembers, hstn⟩ := u.senderWindowEnd_objected ho
  have hexec := exec_windowEndSender hs hw hr
  rw [State.takeHeld_of_nothing (by rw [NothingHeld, hstn]; exact hn)] at hexec
  obtain ⟨hnone, hsome⟩ := u.freeProvisional_storage
  refine ⟨_, hexec, AttnFollows_settleAttn _, hline, hcounters, hcommit, hsend, hport.trans ?port, ?count, hmembers, hstn,
    (HandedOn_freeProvisional u).congr rfl rfl rfl rfl hrx hgaps, fun hp => ?_, fun own hown => ?_⟩
  case port =>
    have hposted : (if u.sixteenth then u.postReport (.congested 16) else u).port = posted.port := by
      change (if sixteenth = true then u.postReport (.congested 16) else u).port = posted.port
      rw [apply_ite State.port, apply_ite State.port, State.postReport_port_congr (s := u) (t := s) rfl]
      rfl
    cases w.stale with
    | false => exact hposted
    | true => exact State.postReport_port_congr hposted _
  case count => exact (congrArg RxBlock.count hrx).trans (by simp [u, State.frameOver])
  · obtain ⟨h1, h2, h3⟩ := hnone hp
    exact ⟨hrx.trans h1, hgaps.trans h2, hpool.trans h3⟩
  · obtain ⟨hcells, hrest⟩ := hsome own hown
    refine ⟨(congrArg PoolBlock.freeCells hpool).trans hcells, fun hnothing => ?_⟩
    obtain ⟨h1, h2, h3⟩ := hrest hnothing
    exact ⟨hrx.trans h1, hgaps.trans h2, hpool.trans h3⟩

end Sys2Proof.Machine
end

