-- ==== Sys2Proof/Proofs/HeldEvents.lean ====
section
/-!
PROOF. What was held for the end of an own frame or of a window is taken there (R28, R30, R141, R144).
-/

namespace Sys2Proof.Machine

/-! ### A held LEAVE and a held join expiry -/

/-- A station whose held LEAVE was taken (R144). -/
def State.LeaveTaken (t : State) : Prop :=
  t.stn.state = .leaving ∧ t.stn.leaveHeld = false ∧ t.stn.joinExpiryHeld = false ∧ t.stn.beaconDue = true
    ∧ t.stn.joinTimer = .stopped ∧ t.stn.beaconTimer = .stopped

/-- A station whose held join expiry was taken (R141); `s` gives the configuration. -/
def State.JoinFailed (s t : State) : Prop :=
  t.stn.state = .listen ∧ t.stn.joinExpiryHeld = false ∧ t.stn.beaconDue = false ∧ t.stn.joinTimer = .stopped
    ∧ t.stn.beaconTimer = .stopped
    ∧ t.stn.listenTimer = .running (s.cfg.listenMultiple * s.cfg.beaconInterval)
    ∧ t.rx.holdSet = [] ∧ t.rx.known = 0 ∧ t.gaps = []

/-- The port after a join failure, its reports posted on the port of `u` (R141). -/
def State.joinFailedPort (u : State) (beacons : Nat) (previous : StationState) : PortBlock :=
  ((u.postReport (.joinUnanswered beacons)).postReport (.stateChange previous .listen .joinFailure)).port

section
variable {s u v : State}

theorem State.takeHeld_leaves (h : u.stn.leaveHeld = true) : u.takeHeld.settleAttn.LeaveTaken := by
  rw [State.takeHeld_of_leave h]
  simp [State.LeaveTaken]

theorem State.takeHeld_leaves_port (h : u.stn.leaveHeld = true) (hport : u.port = v.port) :
    u.takeHeld.settleAttn.port = (v.postReport (.stateChange u.stn.state .leaving .leaveCommand)).port := by
  rw [State.takeHeld_of_leave h]
  exact u.enterLeaving_port.trans (State.postReport_port_congr hport _)

theorem State.takeHeld_fails (hl : u.stn.leaveHeld = false) (hj : u.stn.joinExpiryHeld = true) (hc : u.cfg = s.cfg) :
    s.JoinFailed u.takeHeld.settleAttn := by
  obtain ⟨hstn, hheld, hknown, hgaps, -⟩ := u.joinFailure_spec
  rw [State.takeHeld_of_join hl hj]
  refine ⟨?_, ?_, ?_, ?_, ?_, ?_, hheld, hknown, hgaps⟩ <;> simp only [State.settleAttn_stn, hstn, hc]

theorem State.takeHeld_fails_port (hl : u.stn.leaveHeld = false) (hj : u.stn.joinExpiryHeld = true) (hport : u.port = v.port) :
    u.takeHeld.settleAttn.port = v.joinFailedPort u.stn.joinBeacons u.stn.state := by
  obtain ⟨-, -, -, -, -, -, hreports⟩ := u.joinFailure_spec
  rw [State.takeHeld_of_join hl hj]
  exact hreports.trans (State.postReport_port_congr (State.postReport_port_congr hport _) _)

end

/-! ### The end of an own frame -/

section
variable {s : State} {f : OwnFrame}

/-- The station right after a collision, for what is held (R28, R29). -/
theorem State.afterCollision_held (s : State) (f : OwnFrame) : let u := (s.collided f).afterCollision f.candidate
    u.stn = s.stn ∧ u.cfg = s.cfg
      ∧ u.port = (if s.line.eighthCollision then s.postReport (.collisions (Frame.kind f.frame) 8) else s).port := by
  refine ⟨by simp [State.collided], State.cfg_congr (by simp [State.collided]), ?_⟩
  rw [apply_ite State.port]
  simp [State.collided]

/-- The owner's part for a frame that has no window and takes the station nowhere: the line interface, the port and what is
held stay. -/
theorem State.tellOwner_held (s : State) (f : OwnFrame) (hnotice : ∀ tag, f.candidate ≠ .notice tag)
    (hleave : ∀ h v w, f.candidate = .dueBeacon → f.frame ≠ .beacon h .leave v w) : let u := s.tellOwner f
    (u.line = s.line ∧ u.port = s.port ∧ u.cfg = s.cfg)
    ∧ (u.stn.state = s.stn.state ∧ u.stn.leaveHeld = s.stn.leaveHeld ∧ u.stn.joinExpiryHeld = s.stn.joinExpiryHeld)
    ∧ ((∀ h v w, f.candidate = .dueBeacon → f.frame ≠ .beacon h .join v w) → u.stn.joinBeacons = s.stn.joinBeacons)
    ∧ ∀ h v w, f.candidate = .dueBeacon → f.frame = .beacon h .join v w →
        u.stn.joinBeacons = min (s.stn.joinBeacons + 1) 255 := by
  intro u
  cases hc : f.candidate with
  | notice tag => exact absurd hc (hnotice tag)
  | gap id =>
    have hu : u = _ := State.tellOwner_gap hc
    rw [hu]
    exact ⟨⟨rfl, rfl, rfl⟩, ⟨rfl, rfl, rfl⟩, fun _ => rfl, fun h v w hno => nomatch hno⟩
  | catchUp =>
    have hu : u = _ := State.tellOwner_catchUp hc
    rw [hu]
    exact ⟨⟨rfl, rfl, rfl⟩, ⟨rfl, rfl, rfl⟩, fun _ => rfl, fun h v w hno => nomatch hno⟩
  | replay tag =>
    have hu : u = _ := State.tellOwner_replay hc
    have hstn : u.stn = s.stn := by rw [hu]; simp [State.replaySent]
    refine ⟨⟨?_, ?_, State.cfg_congr (by rw [hstn])⟩, by rw [hstn]; exact ⟨rfl, rfl, rfl⟩, fun _ => by rw [hstn],
      fun h v w hno => nomatch hno⟩
    · rw [hu]; simp [State.replaySent]
    · rw [hu]; simp [State.replaySent]
  | dueBeacon =>
    by_cases hjoin : ∃ h v w, f.frame = .beacon h .join v w
    · obtain ⟨h, v, w, hframe⟩ := hjoin
      have hu : u = _ := State.tellOwner_join hc hframe
      rw [hu]
      exact ⟨⟨rfl, rfl, rfl⟩, ⟨rfl, rfl, rfl⟩, fun hno => absurd hframe (hno h v w rfl), fun _ _ _ _ _ => rfl⟩
    · have hu : u = _ := State.tellOwner_due hc (fun h v w hf => hjoin ⟨h, v, w, hf⟩) (fun h v w => hleave h v w hc)
      rw [hu]
      exact ⟨⟨rfl, rfl, rfl⟩, ⟨rfl, rfl, rfl⟩, fun _ => rfl, fun h v w _ hf => absurd ⟨h, v, w, hf⟩ hjoin⟩

/-- The event of a sent frame without a window, for what is held: the owner's part with its station flags and port. -/
theorem exec_frameSent_held (hs : Live s) (hf : s.line.ownFrame = some f) (hu : f.sent = false)
    (hnotice : ∀ tag, f.candidate ≠ .notice tag)
    (hleave : ∀ h v w, f.candidate = .dueBeacon → f.frame ≠ .beacon h .leave v w) : ∃ u : State,
      exec .frameSent s = .next u.takeHeld.settleAttn ∧ u.port = s.port ∧ u.cfg = s.cfg
      ∧ (u.stn.state = s.stn.state ∧ u.stn.leaveHeld = s.stn.leaveHeld ∧ u.stn.joinExpiryHeld = s.stn.joinExpiryHeld)
      ∧ ((∀ h v w, f.candidate = .dueBeacon → f.frame ≠ .beacon h .join v w) → u.stn.joinBeacons = s.stn.joinBeacons)
      ∧ ∀ h v w, f.candidate = .dueBeacon → f.frame = .beacon h .join v w →
          u.stn.joinBeacons = min (s.stn.joinBeacons + 1) 255 := by
  obtain ⟨⟨hline, hport, hcfg⟩, ⟨hstate, hleaveHeld, hjoinHeld⟩, hsame, hcounted⟩ := s.noteSent.tellOwner_held f hnotice hleave
  have hstn : s.noteSent.stn = s.beaconRestarted := by rw [s.noteSent_eq]
  obtain ⟨hst, -, -, hl, hj, hb⟩ := s.beaconRestarted_kept
  rw [hstn] at hstate hleaveHeld hjoinHeld hsame hcounted
  rw [hb] at hsame hcounted
  refine ⟨s.noteSent.tellOwner f, ?_, hport.trans s.noteSent_port, hcfg.trans s.noteSent_cfg,
    ⟨hstate.trans hst, hleaveHeld.trans hl, hjoinHeld.trans hj⟩, hsame, hcounted⟩
  have hnone : (s.noteSent.tellOwner f).line.ownFrame.isSome = false := by rw [hline, s.noteSent_line]; rfl
  rw [exec_frameSent hs hf hu, State.takeHeldUnlessWindow, hnone]
  rfl

end

/-! ### The end of a window -/

section
variable {s : State} {w : Window} {n : LineNo}

/-- The count after a commit, and the port after a commit in order: the horizon's reports (R15, R42, R48). -/
theorem State.takeCommitted_count (s : State) (n : LineNo) : (s.takeCommitted n).rx.count = n := by
  rcases s.takeCommitted_cases n with ⟨p, -, ht⟩ | ⟨-, ht⟩ <;> rw [ht] <;> simp [State.raiseCount_count]

theorem State.takeCommitted_port (hn : n = s.rx.count + 1) :
    (s.takeCommitted n).port = (s.postReports (s.horizonReports n)).port := by
  rcases s.takeCommitted_cases n with ⟨p, -, ht⟩ | ⟨-, ht⟩
  · rw [ht, State.raiseCount_one (s := s) (by simpa using hn) (by simp) (by simp) (by simp) (by simp) (by simp)]
    simp
  · rw [ht, State.raiseCount_one (s := s) (by simpa using hn) (by simp) (by simp) (by simp) (by simp) (by simp)]
    simp

/-- Where a resync is refused or not, what is held for a LEAVE stays held (R143, R144). -/
theorem State.refuseCommitted_leaveHeld (s : State) (n : LineNo) :
    (s.refuseCommitted n).stn.leaveHeld = s.stn.leaveHeld := by
  unfold State.refuseCommitted State.spanResync
  split
  · obtain ⟨-, -, -, -, -, -, -, -, -, hstn, -⟩ := s.resync_spec .resyncSpan .resyncSpan n
    rw [hstn]
  · simp

/-- The port of a resync: the horizon's reports and the STATE report (R15, R143). -/
theorem State.resync_port {s u : State} (hm : u.members = s.members) (hst : u.stn = s.stn) (hp : u.port = s.port) (n : LineNo) :
    (u.resync .resyncSpan .resyncSpan n).port
      = ((s.postReports (s.horizonReports n)).postReport (.stateChange s.stn.state .joining .resyncSpan)).port := by
  obtain ⟨-, -, hport⟩ := u.resync_horizon .resyncSpan .resyncSpan n
  rw [hport, (State.horizon_congr hm n).2, hst]
  exact State.postReport_port_congr (State.postReports_port_congr hp _) _

/-- A clean window at the sender, whether or not its queue has a head: the commit or the refusal on a station that stores, holds
and shows what `s` does. -/
theorem State.senderWindowEnd_from (hclean : w.objected = false) : ∃ u : State,
    (u.rx = s.rx ∧ u.members = s.members ∧ u.stn = s.stn ∧ u.port = s.port)
    ∧ (s.ahead w.number ≤ 256 → s.frameOver.senderWindowEnd w = u.takeCommitted w.number)
    ∧ (256 < s.ahead w.number → s.frameOver.senderWindowEnd w = u.refuseCommitted w.header.count) := by
  let u := ((s.frameOver.retainHead w.number).clearObjections).releaseIfAlone
  have hrx : u.rx = s.rx := by simp [u, State.frameOver]
  have hcommits : s.frameOver.senderWindowEnd w
      = if u.spanRefuses w.number then u.refuseCommitted w.header.count else u.takeCommitted w.number := by
    rw [State.senderWindowEnd, hclean]
    rfl
  have hahead : u.ahead w.number = s.ahead w.number := ahead_congr (by rw [hrx]) _
  refine ⟨u, ⟨hrx, by simp [u, State.frameOver], by simp [u, State.frameOver], by simp [u, State.frameOver]⟩,
    fun hspan => ?_, fun hspan => ?_⟩
  · rw [hcommits, State.spanRefuses_eq_false (by rw [hahead]; exact hspan)]
    exact if_neg Bool.false_ne_true
  · rw [hcommits, State.spanRefuses_eq_true (by rw [hahead]; exact hspan)]
    exact if_pos rfl

/-- The port at the end of an objected window of the own frame (R51, R52). -/
def State.objectedAt (s : State) (w : Window) : State :=
  let u := if s.sixteenth then s.postReport (.congested 16) else s
  if w.stale then u.postReport (.staleSender w.number s.rx.count) else u

/-- The station at the end of its own frame's window, for what is held: it is where it was, but for a resync. -/
theorem State.senderWindowEnd_held (h : w.objected = true ∨ s.ahead w.number ≤ 256) :
    let u := s.frameOver.senderWindowEnd w
    u.stn = s.stn ∧ u.cfg = s.cfg
    ∧ (w.objected = true → u.port = (s.objectedAt w).port)
    ∧ (w.objected = false → w.number = s.rx.count + 1 → u.port = (s.postReports (s.horizonReports w.number)).port) := by
  intro u
  cases ho : w.objected with
  | true =>
    obtain ⟨-, -, -, -, hport, -, -, hstn⟩ := s.frameOver.senderWindowEnd_objected ho
    have hposted : (if s.frameOver.sixteenth then s.frameOver.postReport (.congested 16) else s.frameOver).port
        = (if s.sixteenth then s.postReport (.congested 16) else s).port := by
      rw [apply_ite State.port, apply_ite State.port, State.postReport_port_congr (s := s.frameOver) (t := s) rfl]
      rfl
    refine ⟨hstn, State.cfg_congr (congrArg StationBlock.config hstn), fun _ => hport.trans ?_, fun hno => nomatch hno⟩
    unfold State.objectedAt
    cases w.stale with
    | false => exact hposted
    | true => exact State.postReport_port_congr hposted _
  | false =>
    obtain ⟨v, ⟨hrx, hmembers, hstn, hport⟩, hcommits, -⟩ := State.senderWindowEnd_from (s := s) ho
    have hu : u = v.takeCommitted w.number := hcommits (h.resolve_left (by simp [ho]))
    have hustn : u.stn = s.stn := by rw [hu, ← hstn]; simp
    refine ⟨hustn, State.cfg_congr (by rw [hustn]), fun hno => absurd hno Bool.false_ne_true, fun _ hnumber => ?_⟩
    rw [hu, State.takeCommitted_port (by rw [hrx]; exact hnumber), (State.horizon_congr hmembers _).2]
    exact State.postReports_port_congr hport _

/-- The station at the end of a received NOTICE frame's window, for what is held. -/
theorem State.receiverWindowEnd_held (h : w.objected = true ∨ s.ahead w.number ≤ 256) :
    let u := s.closeWindow.receiverWindowEnd w
    u.stn = s.stn ∧ u.cfg = s.cfg ∧ u.rx.count = (if w.objected = true then s.rx.count else w.number)
    ∧ (w.objected = true → u.port = s.port)
    ∧ (w.objected = false → w.number = s.rx.count + 1 → u.port = (s.postReports (s.horizonReports w.number)).port) := by
  intro u
  cases ho : w.objected with
  | true =>
    have hu : u = s.closeWindow.freeProvisional := s.closeWindow.receiverWindowEnd_objected ho
    have hstn : u.stn = s.stn := by rw [hu]; simp
    exact ⟨hstn, State.cfg_congr (by rw [hstn]), by rw [hu]; simp, fun _ => by rw [hu]; simp, fun hno => nomatch hno⟩
  | false =>
    have hu : u = s.closeWindow.takeCommitted w.number :=
      State.receiverWindowEnd_clean (s := s.closeWindow) ho (h.resolve_left (by simp [ho]))
    have hstn : u.stn = s.stn := by rw [hu]; simp
    refine ⟨hstn, State.cfg_congr (by rw [hstn]), hu ▸ State.takeCommitted_count _ _, fun hno => absurd hno Bool.false_ne_true,
      fun _ hnumber => ?_⟩
    rw [hu, State.takeCommitted_port (s := s.closeWindow) hnumber]
    exact State.postReports_port_congr (s := s.closeWindow) (t := s) rfl _

end

/-- Settles O30: the station at each end, with its flags and its port, and then `State.takeHeld_leaves` or `State.takeHeld_fails`. -/
theorem heldEventsTakenAtTheEnd : Obligations.HeldEventsTakenAtTheEnd := by
  intro s hs left failed joinFailed objectedAt rises refused lost
  refine ⟨fun f hf hu => ⟨fun hl => ?collisionLeaves, fun hl hj => ?collisionFails⟩,
    fun f hf hu hnotice hbeacon => ⟨fun hl => ?sentLeaves, fun hl hj => ?sentFails⟩,
    fun f tag h b hf hu hc hframe => ?noticeSent,
    fun w hw hr => ⟨fun hl => ?senderLeaves, fun hl hj hstays => ?senderFails⟩,
    fun w hw hr hl hj => ⟨fun hstays => ?receiverFails, fun hclean hspan hst => ?receiverResyncs⟩⟩
  case collisionLeaves =>
    obtain ⟨hstn, -, hport⟩ := s.afterCollision_held f
    have hheld := (congrArg StationBlock.leaveHeld hstn).trans hl
    refine ⟨_, exec_collision hs hf hu, State.takeHeld_leaves hheld, ?_⟩
    rw [State.takeHeld_leaves_port hheld hport, hstn]
  case collisionFails =>
    obtain ⟨hstn, hcfg, hport⟩ := s.afterCollision_held f
    have hleave := (congrArg StationBlock.leaveHeld hstn).trans hl
    have hjoin := (congrArg StationBlock.joinExpiryHeld hstn).trans hj
    refine ⟨_, exec_collision hs hf hu, State.takeHeld_fails hleave hjoin hcfg, ?_⟩
    rw [State.takeHeld_fails_port hleave hjoin hport, hstn]
    rfl
  case sentLeaves =>
    obtain ⟨u, hexec, hport, -, ⟨hstate, hleave, -⟩, -⟩ := exec_frameSent_held hs hf hu hnotice hbeacon
    refine ⟨_, hexec, State.takeHeld_leaves (hleave.trans hl), ?_⟩
    rw [State.takeHeld_leaves_port (hleave.trans hl) hport, hstate]
  case sentFails =>
    obtain ⟨u, hexec, hport, hcfg, ⟨hstate, hleave, hjoin⟩, hsame, hcounted⟩ := exec_frameSent_held hs hf hu hnotice hbeacon
    have hreports := State.takeHeld_fails_port (hleave.trans hl) (hjoin.trans hj) hport
    rw [hstate] at hreports
    refine ⟨_, hexec, State.takeHeld_fails (hleave.trans hl) (hjoin.trans hj) hcfg, fun hno => ?_, fun h v w hc hframe => ?_⟩
    · rw [hreports, hsame hno]; rfl
    · rw [hreports, hcounted h v w hc hframe]; rfl
  case noticeSent =>
    have hexec := exec_frameSent hs hf hu
    rw [State.tellOwner_notice hc hframe, s.noteSent_eq] at hexec
    exact ⟨_, hexec, by simp [State.takeHeldUnlessWindow], by simp [State.takeHeldUnlessWindow],
      by simp [State.takeHeldUnlessWindow], by simp [State.takeHeldUnlessWindow]⟩
  case senderLeaves =>
    have hexec := exec_windowEndSender hs hw hr
    by_cases hstays : w.objected = true ∨ s.ahead w.number ≤ 256
    · obtain ⟨hstn, -, hobjected, hclean⟩ := State.senderWindowEnd_held hstays
      have hleave := (congrArg StationBlock.leaveHeld hstn).trans hl
      have hports {v : State} (hp : (s.frameOver.senderWindowEnd w).port = v.port) :
          (s.frameOver.senderWindowEnd w).takeHeld.settleAttn.port
            = (v.postReport (.stateChange s.stn.state .leaving .leaveCommand)).port := by
        rw [State.takeHeld_leaves_port hleave hp, hstn]
      refine ⟨_, hexec, State.takeHeld_leaves hleave, fun ho => hports (hobjected ho),
        fun ⟨ho, _, hnumber⟩ => hports (hclean ho hnumber), fun ⟨ho, hspan⟩ _ => absurd hstays ?_⟩
      simp [ho, hspan]
    · obtain ⟨hno, hspan⟩ := not_or.mp hstays
      have ho : w.objected = false := by simpa using hno
      obtain ⟨u, ⟨-, hmembers, hstn, hport⟩, -, hrefused⟩ := State.senderWindowEnd_from (s := s) ho
      rw [hrefused (Nat.lt_of_not_le hspan)] at hexec
      have hleave : (u.refuseCommitted w.header.count).stn.leaveHeld = true := by rw [State.refuseCommitted_leaveHeld, hstn, hl]
      refine ⟨_, hexec, State.takeHeld_leaves hleave, fun h => absurd h hno, fun ⟨_, h, _⟩ => absurd h hspan, fun _ hst => ?_⟩
      rw [State.takeHeld_leaves_port hleave rfl, State.refuseCommitted_resyncs _ (by rw [hstn]; exact hst)]
      obtain ⟨-, -, -, -, -, -, -, -, -, hjoins, -⟩ := u.resync_spec .resyncSpan .resyncSpan w.header.count
      rw [hjoins]
      exact State.postReport_port_congr (State.resync_port hmembers hstn hport w.header.count) _
  case senderFails =>
    obtain ⟨hstn, hcfg, hobjected, hclean⟩ := State.senderWindowEnd_held hstays
    have hleave := (congrArg StationBlock.leaveHeld hstn).trans hl
    have hjoin := (congrArg StationBlock.joinExpiryHeld hstn).trans hj
    have hports {v : State} (hp : (s.frameOver.senderWindowEnd w).port = v.port) :
        (s.frameOver.senderWindowEnd w).takeHeld.settleAttn.port = (joinFailed v s.stn.joinBeacons).port := by
      rw [State.takeHeld_fails_port hleave hjoin hp, hstn]; rfl
    exact ⟨_, exec_windowEndSender hs hw hr, State.takeHeld_fails hleave hjoin hcfg, fun ho => hports (hobjected ho),
      fun ⟨ho, _, hnumber⟩ => hports (hclean ho hnumber)⟩
  case receiverFails =>
    obtain ⟨hstn, hcfg, hcount, hobjected, hclean⟩ := State.receiverWindowEnd_held hstays
    have hleave := (congrArg StationBlock.leaveHeld hstn).trans hl
    have hjoin := (congrArg StationBlock.joinExpiryHeld hstn).trans hj
    have hports {v : State} (hp : (s.closeWindow.receiverWindowEnd w).port = v.port) :
        (s.closeWindow.receiverWindowEnd w).takeHeld.settleAttn.port = (joinFailed v s.stn.joinBeacons).port := by
      rw [State.takeHeld_fails_port hleave hjoin hp, hstn]; rfl
    obtain ⟨-, -, -, -, -, hcommit, -⟩ := (s.closeWindow.receiverWindowEnd w).joinFailure_spec
    refine ⟨_, exec_windowEndReceiver hs hw hr, State.takeHeld_fails hleave hjoin hcfg, ?_, ?_, fun ho => hports (hobjected ho),
      fun ⟨ho, _, hnumber⟩ => hports (hclean ho hnumber)⟩
    · rw [State.takeHeld_of_join hleave hjoin]
      exact congrArg CommitBlock.provisional hcommit
    · rw [State.takeHeld_of_join hleave hjoin, ← hcount]
      simp
  case receiverResyncs =>
    have hexec := exec_windowEndReceiver hs hw hr
    rw [State.receiverWindowEnd_refused (s := s.closeWindow) hclean hspan,
      State.refuseCommitted_resyncs (s := s.closeWindow) _ (Or.inl hst),
      State.takeHeld_of_nothing (NothingHeld_resync (s := s.closeWindow) hl ..)] at hexec
    obtain ⟨-, -, -, -, -, -, -, -, -, hstn, -⟩ := s.closeWindow.resync_spec .resyncSpan .resyncSpan w.header.count
    have hport := State.resync_port (s := s) (u := s.closeWindow) rfl rfl rfl w.header.count
    rw [hst] at hport
    exact ⟨_, hexec, congrArg StationBlock.state hstn, congrArg StationBlock.joinExpiryHeld hstn,
      congrArg StationBlock.joinTimer hstn, fun _ => hport⟩

end Sys2Proof.Machine
end

