-- ==== Sys2Proof/Proofs/FrameArrival.lean ====
section
/-!
PROOF. A valid frame's check pass (R22, R33, R146) and the header's part that every kind shares (R3, R12, R15, R149 to R151).
-/

namespace Sys2Proof.Machine

/-! ### The check pass -/

/-- What a valid frame does at a station in LISTEN, by its kind (R9). -/
def State.frameAdopts : Frame → State → State
  | .notice h b => fun s => s.openWindow .adopting h b.number false false
  | .replay h b => fun s => State.replayArrives h b (s.adopt h.count)
  | .resend h r => fun s => State.resendArrives h r (s.adopt h.count)
  | .beacon h kind view word => fun s => State.beaconArrives h kind view word (s.adopt h.count)

section
variable {s : State} {chars : List LineChar} {f : Frame} {h : Header} {adopting processing : State → State}

/-- The event of a valid frame, whatever its kind. -/
theorem exec_frameEvent (hs : Live s) (hf : readFrame chars = some f) : exec (frameEvent chars f) s
    = .next (s.receiveFrame (Frame.header f) (State.frameAdopts f) (State.frameArrives f)).settleAttn := by
  cases f with
  | notice h b => unfold frameEvent exec; refine (event_live hs.1).trans ?_; rw [hf]; rfl
  | replay h b => unfold frameEvent exec; refine (event_live hs.1).trans ?_; rw [hf]; rfl
  | resend h r => unfold frameEvent exec; refine (event_live hs.1).trans ?_; rw [hf]; rfl
  | beacon h kind view word => unfold frameEvent exec; refine (event_live hs.1).trans ?_; rw [hf]; rfl

theorem State.receiveFrame_own_leaving (hr : s.receiving = true) (hid : h.sender = s.line.id) (hst : s.stn.state = .leaving) :
    s.receiveFrame h adopting processing = s.arrival h := by
  simp [State.receiveFrame, State.endReception, hr, hid, hst, State.arrival]

theorem State.receiveFrame_own_halts (hr : s.receiving = true) (hid : h.sender = s.line.id) (hst : s.stn.state ≠ .leaving) :
    s.receiveFrame h adopting processing = (s.arrival h).halt := by
  simp [State.receiveFrame, State.endReception, hr, hid, State.arrival]

theorem State.receiveFrame_listen (hr : s.receiving = true) (hid : h.sender ≠ s.line.id) (hst : s.stn.state = .listen) :
    s.receiveFrame h adopting processing = adopting (s.heard h) := by
  simp [State.receiveFrame, State.endReception, hr, hid, hst, State.heard, State.arrival]

theorem State.receiveFrame_onLine (hr : s.receiving = true) (hid : h.sender ≠ s.line.id) (hst : s.stn.onLine = true) :
    s.receiveFrame h adopting processing = processing (s.arrival h) := by
  have hne : s.stn.state ≠ .listen := by
    obtain hst | hst | hst := (StationBlock.onLine_iff _).mp hst <;> simp [hst]
  simp [State.receiveFrame, State.endReception, hr, hid, State.arrival]

/-- A frame from another station at a station on the line, and in LISTEN. -/
theorem Arrives.exec_onLine (ha : Arrives s chars f) (hst : s.stn.onLine = true) :
    exec (frameEvent chars f) s = .next (State.frameArrives f (s.arrival (Frame.header f))).settleAttn := by
  obtain ⟨hs, hr, hf, hid⟩ := ha
  rw [exec_frameEvent hs hf, State.receiveFrame_onLine hr hid hst]

theorem Arrives.exec_listen (ha : Arrives s chars f) (hst : s.stn.state = .listen) :
    exec (frameEvent chars f) s = .next (State.frameAdopts f (s.heard (Frame.header f))).settleAttn := by
  obtain ⟨hs, hr, hf, hid⟩ := ha
  rw [exec_frameEvent hs hf, State.receiveFrame_listen hr hid hst]

end

/-- ATTN# is no part of what a station off the line holds. -/
theorem OffLineEmpty.settled {s : State} (h : OffLineEmpty s) : OffLineEmpty s.settleAttn :=
  h.congr rfl rfl rfl rfl rfl rfl rfl rfl rfl rfl

/-- Settles O45: in LEAVING the frame is dropped, elsewhere it halts the station after the DUPLICATE_ID report. -/
theorem duplicateNumberHalts : Obligations.DuplicateNumberHalts := by
  intro s chars f hs hr hf hid
  refine ⟨fun hst => ?leaving, fun hst => ?halts⟩
  case leaving =>
    rw [exec_frameEvent hs hf, State.receiveFrame_own_leaving hr hid hst, State.settleAttn_eq_self (by exact hs.2)]
  case halts =>
    have hexec := exec_frameEvent hs hf
    rw [State.receiveFrame_own_halts hr hid hst] at hexec
    let u := (s.arrival (Frame.header f)).postReport (.duplicateId s.line.id)
    have hhalt : (s.arrival (Frame.header f)).halt = u.quit.enterState .halted .duplicateId := rfl
    have hoff : OffLineEmpty (u.quit.enterState .halted .duplicateId) := hhalt ▸ OffLineEmpty_halt _
    have hline : u.line.id = s.line.id := by simp [u, State.arrival]
    rw [hhalt] at hexec
    have hport : u.port = (s.postReport (.duplicateId s.line.id)).port := State.postReport_port_congr (by rfl) _
    have hsend : u.send = s.send := by simp [u, State.arrival]
    have hrx : u.rx = s.rx := by simp [u, State.arrival]
    have hstn : u.stn = s.stn := by simp [u, State.arrival]
    have hpool : u.pool = s.pool := by simp [u, State.arrival]
    have hcommit : u.commit = s.commit := by simp [u, State.arrival]
    obtain ⟨hhalted, ⟨hrelease, htransmit, hpost⟩, ⟨htag, hcommitted, hreleased, hroom⟩, ⟨hcount, hsettled, hqueue⟩, hconfig, hword,
      hcounters⟩ := u.quit_enterState_kept .halted .duplicateId
    obtain ⟨hquiet, hdiscards⟩ := u.quit_enterState_port .halted .duplicateId
    rw [hsend, hstn] at hquiet hdiscards
    rw [hsend] at htag hcommitted hreleased hroom
    rw [hrx] at hcount hsettled hqueue
    rw [hstn] at hconfig hword
    refine ⟨_, hexec, AttnFollows_settleAttn _, hhalted, ?offLine, fun hout => (hquiet hout).trans ?quiet,
      fun n rest hout => (hdiscards n rest hout).trans ?discards, hcount, hsettled, hqueue, fun hp => ?freed,
      hcounters.trans ?counters, hconfig, hword, htag, hcommitted, hreleased, hroom, hrelease, htransmit, hpost, ?id⟩
    case offLine => exact hoff.settled
    case quiet => exact State.postReport_port_congr hport _
    case discards => exact State.postReport_port_congr (State.postReport_port_congr hport _) _
    case freed =>
      have hfreed := State.quit_enterState_freed (s := u) (hp.congr (by rw [hpool]) (by rw [hpool]) (by rw [hrx]) (by rw [hcommit]))
        .halted .duplicateId
      rw [ReceiveSideFreed, State.storedNotices, hrx, hpool, hcommit] at hfreed
      exact hfreed
    case counters => simp [u, State.arrival]
    case id => simp [hline]

/-! ### The member table -/

/-- The entry of a frame's sender once its header has been taken (R149, R150). -/
def Member.heard (m : Member) (h : Header) (presence : Nat) : Member :=
  { m with state := h.senderState, settled := h.settled, presence := .running presence }

/-- The entry of a sender that was not in the table (R149). -/
def Member.new (h : Header) (presence : Nat) : Member :=
  { station := h.sender, state := h.senderState, settled := h.settled, presence := .running presence, includedMe := false
    word := none }

section
variable {s : State} {h : Header} {leaving : Bool} {before after : List Member} {m : Member}

/-- A sender that is no member and may not become one changes nothing (R15, log 31). -/
theorem State.headerMember_ignores (hne : ∀ m ∈ s.members, m.station ≠ h.sender)
    (hgo : 16384 < distance h.settled s.rx.count ∨ leaving = true) : s.headerMember h leaving = s := by
  unfold State.headerMember
  rw [State.member_eq_none hne]
  by_cases hfar : beyondHorizon h.settled s.rx.count = true
  · rw [if_pos hfar]
  · rw [if_neg hfar, if_pos (hgo.resolve_left (mt (beyondHorizon_iff _ _).mpr hfar))]

/-- A member that goes: by the horizon, or by its LEAVE beacon (R15, R151). -/
theorem State.headerMember_goes (hsplit : s.members = before ++ m :: after) (hm : m.station = h.sender)
    (hothers : ∀ e ∈ before ++ after, e.station ≠ h.sender)
    (hgo : 16384 < distance h.settled s.rx.count ∨ leaving = true) :
    s.headerMember h leaving = (State.postReport { s with members := before ++ after }
      (if distance h.settled s.rx.count ≤ 16384 then .memberLeft h.sender else .memberLost h.sender .horizon)).evaluateRelease := by
  have hremoved : s.removeMember h.sender = { s with members := before ++ after } := by
    rw [State.removeMember, filter_station hsplit hm hothers]
  unfold State.headerMember
  rw [State.member_eq_some hsplit hm (fun e he => hothers e (List.mem_append_left _ he)), ← hremoved]
  by_cases hfar : beyondHorizon h.settled s.rx.count = true
  · rw [if_pos hfar, if_neg (Nat.not_le.mpr ((beyondHorizon_iff _ _).mp hfar))]
  · have hnear := mt (beyondHorizon_iff _ _).mpr hfar
    rw [if_neg hfar, if_pos (hgo.resolve_left hnear), if_pos (Nat.not_lt.mp hnear)]

/-- A member that stays takes the header's items; release is evaluated where its settled point moved (R78, R150). -/
theorem State.headerMember_stays (hsplit : s.members = before ++ m :: after) (hm : m.station = h.sender)
    (hothers : ∀ e ∈ before ++ after, e.station ≠ h.sender) (hnear : ¬16384 < distance h.settled s.rx.count) :
    s.headerMember h false = if m.settled = h.settled
      then { s with members := before ++ m.heard h s.presenceInterval :: after }
      else State.evaluateRelease { s with members := before ++ m.heard h s.presenceInterval :: after } := by
  have hupdated : (s.updateMember h.sender fun e => e.heard h s.presenceInterval)
      = { s with members := before ++ m.heard h s.presenceInterval :: after } := by
    rw [State.updateMember, map_station _ hsplit hm hothers]
  rw [← hupdated]
  unfold State.headerMember
  rw [State.member_eq_some hsplit hm (fun e he => hothers e (List.mem_append_left _ he)),
    if_neg (mt (beyondHorizon_iff _ _).mp hnear), if_neg Bool.false_ne_true]
  rfl

/-- A new member (R149). -/
theorem State.headerMember_joins (hne : ∀ m ∈ s.members, m.station ≠ h.sender)
    (hnear : ¬16384 < distance h.settled s.rx.count) :
    s.headerMember h false
      = State.postReport { s with members := insertMember (.new h s.presenceInterval) s.members } (.memberJoined h.sender) := by
  unfold State.headerMember
  rw [State.member_eq_none hne, if_neg (mt (beyondHorizon_iff _ _).mp hnear), if_neg Bool.false_ne_true]
  rfl

end

/-- Settles O38, by the four cases of `State.headerMember`. -/
theorem headerTakesTheMember : Obligations.HeaderTakesTheMember := by
  intro s h leaving
  refine ⟨by simp, fun hne hgo => State.headerMember_ignores hne hgo, fun before m after hsplit hm hothers =>
    ⟨fun hgo => ?goes, fun hnear hstay => ?stays⟩, fun hne hnear hstay => ?joins⟩
  case goes =>
    rw [State.headerMember_goes hsplit hm hothers hgo]
    refine ⟨by simp, State.evaluateRelease_send_congr (by simp) (by simp) (by simp) (by simp), ?_⟩
    rw [(State.evaluateRelease_frame _).2.2.2.2.2.2.2.2.1]
    exact State.postReport_port_congr (by rfl) _
  case stays =>
    rw [hstay, State.headerMember_stays hsplit hm hothers hnear]
    by_cases hsame : m.settled = h.settled
    · rw [if_pos hsame]
      exact ⟨rfl, rfl, fun _ => rfl, fun hne => absurd hsame hne⟩
    · rw [if_neg hsame]
      refine ⟨by simp [Member.heard, State.presenceInterval], by simp, fun heq => absurd heq hsame, fun _ => ?_⟩
      exact State.evaluateRelease_send_congr rfl (by simp) rfl rfl
  case joins =>
    obtain ⟨before, after, hmembers, hinsert, hbefore, hafter⟩ := insertMember_split (.new h s.presenceInterval) s.members
    rw [hstay, State.headerMember_joins hne hnear]
    refine ⟨State.postReport_port_congr (by rfl) _, by simp, before, after, hmembers, by rw [State.postReport_eq]; exact hinsert,
      fun e he => ?_, fun hsound => hafter hsound.1⟩
    have hstation : e.station ≠ h.sender := hne e (hmembers ▸ List.mem_append_left _ he)
    exact lt_of_le_of_ne (hbefore e he) fun heq => hstation (BitVec.eq_of_toNat_eq heq)

/-! ### The header count -/

/-- The delivery advance rests where it did before. -/
theorem AdvanceRests.congr {s t : State} (hs : AdvanceRests s) (hrx : t.rx = s.rx) (hgaps : t.gaps = s.gaps)
    (hpool : t.pool = s.pool) : AdvanceRests t := by
  unfold AdvanceRests State.knownAt State.lostAt at *
  rwa [hrx, hgaps, hpool]

/-- A gap table with a free entry, or whose newest entry is not LOST, does not overflow (R116). -/
theorem State.gapOverflows_eq_false {s : State}
    (h : s.gaps.length < 8 ∨ ∃ before e, s.gaps = before ++ [e] ∧ e.state ≠ .lost) : s.gapOverflows = false := by
  rw [State.gapOverflows, Bool.and_eq_false_iff]
  obtain h | ⟨before, e, hsplit, hlive⟩ := h
  · exact .inl (decide_eq_false (Nat.not_le.mpr h))
  · exact .inr (by simp [hsplit, hlive])

theorem unordered_of_follows {a b : LineNo} (h : follows a b = true) : unordered a b = false := by
  simp only [follows, unordered, Bool.and_eq_true, decide_eq_true_eq, decide_eq_false_iff_not] at *
  omega

section
variable {s : State} {h : Header} {leaving : Bool}

theorem State.headerProcess_refused (hn : unordered s.rx.count h.count = true
      ∨ follows s.rx.count h.count = true ∧ 256 < s.ahead h.count) :
    s.headerProcess h leaving = ((s.headerMember h leaving).spanResync h.count, false) := by
  have hrx : (s.headerMember h leaving).rx = s.rx := by simp
  unfold State.headerProcess State.spanRefuses
  dsimp only
  rw [hrx]
  exact if_pos (by rw [Bool.or_eq_true, Bool.and_eq_true, decide_eq_true_eq]; exact hn)

theorem State.headerProcess_rises (hf : follows s.rx.count h.count = true) (hspan : s.ahead h.count ≤ 256) :
    s.headerProcess h leaving = ((s.headerMember h leaving).raiseCount h.count h.count, true) := by
  have hrx : (s.headerMember h leaving).rx = s.rx := by simp
  have hspan' : ((s.headerMember h leaving).spanRefuses h.count) = false :=
    State.spanRefuses_eq_false (by rw [State.ahead, hrx]; exact hspan)
  unfold State.headerProcess
  dsimp only
  rw [hspan', hrx, unordered_of_follows hf, hf]
  rfl

theorem State.headerProcess_quiet (hf : follows s.rx.count h.count = false) (hu : unordered s.rx.count h.count = false) :
    s.headerProcess h leaving = (s.headerMember h leaving, true) := by
  have hrx : (s.headerMember h leaving).rx = s.rx := by simp
  unfold State.headerProcess
  dsimp only
  rw [hrx, hf, hu]
  rfl

/-- A refused header count at a LEAVING station, and at one that can resync (R12). -/
theorem State.spanResync_leaving (hst : s.stn.state = .leaving) (n : LineNo) : s.spanResync n = s :=
  if_neg (by simp [StationBlock.joinedOrActive, hst])

theorem State.spanResync_resyncs (hon : s.stn.onLine = true) (hst : s.stn.state ≠ .leaving) (n : LineNo) :
    s.spanResync n = s.resync .resyncSpan .resyncSpan n := by
  have hstates := (StationBlock.onLine_iff _).mp hon
  exact if_pos ((StationBlock.joinedOrActive_iff _).mpr (by tauto))

end

/-- Settles O39, by the three cases of `State.headerProcess`; what a rise does is `State.raiseCount_spec`. -/
theorem headerCountRaises : Obligations.HeaderCountRaises := by
  intro s h leaving hon m t
  have hrx : m.rx = s.rx := by simp [m]
  have hgaps : m.gaps = s.gaps := by simp [m]
  have hpool : m.pool = s.pool := by simp [m]
  have hstn : m.stn = s.stn := by simp [m]
  have hcfg : m.cfg = s.cfg := by simp [m]
  refine ⟨fun hf hu => State.headerProcess_quiet hf hu, fun hn => ?refused, fun hf hspan => ?rises⟩
  case refused =>
    have heq : t = (m.spanResync h.count, false) := State.headerProcess_refused hn
    rw [heq]
    exact ⟨rfl, fun hst => State.spanResync_leaving (hstn ▸ hst) _,
      fun hst => State.spanResync_resyncs (hstn ▸ hon) (hstn ▸ hst) _⟩
  case rises =>
    have heq : t = (m.raiseCount h.count h.count, true) := State.headerProcess_rises hf hspan
    have hreach (hs : OrderSound s) : m.ahead m.rx.count ≤ m.ahead h.count := by
      rw [State.ahead, State.ahead, hrx]
      exact (ahead_of_follows hs hf (State.spanRefuses_eq_false hspan)).1.le
    have hback (hm : OrderSound m) : OrderSound s := hm.congr (by simp [SameOrder, m])
    rw [heq]
    refine ⟨rfl, State.raiseCount_spec fun hm => hreach (hback hm), by simp [m], by simp [m], by simp [m], by simp [m],
      by simp [m], by simp [m], ?backlog, fun hroom => ?rx⟩
    case backlog =>
      have happends := (Appends_raiseCount m h.count h.count).2.2
      rw [hrx] at happends
      exact happends.congr (by rw [hrx]) hcfg.symm rfl rfl
    case rx =>
      rw [← hrx, ← hpool]
      rw [← hgaps] at hroom
      by_cases hover : m.gapOverflows = false
      · obtain ⟨hraised, hsame, -⟩ := State.raiseCount_rx (n := h.count) (.inr (.inl hover))
        exact ⟨hraised, hsame⟩
      · obtain hfew | hlive | ⟨hs, hrest⟩ := hroom
        · exact absurd (State.gapOverflows_eq_false (.inl hfew)) hover
        · exact absurd (State.gapOverflows_eq_false (.inr hlive)) hover
        · have hm : OrderSound m := hs.congr (by simp [SameOrder, m])
          exact (AdvanceRests_raiseCount hm.gapsBefore hm.2.2.2.2.2.2.2 (hrest.congr hrx hgaps hpool) (hreach hs)).2

end Sys2Proof.Machine
end

