-- ==== Sys2Proof/Proofs/FrameKinds.lean ====
section
/-!
PROOF. What RESEND, REPLAY and BEACON frames do once their header is processed (R84, R96, R100, R126, R128, R154 to R158).
-/

namespace Sys2Proof.Machine

/-! ### After the header -/

/-- What a frame of each kind does once its header has been processed (R38, R84, R96, R126, R154). -/
def State.frameTaken : Frame → State → State
  | .notice h b => fun t => t.decideNotice h b
  | .replay h b => fun t => t.classifyReplay h b
  | .resend _ r => fun t => (t.suppress r).markReplays r
  | .beacon h kind view word => fun t =>
    if kind == .leave || t.stn.state == .leaving then t else (t.takeWord h.sender word).takeView h kind view

theorem State.beaconArrives_eq (s : State) (h : Header) (kind : BeaconKind) (view : Set32) (word : Word16) :
    State.beaconArrives h kind view word s =
      if !(s.headerProcess h (kind == .leave)).2 || kind == .leave
          || (s.headerProcess h (kind == .leave)).1.stn.state == .leaving then (s.headerProcess h (kind == .leave)).1
      else ((s.headerProcess h (kind == .leave)).1.takeWord h.sender word).takeView h kind view := rfl

/-- A frame whose header count was refused is taken no further (R12). -/
theorem State.frameArrives_refused {f : Frame} {s : State}
    (h : (s.headerProcess (Frame.header f) (Frame.leaves f)).2 = false) :
    State.frameArrives f s = (s.headerProcess (Frame.header f) (Frame.leaves f)).1 := by
  cases f with
  | notice hd b => exact if_neg (Bool.eq_false_iff.mp h)
  | replay hd b => exact if_neg (Bool.eq_false_iff.mp h)
  | resend hd r => exact if_neg (Bool.eq_false_iff.mp h)
  | beacon hd kind view word =>
    have hstop : (s.headerProcess hd (kind == .leave)).2 = false := h
    exact (s.beaconArrives_eq hd kind view word).trans (if_pos (by rw [hstop]; rfl))

theorem State.frameArrives_taken {f : Frame} {s : State}
    (h : (s.headerProcess (Frame.header f) (Frame.leaves f)).2 = true) :
    State.frameArrives f s = State.frameTaken f (s.headerProcess (Frame.header f) (Frame.leaves f)).1 := by
  cases f with
  | notice hd b => exact if_pos h
  | replay hd b => exact if_pos h
  | resend hd r => exact if_pos h
  | beacon hd kind view word =>
    have hgo : (s.headerProcess hd (kind == .leave)).2 = true := h
    refine (s.beaconArrives_eq hd kind view word).trans ?_
    rw [hgo]
    rfl

section
variable {s : State} {chars : List LineChar} {f : Frame}

theorem Arrives.exec_refused (ha : Arrives s chars f) (hst : s.stn.onLine = true)
    (h : ((s.arrival (Frame.header f)).headerProcess (Frame.header f) (Frame.leaves f)).2 = false) :
    exec (frameEvent chars f) s
      = .next ((s.arrival (Frame.header f)).headerProcess (Frame.header f) (Frame.leaves f)).1.settleAttn := by
  rw [ha.exec_onLine hst, State.frameArrives_refused h]

theorem Arrives.exec_taken (ha : Arrives s chars f) (hst : s.stn.onLine = true)
    (h : ((s.arrival (Frame.header f)).headerProcess (Frame.header f) (Frame.leaves f)).2 = true) :
    exec (frameEvent chars f) s = .next (State.frameTaken f
      ((s.arrival (Frame.header f)).headerProcess (Frame.header f) (Frame.leaves f)).1).settleAttn := by
  rw [ha.exec_onLine hst, State.frameArrives_taken h]

end

/-! ### RESEND frames -/

/-- Settles O43: the gap table and the retained notices are mapped entry by entry (`State.suppress`, `State.markReplays`). -/
theorem resendSuppressesAndMarks : Obligations.ResendSuppressesAndMarks := by
  intro s chars h r ha hst u
  refine ⟨fun hstop => ha.exec_refused hst hstop, fun hgo => ?taken⟩
  intro asked
  have hasked (n : LineNo) : ResendRange.holds r n = asked n := by cases r <;> rfl
  have hgaps : (u.suppress r).gaps = u.gaps.map fun (e : GapEntry) =>
      if e.state ≠ GapState.lost ∧ ∀ n ∈ u.missing e, asked n = true then
        { e with attempts := min (e.attempts + 1) u.cfg.repairLimit, state := .waiting, timer := .running u.cfg.repairInterval }
      else e :=
    List.map_congr_left fun e _ => if_congr (by simp [hasked]) rfl rfl
  have hretained : ((u.suppress r).markReplays r).send.retained = u.send.retained.map fun (n : SendNotice) =>
      if asked n.lineNo = true ∧ atOrBefore n.lineNo u.rx.count = true then { n with marked := true } else n :=
    List.map_congr_left fun n _ => if_congr (by simp [hasked]) rfl rfl
  rw [← hgaps, ← hretained]
  exact ha.exec_taken hst hgo

/-! ### REPLAY frames of positions settled or known -/

section
variable {s : State} {h : Header} {b : NoticeBody}

theorem State.classifyReplay_settled (hset : frameAtOrBefore b.number s.rx.settled = true) :
    s.classifyReplay h b = s.countDuplicate := if_pos hset

theorem State.classifyReplay_known (hset : frameAtOrBefore b.number s.rx.settled = false) (hknown : s.knownAt b.number = true)
    (hsame : ∀ x ∈ s.rx.holdSet, x.number = b.number → x.originator = h.sender) :
    s.classifyReplay h b = s.countDuplicate := by
  rw [State.classifyReplay, hset, hknown, if_neg Bool.false_ne_true, if_pos rfl]
  cases hfound : s.rx.holdSet.find? (·.number == b.number) with
  | none => rfl
  | some held =>
    exact if_pos (hsame held (List.mem_of_find?_eq_some hfound) (by simpa using List.find?_some hfound))

/-- The held notice of another originator is the one the numbering conflict names (R100). -/
theorem State.classifyReplay_conflict {before after : List RxNotice} {held : RxNotice}
    (hset : frameAtOrBefore b.number s.rx.settled = false) (hknown : s.knownAt b.number = true)
    (hsplit : s.rx.holdSet = before ++ held :: after) (hheld : held.number = b.number)
    (hbefore : ∀ x ∈ before, x.number ≠ b.number) (hother : held.originator ≠ h.sender) :
    s.classifyReplay h b = s.countDuplicate.postReport (.numberingConflict b.number held.originator h.sender) := by
  have hfound : s.rx.holdSet.find? (·.number == b.number) = some held :=
    find?_split hsplit (by simp [hheld]) fun x hx => by simpa using hbefore x hx
  rw [State.classifyReplay, hset, hknown, hfound, if_neg Bool.false_ne_true, if_pos rfl]
  exact if_neg hother

theorem State.classifyReplay_missing (hset : frameAtOrBefore b.number s.rx.settled = false) (hknown : s.knownAt b.number = false) :
    s.classifyReplay h b = s.acceptReplay h b := by
  rw [State.classifyReplay, hset, hknown]
  rfl

end

/-- Settles O41, by the branches of `State.classifyReplay`. -/
theorem replayDiscarded : Obligations.ReplayDiscarded := by
  intro s chars h b ha hst u
  refine ⟨fun hstop => ha.exec_refused hst hstop, fun hgo => ?taken⟩
  intro counted
  have hexec {t : State} (ht : u.classifyReplay h b = t) : exec (.replayReceived chars) s = .next t.settleAttn :=
    ht ▸ ha.exec_taken hst hgo
  exact ⟨fun hset => hexec (State.classifyReplay_settled hset),
    fun hset hknown hsame => hexec (State.classifyReplay_known hset hknown hsame),
    fun hset hknown before held after hsplit hheld hbefore hother =>
      hexec (State.classifyReplay_conflict hset hknown hsplit hheld hbefore hother)⟩

/-! ### BEACON frames -/

/-- A header that is taken leaves the line interface and the station state machine alone (R3). -/
theorem State.headerProcess_kept {s : State} {h : Header} {leaving : Bool} (hgo : (s.headerProcess h leaving).2 = true) :
    (s.headerProcess h leaving).1.line = s.line ∧ (s.headerProcess h leaving).1.stn = s.stn := by
  obtain ⟨hno, -⟩ | ⟨-, -, -, heq⟩ | ⟨-, -, -, heq⟩ := s.headerProcess_cases h leaving
  · rw [hgo] at hno; cases hno
  · rw [heq]; simp
  · rw [heq]; simp

/-- The station once a beacon's word is taken and its sender's included-me flag is as given (R155 to R157). -/
def State.told (s : State) (sender : StationNo) (word : Word16) (before after : List Member) (m : Member) (included : Bool) : State :=
  { s with
    members := before ++ { m with word := some word, includedMe := included } :: after
    port := if m.word = some word then s.port else (s.postReport (.peerWord sender word)).port }

section
variable {s : State} {h : Header} {kind : BeaconKind} {view : Set32} {word : Word16} {before after : List Member} {m : Member}

/-- The status word of a member: reported when it changed (R155). -/
theorem State.takeWord_member {sender : StationNo} (hsplit : s.members = before ++ m :: after) (hm : m.station = sender)
    (hothers : ∀ e ∈ before ++ after, e.station ≠ sender) :
    s.takeWord sender word = s.told sender word before after m m.includedMe := by
  have hfound := State.member_eq_some hsplit hm (fun e he => hothers e (List.mem_append_left _ he))
  unfold State.takeWord State.told
  rw [hfound]
  by_cases hsame : m.word = some word
  · simp only [if_pos hsame]
    rw [← hsame, ← hsplit]
  · simp only [if_neg hsame]
    rw [State.updateMember, map_station _ hsplit hm hothers, State.postReport_eq]
    exact congrArg (State.mk _ _ _ _ _ _ _ _ _ · _ _ _ _) (State.postReport_port_congr (t := s) (by rfl) _)

theorem State.takeWord_stranger {sender : StationNo} (hne : ∀ m ∈ s.members, m.station ≠ sender) :
    s.takeWord sender word = s := by
  rw [State.takeWord, State.member_eq_none hne]

/-- The included-me flag of a member, and of a station that is none (R156, R157). -/
theorem State.told_include {sender : StationNo} (hm : m.station = sender)
    (hothers : ∀ e ∈ before ++ after, e.station ≠ sender) (a b : Bool) :
    ((s.told sender word before after m a).updateMember sender fun e => { e with includedMe := b })
      = s.told sender word before after m b := by
  have hmapped := map_station (l := (s.told sender word before after m a).members)
    (m := { m with word := some word, includedMe := a }) (fun e => { e with includedMe := b }) rfl hm hothers
  rw [State.updateMember, hmapped]
  rfl

theorem State.updateMember_stranger {sender : StationNo} (hne : ∀ m ∈ s.members, m.station ≠ sender) (f : Member → Member) :
    s.updateMember sender f = s := by
  have hsame : (s.members.map fun m => if m.station == sender then f m else m) = s.members :=
    (List.map_congr_left fun m hm => if_neg (by simpa using hne m hm)).trans (List.map_id' _)
  rw [State.updateMember, hsame]

theorem State.told_includedBy {sender : StationNo} (hm : m.station = sender)
    (hothers : ∀ e ∈ before ++ after, e.station ≠ sender) (a : Bool) :
    (s.told sender word before after m a).includedBy sender = a := by
  rw [State.includedBy, State.member_eq_some (before := before) (after := after) rfl (by exact hm)
    fun e he => hothers e (List.mem_append_left _ he)]
  rfl

theorem State.includedBy_stranger {sender : StationNo} (hne : ∀ m ∈ s.members, m.station ≠ sender) :
    s.includedBy sender = false := by
  rw [State.includedBy, State.member_eq_none hne]
  rfl

/-! The view, by what it says of this station (R156 to R158). -/

theorem State.takeView_named (hn : view.getLsbD s.line.id.toNat = true) (hst : s.stn.state ≠ .joining) :
    s.takeView h kind view = s.updateMember h.sender fun e => { e with includedMe := true } := by
  unfold State.takeView
  exact (if_pos hn).trans (if_neg hst)

theorem State.takeView_includes (hn : view.getLsbD s.line.id.toNat = true) (hst : s.stn.state = .joining) :
    s.takeView h kind view = (s.updateMember h.sender fun e => { e with includedMe := true }).include := by
  unfold State.takeView
  exact (if_pos hn).trans (if_pos hst)

theorem State.takeView_join (hn : ¬view.getLsbD s.line.id.toNat = true) :
    s.takeView h .join view = s.updateMember h.sender fun e => { e with includedMe := false } := if_neg hn

theorem State.takeView_periodic (hn : ¬view.getLsbD s.line.id.toNat = true) (hno : s.includedBy h.sender = false) :
    s.takeView h .periodic view = s :=
  (if_neg hn).trans (if_neg (by simp [hno]))

theorem State.takeView_excludes (hn : ¬view.getLsbD s.line.id.toNat = true) (hin : s.includedBy h.sender = true)
    (hst : s.stn.joinedOrActive = true) :
    s.takeView h .periodic view = s.resync .resyncExcluded .resyncExcluded h.count :=
  (if_neg hn).trans (if_pos (by simp [hin, hst]))

/-- What inclusion leaves (R140). -/
theorem State.include_leaves (hst : s.stn.state = .joining) (hbusy : s.line.timing = .busy) :
    s.include.port = (s.postReport (.stateChange .joining .active .inclusion)).port
      ∧ s.include.stn = { s.stn with state := .active, joinTimer := .stopped, joinExpiryHeld := false }
      ∧ s.include.line = { s.line with yield := true } := by
  refine ⟨?_, by simp [State.include], by simp [State.include, LineBlock.standBack_of_busy hbusy]⟩
  rw [State.include, State.enterState_port, hst]
  exact State.postReport_port_congr (by rfl) _

end

/-- Settles O44: the word by `State.takeWord_member`, then the view by its cases. -/
theorem beaconWordAndView : Obligations.BeaconWordAndView := by
  intro s chars h kind view word ha hst u
  refine ⟨fun hstop => ha.exec_refused hst hstop, fun hgo => ?taken⟩
  intro named
  obtain ⟨hline, hstn⟩ := State.headerProcess_kept hgo
  have hbusy : u.line.timing = .busy := congrArg LineBlock.timing hline
  have hid : s.line.id = u.line.id := (congrArg LineBlock.id hline).symm
  have hon : u.stn.onLine = true := (congrArg StationBlock.onLine hstn).trans hst
  have hjoined (hl : u.stn.state ≠ .leaving) : u.stn.joinedOrActive = true := by
    have hstates := (StationBlock.onLine_iff _).mp hon
    exact (StationBlock.joinedOrActive_iff _).mpr (by tauto)
  have hexec := ha.exec_taken hst hgo
  have hviewed (hk : kind ≠ .leave) (hl : u.stn.state ≠ .leaving) {t : State}
      (ht : (u.takeWord h.sender word).takeView h kind view = t) :
      exec (.beaconReceived chars) s = .next t.settleAttn := by
    refine hexec.trans (congrArg (fun t => Host.Outcome.next (State.settleAttn t)) ((if_neg ?_).trans ht))
    change ¬(kind == .leave || u.stn.state == .leaving) = true
    simpa [hk] using hl
  refine ⟨fun hend => ?ends, fun hk hl before m after hsplit hm hothers => ?member, fun hk hl hne => ?stranger⟩
  case ends =>
    refine hexec.trans (congrArg (fun t => Host.Outcome.next (State.settleAttn t)) (if_pos ?_))
    change (kind == .leave || u.stn.state == .leaving) = true
    simpa using hend
  case member =>
    intro told
    have hword : u.takeWord h.sender word = u.told h.sender word before after m m.includedMe :=
      State.takeWord_member hsplit hm hothers
    have hinclude (a b : Bool) := State.told_include (s := u) (word := word) hm hothers a b
    rw [hword] at hviewed
    refine ⟨fun hn hactive => hviewed hk hl ?_, fun hn hjoining => ?includes, fun hn hkind => hviewed hk hl ?_,
      fun hn hkind hout => hviewed hk hl ?_, fun hn hkind hin => hviewed hk hl ?_⟩
    · exact (State.takeView_named (hid ▸ hn) (by rw [State.told, hactive]; simp)).trans (hinclude _ _)
    case includes =>
      have hincluded : (u.told h.sender word before after m m.includedMe).takeView h kind view = (told true).include :=
        (State.takeView_includes (hid ▸ hn) (by exact hjoining)).trans (congrArg State.include (hinclude _ _))
      obtain ⟨hport, hstation, hstands⟩ := State.include_leaves (s := told true) hjoining hbusy
      refine ⟨_, hviewed hk hl hincluded, AttnFollows_settleAttn _, ?_, hport, hstation, hstands, ?_⟩
      all_goals simp [told]
    · rw [hkind]
      exact (State.takeView_join (hid ▸ hn)).trans (hinclude _ _)
    · rw [hkind, hout]
      exact State.takeView_periodic (hid ▸ hn) (State.told_includedBy hm hothers _)
    · rw [hkind, hin]
      exact State.takeView_excludes (hid ▸ hn) (State.told_includedBy hm hothers _) (hjoined hl)
  case stranger =>
    rw [State.takeWord_stranger hne] at hviewed
    refine ⟨fun hn hactive => hviewed hk hl ?_, fun hn hjoining => ?includes, fun hn => hviewed hk hl ?_⟩
    · exact (State.takeView_named (hid ▸ hn) (by simp [hactive])).trans (State.updateMember_stranger hne _)
    case includes =>
      have hincluded : u.takeView h kind view = u.include :=
        (State.takeView_includes (hid ▸ hn) hjoining).trans (congrArg State.include (State.updateMember_stranger hne _))
      obtain ⟨hport, hstation, hstands⟩ := State.include_leaves (s := u) hjoining hbusy
      refine ⟨_, hviewed hk hl hincluded, AttnFollows_settleAttn _, ?_, hport, hstation, hstands, ?_⟩
      all_goals simp
    · cases kind with
      | leave => exact absurd rfl hk
      | join => exact (State.takeView_join (hid ▸ hn)).trans (State.updateMember_stranger hne _)
      | periodic => exact State.takeView_periodic (hid ▸ hn) (State.includedBy_stranger hne)

end Sys2Proof.Machine
end

