-- ==== Sys2Proof/Proofs/NoticeArrival.lean ====
section
/-!
PROOF. A NOTICE frame at a full receiver (R39 to R41, R95).
-/

namespace Sys2Proof.Machine

/-- The line interface with the window of a NOTICE frame opened at a full receiver (R31, R38). -/
def LineBlock.receiving (l : LineBlock) (h : Header) (number : LineNo) (full stale : Bool) : LineBlock :=
  { l with window := some { role := .receiver, header := h, number := number, markFull := full, markStale := stale
                            turnGap := false, full := false, stale := false } }

section
variable {s : State} {h : Header} {b : NoticeBody}

/-- STALE, and a duplicate where the position is settled or known (R39, R95). -/
theorem State.decideNotice_stale (hstale : frameAtOrBefore b.number s.rx.count = true) : s.decideNotice h b = { s with
    line := s.line.receiving h b.number false true
    counters := { s.counters with
      objectionsMarked := s.counters.objectionsMarked + 1
      duplicates := if frameAtOrBefore b.number s.rx.settled = true ∨ s.knownAt b.number = true
        then s.counters.duplicates + 1 else s.counters.duplicates } } := by
  refine (if_pos hstale).trans ?_
  by_cases hdup : frameAtOrBefore b.number s.rx.settled = true ∨ s.knownAt b.number = true
  · simp only [if_pos hdup, if_pos (Bool.or_eq_true_iff.mpr hdup)]
    rfl
  · simp only [if_neg hdup, if_neg (mt Bool.or_eq_true_iff.mp hdup)]
    rfl

/-- No mark for a topic that is not subscribed (R41). -/
theorem State.decideNotice_unsubscribed (hnew : frameAtOrBefore b.number s.rx.count = false)
    (hsub : s.cfg.topics.getLsbD b.topic.toNat = false) :
    s.decideNotice h b = { s with line := s.line.receiving h b.number false false } := by
  have hunsub : s.subscribed b.topic = false := hsub
  rw [State.decideNotice, hnew, hunsub]
  rfl

/-- FULL where the room rule refuses (R40). -/
theorem State.decideNotice_full (hnew : frameAtOrBefore b.number s.rx.count = false)
    (hsub : s.cfg.topics.getLsbD b.topic.toNat = true) (hroom : s.roomRule (cellsFor b.payload.length) = false) :
    s.decideNotice h b = { s with
      line := s.line.receiving h b.number true false
      counters := { s.counters with objectionsMarked := s.counters.objectionsMarked + 1 } } := by
  have hsubs : s.subscribed b.topic = true := hsub
  rw [State.decideNotice, hnew, hsubs, hroom]
  rfl

/-- The claim where it grants (R40). -/
theorem State.decideNotice_claims (hnew : frameAtOrBefore b.number s.rx.count = false)
    (hsub : s.cfg.topics.getLsbD b.topic.toNat = true) (hroom : s.roomRule (cellsFor b.payload.length) = true) :
    let stored := s.storeNotice b.number h.sender b.topic b.payload false none false
    s.decideNotice h b = { s with
      line := s.line.receiving h b.number false false
      commit := { s.commit with provisional := some stored.1 }
      pool := stored.2.pool } := by
  have hsubs : s.subscribed b.topic = true := hsub
  rw [State.decideNotice, hnew, hsubs, hroom]
  rfl

end

/-- Settles O40, by the branches of `State.decideNotice`; the claim's storage is `State.storeNotice`'s. -/
theorem noticeFrameDecided : Obligations.NoticeFrameDecided := by
  intro s chars h b ha hst u
  refine ⟨fun hstop => ha.exec_refused hst hstop, fun hgo => ?taken⟩
  intro opened c room
  have hexec {t : State} (ht : u.decideNotice h b = t) : exec (.noticeFrameReceived chars) s = .next t.settleAttn :=
    ht ▸ ha.exec_taken hst hgo
  have hcells : u.pool.cells = s.pool.cells := by simp [u, State.arrival]
  refine ⟨fun hstale => hexec (State.decideNotice_stale hstale),
    fun hnew hsub => hexec (State.decideNotice_unsubscribed hnew hsub), fun hnew hsub hfull => ?full,
    fun hnew hsub hroom hnodup hwf => ?claims⟩
  case full =>
    exact hexec (State.decideNotice_full hnew hsub (Bool.eq_false_iff.mpr (mt (u.roomRule_iff c).mp hfull)))
  case claims =>
    have hgranted := hexec (State.decideNotice_claims hnew hsub ((u.roomRule_iff c).mpr hroom))
    obtain ⟨hroomCells, -⟩ := hroom
    rw [← hcells] at hwf ⊢
    exact ⟨_, _, hgranted, AttnFollows_settleAttn _, rfl, rfl, rfl, rfl, rfl, rfl,
      State.rxPayload_storeNotice hwf hnodup b.number h.sender b.topic b.payload false none false (by omega),
      fun a ha => State.read_storeNotice_of_notMem hwf b.number h.sender b.topic b.payload false none false ha,
      rfl, rfl, rfl, rfl, rfl, rfl, rfl⟩

end Sys2Proof.Machine
end

