-- ==== Sys2Proof/Proofs/ReplayArrival.lean ====
section
/-!
PROOF. An accepted REPLAY (R5, R12, R97, R98, R101, R107): a missing position is placed (`State.Placed`), the count rises where
the number follows it, and the advance delivers it or rests.
-/

namespace Sys2Proof.Machine

/-! ### The advance, step by step -/

/-- Where the settled point has reached the count, nothing is known, held or missing (R6, R92, R112). -/
theorem OrderSound.caughtUp {s : State} (hs : OrderSound s) (h : s.rx.count = s.rx.settled) :
    s.rx.holdSet = [] ∧ s.rx.known = 0 ∧ s.gaps = [] := by
  obtain ⟨-, hknown, hheld, -, hgaps, -⟩ := hs
  rw [h, ahead_settled] at hknown
  have hzero : s.rx.known = 0 := BitVec.eq_of_getLsbD_eq fun i _ => by simpa using hknown i (Nat.zero_le i)
  refine ⟨List.eq_nil_iff_forall_not_mem.mpr fun x hx => ?_, hzero, List.eq_nil_iff_forall_not_mem.mpr fun e he => ?_⟩
  · have hbit := ((s.knownAt_iff _).mp (hheld x hx)).2
    rw [hknown _ (Nat.zero_le _)] at hbit
    cases hbit
  · obtain ⟨hfirst, hle, hlast⟩ := hgaps e he
    rw [h, ahead_settled] at hlast
    omega

theorem State.advanceStep_of_caughtUp {s : State} (hs : OrderSound s) (h : s.rx.count = s.rx.settled) : s.advanceStep = none := by
  obtain ⟨hheld, hknown, hgaps⟩ := hs.caughtUp h
  exact State.advanceStep_of_empty hheld hknown hgaps

/-- The advance goes at least as far as its first step, whose record comes first (R101). -/
theorem State.advance_after_step {s t : State} (hs : OrderSound s) (hstep : s.advanceStep = some t) :
    s.ahead t.rx.settled ≤ s.ahead s.advance.rx.settled ∧ ∃ more, s.advance.rx.queue = t.rx.queue ++ more := by
  have hrun : s.advance = State.advanceRun 255 t := by
    rw [State.advance, show Config.spanLimit = 255 + 1 from rfl, State.advanceRun, hstep]
  obtain ⟨ht, ⟨-, hfirst, -⟩, -⟩ := State.advanceStep_spec hs hstep
  obtain ⟨-, ⟨-, hrest, -⟩, -⟩ := State.advanceRun_spec ht 255
  have hspan := hs.1
  have hspan' := ht.1
  rw [hrun]
  refine ⟨?_, State.advanceRun_queue 255 t⟩
  rw [ahead_unshift (s := s) (t := t) (m := (State.advanceRun 255 t).rx.settled) (by omega)]
  omega

/-! ### A position is placed -/

/-- What placing position `n` does to the receive order before any rise of the count: the notice, if there is one, is held, the
position is known, and the entries it completes go (R93, R94, R97, R117). -/
structure State.Placed (u w : State) (n : LineNo) (kept : Option RxNotice) : Prop where
  rest : w = { u with rx := w.rx, pool := w.pool, gaps := w.gaps }
  rx : w.rx = { u.rx with known := w.rx.known, holdSet := w.rx.holdSet }
  known : w.rx.known = markKnown u.rx.settled u.rx.known n
  held : ∀ x, x ∈ w.rx.holdSet ↔ x ∈ u.rx.holdSet ∨ kept = some x
  number : ∀ x, kept = some x → x.number = n
  gaps : w.gaps = (u.makeKnown n).gaps
  descs : u.pool.freeDescs = [] → w.pool.freeDescs = []
  base : w.pool.pendingBase = u.pool.pendingBase

/-- The count after a position is placed: raised where the number follows it, with the positions below it missing (R4, R5). -/
def State.risenBy (w : State) (n : LineNo) : State := if follows w.rx.count n then w.raiseCount n (n - 1) else w

theorem State.riseAndAdvance_eq (w : State) (n : LineNo) : w.riseAndAdvance n = (w.risenBy n).advance := rfl

theorem State.risenBy_of_follows {w : State} {n : LineNo} (h : follows w.rx.count n = true) :
    w.risenBy n = w.raiseCount n (n - 1) := if_pos h

theorem State.risenBy_of_not {w : State} {n : LineNo} (h : follows w.rx.count n = false) : w.risenBy n = w :=
  if_neg (by simp [h])

theorem State.Placed_makeKnown (u : State) (n : LineNo) : u.Placed (u.makeKnown n) n none where
  rest := rfl
  rx := rfl
  known := rfl
  held := by simp
  number := by simp
  gaps := rfl
  descs := id
  base := rfl

theorem State.Placed_hold {u : State} {p : PoolBlock} {n : RxNotice} (hd : u.pool.freeDescs = [] → p.freeDescs = [])
    (hb : p.pendingBase = u.pool.pendingBase) : u.Placed (State.hold { u with pool := p } n) n.number (some n) where
  rest := rfl
  rx := rfl
  known := rfl
  held x := by
    refine (mem_insertHeld _ _ _ x).trans (Or.comm.trans (or_congr_right ?_))
    exact eq_comm.trans (Option.some_inj).symm
  number x hx := by rw [Option.some_inj.mp hx]
  gaps := rfl
  descs := hd
  base := hb

namespace State.Placed

variable {u w : State} {n : LineNo} {kept : Option RxNotice}

theorem settled (h : u.Placed w n kept) : w.rx.settled = u.rx.settled := by rw [h.rx]

theorem count (h : u.Placed w n kept) : w.rx.count = u.rx.count := by rw [h.rx]

theorem queue (h : u.Placed w n kept) : w.rx.queue = u.rx.queue := by rw [h.rx]

theorem backlog (h : u.Placed w n kept) : w.rx.backlog = u.rx.backlog := by rw [h.rx]

theorem ahead (h : u.Placed w n kept) (m : LineNo) : w.ahead m = u.ahead m := ahead_congr h.settled m

theorem knownAt (h : u.Placed w n kept) (h1 : 1 ≤ u.ahead n) (h2 : u.ahead n ≤ 256) (m : LineNo) :
    w.knownAt m = (u.knownAt m || decide (m = n)) :=
  (knownAt_congr (s := u.makeKnown n) h.settled h.known m).trans (State.knownAt_makeKnown h1 h2 m)

/-- The position was unknown, so no other notice is held at it. -/
theorem held_at (h : u.Placed w n kept) (hu : OrderSound u) (hnew : u.knownAt n = false) {x : RxNotice}
    (hx : x ∈ w.rx.holdSet) (hn : x.number = n) : kept = some x := by
  refine ((h.held x).mp hx).resolve_left fun hold => ?_
  obtain ⟨-, -, hheld, -⟩ := hu
  have hknown := hheld x hold
  rw [hn, hnew] at hknown
  cases hknown

theorem mem_gaps (h : u.Placed w n kept) (e : GapEntry) :
    e ∈ w.gaps ↔ e ∈ u.gaps ∧ (e.covers n = false ∨ w.missing e ≠ []) := by
  have hmissing : missingIn u.rx.settled (markKnown u.rx.settled u.rx.known n) e = w.missing e := by
    rw [State.missing, h.settled, h.known]
  rw [h.gaps, ← hmissing]
  simp [State.makeKnown, List.mem_filter]

/-- No entry reaches past the count. -/
theorem gaps_of_after (h : u.Placed w n kept) (hu : OrderSound u) (hafter : u.ahead u.rx.count < u.ahead n) :
    w.gaps = u.gaps := by
  obtain ⟨-, -, -, -, hwithin, -⟩ := hu
  rw [h.gaps]
  refine List.filter_eq_self.mpr fun e he => ?_
  obtain ⟨-, hle, hlast⟩ := hwithin e he
  have hout : e.covers n = false := by
    rw [← Bool.not_eq_true, GapEntry.covers_iff (s := u) hle]
    omega
  rw [hout]
  rfl

/-! ### The advance rests -/

/-- Where it rested before, the advance rests with another position known, or while a BASE record waits (R68, R101). -/
theorem rests (h : u.Placed w n kept) (hr : AdvanceRests u) (h1 : 1 ≤ u.ahead n) (h2 : u.ahead n ≤ 256)
    (hno : n ≠ u.rx.settled + 1 ∨ u.pool.pendingBase ≠ none) : AdvanceRests w := by
  by_cases hbase : u.pool.pendingBase = none
  · obtain ⟨hheld, hknown, hlost⟩ := hr.resolve_left (fun hne => hne hbase)
    have hnext : n ≠ u.rx.settled + 1 := hno.resolve_right (fun hne => hne hbase)
    refine Or.inr ⟨fun x hx => ?_, ?_, hlost.imp (fun hlost => ?_) h.descs⟩
    · rw [h.settled]
      obtain hx | hx := (h.held x).mp hx
      · exact hheld x hx
      · rw [h.number x hx]; exact hnext
    · rw [h.settled, h.knownAt h1 h2, hknown]
      simpa using hnext.symm
    · rw [h.settled]
      refine Bool.eq_false_iff.mpr fun hnow => ?_
      obtain ⟨e, he, hst, hcov⟩ := (State.lostAt_iff _ _).mp hnow
      exact Bool.eq_false_iff.mp hlost ((u.lostAt_iff _).mpr ⟨e, ((h.mem_gaps e).mp he).1, hst, hcov⟩)
  · exact Or.inl (by rw [h.base]; exact hbase)

/-- The span of a rise that is allowed: the positions below the number begin at or after the count. -/
theorem count_le_pred (hafter : u.ahead u.rx.count < u.ahead n) : u.ahead u.rx.count ≤ u.ahead (n - 1) := by
  rw [ahead_pred (by omega)]
  omega

theorem gapsBefore (h : u.Placed w n kept) (hu : OrderSound u) : GapsBefore w := fun e he => by
  rw [h.ahead, h.ahead, h.ahead, h.count]
  exact hu.gapsBefore e ((h.mem_gaps e).mp he).1

theorem gaps_length (h : u.Placed w n kept) (hu : OrderSound u) : w.gaps.length ≤ 8 := by
  obtain ⟨-, -, -, -, -, -, -, hlen⟩ := hu
  rw [h.gaps]
  exact (List.length_filter_le ..).trans hlen

/-- With the advance at rest, a rise changes the count alone of the receive order, and it rests still. -/
theorem risen_rests (h : u.Placed w n kept) (hu : OrderSound u) (hw : AdvanceRests w)
    (hafter : follows u.rx.count n = true → u.ahead u.rx.count < u.ahead n) :
    w.riseAndAdvance n = w.risenBy n ∧ (w.risenBy n).rx = { w.rx with count := (w.risenBy n).rx.count } := by
  cases hf : follows w.rx.count n with
  | false =>
    rw [State.riseAndAdvance_eq, State.risenBy_of_not hf]
    exact ⟨State.advance_of_rests hw, rfl⟩
  | true =>
    have hle : w.ahead w.rx.count ≤ w.ahead (n - 1) := by
      rw [h.ahead, h.ahead, h.count]
      exact count_le_pred (hafter (h.count ▸ hf))
    obtain ⟨hrests, hrx, -⟩ := AdvanceRests_raiseCount (n := n) (h.gapsBefore hu) (h.gaps_length hu) hw hle
    rw [State.riseAndAdvance_eq, State.risenBy_of_follows hf]
    exact ⟨State.advance_of_rests hrests, by rw [hrx]⟩

/-! ### The advance delivers -/

/-- The first step from the position after the settled point: its notice is delivered, or the position settled (R101). -/
theorem step (h : u.Placed w n kept) (hu : OrderSound u) (hnew : u.knownAt n = false) {v : State} (hnext : n = u.rx.settled + 1)
    (hbase : v.pool.pendingBase = none) (hrx : v.rx = { w.rx with count := v.rx.count }) :
    ∃ v', v.advanceStep = some v' ∧ v'.rx.settled = n ∧ v'.rx.count = v.rx.count
      ∧ v'.rx.queue = u.rx.queue ++ kept.toList.map .notice := by
  have hahead : u.ahead n = 1 := by rw [hnext, ahead_next]
  have hsettled : v.rx.settled = u.rx.settled := by rw [hrx]; exact h.settled
  have hqueue : v.rx.queue = u.rx.queue := by rw [hrx]; exact h.queue
  have hholds : v.rx.holdSet = w.rx.holdSet := by rw [hrx]
  have hplace : v.rx.settled + 1 = n := by rw [hsettled, hnext]
  cases hfind : v.rx.holdSet.find? (·.number == v.rx.settled + 1) with
  | some x =>
    have hx : kept = some x := h.held_at hu hnew (hholds ▸ List.mem_of_find?_eq_some hfind)
      (hplace ▸ by simpa using List.find?_some hfind)
    refine ⟨_, State.advanceStep_of_held hbase hfind, hplace, rfl, ?_⟩
    rw [hx, ← hqueue]
    rfl
  | none =>
    have hkept : kept = none := Option.eq_none_iff_forall_ne_some.mpr fun x hx => by
      have hmem : x ∈ v.rx.holdSet := hholds ▸ (h.held x).mpr (.inr hx)
      exact List.find?_eq_none.mp hfind x hmem (by rw [hplace, h.number x hx]; simp)
    have hknown : v.knownAt (v.rx.settled + 1) = true := by
      rw [knownAt_congr (s := w) (by rw [hrx]) (by rw [hrx]), hplace, h.knownAt (by omega) (by omega)]
      simp
    refine ⟨_, State.advanceStep_of_known hbase hfind hknown, hplace, rfl, ?_⟩
    rw [hkept, ← hqueue]
    exact (List.append_nil _).symm

/-- The advance from the position's own step on: it has come at least that far, and its queue goes on from that record. -/
theorem delivers (h : u.Placed w n kept) (hu : OrderSound u) (hnew : u.knownAt n = false) (hnext : n = u.rx.settled + 1)
    (hv : OrderSound (w.risenBy n)) (hbase : (w.risenBy n).pool.pendingBase = none)
    (hrx : (w.risenBy n).rx = { w.rx with count := (w.risenBy n).rx.count }) : let t := w.riseAndAdvance n
    1 ≤ u.ahead t.rx.settled ∧ u.ahead t.rx.settled ≤ u.ahead t.rx.count
      ∧ (∃ more, t.rx.queue = u.rx.queue ++ kept.toList.map .notice ++ more)
      ∧ (t.rx.count = n → t.rx.settled = n ∧ t.rx.queue = u.rx.queue ++ kept.toList.map .notice ∧ t.gaps = []) := by
  intro t
  have hsettled : (w.risenBy n).rx.settled = u.rx.settled := by rw [hrx]; exact h.settled
  have hahead (m : LineNo) : (w.risenBy n).ahead m = u.ahead m := ahead_congr hsettled m
  obtain ⟨v, hstep, hvsettled, hvcount, hvqueue⟩ := h.step hu hnew hnext hbase hrx
  obtain ⟨hreached, hqueue⟩ := State.advance_after_step hv hstep
  obtain ⟨hO, ⟨hcount, hwithin, -⟩, -⟩ := State.advance_spec hv
  have hfirst : u.ahead v.rx.settled = 1 := by rw [hvsettled, hnext, ahead_next]
  rw [hahead, hahead, hfirst] at hreached
  rw [hahead, hahead, ← hcount] at hwithin
  refine ⟨hreached, hwithin, ?_, fun hrisen => ?_⟩
  · obtain ⟨more, hmore⟩ := hqueue
    exact ⟨more, by rw [← hvqueue]; exact hmore⟩
  · have hend : v.rx.count = v.rx.settled := by rw [hvcount, ← hcount, hvsettled]; exact hrisen
    have hone : t = v := State.advance_of_one hstep (State.advanceStep_of_caughtUp (State.advanceStep_spec hv hstep).1 hend)
    rw [hone]
    exact ⟨hvsettled, hvqueue, ((State.advanceStep_spec hv hstep).1.caughtUp hend).2.2⟩

/-- The gap table follows the settled point where the count stands (R117 to R119). -/
theorem trims (h : u.Placed w n kept) (hu : OrderSound u) (hw : OrderSound w)
    (hreached : u.ahead n ≤ u.ahead w.advance.rx.settled) : GapsTrimmed u u.gaps w.advance := by
  obtain ⟨-, ⟨-, hwithin, hknown, -⟩, -⟩ := State.advance_spec hw
  rw [h.ahead, h.ahead, h.count] at hwithin
  have hspan := hu.1
  have htrimmed : GapsTrimmed (u.makeKnown n) (u.makeKnown n).gaps w.advance := by
    have hgaps := State.advance_gaps hw
    have hahead : w.ahead = (u.makeKnown n).ahead := funext h.ahead
    unfold GapsTrimmed at hgaps ⊢
    rw [← h.gaps, ← hahead]
    exact hgaps
  refine GapsTrimmed_makeKnown hu.gapsWithin hreached (by omega) (fun m hm _ => ?_) htrimmed
  rw [hknown m (by rw [h.ahead, h.ahead]; exact hm)]
  exact knownAt_congr (s := u.makeKnown n) h.settled h.known m

/-- A rise to the position after the settled point leaves the order alone: nothing is missing below the number (R5). -/
theorem risen_next (h : u.Placed w n kept) (hnext : n = u.rx.settled + 1)
    (hafter : follows u.rx.count n = true → u.ahead u.rx.count < u.ahead n) :
    (w.risenBy n).rx = { w.rx with count := (w.risenBy n).rx.count } ∧ (w.risenBy n).pool = w.pool
      ∧ (w.risenBy n).gaps = w.gaps ∧ (follows u.rx.count n = true → u.rx.count = u.rx.settled) := by
  cases hf : follows w.rx.count n with
  | false =>
    rw [State.risenBy_of_not hf]
    exact ⟨rfl, rfl, rfl, fun hrises => by rw [← h.count, hf] at hrises; cases hrises⟩
  | true =>
    have hlow := hafter (h.count ▸ hf)
    rw [hnext, ahead_next] at hlow
    have hcount : u.rx.count = u.rx.settled := ahead_inj (s := u) (by rw [ahead_settled]; omega)
    have hlast : n - 1 = w.rx.count := by rw [h.count, hcount, hnext]; simp
    obtain ⟨hrx, hpool, hgaps, -⟩ := State.raiseCount_rx (m := w) (n := n) (.inl hlast)
    rw [State.risenBy_of_follows hf]
    exact ⟨by rw [hrx], hpool, hgaps hlast, fun _ => hcount⟩

/-- What the rise does, seen from the station before the position was placed (R2, R5, R12, R15). -/
theorem raises (h : u.Placed w n kept) (hu : OrderSound u) (hf : follows u.rx.count n = true)
    (hafter : u.ahead u.rx.count < u.ahead n) (hgaps : (w.riseAndAdvance n).gaps = (w.risenBy n).gaps)
    (hrests : AdvanceRests w ∨ u.gaps = []) : CountRaised u (w.riseAndAdvance n) n (n - 1) := by
  have hsame : w.gaps = u.gaps := h.gaps_of_after hu hafter
  have hle : w.ahead w.rx.count ≤ w.ahead (n - 1) := by
    rw [h.ahead, h.ahead, h.count]
    exact count_le_pred hafter
  have hrisen : w.risenBy n = w.raiseCount n (n - 1) := State.risenBy_of_follows (h.count ▸ hf)
  rw [State.riseAndAdvance_eq, hrisen] at hgaps ⊢
  refine (State.raiseCount_spec fun _ => hle).congr h.count (by rw [h.rest]) (by rw [h.rest]) (by rw [h.rest]) (by rw [h.rest])
    (State.cfg_congr (by rw [h.rest])) (by rw [h.rest]) hsame (by rw [h.rest]) (by simp) (by simp) (by simp) (by simp) (by simp)
    hgaps fun _ _ hlast before e hsplit hlen hlost => ?_
  obtain hrests | hnone := hrests
  · obtain ⟨-, -, -, hrange⟩ := State.raiseCount_rx (m := w) (n := n) (last := n - 1)
      (.inr (.inr ⟨h.gapsBefore hu, hrests, hsame ▸ hlen, hle⟩))
    exact ((hrange (h.count ▸ hlast)).2 before e (hsame ▸ hsplit) (hsame ▸ hlen)).2 hlost
  · rw [hnone] at hlen
    cases hlen

/-- What an accepted REPLAY leaves once its position is placed (R97, R98, R101). -/
theorem accepts (h : u.Placed w n kept) (hu : OrderSound u) (hr : AdvanceRests u) (hnew : u.knownAt n = false)
    (h1 : 1 ≤ u.ahead n) (h2 : u.ahead n ≤ 256) (hafter : follows u.rx.count n = true → u.ahead u.rx.count < u.ahead n)
    (hv : OrderSound (w.risenBy n)) : let t := w.riseAndAdvance n
    (follows u.rx.count n = true → CountRaised u t n (n - 1))
    ∧ (¬follows u.rx.count n = true → t.rx.count = u.rx.count ∧ t.commit = u.commit ∧ t.send = u.send
        ∧ t.members = u.members ∧ t.port = u.port)
    ∧ (¬n = u.rx.settled + 1 ∨ u.pool.pendingBase ≠ none → t.rx.settled = u.rx.settled ∧ t.rx.queue = u.rx.queue
        ∧ t.rx.backlog = u.rx.backlog ∧ t.knownAt n = true ∧ (∀ m, m ≠ n → t.knownAt m = u.knownAt m)
        ∧ (∀ x, x ∈ t.rx.holdSet ↔ x ∈ u.rx.holdSet ∨ kept = some x)
        ∧ (¬follows u.rx.count n = true → ∀ e, e ∈ t.gaps ↔ e ∈ u.gaps ∧ (e.covers n = false ∨ t.missing e ≠ [])))
    ∧ (n = u.rx.settled + 1 → u.pool.pendingBase = none → BacklogFollows u t u.rx.queue.length ∧ GapsTrimmed u u.gaps t
        ∧ 1 ≤ u.ahead t.rx.settled ∧ u.ahead t.rx.settled ≤ u.ahead t.rx.count
        ∧ (∃ more, t.rx.queue = u.rx.queue ++ kept.toList.map .notice ++ more)
        ∧ (follows u.rx.count n = true → t.rx.settled = n ∧ t.rx.queue = u.rx.queue ++ kept.toList.map .notice)) := by
  intro t
  by_cases hnext : ¬n = u.rx.settled + 1 ∨ u.pool.pendingBase ≠ none
  · have hrests : AdvanceRests w := h.rests hr h1 h2 hnext
    obtain ⟨ht, hrx⟩ := h.risen_rests hu hrests hafter
    rw [← ht] at hrx
    have hknown (m : LineNo) : t.knownAt m = (u.knownAt m || decide (m = n)) := by
      rw [knownAt_congr (s := w) (by rw [hrx]) (by rw [hrx]), h.knownAt h1 h2]
    refine ⟨fun hf => h.raises hu hf (hafter hf) (by rw [ht]) (.inl hrests), fun hf => ?stands, fun _ => ?rests,
      fun heq hbase => absurd hnext (by simp [heq, hbase])⟩
    case stands =>
      have hstill : t = w := ht.trans (State.risenBy_of_not (by rw [h.count]; simpa using hf))
      rw [hstill]
      exact ⟨h.count, by rw [h.rest], by rw [h.rest], by rw [h.rest], by rw [h.rest]⟩
    case rests =>
      refine ⟨by rw [hrx]; exact h.settled, by rw [hrx]; exact h.queue, by rw [hrx]; exact h.backlog, by rw [hknown]; simp,
        fun m hm => by rw [hknown]; simp [hm], fun x => by rw [hrx]; exact h.held x, fun hf e => ?_⟩
      have hstill : t = w := ht.trans (State.risenBy_of_not (by rw [h.count]; simpa using hf))
      rw [hstill]
      exact h.mem_gaps e
  · obtain ⟨hnext, hbase⟩ := not_or.mp hnext
    have hplace : n = u.rx.settled + 1 := not_not.mp hnext
    obtain ⟨hrx, hpool, hgaps, hcaught⟩ := h.risen_next hplace hafter
    obtain ⟨hone, hreach, hqueue, hend⟩ :=
      h.delivers hu hnew hplace hv (by rw [hpool, h.base]; exact not_not.mp hbase) hrx
    have hempty (hf : follows u.rx.count n = true) : u.gaps = [] ∧ t.rx.count = n :=
      ⟨(hu.caughtUp (hcaught hf)).2.2, by
        rw [show t.rx.count = (w.risenBy n).rx.count from (State.advance_frame _).2.2.2.2.2.2.2.2.2.2.2.2.1,
          State.risenBy_of_follows (h.count ▸ hf), State.raiseCount_count]⟩
    refine ⟨fun hf => ?raised, fun hf => ?stands, fun hno => ?_, fun _ _ =>
      ⟨?backlog, ?gaps, hone, hreach, hqueue, fun hf => ⟨(hend (hempty hf).2).1, (hend (hempty hf).2).2.1⟩⟩⟩
    case raised =>
      have hnone : (w.risenBy n).gaps = [] := by rw [hgaps, h.gaps_of_after hu (hafter hf), (hempty hf).1]
      exact h.raises hu hf (hafter hf) ((hend (hempty hf).2).2.2.trans hnone.symm) (.inr (hempty hf).1)
    case stands =>
      have hstill : t = w.advance := congrArg State.advance (State.risenBy_of_not (by rw [h.count]; simpa using hf))
      rw [hstill]
      refine ⟨?_, ?_, ?_, ?_, ?_⟩
      · simpa using h.count
      all_goals
        rw [h.rest]
        simp
    · exact absurd hno (by simp [hplace, not_not.mp hbase])
    case backlog =>
      have happends := (Appends_riseAndAdvance w n).2.2
      rw [h.queue] at happends
      exact happends.congr h.backlog.symm (State.cfg_congr (by rw [h.rest])) rfl rfl
    case gaps =>
      cases hf : follows u.rx.count n with
      | true =>
        rw [GapsTrimmed, (hempty hf).1]
        exact (hend (hempty hf).2).2.2
      | false =>
        have hstill : w.risenBy n = w := State.risenBy_of_not (h.count.symm ▸ hf)
        have ht : t = w.advance := congrArg State.advance hstill
        rw [hstill] at hv
        have hfirst : u.ahead n = 1 := by rw [hplace, ahead_next]
        have hpassed : u.ahead n ≤ u.ahead t.rx.settled := hfirst.trans_le hone
        rw [ht] at hpassed ⊢
        exact h.trims hu hv hpassed

end State.Placed

/-! ### The accepted REPLAY, by its outcomes -/

section
variable {s : State} {h : Header} {b : NoticeBody}

/-- Beyond the span limit, before the storage is asked for (R12, log 32). -/
theorem State.acceptReplay_refused (hr : follows s.rx.count b.number = true ∧ 256 < s.ahead b.number) :
    s.acceptReplay h b = s.spanResync h.count :=
  if_pos (by rw [hr.1, State.spanRefuses_eq_true hr.2]; rfl)

theorem State.spanRefuses_and {n : LineNo} (hr : ¬(follows s.rx.count n = true ∧ 256 < s.ahead n)) :
    ¬(follows s.rx.count n && s.spanRefuses n) = true := by
  rw [Bool.and_eq_true, State.spanRefuses, decide_eq_true_eq]
  exact hr

theorem State.acceptReplay_unsubscribed (hr : ¬(follows s.rx.count b.number = true ∧ 256 < s.ahead b.number))
    (hsub : ¬s.cfg.topics.getLsbD b.topic.toNat = true) :
    s.acceptReplay h b = (s.makeKnown b.number).riseAndAdvance b.number := by
  have hunsub : s.subscribed b.topic = false := Bool.eq_false_iff.mpr hsub
  unfold State.acceptReplay
  exact (if_neg (State.spanRefuses_and hr)).trans (if_pos (by rw [hunsub]; rfl))

/-- The storage test of a REPLAY (R97, R98). -/
theorem State.replayRoom_iff (s : State) (n : LineNo) (c : Nat) :
    (if n = s.rx.settled + 1 then s.reserveTest c else s.roomRule c) = true
      ↔ if n = s.rx.settled + 1 then c ≤ s.pool.freeCells.length ∧ 1 ≤ s.pool.freeDescs.length
        else c + 4 ≤ s.pool.freeCells.length ∧ 2 ≤ s.pool.freeDescs.length := by
  by_cases hnext : n = s.rx.settled + 1
  · rw [if_pos hnext, if_pos hnext, s.reserveTest_iff]
  · rw [if_neg hnext, if_neg hnext, s.roomRule_iff]

theorem State.acceptReplay_dropped (hr : ¬(follows s.rx.count b.number = true ∧ 256 < s.ahead b.number))
    (hsub : s.cfg.topics.getLsbD b.topic.toNat = true)
    (hroom : ¬(if b.number = s.rx.settled + 1 then s.reserveTest (cellsFor b.payload.length)
      else s.roomRule (cellsFor b.payload.length)) = true) :
    s.acceptReplay h b = { s with counters := { s.counters with replaysDropped := s.counters.replaysDropped + 1 } } := by
  have hsubs : s.subscribed b.topic = true := hsub
  unfold State.acceptReplay
  exact (if_neg (State.spanRefuses_and hr)).trans ((if_neg (by rw [hsubs]; decide)).trans (if_neg hroom))

theorem State.acceptReplay_stores (hr : ¬(follows s.rx.count b.number = true ∧ 256 < s.ahead b.number))
    (hsub : s.cfg.topics.getLsbD b.topic.toNat = true)
    (hroom : (if b.number = s.rx.settled + 1 then s.reserveTest (cellsFor b.payload.length)
      else s.roomRule (cellsFor b.payload.length)) = true) :
    let stored := s.storeNotice b.number h.sender b.topic b.payload false none true
    s.acceptReplay h b = (stored.2.hold stored.1).riseAndAdvance b.number := by
  have hsubs : s.subscribed b.topic = true := hsub
  unfold State.acceptReplay
  exact (if_neg (State.spanRefuses_and hr)).trans ((if_neg (by rw [hsubs]; decide)).trans (if_pos hroom))

end

/-! ### The receive order of the placed position -/

section
variable {u : State} {n : LineNo}

theorem OrderSound.risenBy_makeKnown (hu : OrderSound u) (h1 : 1 ≤ u.ahead n) (h2 : u.ahead n ≤ 256)
    (hafter : follows u.rx.count n = true → u.ahead u.rx.count < u.ahead n)
    (hwithin : follows u.rx.count n = false → u.ahead n ≤ u.ahead u.rx.count) : OrderSound ((u.makeKnown n).risenBy n) := by
  cases hf : follows u.rx.count n with
  | true =>
    rw [State.risenBy_of_follows (w := u.makeKnown n) hf]
    exact (Ordered_makeKnownAndRise hu (hafter hf) h2).1
  | false =>
    rw [State.risenBy_of_not (w := u.makeKnown n) hf]
    exact OrderSound_makeKnown hu h1 (hwithin hf)

theorem OrderSound.risenBy_hold {x : RxNotice} (hu : OrderSound u) (hnew : u.knownAt x.number = false)
    (h1 : 1 ≤ u.ahead x.number) (h2 : u.ahead x.number ≤ 256)
    (hafter : follows u.rx.count x.number = true → u.ahead u.rx.count < u.ahead x.number)
    (hwithin : follows u.rx.count x.number = false → u.ahead x.number ≤ u.ahead u.rx.count) :
    OrderSound ((u.hold x).risenBy x.number) := by
  cases hf : follows u.rx.count x.number with
  | true =>
    rw [State.risenBy_of_follows (w := u.hold x) hf]
    exact (Ordered_holdAndRise hu (hafter hf) h2).1
  | false =>
    rw [State.risenBy_of_not (w := u.hold x) hf]
    exact OrderSound_hold hu h1 (hwithin hf) hnew

end

/-- Settles O42: refused, dropped, or placed and then as `State.Placed.accepts` has it. -/
theorem replayAccepted : Obligations.ReplayAccepted := by
  intro s chars h b ha hst hgo u c next room subscribed n rises refused hset hnew
  obtain ⟨-, hstn⟩ := State.headerProcess_kept hgo
  have hcells : u.pool.cells = s.pool.cells := by simp [u, State.arrival]
  have hexec {t : State} (ht : u.acceptReplay h b = t) : exec (.replayReceived chars) s = .next t.settleAttn :=
    ((State.classifyReplay_missing hset hnew).trans ht) ▸ ha.exec_taken hst hgo
  have hfollows : follows u.rx.settled b.number = true := by simpa [frameAtOrBefore] using hset
  refine ⟨fun hr hleaving => hexec ?_, fun hr hstays => hexec ?_, fun hr hsub hno => hexec ?_,
    fun hr hplaced hu hrests => ?accepted⟩
  · exact (State.acceptReplay_refused hr).trans (State.spanResync_leaving (by rw [hstn]; exact hleaving) _)
  · exact (State.acceptReplay_refused hr).trans
      (State.spanResync_resyncs (by rw [hstn]; exact hst) (by rw [hstn]; exact hstays) _)
  · exact State.acceptReplay_dropped hr hsub (mt (u.replayRoom_iff b.number c).mp hno)
  case accepted =>
    have hafter (hf : follows u.rx.count b.number = true) : u.ahead u.rx.count < u.ahead b.number ∧ u.ahead b.number ≤ 256 :=
      ahead_of_follows hu hf (State.spanRefuses_eq_false (Nat.not_lt.mp fun hspan => hr ⟨hf, hspan⟩))
    have hwithin (hf : follows u.rx.count b.number = false) := ahead_of_between hu hfollows hf
    have hspan := hu.1
    have hbounds : 1 ≤ u.ahead b.number ∧ u.ahead b.number ≤ 256 := by
      cases hf : follows u.rx.count b.number with
      | true => have := hafter hf; omega
      | false => have := hwithin hf; omega
    obtain ⟨h1, h2⟩ := hbounds
    by_cases hsub : subscribed
    · have hroom : room := (hplaced.resolve_right (not_not.mpr hsub)).2
      have hclaims : c ≤ u.pool.freeCells.length := by
        by_cases hnext : b.number = u.rx.settled + 1
        · exact ((if_pos hnext).mp hroom).1
        · have := ((if_neg hnext).mp hroom).1
          omega
      let pool := (u.storeNotice b.number h.sender b.topic b.payload false none true).2.pool
      have heq : u.acceptReplay h b = (State.hold { u with pool := pool } n).riseAndAdvance b.number :=
        State.acceptReplay_stores hr hsub ((u.replayRoom_iff b.number c).mpr hroom)
      have hpl : u.Placed (State.hold { u with pool := pool } n) b.number (some n) :=
        State.Placed_hold (p := pool) (n := n) (fun hd => by simp [pool, State.storeNotice, hd]) rfl
      have hsame : SameOrder u { u with pool := pool } := ⟨rfl, rfl, rfl, rfl, rfl, rfl⟩
      obtain ⟨hraised, hstands, hheld, hdelivered⟩ := hpl.accepts hu hrests hnew h1 h2 (fun hf => (hafter hf).1)
        (OrderSound.risenBy_hold (u := { u with pool := pool }) (x := n) (hu.congr hsame) hnew h1 h2
          (fun hf => (hafter hf).1) (fun hf => (hwithin hf).2))
      refine ⟨_, hexec heq, AttnFollows_settleAttn _, by simp [State.hold], by simp [State.hold], by simp [State.hold],
        hraised, hstands, ?freeCells, fun _ hnodup hwf => ?payload, fun hno => absurd hsub hno, fun hno => ?held,
        fun hnext hbase => ?delivered⟩
      case freeCells => exact (by simp [State.hold, pool, State.storeNotice, c] : _ = u.pool.freeCells.drop c).trans (if_pos hsub).symm
      case payload =>
        have hstored : (State.riseAndAdvance (State.hold { u with pool := pool } n) b.number).pool.cells = pool.cells := by
          simp [State.hold]
        rw [← hcells] at hwf ⊢
        refine ⟨(State.rxPayload_congr hstored n).trans
          (State.rxPayload_storeNotice hwf hnodup b.number h.sender b.topic b.payload false none true hclaims), fun a ha => ?_⟩
        exact (congrArg (Memory.read · a) hstored).trans
          (State.read_storeNotice_of_notMem hwf b.number h.sender b.topic b.payload false none true ha)
      case held =>
        obtain ⟨hsettled, hqueue, hbacklog, hknown, hothers, hholds, hgaps⟩ := hheld hno
        exact ⟨hsettled, hqueue, hbacklog, hknown, hothers,
          fun x => (hholds x).trans (or_congr_right (by simp [hsub, eq_comm])), hgaps⟩
      case delivered =>
        obtain ⟨hbacklog, hgaps, hone, hreach, ⟨more, hqueue⟩, hend⟩ := hdelivered hnext hbase
        refine ⟨hbacklog, hgaps, hone, hreach, fun _ => ⟨more, by simpa using hqueue⟩, fun hf => ?_⟩
        obtain ⟨hsettled, hrecord⟩ := hend hf
        exact ⟨hsettled, hrecord.trans (congrArg (u.rx.queue ++ ·) (if_pos hsub).symm)⟩
    · have heq : u.acceptReplay h b = (u.makeKnown b.number).riseAndAdvance b.number := State.acceptReplay_unsubscribed hr hsub
      obtain ⟨hraised, hstands, hheld, hdelivered⟩ := (u.Placed_makeKnown b.number).accepts hu hrests hnew h1 h2
        (fun hf => (hafter hf).1) (hu.risenBy_makeKnown h1 h2 (fun hf => (hafter hf).1) (fun hf => (hwithin hf).2))
      refine ⟨_, hexec heq, AttnFollows_settleAttn _, by simp, by simp, by simp, hraised, hstands, ?freeCells,
        fun hyes => absurd hyes hsub, fun _ => ?cells, fun hno => ?held, fun hnext hbase => ?delivered⟩
      case freeCells => exact (by simp : _ = u.pool.freeCells).trans (if_neg hsub).symm
      case cells => simpa using hcells
      case held =>
        obtain ⟨hsettled, hqueue, hbacklog, hknown, hothers, hholds, hgaps⟩ := hheld hno
        exact ⟨hsettled, hqueue, hbacklog, hknown, hothers, fun x => (hholds x).trans (or_congr_right (by simp [hsub])), hgaps⟩
      case delivered =>
        obtain ⟨hbacklog, hgaps, hone, hreach, -, hend⟩ := hdelivered hnext hbase
        refine ⟨hbacklog, hgaps, hone, hreach, fun hyes => absurd hyes hsub, fun hf => ?_⟩
        obtain ⟨hsettled, hrecord⟩ := hend hf
        exact ⟨hsettled, hrecord.trans (congrArg (u.rx.queue ++ ·) (if_neg hsub).symm)⟩

end Sys2Proof.Machine
end

