-- ==== Sys2Proof/Proofs/AdoptionState.lean ====
section
/-!
PROOF. The station right after adoption (R9, R15, R138), and what the adopting frame's header then does.
-/

namespace Sys2Proof.Machine

/-! ### Adoption -/

/-- A station that has heard a frame or the end of a window in LISTEN: the line interface and the listen timer differ. -/
def State.listened (s : State) (l : LineBlock) (t : Timer) : State := { s with line := l, stn := { s.stn with listenTimer := t } }

/-- The count and storage of adoption, for a station that goes on from it. -/
theorem AdoptedAt.congr {s a t : State} {n : LineNo} (h : AdoptedAt s a n) (hrx : t.rx = a.rx) (hgaps : t.gaps = a.gaps)
    (hpool : t.pool = a.pool) (hout : t.send.outbound = a.send.outbound) (htag : t.send.tagCounter = a.send.tagCounter)
    (hyield : t.line.yield = a.line.yield) (hwindow : t.line.window = a.line.window)
    (hlisten : t.stn.listenTimer = a.stn.listenTimer) (hbeacon : t.stn.beaconTimer = a.stn.beaconTimer)
    (hdue : t.stn.beaconDue = a.stn.beaconDue) (hjoins : t.stn.joinBeacons = a.stn.joinBeacons)
    (hconfig : t.stn.config = a.stn.config) (hword : t.stn.word = a.stn.word) : AdoptedAt s t n := by
  unfold AdoptedAt at h ⊢
  obtain ⟨h1, h2, h3, h4, h5, hbase, hrest⟩ := h
  rw [hrx, hgaps, hpool, hout, htag, hyield, hwindow, hlisten, hbeacon, hdue, hjoins, hconfig, hword]
  exact ⟨h1, h2, h3, h4, h5, hbase.congr rfl rfl rfl hrx hpool, hrest⟩

section
variable {s : State} {l : LineBlock} {timer : Timer}

/-- What adoption leaves of a station in LISTEN (`State.adopt_spec`, `State.adopt_horizon`). -/
theorem AdoptedJoining_adopt (hst : s.stn.state = .listen) (hoff : OffLineEmpty s) (hp : PendingBaseSound s)
    (hown : l.ownFrame = s.line.ownFrame) (hwindow : l.window = none) (n : LineNo) :
    AdoptedJoining s ((s.listened l timer).adopt n) n ∧ ((s.listened l timer).adopt n).line = l.standBack := by
  let x := s.listened l timer
  obtain ⟨hheld, -, hgaps, -, -⟩ := hoff.listen hst
  obtain ⟨hcount, hsettled, hknown, hheld', hgaps', -, -, hline, hstn, -, hbase⟩ := State.adopt_spec (s := x) hheld hgaps n
  obtain ⟨hmembers, hsend, hport⟩ := State.adopt_horizon (s := x) hheld hgaps n
  obtain ⟨hkept, hlost⟩ := State.horizon_congr (s := s) (t := x) rfl n
  have hreleased : x.releasedAtHorizon n = s.releasedAtHorizon n :=
    State.releasedAtHorizon_congr (s := s) (t := x) rfl rfl hown rfl n
  rw [hkept] at hmembers
  rw [hreleased] at hsend
  rw [hlost] at hport
  refine ⟨⟨⟨hcount, hsettled, hknown, hheld', hgaps', (hbase hp).congr rfl rfl rfl rfl rfl, by rw [hstn], by rw [hstn]; rfl,
    by rw [hstn], by rw [hstn], ?yield, ?window, by rw [hstn]; rfl, by rw [hstn]; rfl, ?outbound, ?tag, ?cells⟩, hstn, hmembers, hsend,
    ?commit, ?counters, ?pool, ?port⟩, hline⟩
  case yield => rw [hline]; simp
  case window => rw [hline, LineBlock.standBack_window]; exact hwindow
  case port =>
    have hlisten : x.stn.state = .listen := hst
    rw [hport, hlisten]
    exact State.postReport_port_congr (State.postReports_port_congr (s := x) (t := s) rfl _) _
  all_goals simp [State.listened]

end

/-! ### The adopting frame's header -/

/-- A JOINING station as adoption leaves it: its members have not included it yet (R138). -/
def State.Joins (s t : State) (n : LineNo) : Prop :=
  AdoptedAt s t n ∧ t.stn.state = .joining ∧ t.stn.joinTimer = .running (8 * s.cfg.beaconInterval)
    ∧ ∀ m ∈ t.members, m.includedMe = false

/-- The adopting frame's count is not ahead of the count it set (R3, R9). -/
theorem State.headerProcess_adopted {a : State} {h : Header} {leaving : Bool}
    (hc : a.rx.count = h.count ∨ a.rx.count = h.count + 1) :
    a.headerProcess h leaving = (a.headerMember h leaving, true) := by
  have hback : (h.count - a.rx.count).toNat = 0 ∨ (h.count - a.rx.count).toNat = 65535 := by
    obtain hc | hc := hc
    · exact .inl (by rw [hc]; simp)
    · exact .inr (by rw [hc]; bv_omega)
  refine State.headerProcess_quiet ?_ ?_
  · simp only [follows, Bool.and_eq_false_iff, decide_eq_false_iff_not]
    omega
  · simp only [unordered, decide_eq_false_iff_not]
    omega

section
variable {s a : State} {h : Header} {n : LineNo} {leaving : Bool}

theorem AdoptedJoining.joins (ha : AdoptedJoining s a n) : s.Joins a n := by
  obtain ⟨hat, hstn, hmembers, -⟩ := ha
  refine ⟨hat, by rw [hstn], by rw [hstn], fun m hm => ?_⟩
  rw [hmembers] at hm
  obtain ⟨_, -, rfl⟩ := List.mem_map.mp hm
  rfl

/-- The header takes or refreshes the sender's entry, and includes nobody (R149, R150). -/
theorem State.Joins.header (hj : s.Joins a n) (h : Header) (leaving : Bool) : s.Joins (a.headerMember h leaving) n := by
  obtain ⟨hat, hst, htimer, hmembers⟩ := hj
  refine ⟨hat.congr (by simp) (by simp) (by simp) (by simp) (by simp) (by simp) (by simp) (by simp) (by simp) (by simp) (by simp)
    (by simp) (by simp), by simpa using hst, by simpa using htimer, fun m hm => ?_⟩
  obtain hm | ⟨e, he, -, rfl, -⟩ | ⟨rfl, -⟩ := State.headerMember_mem hm
  · exact hmembers m hm
  · exact hmembers e he
  · rfl

/-- The entry of a sender that adoption has just met (R149). -/
def State.metMember (s : State) (h : Header) (word : Option Word16) (included : Bool) : Member :=
  { station := h.sender, state := h.senderState, settled := h.settled
    presence := .running (s.cfg.presenceMultiple * s.cfg.beaconInterval), includedMe := included, word := word }

/-- A sender that adoption's horizon left no entry of becomes a member, with its report (R149). -/
theorem AdoptedJoining.meets (ha : AdoptedJoining s a n) (habsent : ∀ m ∈ s.keptAtHorizon n, m.station ≠ h.sender)
    (hnear : distance h.settled n ≤ 16384) : let v := a.headerMember h false
    v.port = (((s.postReports (s.horizonReports n)).postReport (.stateChange .listen .joining .adoption)).postReport
        (.memberJoined h.sender)).port
      ∧ v.send = s.releasedAtHorizon n
      ∧ ∃ before after, v.members = before ++ s.metMember h none false :: after
        ∧ ∀ e ∈ before ++ after, e.station ≠ h.sender := by
  obtain ⟨⟨hcount, -, -, -, -, -, -, -, -, -, -, -, hconfig, -⟩, -, hmembers, hsend, -, -, -, hport⟩ := ha
  have hne : ∀ m ∈ a.members, m.station ≠ h.sender := fun m hm => by
    rw [hmembers] at hm
    obtain ⟨e, he, rfl⟩ := List.mem_map.mp hm
    exact habsent e he
  have hnew : Member.new h a.presenceInterval = s.metMember h none false := by
    rw [State.presenceInterval, State.cfg_congr hconfig]
    rfl
  obtain ⟨before, after, hold, hinsert, -⟩ := insertMember_split (.new h a.presenceInterval) a.members
  have hjoined := State.headerMember_joins (s := a) hne (by rw [hcount]; exact Nat.not_lt.mpr hnear)
  intro v
  have hv : v = _ := hjoined
  rw [hv]
  refine ⟨State.postReport_port_congr (by exact hport) _, by simpa using hsend, before, after, ?_, ?_⟩
  · rw [State.postReport_eq, ← hnew]
    exact hinsert
  · exact fun e he => hne e (hold ▸ he)

end

end Sys2Proof.Machine
end

