-- ==== Sys2Proof/Proofs/Adoption.lean ====
section
/-!
PROOF. The frames and the window that a station in LISTEN adopts from (R9, R129, R138).
-/

namespace Sys2Proof.Machine

theorem State.takeView_leave {s : State} {h : Header} {view : Set32} (hn : ¬view.getLsbD s.line.id.toNat = true) :
    s.takeView h .leave view = s := if_neg hn

/-! ### The pins take no part -/

/-- The station with other levels on its pins. -/
def State.withPins (s : State) (p : Pins) : State := { s with pins := p }

section
variable (s : State) (p : Pins)

/-- ATTN# follows its causes whatever its level was (R181). -/
theorem State.settleAttn_withPins (h : p.resetLow = s.pins.resetLow) : (s.withPins p).settleAttn = s.settleAttn :=
  congrArg (fun low => s.withPins { resetLow := low, attnLow := !low && s.attentionWanted }) h

theorem State.postReport_withPins (r : Report) : (s.withPins p).postReport r = (s.postReport r).withPins p := by
  unfold State.postReport State.withPins
  split <;> rfl

theorem State.evaluateRelease_withPins : (s.withPins p).evaluateRelease = s.evaluateRelease.withPins p := by
  rw [State.evaluateRelease_eq, State.evaluateRelease_eq]
  rfl

theorem State.headerMember_withPins (h : Header) (leaving : Bool) :
    (s.withPins p).headerMember h leaving = (s.headerMember h leaving).withPins p := by
  have hmember : (s.withPins p).member = s.member := rfl
  have hcount : (s.withPins p).rx.count = s.rx.count := rfl
  have hgoes (r : Report) : (((s.withPins p).removeMember h.sender).postReport r).evaluateRelease
      = (((s.removeMember h.sender).postReport r).evaluateRelease).withPins p := by
    rw [← State.evaluateRelease_withPins, ← State.postReport_withPins]
    rfl
  rw [State.headerMember, State.headerMember, hmember, hcount]
  by_cases hfar : beyondHorizon h.settled s.rx.count = true
  · rw [if_pos hfar, if_pos hfar]
    cases s.member h.sender with
    | none => rfl
    | some m => exact hgoes _
  rw [if_neg hfar, if_neg hfar]
  by_cases hleave : leaving = true
  · rw [if_pos hleave, if_pos hleave]
    cases s.member h.sender with
    | none => rfl
    | some m => exact hgoes _
  rw [if_neg hleave, if_neg hleave]
  cases s.member h.sender with
  | none =>
    exact State.postReport_withPins { s with members := insertMember (.new h s.presenceInterval) s.members } p
      (.memberJoined h.sender)
  | some m =>
    let v := s.updateMember h.sender fun e => e.heard h s.presenceInterval
    change (if m.settled = h.settled then v.withPins p else (v.withPins p).evaluateRelease)
      = (if m.settled = h.settled then v else v.evaluateRelease).withPins p
    rw [State.evaluateRelease_withPins, apply_ite (State.withPins · p)]

theorem State.takeWord_withPins (n : StationNo) (word : Word16) : (s.withPins p).takeWord n word = (s.takeWord n word).withPins p := by
  have hmember : (s.withPins p).member = s.member := rfl
  rw [State.takeWord, State.takeWord, hmember]
  cases s.member n with
  | none => rfl
  | some m =>
    let v := s.updateMember n fun e => { e with word := some word }
    change (if m.word = some word then s.withPins p else (v.withPins p).postReport (.peerWord n word))
      = (if m.word = some word then s else v.postReport (.peerWord n word)).withPins p
    rw [State.postReport_withPins, apply_ite (State.withPins · p)]

theorem State.include_withPins : (s.withPins p).include = s.include.withPins p :=
  State.postReport_withPins { s with
    line := s.line.standBack
    stn := { s.stn with state := .active, joinTimer := .stopped, joinExpiryHeld := false } } p
    (.stateChange s.stn.state .active .inclusion)

/-- The view of a beacon whose sender has not included this station before: nothing is excluded (R156, R157). -/
theorem State.takeView_withPins {h : Header} (kind : BeaconKind) (view : Set32) (hno : s.includedBy h.sender = false) :
    (s.withPins p).takeView h kind view = (s.takeView h kind view).withPins p := by
  by_cases hn : view.getLsbD s.line.id.toNat = true
  · by_cases hst : s.stn.state = .joining
    · rw [State.takeView_includes hn hst, State.takeView_includes (s := s.withPins p) hn hst]
      exact State.include_withPins (s.updateMember h.sender fun e => { e with includedMe := true }) p
    · rw [State.takeView_named hn hst, State.takeView_named (s := s.withPins p) hn hst]
      rfl
  · cases kind with
    | periodic =>
      rw [State.takeView_periodic hn hno, State.takeView_periodic (s := s.withPins p) hn hno]
    | join =>
      rw [State.takeView_join hn, State.takeView_join (s := s.withPins p) hn]
      rfl
    | leave => rw [State.takeView_leave hn, State.takeView_leave (s := s.withPins p) hn]

end

/-! ### Nobody has included the station yet -/

section
variable {s : State}

theorem State.includedBy_of_none (hno : ∀ m ∈ s.members, m.includedMe = false) (n : StationNo) : s.includedBy n = false := by
  unfold State.includedBy
  cases hm : s.member n with
  | none => rfl
  | some m => exact hno m (List.mem_of_find?_eq_some hm)

/-- A change of entries that leaves the included-me flags clear. -/
theorem State.updateMember_included {f : Member → Member} {n : StationNo} (hno : ∀ m ∈ s.members, m.includedMe = false)
    (hf : ∀ m ∈ s.members, (f m).includedMe = false) : ∀ m ∈ (s.updateMember n f).members, m.includedMe = false := fun m hm => by
  rw [State.updateMember_members] at hm
  obtain ⟨e, he, rfl⟩ := List.mem_map.mp hm
  split
  · exact hf e he
  · exact hno e he

theorem State.takeWord_included (hno : ∀ m ∈ s.members, m.includedMe = false) (n : StationNo) (word : Word16) :
    ∀ m ∈ (s.takeWord n word).members, m.includedMe = false := by
  unfold State.takeWord
  split
  · split
    · exact hno
    · rw [State.postReport_eq]
      exact State.updateMember_included hno fun m hm => hno m hm
  · exact hno

/-- What a frame other than a NOTICE does to a station that has just adopted takes no account of the pins. -/
theorem State.frameTaken_withPins {f : Frame} (hf : ∀ h b, f ≠ .notice h b)
    (hreplay : ∀ h b, f = .replay h b → frameAtOrBefore b.number s.rx.settled = true)
    (hno : ∀ m ∈ s.members, m.includedMe = false) (p : Pins) :
    State.frameTaken f (s.withPins p) = (State.frameTaken f s).withPins p := by
  cases f with
  | notice h b => exact absurd rfl (hf h b)
  | replay h b =>
    have hold := hreplay h b rfl
    exact (State.classifyReplay_settled (s := s.withPins p) hold).trans
      (congrArg (State.withPins · p) (State.classifyReplay_settled hold).symm)
  | resend h r => rfl
  | beacon h kind view word =>
    change (if (kind == .leave || s.stn.state == .leaving) = true then s.withPins p
        else ((s.withPins p).takeWord h.sender word).takeView h kind view)
      = (if (kind == .leave || s.stn.state == .leaving) = true then s else (s.takeWord h.sender word).takeView h kind view).withPins p
    rw [State.takeWord_withPins,
      State.takeView_withPins _ p kind view (State.includedBy_of_none (State.takeWord_included hno _ _) _),
      apply_ite (State.withPins · p)]

end

/-! ### The adopting frame -/

section
variable {s : State} {chars : List LineChar} {f : Frame} {h : Header}

/-- The station right after a frame's adoption, before the frame is processed (R9, R138). -/
abbrev State.adoptedFrom (s : State) (h : Header) : State := (s.heard h).adopt h.count

theorem Arrives.adoptedFrom (ha : Arrives s chars f) (hst : s.stn.state = .listen) (hoff : OffLineEmpty s) (hp : PendingBaseSound s) :
    AdoptedJoining s (s.adoptedFrom (Frame.header f)) (Frame.header f).count
      ∧ (s.adoptedFrom (Frame.header f)).line = { (s.arrival (Frame.header f)).line with yield := true } := by
  obtain ⟨-, hr, -, -⟩ := ha
  have hwindow : s.line.window = none := by
    simp only [State.receiving, Bool.and_eq_true, Option.isNone_iff_eq_none] at hr
    exact hr.2
  obtain ⟨hjoining, hline⟩ := AdoptedJoining_adopt (l := (s.arrival (Frame.header f)).line) (timer := .stopped) hst hoff hp rfl
    hwindow (Frame.header f).count
  exact ⟨hjoining, hline.trans (LineBlock.standBack_of_busy rfl)⟩

/-- The same station with the line idle once more, ready for the frame again. -/
def State.awaitsAgain (y : State) : State := State.settleAttn { y with line := { y.line with ready := true } }

/-- What the frame does where the count is its header's. -/
theorem State.frameArrives_adopted {y : State} (hc : y.rx.count = (Frame.header f).count) :
    State.frameArrives f y = State.frameTaken f (y.headerMember (Frame.header f) (Frame.leaves f)) := by
  have hquiet := State.headerProcess_adopted (h := Frame.header f) (leaving := Frame.leaves f) (.inl hc)
  rw [State.frameArrives_taken (by rw [hquiet]), hquiet]

theorem State.frameAdopts_eq (hf : ∀ h b, f ≠ .notice h b) :
    State.frameAdopts f (s.heard (Frame.header f)) = State.frameArrives f (s.adoptedFrom (Frame.header f)) := by
  cases f with
  | notice h b => exact absurd rfl (hf h b)
  | replay h b => rfl
  | resend h r => rfl
  | beacon h kind view word => rfl

theorem Arrives.exec_adopts (ha : Arrives s chars f) (hst : s.stn.state = .listen) (hoff : OffLineEmpty s)
    (hp : PendingBaseSound s) (hf : ∀ h b, f ≠ .notice h b) : exec (frameEvent chars f) s = .next (State.frameTaken f
      ((s.adoptedFrom (Frame.header f)).headerMember (Frame.header f) (Frame.leaves f))).settleAttn := by
  obtain ⟨⟨⟨hcount, -⟩, -⟩, -⟩ := ha.adoptedFrom hst hoff hp
  rw [ha.exec_listen hst, State.frameAdopts_eq hf, State.frameArrives_adopted hcount]

/-- A valid REPLAY's number does not follow its sender's count (R20). -/
theorem replay_settled {h : Header} {b : NoticeBody} (hf : readFrame chars = some (.replay h b)) :
    frameAtOrBefore b.number h.count = true := by
  have hv := readFrame_valid hf
  simp only [Frame.valid, Bool.and_eq_true] at hv
  exact hv.1.2

/-- Adoption first, and then the frame as at any station on the line: the two meet in one state (R9). -/
theorem Arrives.adopts_first (ha : Arrives s chars f) (hst : s.stn.state = .listen) (hoff : OffLineEmpty s)
    (hp : PendingBaseSound s) (hf : ∀ h b, f ≠ .notice h b) : ∃ a, AdoptedJoining s a (Frame.header f).count
      ∧ a.line = { (s.arrival (Frame.header f)).line with ready := true, yield := true }
      ∧ Arrives a chars f ∧ exec (frameEvent chars f) s = exec (frameEvent chars f) a := by
  let y := s.adoptedFrom (Frame.header f)
  let a := y.awaitsAgain
  obtain ⟨hjoining, hline⟩ := ha.adoptedFrom hst hoff hp
  have hexec := ha.exec_adopts hst hoff hp hf
  obtain ⟨hs, hr, hread, hid⟩ := ha
  obtain ⟨⟨hcount, hsettled, -⟩, hstn, -⟩ := id hjoining
  obtain ⟨-, -, -, hnone⟩ := hjoining.joins.header (Frame.header f) (Frame.leaves f)
  have haline : a.line = { (s.arrival (Frame.header f)).line with ready := true, yield := true } :=
    congrArg (fun l : LineBlock => { l with ready := true }) hline
  have harrives : Arrives a chars f := by
    simp only [State.receiving, Bool.and_eq_true] at hr
    obtain ⟨⟨-, hown⟩, hwindow⟩ := hr
    have hastn : a.stn.state = .joining := congrArg StationBlock.state hstn
    have hpins : y.pins = s.pins := by simp [y, State.heard, State.arrival]
    refine ⟨⟨(congrArg Pins.resetLow hpins).trans hs.1, AttnFollows_settleAttn _⟩, ?_, hread, by rw [haline]; exact hid⟩
    simpa [State.receiving, haline, StationBlock.hearsLine, hastn, State.arrival] using And.intro hown hwindow
  refine ⟨a, hjoining, haline, harrives, ?_⟩
  have hback : a.arrival (Frame.header f) = y.withPins a.pins := by
    have hyline : (a.arrival (Frame.header f)).line = y.line := by
      rw [hline, State.arrival, haline]
      rfl
    exact congrArg (fun l : LineBlock => State.withPins { y with line := l } a.pins) hyline
  have hon : a.stn.onLine = true := (StationBlock.onLine_iff _).mpr (.inl (congrArg StationBlock.state hstn))
  let v := y.headerMember (Frame.header f) (Frame.leaves f)
  have hold (h : Header) (b : NoticeBody) (hreplay : f = .replay h b) : frameAtOrBefore b.number v.rx.settled = true := by
    subst hreplay
    rw [show v.rx = y.rx by simp [v], hsettled]
    exact replay_settled hread
  have hcommute : State.frameTaken f v = (State.frameTaken f v).withPins v.pins := State.frameTaken_withPins hf hold hnone v.pins
  have hsame : (State.frameTaken f v).pins = v.pins := by
    rw [hcommute]
    rfl
  rw [hexec, harrives.exec_onLine hon, hback, State.frameArrives_adopted (y := y.withPins a.pins) hcount,
    State.headerMember_withPins, State.frameTaken_withPins hf hold hnone, State.settleAttn_withPins]
  rw [hsame]
  simp [v, a, State.awaitsAgain]

end

end Sys2Proof.Machine
end

