-- ==== Sys2Proof/Proofs/AdoptionOutcome.lean ====
section
/-!
PROOF. What each kind of adopting frame leaves (R9, R84, R96, R129, R138, R140, R155, R156).
-/

namespace Sys2Proof.Machine

section
variable {s v t : State} {h : Header} {n : LineNo} {kind : BeaconKind} {view : Set32} {word : Word16}

/-! ### A JOINING station that has just adopted -/

theorem State.Joins.of_frame (hj : s.Joins v n) (hrx : t.rx = v.rx) (hgaps : t.gaps = v.gaps) (hpool : t.pool = v.pool)
    (hout : t.send.outbound = v.send.outbound) (htag : t.send.tagCounter = v.send.tagCounter) (hline : t.line = v.line)
    (hstn : t.stn = v.stn) (hmembers : ∀ m ∈ t.members, m.includedMe = false) : s.Joins t n := by
  obtain ⟨hat, hst, htimer, -⟩ := hj
  exact ⟨hat.congr hrx hgaps hpool hout htag (by rw [hline]) (by rw [hline]) (by rw [hstn]) (by rw [hstn]) (by rw [hstn])
    (by rw [hstn]) (by rw [hstn]) (by rw [hstn]), by rw [hstn]; exact hst, by rw [hstn]; exact htimer, hmembers⟩

theorem State.Joins.excluded (hj : s.Joins v n) : ∀ m ∈ v.members, m.includedMe = false := by
  obtain ⟨-, -, -, hmembers⟩ := hj
  exact hmembers

/-- A REPLAY is of a settled position and changes a counter alone (R96). -/
theorem State.Joins.duplicate (hj : s.Joins v n) : s.Joins v.countDuplicate n :=
  hj.of_frame rfl rfl rfl rfl rfl rfl rfl hj.excluded

/-- No entry stands to suppress; a RESEND marks retained notices (R84, R129). -/
theorem State.Joins.asked (hj : s.Joins v n) (r : ResendRange) : s.Joins ((v.suppress r).markReplays r) n := by
  obtain ⟨⟨-, -, -, -, hgaps, -⟩, -, -, hmembers⟩ := id hj
  refine hj.of_frame rfl ?_ rfl rfl rfl rfl rfl hmembers
  rw [State.markReplays_gaps, State.suppress, hgaps]
  rfl

theorem State.Joins.takesWord (hj : s.Joins v n) (sender : StationNo) (word : Word16) : s.Joins (v.takeWord sender word) n :=
  hj.of_frame (by simp) (by simp) (by simp) (by simp) (by simp) (by simp) (by simp) (State.takeWord_included hj.excluded _ _)

/-- A view that does not name the station changes nothing: nobody had included it (R157, R158). -/
theorem State.Joins.takesView (hj : s.Joins v n) (h : Header) (kind : BeaconKind) (hn : ¬view.getLsbD v.line.id.toNat = true) :
    s.Joins (v.takeView h kind view) n := by
  cases kind with
  | leave => rw [State.takeView_leave hn]; exact hj
  | periodic => rw [State.takeView_periodic hn (State.includedBy_of_none hj.excluded _)]; exact hj
  | join =>
    rw [State.takeView_join hn]
    exact hj.of_frame rfl rfl rfl rfl rfl rfl rfl (State.updateMember_included hj.excluded fun _ _ => rfl)

theorem State.takeView_counters (v : State) (h : Header) (kind : BeaconKind) (view : Set32) :
    (v.takeView h kind view).counters = v.counters :=
  kept_takeView (I := fun t => t.counters = v.counters) kind view rfl (fun _ => rfl) (fun _ => by simp) fun _ => by simp

/-- A view that names the station includes it (R140, R156). -/
theorem State.Joins.included (hj : s.Joins v n) (h : Header) (kind : BeaconKind) (hn : view.getLsbD v.line.id.toNat = true) :
    let t := v.takeView h kind view
    AdoptedAt s t n ∧ t.stn.state = .active ∧ t.stn.joinTimer = .stopped ∧ t.counters = v.counters := by
  obtain ⟨hat, hst, -⟩ := hj
  intro t
  have ht : t = _ := State.takeView_includes hn hst
  obtain ⟨-, -, -, -, -, -, -, -, -, -, hyield, -⟩ := id hat
  rw [ht]
  refine ⟨hat.congr (by simp) (by simp) (by simp) (by simp) (by simp) ?_ ?_ (by simp [State.include]) (by simp [State.include])
    (by simp [State.include]) (by simp [State.include]) (by simp) (by simp), by simp [State.include], by simp [State.include], by simp⟩
  · simp [State.include, hyield]
  · simp [State.include]

/-! ### A member that has just been met -/

section
variable {before after : List Member} {g : State}

/-- The word of a member just met is reported, and the view then finds its flag clear (R155, R157). -/
theorem State.met_unnamed (hsplit : v.members = before ++ s.metMember h none false :: after)
    (hothers : ∀ e ∈ before ++ after, e.station ≠ h.sender) (hk : kind ≠ .leave) (hn : ¬view.getLsbD v.line.id.toNat = true) :
    (v.takeWord h.sender word).takeView h kind view = v.told h.sender word before after (s.metMember h none false) false := by
  have hword : v.takeWord h.sender word = v.told h.sender word before after (s.metMember h none false) false :=
    State.takeWord_member hsplit rfl hothers
  rw [hword]
  cases kind with
  | leave => exact absurd rfl hk
  | join => exact (State.takeView_join (by exact hn)).trans (State.told_include rfl hothers _ _)
  | periodic => exact State.takeView_periodic (by exact hn) (State.told_includedBy rfl hothers _)

theorem State.met_named (hsplit : v.members = before ++ s.metMember h none false :: after)
    (hothers : ∀ e ∈ before ++ after, e.station ≠ h.sender) (hst : v.stn.state = .joining)
    (hn : view.getLsbD v.line.id.toNat = true) :
    (v.takeWord h.sender word).takeView h kind view
      = (v.told h.sender word before after (s.metMember h none false) true).include := by
  have hword : v.takeWord h.sender word = v.told h.sender word before after (s.metMember h none false) false :=
    State.takeWord_member hsplit rfl hothers
  rw [hword]
  exact (State.takeView_includes (by exact hn) (by exact hst)).trans (congrArg State.include (State.told_include rfl hothers _ _))

theorem State.told_met_port (hport : v.port = g.port) (included : Bool) :
    (v.told h.sender word before after (s.metMember h none false) included).port = (g.postReport (.peerWord h.sender word)).port := by
  have hnew : (s.metMember h none false).word ≠ some word := by simp [State.metMember]
  rw [State.told, if_neg hnew]
  exact State.postReport_port_congr hport _

end

/-! ### The adopting frame, once its header is processed -/

theorem mem_of_split {α : Type} {l before after : List α} {x : α} (h : l = before ++ x :: after) : x ∈ l := by
  rw [h]
  simp

/-- The reports of adoption at a count (R15, R138). -/
def State.adoptionReported (s : State) (n : LineNo) : State :=
  (s.postReports (s.horizonReports n)).postReport (.stateChange .listen .joining .adoption)

/-- The station once it has adopted from a frame and processed its header. -/
structure State.Adopted (s v : State) (h : Header) (leaving : Bool) : Prop where
  joins : s.Joins v h.count
  counters : v.counters = s.counters
  timing : v.line.timing = .busy
  id : v.line.id = s.line.id
  met : leaving = false → (∀ m ∈ s.keptAtHorizon h.count, m.station ≠ h.sender) → distance h.settled h.count ≤ 16384 →
    v.port = ((s.adoptionReported h.count).postReport (.memberJoined h.sender)).port ∧ v.send = s.releasedAtHorizon h.count
      ∧ ∃ before after, v.members = before ++ s.metMember h none false :: after ∧ ∀ e ∈ before ++ after, e.station ≠ h.sender
  left : leaving = true → (∀ m ∈ s.keptAtHorizon h.count, m.station ≠ h.sender) →
    v.port = (s.adoptionReported h.count).port ∧ v.send = s.releasedAtHorizon h.count
      ∧ v.members = (s.keptAtHorizon h.count).map (fun m => { m with includedMe := false })

/-- Every frame but a NOTICE adopts, has its header processed, and then does what its kind does (R9). -/
theorem Arrives.adopts {chars : List LineChar} {f : Frame} (ha : Arrives s chars f) (hst : s.stn.state = .listen)
    (hoff : OffLineEmpty s) (hp : PendingBaseSound s) (hf : ∀ h b, f ≠ .notice h b) :
    ∃ v, s.Adopted v (Frame.header f) (Frame.leaves f)
      ∧ exec (frameEvent chars f) s = .next (State.frameTaken f v).settleAttn := by
  obtain ⟨hjoining, hline⟩ := ha.adoptedFrom hst hoff hp
  refine ⟨_, ⟨hjoining.joins.header _ _, by simp [State.heard, State.arrival], ?_, ?_, fun hl habsent hnear => ?_,
    fun hl habsent => ?_⟩, ha.exec_adopts hst hoff hp hf⟩
  · rw [(State.headerMember_frame ..).1, hline]
    rfl
  · rw [(State.headerMember_frame ..).1, hline]
    rfl
  · rw [hl]
    exact hjoining.meets habsent hnear
  · obtain ⟨-, -, hmembers, hsend, -, -, -, hport⟩ := hjoining
    have hne : ∀ m ∈ (s.adoptedFrom (Frame.header f)).members, m.station ≠ (Frame.header f).sender := fun m hm => by
      rw [hmembers] at hm
      obtain ⟨e, he, rfl⟩ := List.mem_map.mp hm
      exact habsent e he
    rw [State.headerMember_ignores hne (.inr hl)]
    exact ⟨hport, hsend, hmembers⟩

/-- The retained notices that a RESEND marks, for a count of its header's (R84). -/
theorem State.Adopted.marks {leaving : Bool} (hv : s.Adopted v h leaving) (r : ResendRange)
    (hsend : v.send = s.releasedAtHorizon h.count) : ((v.suppress r).markReplays r).send = { s.releasedAtHorizon h.count with
      retained := (s.releasedAtHorizon h.count).retained.map fun (m : SendNotice) =>
        if ResendRange.holds r m.lineNo = true ∧ atOrBefore m.lineNo h.count = true then { m with marked := true } else m } := by
  obtain ⟨⟨⟨hcount, -⟩, -⟩, -⟩ := hv
  have hretained : ((v.suppress r).markReplays r).send.retained = v.send.retained.map fun (m : SendNotice) =>
      if ResendRange.holds r m.lineNo = true ∧ atOrBefore m.lineNo h.count = true then { m with marked := true } else m :=
    List.map_congr_left fun m _ => if_congr (by simp [hcount]) rfl rfl
  rw [← hsend, ← hretained]
  rfl

/-- A beacon other than LEAVE is taken at a station that has just adopted (R154). -/
theorem State.frameTaken_beacon (hst : v.stn.state = .joining) (hk : kind ≠ .leave) :
    State.frameTaken (.beacon h kind view word) v = (v.takeWord h.sender word).takeView h kind view :=
  if_neg (by simp [hst, hk])

end

/-- Settles O37: adoption (`AdoptedJoining_adopt`), the header (`State.Adopted`), and what the frame's kind does then. -/
theorem adoptionSetsTheCount : Obligations.AdoptionSetsTheCount := by
  intro s hs hst hoff hp adopted greeted absent unknown entry asked joins
  have hjoins {t : State} {n : LineNo} (h : s.Joins t n) : joins t.settleAttn n := ⟨AttnFollows_settleAttn _, h⟩
  refine ⟨fun w n hw hr hobjected hclean => ?window, fun chars f ha => ⟨?notice, fun hf => ha.adopts_first hst hoff hp hf, ?replay,
    ?resend, ?unnamed, ?named⟩⟩
  case window =>
    have hn : (if w.objected = true then w.header.count else w.number) = n := by
      cases ho : w.objected with
      | true => exact (hobjected ho).symm
      | false => exact (hclean ho).1.symm
    have hcount : n = w.header.count ∨ n = w.header.count + 1 := by
      cases ho : w.objected with
      | true => exact .inl (hobjected ho)
      | false => exact .inr (hclean ho).2
    let a := s.closeWindow.adopt n
    obtain ⟨hjoining, hline⟩ : AdoptedJoining s a n ∧ a.line = s.closeWindow.line.standBack :=
      AdoptedJoining_adopt (l := s.closeWindow.line) (timer := s.stn.listenTimer) hst hoff hp rfl rfl n
    have hquiet : a.headerProcess w.header false = (a.headerMember w.header false, true) := by
      obtain ⟨⟨hset, -⟩, -⟩ := id hjoining
      exact State.headerProcess_adopted (by rw [hset]; exact hcount)
    have hexec : exec .windowEndReceiver s = .next (a.headerMember w.header false).settleAttn := by
      unfold exec
      refine (event_live hs.1).trans ?_
      rw [hw]
      simp only [hr, State.adoptAtWindow, hn]
      rw [hquiet]
    refine ⟨_, hexec, hjoins (hjoining.joins.header w.header false), ⟨a, hjoining, ?_, rfl⟩, fun hunknown => ?_⟩
    · exact hline.trans (LineBlock.standBack_eq_yielded _)
    · obtain ⟨hport, hsend, before, after, hmembers, -⟩ := hjoining.meets hunknown.1 hunknown.2
      exact ⟨hport, hsend, mem_of_split hmembers⟩
  case notice =>
    rintro h b rfl
    exact (ha.exec_listen hst).trans (congrArg _ (State.settleAttn_eq_self (by exact hs.2)))
  case replay =>
    rintro h b rfl
    obtain ⟨v, hv, hexec⟩ := ha.adopts hst hoff hp (by simp)
    obtain ⟨-, -, hread, -⟩ := ha
    have hdone : State.frameTaken (.replay h b) v = v.countDuplicate := by
      obtain ⟨⟨-, hsettled, -⟩, -⟩ := hv.joins
      exact State.classifyReplay_settled (by rw [hsettled]; exact replay_settled hread)
    rw [hdone] at hexec
    refine ⟨_, hexec, hjoins hv.joins.duplicate, by rw [← hv.counters]; rfl, fun hunknown => ?_⟩
    obtain ⟨hport, hsend, before, after, hmembers, -⟩ := hv.met rfl hunknown.1 hunknown.2
    exact ⟨hport, hsend, mem_of_split hmembers⟩
  case resend =>
    rintro h r rfl
    obtain ⟨v, hv, hexec⟩ := ha.adopts hst hoff hp (by simp)
    refine ⟨_, hexec, hjoins (hv.joins.asked r), hv.counters, fun hunknown => ?_⟩
    obtain ⟨hport, hsend, before, after, hmembers, -⟩ := hv.met rfl hunknown.1 hunknown.2
    have hasked : ResendRange.holds r = asked r := by cases r <;> rfl
    exact ⟨hport, mem_of_split hmembers, hasked ▸ hv.marks r hsend⟩
  case unnamed =>
    rintro h kind view word rfl hquiet
    obtain ⟨v, hv, hexec⟩ := ha.adopts hst hoff hp (by simp)
    have hv : s.Adopted v h (kind == .leave) := hv
    by_cases hk : kind = .leave
    · have hdone : State.frameTaken (.beacon h kind view word) v = v := if_pos (by rw [hk]; rfl)
      rw [hdone] at hexec
      exact ⟨_, hexec, hjoins hv.joins, hv.counters, fun _ habsent => hv.left (by simp [hk]) habsent,
        fun hno => absurd hk hno⟩
    · have hn : ¬view.getLsbD v.line.id.toNat = true := by
        rw [hv.id]
        exact Bool.eq_false_iff.mp (hquiet.resolve_left hk)
      obtain ⟨-, hjoining, -⟩ := id hv.joins
      rw [State.frameTaken_beacon hjoining hk] at hexec
      refine ⟨_, hexec, hjoins ((hv.joins.takesWord h.sender word).takesView h kind (by simpa using hn)), ?_,
        fun hno => absurd hno hk, fun _ hunknown => ?_⟩
      · exact (State.takeView_counters _ h kind view).trans (by simpa using hv.counters)
      · obtain ⟨hport, hsend, before, after, hmembers, hothers⟩ := hv.met (by simp [hk]) hunknown.1 hunknown.2
        rw [State.met_unnamed hmembers hothers hk hn]
        exact ⟨State.told_met_port (s := s) (before := before) (after := after) hport false, hsend, mem_of_split rfl⟩
  case named =>
    rintro h kind view word rfl hk hnamed
    obtain ⟨v, hv, hexec⟩ := ha.adopts hst hoff hp (by simp)
    have hv : s.Adopted v h (kind == .leave) := hv
    have hn : view.getLsbD v.line.id.toNat = true := by
      rw [hv.id]
      exact hnamed
    obtain ⟨-, hjoining, -⟩ := id hv.joins
    rw [State.frameTaken_beacon hjoining hk] at hexec
    obtain ⟨hat, hactive, htimer, hcounters⟩ := (hv.joins.takesWord h.sender word).included h kind (by simpa using hn)
    refine ⟨_, hexec, AttnFollows_settleAttn _, hat, hactive, htimer, ?_, fun hunknown => ?_⟩
    · exact hcounters.trans (by simpa using hv.counters)
    · obtain ⟨hport, hsend, before, after, hmembers, hothers⟩ := hv.met (by simp [hk]) hunknown.1 hunknown.2
      obtain ⟨hreported, -⟩ := State.include_leaves (s := v.told h.sender word before after (s.metMember h none false) true)
        hjoining hv.timing
      rw [State.met_named hmembers hothers hjoining hn]
      refine ⟨?_, ?_, hreported.trans (State.postReport_port_congr (State.told_met_port hport _) _)⟩
      · rw [State.settleAttn_send, (State.include_frame _).2.2.1]
        exact hsend
      · rw [State.settleAttn_members, (State.include_frame _).2.2.2.2.2.2.1]
        exact mem_of_split rfl

end Sys2Proof.Machine
end
